-- ==== Sys2Proof/Word.lean ====
section
/-! DEFINITION. Word.lean: the word and byte types of the T24's line, tables and serial memory. -/

namespace Sys2Proof

/-- A 16-bit word of a table, of a frame's check sum or of the serial memory (R19, R170, R182). -/
abbrev Word := BitVec 16

/-- A byte of a frame or of the serial memory (R19, R182). -/
abbrev Byte := BitVec 8

end Sys2Proof
end

