-- ==== Sys2Proof/Frame.lean ====
section
/-! DEFINITION. Frame.lean: the frame kinds of the tunnel line with their fields (2.5, R179), and the small
vocabulary of the commands' operands. Fields that no structure test names stay bytes, "taken as they come" (R26). -/

namespace Sys2Proof

/-- The two line ports (R18). -/
inductive Port where
  | a
  | b
  deriving DecidableEq, Repr

/-- The port other than the given one (2.6). -/
def Port.opposite : Port → Port
  | .a => .b
  | .b => .a

/-- The side tag of a COUNT frame (R31). -/
inductive Side where
  | a
  | b
  deriving DecidableEq, Repr

/-- The four measured kinds (R1); an UNUSED channel has none. -/
inductive Kind where
  | co
  | no2
  | opac
  | vel
  deriving DecidableEq, Repr

/-- The class of an event source (R138). -/
inductive EventClass where
  | advisory
  | alarm
  | life
  deriving DecidableEq, Repr

/-- The transition an EVENT frame reports (R147). -/
inductive Transition where
  | occurred
  | cleared
  | launched
  | ended
  | dropped
  deriving DecidableEq, Repr

/-- The mode of a TRIGGER frame and the spread mode of a plan step (R36, R150). -/
inductive TriggerMode where
  | set
  | clear
  deriving DecidableEq, Repr

/-- One item of a SAMPLE frame (R14): the kind is structure-tested (R26), the other fields come as they are. -/
structure SampleItem where
  channel : Byte
  kind : Kind
  flags : Byte
  value : Word
  deriving DecidableEq, Repr

/-- The fields of a SAMPLE frame. -/
structure SampleFields where
  origin : Byte
  reach : Byte
  items : List SampleItem
  deriving DecidableEq, Repr

/-- The fields of an EVENT frame (R147, R179). -/
structure EventFields where
  origin : Byte
  transition : Transition
  code : Word
  count : Byte
  cls : EventClass
  level : Byte
  step : Byte
  clock : BitVec 32
  flag : Byte
  deriving DecidableEq, Repr

/-- The fields of a TRIGGER frame (R36, R179). -/
structure TriggerFields where
  origin : Byte
  mode : TriggerMode
  code : Word
  first : Byte
  last : Byte
  deriving DecidableEq, Repr

/-- The fields of a management request that the responder takes (R168): a MGMT_REQ less its distance and op.
`data` holds the n data words. -/
structure Request where
  tag : Word
  table : Byte
  index : Word
  count : Byte
  data : List Word
  deriving DecidableEq, Repr

/-- The fields of a MGMT_REQ frame on the line. -/
structure RequestFields where
  distance : Byte
  op : Byte
  req : Request
  deriving DecidableEq, Repr

/-- The fields of a MGMT_REPLY frame (R168, R179). -/
structure ReplyFields where
  origin : Byte
  op : Byte
  tag : Word
  status : Byte
  table : Byte
  index : Word
  count : Byte
  data : List Word
  deriving DecidableEq, Repr

/-- A frame of the line: the eight kinds of 2.5. The check word is not held (R38); it is formed at transmission. -/
inductive Frame where
  | fill
  | count (side : Side) (k : Byte)
  | sample (f : SampleFields)
  | event (f : EventFields)
  | trigger (f : TriggerFields)
  | mgmtReq (f : RequestFields)
  | mgmtReply (f : ReplyFields)
  | time (clock : BitVec 32)
  deriving DecidableEq, Repr

/-- A sensor channel, 0–3 (chapter 1). -/
abbrev ChannelId := Fin 4

/-- A fan channel: 0 JET1, 1 JET2, 2 PASSAGE (R99). -/
abbrev FanId := Fin 3

/-- A door channel: 0 DOOR1, 1 DOOR2 (R119). -/
abbrev DoorId := Fin 2

/-- The polarity of an accepted tach edge (R102). -/
inductive Edge where
  | rising
  | falling
  deriving DecidableEq, Repr

/-- The three inputs of a door channel (7.2). -/
inductive DoorInput where
  | closed
  | lockEngaged
  | pushBar
  deriving DecidableEq, Repr

/-- What an access to the external serial memory yields: the memory behaves (`asStored`), or it does not and the
given words stand in its answer's place (`instead`): a missing, silent or failing memory (R183, R184). -/
inductive SerialAnswer where
  | asStored
  | instead (ws : List Word)
  deriving DecidableEq, Repr

end Sys2Proof
end

