-- ==== Sys2Proof/Syntax.lean ====
section
/-! DEFINITION. Syntax.lean: the commands of the T24, one constructor per row of spec/opcode_table.json, in the
table's order, each with the row's operands. A frame's arrival and a management request carry their arrival port. -/

namespace Sys2Proof

/-- The commands of the block: resets, frame arrivals, management requests, timer and pin events. -/
inductive Instr where
  /-- POWER_ON_RESET (R181). -/
  | powerOnReset
  /-- PIN_RESET (R181). -/
  | pinReset
  /-- BAD_FRAME on a port (R20). -/
  | badFrame (p : Port)
  /-- FILL (R27). -/
  | fill (p : Port)
  /-- COUNT with its side tag and counter (R31). -/
  | count (p : Port) (side : Side) (k : Byte)
  /-- SAMPLE (R28). -/
  | sample (p : Port) (f : SampleFields)
  /-- EVENT (R29). -/
  | event (p : Port) (f : EventFields)
  /-- TRIGGER (R36, R37). -/
  | trigger (p : Port) (f : TriggerFields)
  /-- MGMT_REPLY (R29). -/
  | mgmtReply (p : Port) (f : ReplyFields)
  /-- MGMT_REQ at a distance above 0 (R30). -/
  | mgmtReqRelay (p : Port) (f : RequestFields)
  /-- TIME (R35). -/
  | time (p : Port) (clock : BitVec 32)
  /-- A good frame of unknown kind or failing its structure test (R26). -/
  | unknownFrame (p : Port)
  /-- READ (R171). -/
  | read (p : Port) (r : Request)
  /-- WRITE (R172). -/
  | write (p : Port) (r : Request)
  /-- TAP_LOAD (R67). -/
  | tapLoad (p : Port) (r : Request)
  /-- FLUSH_TAP (R69). -/
  | flushTap (p : Port) (r : Request)
  /-- FLUSH_PLANS (R175). -/
  | flushPlans (p : Port) (r : Request)
  /-- ACK (R146). -/
  | ack (p : Port) (r : Request)
  /-- CLEAR_PLAN (R164). -/
  | clearPlan (p : Port) (r : Request)
  /-- SET_MASK (R156). -/
  | setMask (p : Port) (r : Request)
  /-- FAN_RESET (R112). -/
  | fanReset (p : Port) (r : Request)
  /-- DOOR_RESET (R131). -/
  | doorReset (p : Port) (r : Request)
  /-- OPEN (R176). -/
  | openNode (p : Port) (r : Request)
  /-- STORE (R177). -/
  | store (p : Port) (r : Request)
  /-- RESTART (R177). -/
  | restart (p : Port) (r : Request)
  /-- LINK_TIMER_EXPIRY (R21). -/
  | linkTimerExpiry (p : Port)
  /-- FILL_TIMER_EXPIRY (R24). -/
  | fillTimerExpiry (p : Port)
  /-- TRANSMISSION_COMPLETION (R18). -/
  | transmissionCompletion (p : Port)
  /-- CONVERSION_COMPLETION with its 12-bit converter code (R3). -/
  | conversionCompletion (ch : ChannelId) (code : BitVec 12)
  /-- REPORT_TIMER_EXPIRY (R13). -/
  | reportTimerExpiry
  /-- TAP_AGEING_EXPIRY (R59). -/
  | tapAgeingExpiry
  /-- CONTROL_TIMER_EXPIRY (R75). -/
  | controlTimerExpiry
  /-- KIND_HOLD_EXPIRY (R82). -/
  | kindHoldExpiry (k : Kind)
  /-- TACH_EDGE: an accepted edge of the given polarity (R102). -/
  | tachEdge (f : FanId) (e : Edge)
  /-- TACH_OVERFLOW (R102). -/
  | tachOverflow (f : FanId)
  /-- PERIOD_START (R101). -/
  | periodStart (f : FanId)
  /-- START_TIMER_EXPIRY (R108). -/
  | startTimerExpiry (f : FanId)
  /-- STALL_TIMER_EXPIRY (R109). -/
  | stallTimerExpiry (f : FanId)
  /-- DWELL_TIMER_EXPIRY (R110). -/
  | dwellTimerExpiry (f : FanId)
  /-- ISOLATOR_INPUT_CHANGE to the given raw level (R100). -/
  | isolatorInputChange (f : FanId) (isOpen : Bool)
  /-- ISOLATOR_ACCEPTED: the 20 ms interval ends (R113). -/
  | isolatorAccepted (f : FanId)
  /-- DOOR_INPUT_CHANGE to the given raw level (R120). -/
  | doorInputChange (d : DoorId) (i : DoorInput) (active : Bool)
  /-- DOOR_DEBOUNCE_EXPIRY (R120). -/
  | doorDebounceExpiry (d : DoorId) (i : DoorInput)
  /-- EGRESS_TIMER_EXPIRY (R126). -/
  | egressTimerExpiry (d : DoorId)
  /-- HOLD_TIMER_EXPIRY (R127). -/
  | holdTimerExpiry (d : DoorId)
  /-- RELOCK_TIMER_EXPIRY (R129). -/
  | relockTimerExpiry (d : DoorId)
  /-- FEEDBACK_TIMER_EXPIRY (R130). -/
  | feedbackTimerExpiry (d : DoorId)
  /-- LAMP_COMPARE_MATCH (R133). -/
  | lampCompareMatch (d : DoorId)
  /-- CALL_POINT_INPUT_CHANGE to the given raw level (R137). -/
  | callPointInputChange (active : Bool)
  /-- CALL_POINT_ACCEPTED: the 20 ms debounce ends (R137). -/
  | callPointAccepted
  /-- LAUNCH_HOLD_EXPIRY (R155). -/
  | launchHoldExpiry
  /-- STEP_TIMER_EXPIRY (R160). -/
  | stepTimerExpiry
  /-- IMAGE_HEADER_READ (R183). -/
  | imageHeaderRead (r : SerialAnswer)
  /-- IMAGE_GROUP_READ of the next group of the load (R183). -/
  | imageGroupRead (r : SerialAnswer)
  /-- STORE_WRITE_COMPLETE (R184). -/
  | storeWriteComplete (r : SerialAnswer)
  /-- STORE_VERIFY_COMPLETE (R184). -/
  | storeVerifyComplete (r : SerialAnswer)
  /-- A request at distance 0 whose op names none of the thirteen operations (R169). -/
  | badOpRequest (p : Port) (op : Byte) (r : Request)
  deriving DecidableEq, Repr

end Sys2Proof
end

