-- ==== Sys2Proof/WellFormed.lean ====
section
/-! DEFINITION. WellFormed.lean: the checks a command's operands pass before it is that row's command: the structure
tests of R26 that the operand types do not already make, the distance of R30 and the op of R169. -/

namespace Sys2Proof

/-- The structure test of a SAMPLE frame: 1 to 4 items (R26). -/
def SampleFields.wf (f : SampleFields) : Bool := 1 ≤ f.items.length && f.items.length ≤ 4

/-- The structure test of a MGMT_REQ: at most 16 data words (R26). -/
def Request.wf (r : Request) : Bool := r.data.length ≤ 16

/-- The structure test of a MGMT_REPLY: at most 16 data words (R26). -/
def ReplyFields.wf (f : ReplyFields) : Bool := f.data.length ≤ 16

/-- The structure tests of a frame that its fields' types do not make (R26). -/
def Frame.wf : Frame → Bool
  | .sample f => f.wf
  | .mgmtReq f => f.req.wf
  | .mgmtReply f => f.wf
  | .fill => true
  | .count _ _ => true
  | .event _ => true
  | .trigger _ => true
  | .time _ => true

/-- A command is well formed when its operands are those of its row. -/
def Instr.wf : Instr → Bool
  | .sample _ f => f.wf
  | .mgmtReply _ f => f.wf
  | .mgmtReqRelay _ f => f.req.wf && f.distance != 0
  | .badOpRequest _ op r => r.wf && !(1 ≤ op.toNat && op.toNat ≤ 13)
  | .read _ r | .write _ r | .tapLoad _ r | .flushTap _ r | .flushPlans _ r | .ack _ r | .clearPlan _ r
  | .setMask _ r | .fanReset _ r | .doorReset _ r | .openNode _ r | .store _ r | .restart _ r => r.wf
  | .powerOnReset | .pinReset | .badFrame _ | .fill _ | .count _ _ _ | .event _ _ | .trigger _ _ | .time _ _
  | .unknownFrame _ | .linkTimerExpiry _ | .fillTimerExpiry _ | .transmissionCompletion _
  | .conversionCompletion _ _ | .reportTimerExpiry | .tapAgeingExpiry | .controlTimerExpiry | .kindHoldExpiry _
  | .tachEdge _ _ | .tachOverflow _ | .periodStart _ | .startTimerExpiry _ | .stallTimerExpiry _
  | .dwellTimerExpiry _ | .isolatorInputChange _ _ | .isolatorAccepted _ | .doorInputChange _ _ _
  | .doorDebounceExpiry _ _ | .egressTimerExpiry _ | .holdTimerExpiry _ | .relockTimerExpiry _
  | .feedbackTimerExpiry _ | .lampCompareMatch _ | .callPointInputChange _ | .callPointAccepted
  | .launchHoldExpiry | .stepTimerExpiry | .imageHeaderRead _ | .imageGroupRead _ | .storeWriteComplete _
  | .storeVerifyComplete _ => true

end Sys2Proof
end

