-- ==== Sys2Proof/Decode.lean ====
section
/-! DEFINITION. Decode.lean: the command a word of opcode-table bits spells. No row of spec/opcode_table.json gives
bits (every "fields" list is empty), so no word spells a command. The bytes of a received frame are read in
Machine/Wire.lean. -/

namespace Sys2Proof

/-- The command that a word spells by the table's bits: none, since the table gives no row bits. -/
def decodeTableWord (_nbits _w : Nat) : Option Instr := none

end Sys2Proof
end

