-- ==== Sys2Proof/Config.lean ====
section
/-! DEFINITION. Config.lean: the free values: what the spec leaves without a value. Each is opaque, so no statement
can rest on one; State.freeCount is the plain counter they are applied to. -/

namespace Sys2Proof.Config

/-- The quotient `rated period × 1000 / p` of R103 when p is 0: the spec states no result (log entry 6). The cap of
2000 pm still applies to it. -/
opaque speedAtPeriodZero : Nat → Nat

/-- The words left in a place of the serial memory whose write a reset cut short (R186): the spec says only that
the record fails its check (log entry 7). Arguments: the free counter, the word's offset in the place. -/
opaque partialWord : Nat → Nat → Word

end Sys2Proof.Config
end

