-- ==== Sys2Proof/Machine/State.lean ====
section
/-! DEFINITION. Machine/State.lean: the whole state of the T24 as plain data, block by block in the spec's order, with
the reset values of R1, R2, R13, R23, R34, R54, R74, R97, R117, R134, R138 to R140, R150, R166, R173, R181, R183. A
configuration field's default (its value after every reset) is the default value of its structure field. -/

namespace Sys2Proof.Machine

/-- How a step can fault: in no way. The spec gives every row an effect in every state, so there is no constructor
(INVENTORY.md, Faults). -/
inductive Fault where
  deriving DecidableEq, Repr

/-- How a step can be refused. -/
inductive Refusal where
  /-- An arm of exec with no meaning yet answers it; safe (the run stops). No arm of this model does. -/
  | notModelled (mnemonic : String)
  deriving DecidableEq, Repr

/-! ### Time -/

/-- A recorded node clock time with the SET flag read with it (R34). -/
structure Stamp where
  value : BitVec 32
  set : Bool
  deriving DecidableEq, Repr

/-- A timer: stopped, or running until the given core clock time in µs. -/
abbrev Timer := Option Nat

/-! ### Node -/

/-- The node states (R181). -/
inductive NodeState where
  | starting
  | lockout
  | operating
  deriving DecidableEq, Repr

/-- The reset causes (R180). -/
inductive ResetCause where
  | powerOn
  | pin
  | restart
  deriving DecidableEq, Repr

/-- FORWARD pushes air toward portal B, REVERSE toward portal A (Conventions). -/
inductive Direction where
  | forward
  | reverse
  deriving DecidableEq, Repr

/-- The learn mask: one flag for each kind (R60). -/
structure LearnMask where
  co : Bool := true
  no2 : Bool := true
  opac : Bool := true
  vel : Bool := true
  deriving DecidableEq, Repr

/-- The NODE table's one entry (R180), with the defaults of the fields' own rules. -/
structure NodeCfg where
  /-- s, 1–60 (R13) -/
  reportPeriod : Nat := 2
  /-- 0–15 (R13) -/
  sampleReach : Nat := 4
  /-- ms, 100–5000 (R22) -/
  linkTimeout : Nat := 500
  /-- ms, 20–1000 (R24) -/
  fillPeriod : Nat := 100
  /-- ms, 100–5000 (R48) -/
  sampleAgeLimit : Nat := 1000
  /-- 0–7 (R60) -/
  tapLock : Nat := 0
  tapProtect : Bool := true
  /-- 0–15 (R60) -/
  learnWindow : Nat := 4
  learnMask : LearnMask := {}
  /-- s, 1–10 (R75) -/
  controlPeriod : Nat := 1
  /-- s, 1–255 (R79) -/
  staleLimit : Nat := 10
  /-- pm per control period, 0–1000 (R88) -/
  rUp : Nat := 50
  rDn : Nat := 100
  /-- 0–255 (R90) -/
  kp : Nat := 48
  autoDirection : Direction := .forward
  /-- ms, 0–5000 (R155) -/
  launchHold : Nat := 500
  planProtect : Bool := true
  deriving DecidableEq, Repr

/-- The raw levels of a door channel's three inputs (7.2). -/
structure DoorPins where
  closed : Bool := true
  lockEngaged : Bool := false
  pushBar : Bool := false
  deriving DecidableEq, Repr

/-- The raw levels of the input pins (R100, R120, R137). Their values before any change are log entry 4's. -/
structure Pins where
  isolatorOpen : Vector Bool 3 := Vector.replicate 3 false
  door : Vector DoorPins 2 := Vector.replicate 2 {}
  callPoint : Bool := false
  deriving DecidableEq, Repr

/-! ### Sensor channels (chapter 1) -/

/-- A channel record (R1); kind `none` is UNUSED. -/
structure ChannelCfg where
  kind : Option Kind := none
  lo : Int := 0
  hi : Int := 0
  window : Nat := 2
  deriving DecidableEq, Repr

/-- The result of a channel's newest conversion (R2). -/
inductive ConvOutcome where
  | none
  | good
  | clamped
  | low
  | high
  deriving DecidableEq, Repr

/-- A sensor channel: record and live state (R2). The ring stands newest first; `fill` is its length. -/
structure Channel where
  cfg : ChannelCfg := {}
  ring : List Int := []
  last : ConvOutcome := .none
  fault : Bool := false
  goodRun : Nat := 0
  /-- the 250 ms conversion interval (R3, R16) -/
  convTimer : Timer := some 250000
  deriving DecidableEq, Repr

/-! ### Line ports, queues and arbiters (chapters 2 and 3) -/

/-- The supervision states of a port (2.3). -/
inductive PortState where
  | down
  | probing
  | up
  deriving DecidableEq, Repr

/-- The four outgoing queues (R38). -/
inductive QueueId where
  | rh
  | lh
  | rl
  | ll
  deriving DecidableEq, Repr

/-- The members of the high ring (3.6). -/
inductive HighMember where
  | rh
  | lh
  | lowGroup
  deriving DecidableEq, Repr

/-- The members of the low ring (3.6). -/
inductive LowMember where
  | rl
  | ll
  deriving DecidableEq, Repr

/-- A frame in a queue with its entry time in µs of the core clock (R38). -/
structure Queued where
  frame : Frame
  entry : Nat
  deriving DecidableEq, Repr

/-- A line port: supervision (R21), transmitter (R18), queues oldest first (R38) and arbiter pointers (3.6).
The defaults are the values after a power-on or pin reset (R23, R24, R54). -/
structure LinePort where
  state : PortState := .down
  probe : Nat := 0
  linkTimer : Timer := none
  fillTimer : Timer := some 100000
  /-- the frame in transmission, or none while the transmitter is idle -/
  tx : Option Frame := none
  rh : List Queued := []
  lh : List Queued := []
  rl : List Queued := []
  ll : List Queued := []
  high : HighMember := .rh
  low : LowMember := .rl
  deriving DecidableEq, Repr

/-- The two line ports. -/
structure Ports where
  a : LinePort := {}
  b : LinePort := {}
  deriving DecidableEq, Repr

/-! ### Tap cache (chapter 4) -/

/-- A valid entry of the tap cache (R58). -/
structure TapEntry where
  lockedLoad : Bool
  origin : Nat
  channel : Nat
  kind : Kind
  value : Int
  clamped : Bool
  fault : Bool
  age : Nat
  loadKind : Kind
  loadValue : Int
  deriving DecidableEq, Repr

/-- The cache's 128 places, place 4 × set + way; `none` is an invalid entry (R57, R58). -/
abbrev TapCache := Vector (Option TapEntry) 128

/-! ### Ventilation demand (chapter 5) -/

/-- A term's source (R77). -/
inductive TermSource where
  | loc
  | tap
  deriving DecidableEq, Repr

/-- A term of a kind's term list (R77). -/
structure Term where
  source : TermSource := .loc
  offset : Int := 0
  channel : Fin 4 := 0
  weight : Nat := 0
  deriving DecidableEq, Repr

/-- A kind record (R80). -/
structure KindCfg where
  quorum : Nat := 1
  hold : Nat := 30
  tLo : Int := 0
  tHi : Int := 0
  alarm : Int := 0
  clear : Int := 0
  failed : Nat := 1000
  deriving DecidableEq, Repr

/-- A kind's status (R81). -/
inductive KindStatus where
  | unused
  | ok
  | degraded
  | failed
  deriving DecidableEq, Repr

/-- A kind: record and live state (R80). -/
structure KindUnit where
  cfg : KindCfg := {}
  status : KindStatus := .unused
  level : Option Int := none
  weight : Nat := 0
  holdTimer : Timer := none
  alarm : Bool := false
  d : Nat := 0
  deriving DecidableEq, Repr

/-- The four kinds with the default records of R80. -/
structure Kinds where
  co : KindUnit := { cfg := { tLo := 300, tHi := 700, alarm := 1000, clear := 800 } }
  no2 : KindUnit := { cfg := { tLo := 40, tHi := 100, alarm := 300, clear := 250 } }
  opac : KindUnit := { cfg := { tLo := 30, tHi := 90, alarm := 120, clear := 100 } }
  vel : KindUnit := {}
  deriving DecidableEq, Repr

/-! ### Fan channels (chapter 6) -/

/-- A fan command: magnitude in pm and direction; magnitude 0 carries no direction (R89, R105). -/
structure Cmd where
  mag : Nat := 0
  dir : Option Direction := none
  deriving DecidableEq, Repr

/-- A fan channel record (R99). -/
structure FanCfg where
  stageOffset : Nat := 0
  startLevel : Nat := 200
  stopLevel : Nat := 120
  passageSpeed : Nat := 1000
  tp : Nat := 1000
  dMin : Nat := 100
  dMax : Nat := 900
  ratedPeriod : Nat := 10000
  startTime : Nat := 20
  confirmSpeed : Nat := 100
  stallRatio : Nat := 50
  stallTime : Nat := 10
  coastDwell : Nat := 60
  stillThreshold : Nat := 50
  deriving DecidableEq, Repr

/-- The states of a fan channel (R104); `stopping none` is STOPPING(NONE). -/
inductive FanState where
  | stopped
  | starting (d : Direction)
  | running (d : Direction)
  | stopping (d : Option Direction)
  | fault
  | disabled
  deriving DecidableEq, Repr

/-- A fan channel: record and live state (R101, R102, R104, R117). -/
structure Fan where
  cfg : FanCfg := {}
  state : FanState := .stopping none
  lastDir : Option Direction := none
  /-- the demand unit's last command record (R89) is this same command (R105) -/
  handed : Cmd := {}
  /-- the duty handed with it (R104) -/
  handedDuty : Nat := 0
  request : Cmd := {}
  /-- the duty that came with the request (R104, R107) -/
  heldDuty : Nat := 0
  duty : Nat := 0
  pendingDuty : Nat := 0
  tp : Nat := 1000
  pendingTp : Nat := 1000
  /-- the period counter of the PWM timer (R101) -/
  pwmCount : Nat := 0
  /-- the capture timer: the 1 s since the newest accepted edge (R102); stopped before the first one (log entry 28) -/
  captureTimer : Timer := none
  lastRise : Option Nat := none
  lastFall : Option Nat := none
  pNew : Option Nat := none
  pPrev : Option Nat := none
  speed : Nat := 0
  startTimer : Timer := none
  stallTimer : Timer := none
  dwellTimer : Timer := none
  /-- the accepted isolator state: open (R100) -/
  isoOpen : Bool := false
  isoTimer : Timer := none
  deriving DecidableEq, Repr

/-! ### Escape doors (chapter 7) -/

/-- A door record (R119). -/
structure DoorCfg where
  debounce : Nat := 20
  egressTime : Nat := 10
  holdLimit : Nat := 120
  relockDelay : Nat := 3
  feedbackTime : Nat := 2
  flashHalf : Nat := 500
  deriving DecidableEq, Repr

/-- Why a closed door is released (R123). -/
inductive ReleaseCause where
  | policy
  | egress
  deriving DecidableEq, Repr

/-- How an open door came open (R127). -/
inductive OpenCause where
  | policy
  | egress
  | forced
  deriving DecidableEq, Repr

/-- The states of a door channel (R121). -/
inductive DoorState where
  | secured
  | released (c : ReleaseCause)
  | opened (c : OpenCause)
  | held
  | relocking
  | fault
  deriving DecidableEq, Repr

/-- A door policy (R122). -/
inductive Policy where
  | normal
  | release
  | holdOpen
  deriving DecidableEq, Repr

/-- One debounced door input (R120): accepted level, candidate time and interval while it debounces, last edge. -/
structure DebouncedInput where
  level : Bool := false
  candidate : Option Stamp := none
  timer : Timer := none
  lastEdge : Option Stamp := none
  deriving DecidableEq, Repr

/-- A door channel: record and live state (R121). LOCK_DRIVE and OPERATOR_DRIVE are functions of it
(Machine/Flags.lean). -/
structure Door where
  cfg : DoorCfg := {}
  closed : DebouncedInput := {}
  lockEngaged : DebouncedInput := {}
  pushBar : DebouncedInput := {}
  state : DoorState := .released .policy
  policy : Policy := .normal
  egressTimer : Timer := none
  holdTimer : Timer := none
  relockTimer : Timer := none
  feedbackTimer : Timer := none
  holdExpired : Bool := false
  lamp : Bool := false
  /-- the compare value of the lamp timer while it flashes (R133) -/
  lampTimer : Timer := none
  deriving DecidableEq, Repr

/-! ### Event sources and latch (chapter 8) -/

/-- A source configuration (R138). -/
structure SourceCfg where
  cls : EventClass := .advisory
  level : Nat := 1
  step : Option (Fin 64) := none
  report : Bool := true
  deriving DecidableEq, Repr

/-- A line map entry (R139). -/
structure LineMapEntry where
  code : Word := 0
  cfg : SourceCfg := {}
  deriving DecidableEq, Repr

/-- The serve states (R144). -/
inductive Serve where
  | idle
  | pending
  | served
  | spent
  deriving DecidableEq, Repr

/-- A latch entry (R140). -/
structure LatchEntry where
  asserted : Bool := false
  count : Byte := 0
  unack : Bool := false
  first : Option Stamp := none
  last : Option Stamp := none
  origin : Nat := 0
  serve : Serve := .idle
  deriving DecidableEq, Repr

/-- A latch place: entry n of R140 is place n − 1, device sources first, then the line entries. -/
abbrev EntryId := Fin 51

/-! ### Plans (chapter 9) -/

/-- The end conditions of a step (R150). -/
inductive EndCond where
  | timer
  | sourceClear
  | held
  deriving DecidableEq, Repr

/-- The jet directives' names (R150); FIXED and VELOCITY read their operands from the step. -/
inductive JetKind where
  | auto
  | off
  | fixed
  | velocity
  | holdLast
  deriving DecidableEq, Repr

/-- The passage directives (R150). -/
inductive PassageDir where
  | autoDoor
  | on
  | off
  deriving DecidableEq, Repr

/-- The lamp modes (R133). -/
inductive LampMode where
  | off
  | steady
  | flash
  deriving DecidableEq, Repr

/-- A plan step (R150); next `none` is END. -/
structure PlanStep where
  valid : Bool := false
  isProtected : Bool := false
  next : Option (Fin 64) := none
  duration : Nat := 0
  endCond : EndCond := .timer
  jet : JetKind := .auto
  fixedDir : Direction := .forward
  fixedSpeed : Nat := 0
  vt : Int := 0
  passage : PassageDir := .autoDoor
  door1 : Policy := .normal
  door2 : Policy := .normal
  guardSpan : Nat := 0
  lamp : LampMode := .off
  spreadCode : Word := 0
  spreadSpan : Nat := 0
  spreadMode : TriggerMode := .set
  deriving DecidableEq, Repr

/-- A context's step timer: none, running to a deadline while ACTIVE, or frozen with its remaining ms while saved
(R152, R160). -/
inductive StepTimer where
  | none
  | running (deadline : Nat)
  | frozen (ms : Nat)
  deriving DecidableEq, Repr

/-- A context (R152). -/
structure Context where
  step : Fin 64
  timer : StepTimer
  clearSeen : Bool
  /-- the model's own: the step is a SOURCE_CLEAR step that awaits the clearing, as R161 decides at its entry -/
  waiting : Bool
  source : EntryId
  origin : Nat
  level : Nat
  cls : EventClass
  entry : Stamp
  captured : Option (Cmd × Cmd)
  deriving DecidableEq, Repr

/-! ### Image store (chapter 11) -/

/-- The load's progress (R183): nothing to load, the header being read, or group `g` being read under a header with
the given start-locked flag and group count. -/
inductive LoadState where
  | done
  | header
  | group (g : Fin 15) (startLocked : Bool) (count : Nat)
  deriving DecidableEq, Repr

/-- The part of a copy in progress (R184). -/
inductive CopyPhase where
  | writing
  | verifying
  deriving DecidableEq, Repr

/-- The STORE's progress (R184): the group (place g is group g + 1) or header in hand, its phase and the record that
is written. -/
inductive StoreState where
  | idle
  | group (g : Fin 15) (phase : CopyPhase) (record : List Word)
  | header (phase : CopyPhase) (record : List Word)
  deriving DecidableEq, Repr

/-- The external serial memory: (byte address, byte) pairs in canonical form (Machine/Memory.lean). -/
abbrev Memory := List Host.Cell

/-! ### The machine -/

/-- The state of the node. -/
structure State where
  /-- the commands that wait, first in first out -/
  pending : List Instr := []
  now : Nat := 0
  clock : BitVec 32 := 0
  clockSet : Bool := false
  msPhase : Nat := 0
  nodeState : NodeState := .starting
  resetCause : ResetCause := .powerOn
  posA : Nat := 0
  posB : Nat := 0
  pins : Pins := {}
  node : NodeCfg := {}
  channels : Vector Channel 4 := Vector.replicate 4 {}
  reportTimer : Timer := some 2000000
  ports : Ports := {}
  tap : TapCache := Vector.replicate 128 none
  ageTimer : Timer := some 1000000
  terms : Vector Term 32 := Vector.replicate 32 {}
  kinds : Kinds := {}
  controlTimer : Timer := some 1000000
  demand : Nat := 0
  dLim : Nat := 0
  u : Int := 0
  fans : Vector Fan 3
  doors : Vector Door 2
  lampMode : LampMode := .off
  sources : Vector SourceCfg 35
  lines : Vector LineMapEntry 16 := Vector.replicate 16 {}
  latch : Vector LatchEntry 51 := Vector.replicate 51 {}
  callPoint : Bool := false
  callTimer : Timer := none
  plan : Vector PlanStep 64 := Vector.replicate 64 {}
  /-- the contexts, ACTIVE first, the oldest saved last (R152) -/
  stack : List Context := []
  dropped : Option (Context × Stamp) := none
  mask : Nat := 0
  launchHold : Timer := none
  dirty : Vector Bool 15 := Vector.replicate 15 true
  rewritten : Vector Bool 15 := Vector.replicate 15 false
  storing : StoreState := .idle
  loading : LoadState := .header
  lastFailing : Nat := 0
  serial : Memory := []
  /-- the model's own: the counter that free values are applied to -/
  freeCount : Nat := 0
  /-- the model's own: an acceptance decision is owed within the present event (R154) -/
  decisionDue : Bool := false
  deriving DecidableEq, Repr

/-- The default class and level of the device sources (8.1, R138): place n − 1 is source n. -/
def defaultSource (n : Fin 35) : SourceCfg :=
  if n.val = 24 ∨ n.val = 25 ∨ n.val = 30 then { cls := .life, level := 7 }
  else if 11 ≤ n.val ∧ n.val ≤ 13 then { cls := .alarm, level := 4 }
  else {}

/-- A fan channel's record at its defaults: JET2 has stage offset 500 (R99). -/
def defaultFanCfg (f : FanId) : FanCfg := if f = 1 then { stageOffset := 500 } else {}

/-- The machine right after a power-on reset with the input pins of log entry 4: the first evaluation of R141 has
counted one occurrence of LINK_A_DOWN and of LINK_B_DOWN, and the image header is being read. -/
def State.reset : State where
  fans := Vector.ofFn fun f => { cfg := defaultFanCfg f, dwellTimer := some 60000000 }
  doors := Vector.replicate 2 { closed := { level := true } }
  sources := Vector.ofFn defaultSource
  latch := Vector.ofFn fun n =>
    if n.val < 2 then
      { asserted := true, count := 1, unack := true, first := some ⟨0, false⟩, last := some ⟨0, false⟩ }
    else {}

end Sys2Proof.Machine
end

