-- ==== Sys2Proof/Machine/Operands.lean ====
section
/-! DEFINITION. Machine/Operands.lean: the arithmetic of the Conventions section, the encodings of R179 between field
values and table words or frame bytes, and the clamps of a WRITE with their OK_CLAMPED mark (R172). -/

namespace Sys2Proof.Machine

/-! ### Arithmetic (Conventions) -/

/-- `round`: to the nearest integer, halves toward plus infinity. -/
def roundDiv (n : Int) (d : Nat) : Int := (2 * n + d) / (2 * d)

/-- `clamp` to a range of integers. -/
def clampInt (lo hi x : Int) : Int := if x < lo then lo else if hi < x then hi else x

/-- `clamp` to a range of naturals. -/
def clampNat (lo hi x : Nat) : Nat := if x < lo then lo else if hi < x then hi else x

/-- Round up a duration in µs to whole seconds (R180's remaining times). -/
def ceilSeconds (us : Nat) : Nat := (us + 999999) / 1000000

/-- Round up a duration in µs to whole ms (log entry 16). -/
def ceilMs (us : Nat) : Nat := (us + 999) / 1000

/-! ### Words of field values (R179) -/

/-- A natural as a word. -/
def natW (n : Nat) : Word := BitVec.ofNat 16 n

/-- A signed value as a word, in two's complement. -/
def intW (i : Int) : Word := BitVec.ofInt 16 i

/-- yes/no, on/off, set/clear. -/
def boolW (b : Bool) : Word := if b then 1 else 0

/-- The kind codes; UNUSED is 0. -/
def kindCode : Kind → Nat
  | .co => 1
  | .no2 => 2
  | .opac => 3
  | .vel => 4

/-- The kind a code names, if it names one of the four. -/
def kindOfCode : Nat → Option Kind
  | 1 => some .co
  | 2 => some .no2
  | 3 => some .opac
  | 4 => some .vel
  | _ => none

def optKindCode : Option Kind → Nat
  | none => 0
  | some k => kindCode k

def classCode : EventClass → Nat
  | .advisory => 0
  | .alarm => 1
  | .life => 2

def classOfCode : Nat → Option EventClass
  | 0 => some .advisory
  | 1 => some .alarm
  | 2 => some .life
  | _ => none

def transitionCode : Transition → Nat
  | .occurred => 0
  | .cleared => 1
  | .launched => 2
  | .ended => 3
  | .dropped => 4

def transitionOfCode : Nat → Option Transition
  | 0 => some .occurred
  | 1 => some .cleared
  | 2 => some .launched
  | 3 => some .ended
  | 4 => some .dropped
  | _ => none

def modeCode : TriggerMode → Nat
  | .set => 0
  | .clear => 1

def modeOfCode : Nat → Option TriggerMode
  | 0 => some .set
  | 1 => some .clear
  | _ => none

def sideCode : Side → Nat
  | .a => 0
  | .b => 1

def sideOfCode : Nat → Option Side
  | 0 => some .a
  | 1 => some .b
  | _ => none

/-- A plan step or next field: 255 is NONE or END. -/
def stepCode : Option (Fin 64) → Nat
  | none => 255
  | some i => i.val

def nodeStateCode : NodeState → Nat
  | .starting => 0
  | .lockout => 1
  | .operating => 2

def resetCauseCode : ResetCause → Nat
  | .powerOn => 0
  | .pin => 1
  | .restart => 2

def portStateCode : PortState → Nat
  | .down => 0
  | .probing => 1
  | .up => 2

def convOutcomeCode : ConvOutcome → Nat
  | .none => 0
  | .good => 1
  | .clamped => 2
  | .low => 3
  | .high => 4

def kindStatusCode : KindStatus → Nat
  | .unused => 0
  | .ok => 1
  | .degraded => 2
  | .failed => 3

def directionCode : Direction → Nat
  | .forward => 1
  | .reverse => 2

def optDirectionCode : Option Direction → Nat
  | none => 0
  | some d => directionCode d

def directionOfCode : Nat → Option Direction
  | 1 => some .forward
  | 2 => some .reverse
  | _ => none

def fanStateCode : FanState → Nat
  | .stopped => 0
  | .starting _ => 1
  | .running _ => 2
  | .stopping _ => 3
  | .fault => 4
  | .disabled => 5

/-- The direction a fan state carries, NONE where it carries none. -/
def fanStateDir : FanState → Option Direction
  | .stopped => none
  | .starting d => some d
  | .running d => some d
  | .stopping d => d
  | .fault => none
  | .disabled => none

def doorStateCode : DoorState → Nat
  | .secured => 0
  | .released _ => 1
  | .opened _ => 2
  | .held => 3
  | .relocking => 4
  | .fault => 5

def doorCauseCode : DoorState → Nat
  | .released .policy => 1
  | .released .egress => 2
  | .opened .policy => 1
  | .opened .egress => 2
  | .opened .forced => 3
  | .secured => 0
  | .held => 0
  | .relocking => 0
  | .fault => 0

def policyCode : Policy → Nat
  | .normal => 0
  | .release => 1
  | .holdOpen => 2

def policyOfCode : Nat → Option Policy
  | 0 => some .normal
  | 1 => some .release
  | 2 => some .holdOpen
  | _ => none

def serveCode : Serve → Nat
  | .idle => 0
  | .pending => 1
  | .served => 2
  | .spent => 3

def termSourceCode : TermSource → Nat
  | .loc => 0
  | .tap => 1

def termSourceOfCode : Nat → Option TermSource
  | 0 => some .loc
  | 1 => some .tap
  | _ => none

def endCondCode : EndCond → Nat
  | .timer => 0
  | .sourceClear => 1
  | .held => 2

def endCondOfCode : Nat → Option EndCond
  | 0 => some .timer
  | 1 => some .sourceClear
  | 2 => some .held
  | _ => none

def jetCode : JetKind → Nat
  | .auto => 0
  | .off => 1
  | .fixed => 2
  | .velocity => 3
  | .holdLast => 4

def jetOfCode : Nat → Option JetKind
  | 0 => some .auto
  | 1 => some .off
  | 2 => some .fixed
  | 3 => some .velocity
  | 4 => some .holdLast
  | _ => none

def passageCode : PassageDir → Nat
  | .autoDoor => 0
  | .on => 1
  | .off => 2

def passageOfCode : Nat → Option PassageDir
  | 0 => some .autoDoor
  | 1 => some .on
  | 2 => some .off
  | _ => none

def lampCode : LampMode → Nat
  | .off => 0
  | .steady => 1
  | .flash => 2

def lampOfCode : Nat → Option LampMode
  | 0 => some .off
  | 1 => some .steady
  | 2 => some .flash
  | _ => none

/-- The sample or tap flags: CLAMPED 1 plus FAULT 2. -/
def flagsCode (clamped fault : Bool) : Nat := (if clamped then 1 else 0) + (if fault then 2 else 0)

/-- The CLAMPED bit of an item's flags; other bits are ignored (R61). -/
def flagClamped (b : Byte) : Bool := b.getLsbD 0

/-- The FAULT bit of an item's flags. -/
def flagFault (b : Byte) : Bool := b.getLsbD 1

/-- The learn mask's code: CO 1 plus NO2 2 plus OPAC 4 plus VEL 8. -/
def learnMaskCode (m : LearnMask) : Nat :=
  (if m.co then 1 else 0) + (if m.no2 then 2 else 0) + (if m.opac then 4 else 0) + (if m.vel then 8 else 0)

/-- The learn mask of a word's four low bits. -/
def learnMaskOf (w : Word) : LearnMask :=
  { co := w.getLsbD 0, no2 := w.getLsbD 1, opac := w.getLsbD 2, vel := w.getLsbD 3 }

/-- The time flag: absent 0, UNSET 1, SET 2. -/
def timeFlag (set : Bool) : Nat := if set then 2 else 1

/-- The three words `t` of a time, absent as zeros (R180). -/
def stampWords : Option Stamp → List Word
  | none => [0, 0, 0]
  | some t => [t.value.extractLsb' 16 16, t.value.extractLsb' 0 16, natW (timeFlag t.set)]

/-- A 32-bit natural as two words, most significant first. -/
def natWords (n : Nat) : List Word := [natW (n / 65536), natW n]

/-! ### Clamped fields of a WRITE (R172): the stored value, and whether the clamp changed it -/

/-- An unsigned field of a range. -/
def putNat (lo hi : Nat) (w : Word) : Nat × Bool := (clampNat lo hi w.toNat, clampNat lo hi w.toNat != w.toNat)

/-- A signed field of a range. -/
def putInt (lo hi : Int) (w : Word) : Int × Bool := (clampInt lo hi w.toInt, clampInt lo hi w.toInt != w.toInt)

/-- A signed field that takes every value (R1, R80, R150). -/
def putAnyInt (w : Word) : Int × Bool := (w.toInt, false)

/-- An unsigned field that takes every value (R150's duration). -/
def putAnyNat (w : Word) : Nat × Bool := (w.toNat, false)

/-- A flag word: above 1 stores 1 (R172). -/
def putFlag (w : Word) : Bool × Bool := (w != 0, 1 < w.toNat)

/-- An enumerated field: a value that names no member stores the given default. -/
def putEnum {α : Type} (dflt : α) (o : Option α) : α × Bool :=
  match o with
  | some v => (v, false)
  | none => (dflt, true)

/-- A channel's kind field: a value naming none of the five stores UNUSED (R1). -/
def putKind (w : Word) : Option Kind × Bool := (kindOfCode w.toNat, 4 < w.toNat)

/-- A plan step or next field: neither 0–63 nor 255 stores NONE or END (R138, R150). -/
def putStep (w : Word) : Option (Fin 64) × Bool :=
  if h : w.toNat < 64 then (some ⟨w.toNat, h⟩, false) else (none, w.toNat != 255)

/-- A line or spread code: 1 to 0x07FF stores 0 (R139, R150). -/
def putCode (w : Word) : Word × Bool := if w = 0 ∨ 0x0800 ≤ w.toNat then (w, false) else (0, true)

/-- The learn mask: above 15 stores 15 (R179). -/
def putLearnMask (w : Word) : LearnMask × Bool :=
  if 15 < w.toNat then ({}, true) else (learnMaskOf w, false)

/-- A term's channel: above 3 stores 3 (R77). -/
def putChannel (w : Word) : Fin 4 × Bool :=
  if h : w.toNat < 4 then (⟨w.toNat, h⟩, false) else (3, true)

/-! ### The check word (R19) -/

/-- Addition of 16-bit words with end-around carry. -/
def onesAdd (a b : Word) : Word :=
  if a.toNat + b.toNat < 65536 then a + b else a + b + 1

/-- The ones'-complement sum of a list of words. -/
def onesSum (ws : List Word) : Word := ws.foldl onesAdd 0

/-- The check word of a list of words: each bit of the sum inverted. -/
def checkWord (ws : List Word) : Word := ~~~ (onesSum ws)

/-- A receiver's test: words with their check word sum to the all-ones word. -/
def checkPasses (ws : List Word) (check : Word) : Bool := onesAdd (onesSum ws) check == 0xFFFF

/-- Bytes paired into words, the first of each pair more significant; an odd last byte is paired with zero. -/
def pairBytes : List Byte → List Word
  | [] => []
  | [a] => [a ++ (0 : Byte)]
  | a :: b :: bs => (a ++ b) :: pairBytes bs

end Sys2Proof.Machine
end

