-- ==== Sys2Proof/Machine/Memory.lean ====
section
/-! DEFINITION. Machine/Memory.lean: the external serial memory (R182): 64 kbit, byte addresses 0 to 8191, as a list of
(address, byte) pairs in one canonical form, and its accesses by 16-bit word and by record place. -/

namespace Sys2Proof.Machine

/-- What a byte that nothing has written reads as (log entry 5). -/
def Memory.blank : Byte := 0xFF

/-- The size of the memory in bytes: 64 kbit (chapter 11). -/
def Memory.size : Nat := 8192

/-- The byte at an address. -/
def Memory.get : Memory → Nat → Byte
  | [], _ => Memory.blank
  | (b, v) :: m, a => if a = b then v else Memory.get m a

/-- The list with the byte at an address set: addresses stay rising, and a blank byte is not listed. -/
def Memory.put : Memory → Nat → Byte → Memory
  | [], a, v => if v = Memory.blank then [] else [(a, v)]
  | (b, w) :: m, a, v =>
    if a < b then (if v = Memory.blank then (b, w) :: m else (a, v) :: (b, w) :: m)
    else if a = b then (if v = Memory.blank then m else (a, v) :: m)
    else (b, w) :: Memory.put m a v

/-- Addresses strictly rise from above the given bound, lie in the memory, and no entry is blank. -/
def Memory.wfFrom : Nat → Memory → Bool
  | _, [] => true
  | lo, (a, v) :: m => decide (lo ≤ a) && decide (a < Memory.size) && v != Memory.blank && Memory.wfFrom (a + 1) m

/-- The canonical form. -/
def Memory.wf (m : Memory) : Bool := Memory.wfFrom 0 m

/-- A byte access outside the memory stores nothing. -/
def Memory.putByte (m : Memory) (a : Nat) (v : Byte) : Memory := if a < Memory.size then m.put a v else m

/-- The 16-bit word at word address `a`: bytes 2a and 2a + 1, the more significant first (R182). -/
def Memory.word (m : Memory) (a : Nat) : Word := (m.get (2 * a)) ++ (m.get (2 * a + 1))

/-- The word at word address `a` set. -/
def Memory.putWord (m : Memory) (a : Nat) (w : Word) : Memory :=
  (m.putByte (2 * a) (w.extractLsb' 8 8)).putByte (2 * a + 1) (w.extractLsb' 0 8)

/-- `n` words from word address `a` on. -/
def Memory.words (m : Memory) (a : Nat) : Nat → List Word
  | 0 => []
  | n + 1 => m.word a :: Memory.words m (a + 1) n

/-- Words stored from word address `a` on. -/
def Memory.putWords (m : Memory) (a : Nat) : List Word → Memory
  | [] => m
  | w :: ws => Memory.putWords (m.putWord a w) (a + 1) ws

end Sys2Proof.Machine
end

