-- ==== Sys2Proof/Machine/Ops.lean ====
section
/-! DEFINITION. Machine/Ops.lean: the named reads and writes of State (every register has one home), the sources' places
in the latch (8.1), timers, and the passage of core clock time. -/

namespace Sys2Proof.Machine

/-! ### Ports, kinds, fans, doors -/

/-- The line port of a name. -/
def State.port (s : State) : Port → LinePort
  | .a => s.ports.a
  | .b => s.ports.b

/-- The state with a line port set. -/
def State.setPort (s : State) (p : Port) (P : LinePort) : State :=
  match p with
  | .a => { s with ports := { s.ports with a := P } }
  | .b => { s with ports := { s.ports with b := P } }

/-- A queue of a port. -/
def LinePort.queue (P : LinePort) : QueueId → List Queued
  | .rh => P.rh
  | .lh => P.lh
  | .rl => P.rl
  | .ll => P.ll

/-- A port with a queue set. -/
def LinePort.setQueue (P : LinePort) (q : QueueId) (l : List Queued) : LinePort :=
  match q with
  | .rh => { P with rh := l }
  | .lh => { P with lh := l }
  | .rl => { P with rl := l }
  | .ll => { P with ll := l }

/-- The unit of a kind. -/
def State.kind (s : State) : Kind → KindUnit
  | .co => s.kinds.co
  | .no2 => s.kinds.no2
  | .opac => s.kinds.opac
  | .vel => s.kinds.vel

/-- The state with a kind's unit set. -/
def State.setKind (s : State) (k : Kind) (K : KindUnit) : State :=
  match k with
  | .co => { s with kinds := { s.kinds with co := K } }
  | .no2 => { s with kinds := { s.kinds with no2 := K } }
  | .opac => { s with kinds := { s.kinds with opac := K } }
  | .vel => { s with kinds := { s.kinds with vel := K } }

/-- The state with a sensor channel set. -/
def State.setChannel (s : State) (c : ChannelId) (C : Channel) : State := { s with channels := s.channels.set c C }

/-- The state with a fan channel set. -/
def State.setFan (s : State) (f : FanId) (F : Fan) : State := { s with fans := s.fans.set f F }

/-- The state with a door channel set. -/
def State.setDoor (s : State) (d : DoorId) (D : Door) : State := { s with doors := s.doors.set d D }

/-- The state with a latch entry set. -/
def State.setLatch (s : State) (n : EntryId) (e : LatchEntry) : State := { s with latch := s.latch.set n e }

/-- The state with the context stack set. -/
def State.setStack (s : State) (l : List Context) : State := { s with stack := l }

/-- The state with an acceptance decision owed within the event (R154). -/
def State.oweDecision (s : State) : State := { s with decisionDue := true }

/-- JET1, JET2, PASSAGE. -/
def jet1 : FanId := 0
def jet2 : FanId := 1
def passage : FanId := 2

/-- An input of a door channel. -/
def Door.input (D : Door) : DoorInput → DebouncedInput
  | .closed => D.closed
  | .lockEngaged => D.lockEngaged
  | .pushBar => D.pushBar

/-- A door channel with an input set. -/
def Door.setInput (D : Door) (i : DoorInput) (x : DebouncedInput) : Door :=
  match i with
  | .closed => { D with closed := x }
  | .lockEngaged => { D with lockEngaged := x }
  | .pushBar => { D with pushBar := x }

/-- The raw level of a door input. -/
def DoorPins.level (P : DoorPins) : DoorInput → Bool
  | .closed => P.closed
  | .lockEngaged => P.lockEngaged
  | .pushBar => P.pushBar

/-- Door pins with one raw level set. -/
def DoorPins.setLevel (P : DoorPins) (i : DoorInput) (b : Bool) : DoorPins :=
  match i with
  | .closed => { P with closed := b }
  | .lockEngaged => { P with lockEngaged := b }
  | .pushBar => { P with pushBar := b }

/-! ### Places of the sources in the latch (8.1, R140): source n is place n − 1 -/

def srcLinkDown : Port → EntryId
  | .a => 0
  | .b => 1

def srcLinkError : Port → EntryId
  | .a => 2
  | .b => 3

def srcWiring : EntryId := 4
def srcPosition : EntryId := 5
def srcOverrun : EntryId := 6
def srcLoopFault (c : ChannelId) : EntryId := ⟨7 + c.val, by omega⟩

/-- GAS_ALARM CO, NO2, OPAC; VEL has no alarm source. -/
def srcGasAlarm : Kind → Option EntryId
  | .co => some 11
  | .no2 => some 12
  | .opac => some 13
  | .vel => none

/-- GAS_FAILED CO, NO2, OPAC and VEL_FAILED. -/
def srcKindFailed : Kind → EntryId
  | .co => 14
  | .no2 => 15
  | .opac => 16
  | .vel => 17

def srcFanFault (f : FanId) : EntryId := ⟨18 + f.val, by omega⟩
def srcIsolated (f : FanId) : EntryId := ⟨21 + f.val, by omega⟩
def srcEgress (d : DoorId) : EntryId := ⟨24 + d.val, by omega⟩
def srcHeld (d : DoorId) : EntryId := ⟨26 + d.val, by omega⟩
def srcDoorFault (d : DoorId) : EntryId := ⟨28 + d.val, by omega⟩
def srcCallPoint : EntryId := 30
def srcPlanDropped : EntryId := 31
def srcStoreAbsent : EntryId := 32
def srcStoreCorrupt : EntryId := 33
def srcStoreFailed : EntryId := 34
def srcLine (i : Fin 16) : EntryId := ⟨35 + i.val, by omega⟩

/-- The line map entry of a latch place, if it is a line entry's. -/
def lineOf (n : EntryId) : Option (Fin 16) :=
  if h : 35 ≤ n.val then some ⟨n.val - 35, by omega⟩ else none

/-- Level sources stay asserted while their condition holds; edge sources never are (8.1, R136). -/
def isLevel (n : EntryId) : Bool :=
  let i := n.val
  decide (i ≤ 1) || (decide (7 ≤ i) && decide (i ≤ 23)) || (decide (26 ≤ i) && decide (i ≤ 30)) || decide (35 ≤ i)

/-- The configuration of a latch place's source (R138). -/
def State.sourceCfg (s : State) (n : EntryId) : SourceCfg :=
  if h : n.val < 35 then s.sources[n.val] else (s.lines[n.val - 35]'(by omega)).cfg

/-- The event code of a latch place's source: 32 × n, or the line entry's code (R136). -/
def State.sourceCode (s : State) (n : EntryId) : Word :=
  if h : n.val < 35 then natW (32 * (n.val + 1)) else (s.lines[n.val - 35]'(by omega)).code

/-! ### Timers and time -/

def usOfMs (ms : Nat) : Nat := ms * 1000
def usOfSec (sec : Nat) : Nat := sec * 1000000

/-- A timer started now with an interval in ms. -/
def State.startMs (s : State) (ms : Nat) : Timer := some (s.now + usOfMs ms)

/-- A timer started now with an interval in s. -/
def State.startSec (s : State) (sec : Nat) : Timer := some (s.now + usOfSec sec)

/-- The µs a timer still has to run; 0 when it is stopped. -/
def remaining (now : Nat) : Timer → Nat
  | none => 0
  | some t => t - now

/-- The node clock as it is recorded (R34). -/
def State.stamp (s : State) : Stamp := ⟨s.clock, s.clockSet⟩

/-- The period counter of a channel after `us` µs: it stands at Tp in force until its period start (R101). -/
def Fan.elapse (us : Nat) (F : Fan) : Fan := { F with pwmCount := min (F.pwmCount + us) F.tp }

/-- `us` µs of core clock time pass: the node clock counts its milliseconds (R34), the period counters count (R101). -/
def State.elapse (us : Nat) (s : State) : State :=
  { s with
    now := s.now + us
    clock := s.clock + BitVec.ofNat 32 ((s.msPhase + us) / 1000)
    msPhase := (s.msPhase + us) % 1000
    fans := Vector.ofFn fun f => s.fans[f].elapse us }

/-! ### Dirty marks -/

/-- The group in hand of a STORE, if any (R184). -/
def StoreState.inHand : StoreState → Option (Fin 15)
  | .group g _ _ => some g
  | .header _ _ => none
  | .idle => none

/-- A change of a group's content sets its dirty mark (R173), and its rewritten flag while the group is in hand (R185).
Place g is group g + 1. -/
def State.markDirty (s : State) (g : Fin 15) : State :=
  { s with
    dirty := s.dirty.set g true
    rewritten := if s.storing.inHand = some g then s.rewritten.set g true else s.rewritten }

def groupChannel : Fin 15 := 0
def groupTaplock : Fin 15 := 14

/-- The PLAN group that holds a step (R173). -/
def groupOfStep (i : Fin 64) : Fin 15 := ⟨9 + i.val / 16, by omega⟩

end Sys2Proof.Machine
end

