-- ==== Sys2Proof/Machine/Flags.lean ====
section
/-! DEFINITION. Machine/Flags.lean: the conditions, levels and pin outputs that are functions of the state: effective class
and level (R138), CL (R152), directives of the stack (R165), guard (R106), door drives (R123, R132), run outputs and
speed reference (R100, R101), effective values of configuration fields. -/

namespace Sys2Proof.Machine

/-! ### Sources -/

/-- The effective level of a source configuration (R138). -/
def SourceCfg.effLevel (c : SourceCfg) : Nat :=
  match c.cls with
  | .life => 7
  | .advisory => if c.level = 0 then 1 else if c.level = 7 then 6 else c.level
  | .alarm => if c.level = 0 then 1 else if c.level = 7 then 6 else c.level

/-- The effective level of a latch place's source. -/
def State.effLevel (s : State) (n : EntryId) : Nat := (s.sourceCfg n).effLevel

/-- The effective class of a latch place's source: its class field. -/
def State.effClass (s : State) (n : EntryId) : EventClass := (s.sourceCfg n).cls

/-- The plan step of a source is valid (R145): not NONE, and its step's valid flag is set. -/
def State.planValid (s : State) (n : EntryId) : Bool :=
  match (s.sourceCfg n).step with
  | none => false
  | some i => s.plan[i].valid

/-! ### The stack and what it directs (R165) -/

/-- The ACTIVE context. -/
def State.active (s : State) : Option Context := s.stack.head?

/-- CL: the ACTIVE context's level, or 0 (R152). -/
def State.currentLevel (s : State) : Nat :=
  match s.stack with
  | [] => 0
  | c :: _ => c.level

/-- The record of a context's current step. -/
def State.stepOf (s : State) (c : Context) : PlanStep := s.plan[c.step]

/-- The jet directive in force, with its operands (5.8). -/
inductive Directive where
  | auto
  | off
  | fixed (d : Direction) (speed : Nat)
  | velocity (vt : Int)
  | holdLast (c1 c2 : Cmd)
  deriving DecidableEq, Repr

/-- The directive a step gives, with the captured commands of its context. -/
def PlanStep.directive (p : PlanStep) (captured : Option (Cmd × Cmd)) : Directive :=
  match p.jet with
  | .auto => .auto
  | .off => .off
  | .fixed => .fixed p.fixedDir p.fixedSpeed
  | .velocity => .velocity p.vt
  | .holdLast => .holdLast (captured.getD ({}, {})).1 (captured.getD ({}, {})).2

/-- The jet directive in force: the ACTIVE step's; with an empty stack AUTO in OPERATING, OFF otherwise (R165). -/
def State.jetDirective (s : State) : Directive :=
  match s.stack with
  | [] => if s.nodeState = .operating then .auto else .off
  | c :: _ => (s.stepOf c).directive c.captured

/-- The passage directive in force (R114, R165). -/
def State.passageDirective (s : State) : PassageDir :=
  match s.stack with
  | [] => .autoDoor
  | c :: _ => (s.stepOf c).passage

/-- The lamp mode in force (R133, R165). -/
def State.lampDirective (s : State) : LampMode :=
  match s.stack with
  | [] => .off
  | c :: _ => (s.stepOf c).lamp

/-- The distance of two positions. -/
def distance (x y : Nat) : Nat := if x ≤ y then y - x else x - y

/-- The guard applies (R106). -/
def State.guardApplies (s : State) : Bool :=
  match s.stack with
  | [] => false
  | c :: _ => decide (0 < (s.stepOf c).guardSpan) && decide (distance s.posA c.origin ≤ (s.stepOf c).guardSpan)

/-- The more open of two policies (R122). -/
def Policy.join : Policy → Policy → Policy
  | .holdOpen, _ => .holdOpen
  | _, .holdOpen => .holdOpen
  | .release, _ => .release
  | _, .release => .release
  | .normal, .normal => .normal

/-- The policy a step directs for a door. -/
def PlanStep.policyOf (p : PlanStep) (d : DoorId) : Policy := if d = 0 then p.door1 else p.door2

/-- The effective policy of a door: the most open over every context of the stack (R122). -/
def State.effectivePolicy (s : State) (d : DoorId) : Policy :=
  s.stack.foldr (fun c acc => ((s.stepOf c).policyOf d).join acc) .normal

/-! ### Ports -/

/-- The effective fill period in ms (R24). -/
def NodeCfg.effFill (n : NodeCfg) : Nat := min n.fillPeriod (n.linkTimeout / 2)

/-- The port is UP. -/
def LinePort.isUp (P : LinePort) : Bool := P.state == .up

/-! ### Tap cache -/

/-- The effective lock count (R60). -/
def NodeCfg.effLock (n : NodeCfg) : Nat := min n.tapLock 3

/-! ### Fans -/

/-- A jet channel is available unless FAULT or DISABLED (R92). -/
def Fan.available (F : Fan) : Bool :=
  match F.state with
  | .fault => false
  | .disabled => false
  | .stopped => true
  | .starting _ => true
  | .running _ => true
  | .stopping _ => true

/-- The direction in which a run output is on: STARTING and RUNNING alone (R100). -/
def Fan.runDir (F : Fan) : Option Direction :=
  match F.state with
  | .starting d => some d
  | .running d => some d
  | .stopped => none
  | .stopping _ => none
  | .fault => none
  | .disabled => none

/-- RUN_FWD (RUN of the passage channel) and RUN_REV (R100). -/
def Fan.runFwd (F : Fan) : Bool := F.runDir == some .forward
def Fan.runRev (F : Fan) : Bool := F.runDir == some .reverse

/-- The speed reference output: high while the period counter is below the duty in force, and throughout when that duty is
the period (R101). -/
def Fan.speedRef (F : Fan) : Bool := decide (F.pwmCount < F.duty) || (F.duty != 0 && F.duty == F.tp)

/-- Dmin′: Dmin, or Tp when Dmin > Tp (R95). -/
def FanCfg.effDmin (c : FanCfg) : Nat := min c.dMin c.tp

/-- Dmax′: Dmax, or Tp when Dmax > Tp, and then Dmin′ when below it (R95). -/
def FanCfg.effDmax (c : FanCfg) : Nat := max (min c.dMax c.tp) c.effDmin

/-- The duty of a command magnitude (R95). -/
def FanCfg.dutyOf (c : FanCfg) (mag : Nat) : Nat :=
  if mag = 0 then 0 else c.effDmin + (roundDiv (mag * (c.effDmax - c.effDmin)) 1000).toNat

/-- P′: P, or S when P > S (R94). -/
def FanCfg.effStop (c : FanCfg) : Nat := min c.stopLevel c.startLevel

/-- The stall condition (R109). -/
def Fan.stalled (F : Fan) : Bool := decide (F.speed * 100 < F.request.mag * F.cfg.stallRatio)

/-! ### Doors -/

/-- The policy releases the door. -/
def Policy.isOpen : Policy → Bool
  | .normal => false
  | .release => true
  | .holdOpen => true

/-- LOCK_DRIVE is on while the door is SECURED and in no other state (R123). -/
def Door.lockDrive (D : Door) : Bool := D.state == .secured

/-- OPERATOR_DRIVE (R132). -/
def Door.operatorDrive (D : Door) : Bool := D.policy == .holdOpen && D.state != .fault

/-- Drive and feedback agree (R130). -/
def Door.agrees (D : Door) : Bool := D.lockDrive == D.lockEngaged.level

/-- A door that is OPEN or HELD, as the passage fan reads it (R114). -/
def Door.isOpenState (D : Door) : Bool :=
  match D.state with
  | .opened _ => true
  | .held => true
  | .secured => false
  | .released _ => false
  | .relocking => false
  | .fault => false

/-- DOOR1 or DOOR2 is OPEN or HELD. -/
def State.anyDoorOpen (s : State) : Bool := s.doors[0].isOpenState || s.doors[1].isOpenState

/-- The PASSAGE channel has a run request (R114, R116). -/
def State.passageRuns (s : State) : Bool :=
  s.nodeState != .starting && (s.passageDirective == .on || s.anyDoorOpen)

/-- The door requires release (R123). -/
def Door.requiresRelease (starting : Bool) (D : Door) : Bool :=
  starting || D.policy.isOpen || D.egressTimer.isSome || D.pushBar.level

/-- The cause a released door carries (R123). -/
def Door.releaseCause (starting : Bool) (D : Door) : ReleaseCause :=
  if starting || D.policy.isOpen then .policy else .egress

end Sys2Proof.Machine
end

