-- ==== Sys2Proof/Machine/Relay.lean ====
section
/-! DEFINITION. Machine/Relay.lean: offers to a port's queues, the full-queue rules, ageing, the rotating arbiter and port
loss (chapter 3). The outcome of an offer says whether it is an occurrence of QUEUE_OVERRUN. -/

namespace Sys2Proof.Machine

/-- The capacity of a queue (R38). -/
def QueueId.capacity : QueueId → Nat
  | .rh => 8
  | .lh => 8
  | .rl => 16
  | .ll => 16

/-- RH and LH are the high queues. -/
def QueueId.isHigh : QueueId → Bool
  | .rh => true
  | .lh => true
  | .rl => false
  | .ll => false

def isSample : Frame → Bool
  | .sample _ => true
  | .fill => false
  | .count _ _ => false
  | .event _ => false
  | .trigger _ => false
  | .mgmtReq _ => false
  | .mgmtReply _ => false
  | .time _ => false

/-- The relay queue of a received frame that dispatch passes on (R40). -/
def relayQueue : Frame → QueueId
  | .trigger _ => .rh
  | .event f => if f.cls = .advisory then .rl else .rh
  | .fill => .rl
  | .count _ _ => .rl
  | .sample _ => .rl
  | .mgmtReq _ => .rl
  | .mgmtReply _ => .rl
  | .time _ => .rl

/-- The local queue of a frame the node originates (R41). -/
def localQueue : Frame → QueueId
  | .trigger _ => .lh
  | .event f => if f.cls = .advisory then .ll else .lh
  | .fill => .ll
  | .count _ _ => .ll
  | .sample _ => .ll
  | .mgmtReq _ => .ll
  | .mgmtReply _ => .ll
  | .time _ => .ll

/-! ### Ageing and the arbiter -/

/-- A SAMPLE whose waiting time is greater than the sample age limit (R48). -/
def Queued.aged (now limit : Nat) (x : Queued) : Bool := isSample x.frame && decide (usOfMs limit < now - x.entry)

/-- The heads of RL and LL are tested for age until each head may stay (R48). -/
def LinePort.ageHeads (now limit : Nat) (P : LinePort) : LinePort :=
  { P with rl := P.rl.dropWhile (Queued.aged now limit), ll := P.ll.dropWhile (Queued.aged now limit) }

/-- A queue is eligible when it holds a frame (R50). -/
def LinePort.eligible (P : LinePort) (q : QueueId) : Bool := !(P.queue q).isEmpty

/-- The member's queue choice within LOWGROUP: the rotating search of the low ring (R52). -/
def LinePort.lowChoice (P : LinePort) : Option QueueId :=
  match P.low with
  | .rl => if P.eligible .rl then some .rl else if P.eligible .ll then some .ll else none
  | .ll => if P.eligible .ll then some .ll else if P.eligible .rl then some .rl else none

/-- A member of the high ring as a queue choice, if it is eligible (R50, R51). -/
def LinePort.memberChoice (P : LinePort) : HighMember → Option QueueId
  | .rh => if P.eligible .rh then some .rh else none
  | .lh => if P.eligible .lh then some .lh else none
  | .lowGroup => P.lowChoice

/-- The ring order of the high ring (3.6). -/
def HighMember.next : HighMember → HighMember
  | .rh => .lh
  | .lh => .lowGroup
  | .lowGroup => .rh

/-- The rotating search of the high ring (R51): the queue whose head is granted. -/
def LinePort.choice (P : LinePort) : Option QueueId :=
  (P.memberChoice P.high).or ((P.memberChoice P.high.next).or (P.memberChoice P.high.next.next))

/-- The high pointer after a grant from a queue (R51). -/
def highAfter : QueueId → HighMember
  | .rh => .lh
  | .lh => .lowGroup
  | .rl => .rh
  | .ll => .rh

/-- The low pointer after a grant from a queue: it moves at grants through LOWGROUP alone (R52). -/
def lowAfter (old : LowMember) : QueueId → LowMember
  | .rl => .ll
  | .ll => .rl
  | .rh => old
  | .lh => old

/-- The head of a queue is granted (R50): it leaves the queue, the pointers move, and its transmission starts, which
stops the fill timer (R24). -/
def LinePort.grantFrom (P : LinePort) (q : QueueId) : LinePort :=
  match P.queue q with
  | [] => P
  | x :: rest =>
    { P.setQueue q rest with
      tx := some x.frame, fillTimer := none, high := highAfter q, low := lowAfter P.low q }

/-- A grant decision (R50): ageing, then the search. Nothing happens while the port is not UP or is transmitting. -/
def LinePort.decide (now limit : Nat) (P : LinePort) : LinePort :=
  if P.isUp ∧ P.tx = none then
    let P := P.ageHeads now limit
    match P.choice with
    | none => P
    | some q => P.grantFrom q
  else P

/-! ### Offers -/

/-- The list without its oldest SAMPLE (R45). -/
def dropOldestSample : List Queued → List Queued
  | [] => []
  | x :: xs => if isSample x.frame then xs else x :: dropOldestSample xs

/-- What becomes of a frame assigned to a queue of an UP port. -/
inductive Taken where
  | appended
  | discarded
  | overrun
  deriving DecidableEq, Repr

/-- A frame assigned to a queue (R42, R43, R45, R46): the queue afterwards and what became of the frame. -/
def assign (q : QueueId) (x : Queued) (l : List Queued) : List Queued × Taken :=
  if l.length < q.capacity then (l ++ [x], .appended)
  else if q.isHigh then (l, .overrun)
  else if isSample x.frame && l.any (fun y => isSample y.frame) then (dropOldestSample l ++ [x], .appended)
  else (l, .discarded)

/-- The node's own report of QUEUE_OVERRUN: code 224 with the node's own posA (R44, log entry 12). -/
def ownOverrunReport (posA : Nat) : Frame → Bool
  | .event f => f.code == 224 && f.origin.toNat == posA
  | .fill => false
  | .count _ _ => false
  | .sample _ => false
  | .trigger _ => false
  | .mgmtReq _ => false
  | .mgmtReply _ => false
  | .time _ => false

/-- A frame offered to a port for a queue (R39): discarded unless the port is UP; an append to an idle transmitter is a
grant decision (R42, R50). The flag says whether the offer is an occurrence of QUEUE_OVERRUN (R43, R44). -/
def State.offer (s : State) (p : Port) (q : QueueId) (f : Frame) : State × Bool :=
  let P := s.port p
  if P.isUp then
    match assign q ⟨f, s.now⟩ (P.queue q) with
    | (l, .appended) => (s.setPort p ((P.setQueue q l).decide s.now s.node.sampleAgeLimit), false)
    | (_, .discarded) => (s, false)
    | (_, .overrun) => (s, !ownOverrunReport s.posA f)
  else (s, false)

/-- A local frame is offered to each port that is UP, port A first; the count says how many offers overran (R41). -/
def State.offerBoth (s : State) (f : Frame) : State × Nat :=
  let ra := s.offer .a (localQueue f) f
  let rb := ra.1.offer .b (localQueue f) f
  (rb.1, (if ra.2 then 1 else 0) + (if rb.2 then 1 else 0))

/-! ### Port loss -/

/-- A port leaving UP has its four queues emptied; pointers and transmitter stand (R49). -/
def LinePort.emptied (P : LinePort) : LinePort := { P with rh := [], lh := [], rl := [], ll := [] }

end Sys2Proof.Machine
end

