-- ==== Sys2Proof/Machine/Latch.lean ====
section
/-! DEFINITION. Machine/Latch.lean: occurrences, clearings and EVENT frames of the event latch (chapter 8). An entry that
becomes PENDING owes the plan unit an acceptance decision (R154), which Machine/Plan.lean's `settle` makes. -/

namespace Sys2Proof.Machine

/-- The EVENT frame of a transition of a source (R147), formed now. -/
def State.eventFrame (s : State) (n : EntryId) (t : Transition) (code : Word) (step : Option (Fin 64)) : Frame :=
  .event
    { origin := BitVec.ofNat 8 s.posA
      transition := t
      code := code
      count := s.latch[n].count
      cls := s.effClass n
      level := BitVec.ofNat 8 (s.effLevel n)
      step := BitVec.ofNat 8 (stepCode step)
      clock := s.clock
      flag := BitVec.ofNat 8 (timeFlag s.clockSet) }

/-- An entry after an occurrence (R141, steps 1 to 6). -/
def LatchEntry.occurred (n : EntryId) (t : Stamp) (origin : Nat) (planValid : Bool) (e : LatchEntry) : LatchEntry :=
  { asserted := e.asserted || isLevel n
    count := e.count + 1
    unack := true
    first := if e.first = none then some t else e.first
    last := some t
    origin := origin
    serve := if e.serve == .idle && planValid then .pending else e.serve }

/-- Steps 1 to 6 of an occurrence (R141): count, unacknowledged flag, times, origin, asserted, serve state. -/
def State.countOccurrence (s : State) (n : EntryId) (origin : Nat) : State :=
  { s.setLatch n (s.latch[n].occurred n s.stamp origin (s.planValid n)) with
    decisionDue := s.decisionDue || (s.latch[n].serve == .idle && s.planValid n) }

/-- The report of QUEUE_OVERRUN: it makes no further occurrence at a full queue (R44). -/
def State.reportOverrun (s : State) : State :=
  if (s.sourceCfg srcOverrun).report then
    (s.offerBoth (s.eventFrame srcOverrun .occurred (s.sourceCode srcOverrun) (s.sourceCfg srcOverrun).step)).1
  else s

/-- An occurrence of QUEUE_OVERRUN (R43). -/
def State.overrun (s : State) : State := (s.countOccurrence srcOverrun s.posA).reportOverrun

/-- `k` occurrences of QUEUE_OVERRUN, one after the other (R141). -/
def State.overruns : Nat → State → State
  | 0, s => s
  | k + 1, s => State.overruns k s.overrun

/-- A frame the node originates is offered to each UP port; each overrun is an occurrence (R41, R43), taken after both offers
(log entry 27). -/
def State.sendLocal (s : State) (f : Frame) : State := State.overruns (s.offerBoth f).2 (s.offerBoth f).1

/-- A received frame is offered to the opposite port of its arrival port (R40). -/
def State.relay (s : State) (arrival : Port) (f : Frame) : State :=
  let r := s.offer arrival.opposite (relayQueue f) f
  if r.2 then r.1.overrun else r.1

/-- An EVENT frame for a transition of a source is formed and sent (R147). -/
def State.report (s : State) (n : EntryId) (t : Transition) (step : Option (Fin 64)) : State :=
  s.sendLocal (s.eventFrame n t (s.sourceCode n) step)

/-- The OCCURRED frame goes out when the report flag is set (R141 step 7, R148). -/
def State.reportOccurred (s : State) (n : EntryId) : State :=
  if (s.sourceCfg n).report then s.report n .occurred (s.sourceCfg n).step else s

/-- An occurrence with a given last origin (R141). -/
def State.occurFrom (s : State) (n : EntryId) (origin : Nat) : State := (s.countOccurrence n origin).reportOccurred n

/-- An occurrence of a device source: its last origin is the node's own posA (R141). -/
def State.occur (s : State) (n : EntryId) : State := s.occurFrom n s.posA

/-- The serve state after a clearing (R143). -/
def Serve.cleared : Serve → Serve
  | .idle => .idle
  | .pending => .idle
  | .served => .served
  | .spent => .idle

/-- A context whose source clears in a step that awaits it gets its clear seen mark (R161). The mark of the ACTIVE
context is acted on within the event (Machine/Plan.lean, `settle`). -/
def Context.sourceCleared (n : EntryId) (c : Context) : Context :=
  if c.source = n ∧ c.waiting then { c with clearSeen := true } else c

/-- The entry and the contexts at a clearing (R143, R161). -/
def State.markCleared (s : State) (n : EntryId) : State :=
  (s.setLatch n { s.latch[n] with asserted := false, serve := s.latch[n].serve.cleared }).setStack
    (s.stack.map (Context.sourceCleared n))

/-- The CLEARED frame with the given code goes out when the report flag is set (R143, R148). -/
def State.reportCleared (s : State) (n : EntryId) (code : Word) : State :=
  if (s.sourceCfg n).report then s.sendLocal (s.eventFrame n .cleared code (s.sourceCfg n).step) else s

/-- A level source clears (R143), reported with the given code. A source that is not asserted does not change. -/
def State.clearWithCode (s : State) (n : EntryId) (code : Word) : State :=
  if s.latch[n].asserted then (s.markCleared n).reportCleared n code else s

/-- A level source clears (R143). -/
def State.clearSource (s : State) (n : EntryId) : State := s.clearWithCode n (s.sourceCode n)

/-- The serve state of an entry whose context ended (R144). -/
def LatchEntry.afterEnd (n : EntryId) (e : LatchEntry) : Serve :=
  if isLevel n && e.asserted then .spent else .idle

/-- An entry after its plan step's validity went from `was` to `is` (R145). -/
def LatchEntry.revalidate (n : EntryId) (was is : Bool) (e : LatchEntry) : LatchEntry :=
  if was && !is && e.serve == .pending then { e with serve := .idle }
  else if !was && is && e.serve == .idle && isLevel n && e.asserted then { e with serve := .pending }
  else e

/-- The re-evaluation of every entry whose validity has changed since `old` (R145); an entry that becomes PENDING owes a
decision. -/
def State.revalidate (old s : State) : State :=
  let latch : Vector LatchEntry 51 :=
    Vector.ofFn fun n => s.latch[n].revalidate n (old.planValid n) (s.planValid n)
  { s with
    latch := latch
    decisionDue := s.decisionDue ||
      (List.finRange 51).any fun n => s.latch[n].serve != .pending && latch[n].serve == .pending }

end Sys2Proof.Machine
end

