-- ==== Sys2Proof/Machine/Sensor.lean ====
section
/-! DEFINITION. Machine/Sensor.lean: conversion, scaling, smoothing, loop fault and published reading of the sensor
channels, and the SAMPLE frame the node originates (chapter 1). -/

namespace Sys2Proof.Machine

/-- The classification of a converter code (R4), with the code used for scaling where there is one. -/
def classify (c : Nat) : ConvOutcome × Option Nat :=
  if c < 614 then (.low, none)
  else if c < 682 then (.clamped, some 682)
  else if c ≤ 3412 then (.good, some c)
  else if c ≤ 3583 then (.clamped, some 3412)
  else (.high, none)

/-- The engineering value of a code used for scaling (R5). -/
def ChannelCfg.scale (cfg : ChannelCfg) (c : Nat) : Int :=
  cfg.lo + roundDiv (((c : Int) - 682) * (cfg.hi - cfg.lo)) 2730

/-- The smoothing window a code selects (R1). -/
def windowSize : Nat → Nat
  | 0 => 1
  | 1 => 2
  | 2 => 4
  | 3 => 8
  | _ => 16

/-- The smoothed value (R7), none while the ring is empty. -/
def Channel.smoothed (C : Channel) : Option Int :=
  if C.ring = [] then none
  else some (roundDiv (C.ring.take (windowSize C.cfg.window)).sum (min (windowSize C.cfg.window) C.ring.length))

/-- A published reading (R12). -/
structure Reading where
  kind : Option Kind
  hasValue : Bool
  value : Int
  fault : Bool
  clamped : Bool
  deriving DecidableEq, Repr

/-- The reading a channel publishes (R12). -/
def Channel.reading (C : Channel) : Reading :=
  { kind := C.cfg.kind
    hasValue := C.smoothed.isSome
    value := C.smoothed.getD 0
    fault := C.fault || !C.smoothed.isSome
    clamped := C.last == .clamped }

/-- A good conversion's value enters the ring; the ring keeps the 16 newest (R6). -/
def Channel.enter (C : Channel) (v : Int) : Channel := { C with ring := (v :: C.ring).take 16 }

/-- A good conversion counts toward clearing an asserted fault; the fourth clears it (R10). -/
def Channel.countGood (C : Channel) : Channel :=
  if C.fault then
    if C.goodRun + 1 < 4 then { C with goodRun := C.goodRun + 1 } else { C with fault := false, goodRun := 0 }
  else { C with goodRun := 0 }

/-- A used channel after a conversion of the given code (R4, R5, R6, R9, R10). -/
def Channel.convert (C : Channel) (c : Nat) : Channel :=
  match classify c with
  | (o, some used) => { (C.enter (C.cfg.scale used)).countGood with last := o }
  | (o, none) => { C with last := o, goodRun := 0, fault := true }

/-- The device source LOOP_FAULT n follows the change of its channel's fault state (R11). -/
def State.loopFaultChange (s : State) (c : ChannelId) (was is : Bool) : State :=
  if is && !was then s.occur (srcLoopFault c)
  else if was && !is then s.clearSource (srcLoopFault c)
  else s

/-- A conversion completion (R3): an UNUSED channel discards the code; the next interval begins. -/
def State.conversion (s : State) (c : ChannelId) (code : BitVec 12) : State :=
  let C := { s.channels[c] with convTimer := s.startMs 250 }
  if C.cfg.kind = none then s.setChannel c C
  else
    (s.setChannel c (C.convert code.toNat)).loopFaultChange c C.fault (C.convert code.toNat).fault

/-- The effect of a change of a channel's record on its live state (R8): a change of kind, lo or hi empties the ring;
entry to UNUSED clears the fault. -/
def Channel.recordChanged (old : ChannelCfg) (C : Channel) : Channel :=
  if C.cfg.kind = old.kind ∧ C.cfg.lo = old.lo ∧ C.cfg.hi = old.hi then C
  else if C.cfg.kind = none then { C with ring := [], last := .none, fault := false, goodRun := 0 }
  else { C with ring := [], last := .none }

/-- R8 for one channel after its record was replaced. -/
def State.channelChanged (old : State) (s : State) (c : ChannelId) : State :=
  let C := s.channels[c].recordChanged old.channels[c].cfg
  (s.setChannel c C).loopFaultChange c old.channels[c].fault C.fault

/-- The item of a used channel (R14). -/
def Channel.item (C : Channel) (c : ChannelId) : Option SampleItem :=
  C.cfg.kind.map fun k =>
    { channel := BitVec.ofNat 8 c.val
      kind := k
      flags := BitVec.ofNat 8 (flagsCode C.reading.clamped C.reading.fault)
      value := intW C.reading.value }

/-- The items of the used channels in ascending order (R14). -/
def State.sampleItems (s : State) : List SampleItem :=
  (List.finRange 4).filterMap fun c => s.channels[c].item c

/-- A report timer expiry (R13, R14, R15): the timer starts anew, and a SAMPLE frame goes to the LL queue of each UP
port unless every channel is UNUSED or the sample reach is 0. -/
def State.reportExpiry (s : State) : State :=
  let s := { s with reportTimer := s.startSec s.node.reportPeriod }
  if s.sampleItems = [] ∨ s.node.sampleReach = 0 then s
  else s.sendLocal (.sample
    { origin := BitVec.ofNat 8 s.posA, reach := BitVec.ofNat 8 s.node.sampleReach, items := s.sampleItems })

end Sys2Proof.Machine
end

