-- ==== Sys2Proof/Machine/Tap.lean ====
section
/-! DEFINITION. Machine/Tap.lean: the tap cache (chapter 4): keys, hits, learning, locked ways, TAP_LOAD, flushing,
ageing and the TAPLOCK content. -/

namespace Sys2Proof.Machine

/-- The set a key selects (R57). -/
def setIndex (origin channel : Nat) : Fin 32 := ⟨(4 * origin + channel) % 32, Nat.mod_lt _ (by omega)⟩

/-- The place of a way of a set: 4 × set + way (R57). -/
def place (set : Fin 32) (way : Fin 4) : Fin 128 := ⟨4 * set.val + way.val, by omega⟩

/-- The way of a place. -/
def wayOf (i : Fin 128) : Nat := i.val % 4

/-- The way is locked under an effective lock count (R58, R60). -/
def wayLocked (lock : Nat) (way : Nat) : Bool := decide (way < lock)

/-- The place holds a valid entry of the key. -/
def holdsKey (t : TapCache) (i : Fin 128) (origin channel : Nat) : Bool :=
  match t[i] with
  | none => false
  | some e => e.origin == origin && e.channel == channel

/-- The place of a key's set that holds the key, if any (R57, R73). -/
def tapFind (t : TapCache) (origin channel : Nat) : Option (Fin 128) :=
  ((List.finRange 4).map (place (setIndex origin channel))).find? (fun i => holdsKey t i origin channel)

/-- A lookup by key (R73). -/
def tapLookup (t : TapCache) (origin channel : Nat) : Option TapEntry :=
  (tapFind t origin channel).bind fun i => t[i]

/-- An entry updated by a hit (R62). -/
def TapEntry.hit (e : TapEntry) (it : SampleItem) : TapEntry :=
  { e with
    kind := it.kind, value := it.value.toInt, clamped := flagClamped it.flags, fault := flagFault it.flags, age := 0 }

/-- The entry a learned item makes (R64). -/
def learnedEntry (origin : Nat) (it : SampleItem) : TapEntry :=
  { lockedLoad := false, origin := origin, channel := it.channel.toNat, kind := it.kind, value := it.value.toInt
    clamped := flagClamped it.flags, fault := flagFault it.flags, age := 0
    loadKind := it.kind, loadValue := it.value.toInt }

/-- The learn mask has the kind set (R60). -/
def LearnMask.has (m : LearnMask) : Kind → Bool
  | .co => m.co
  | .no2 => m.no2
  | .opac => m.opac
  | .vel => m.vel

/-- A missed item may be learned (R63). -/
def State.learns (s : State) (origin : Nat) (k : Kind) : Bool :=
  s.posA != 0 && s.node.learnWindow != 0 && decide (distance origin s.posA ≤ s.node.learnWindow) && s.node.learnMask.has k

/-- The age of a place's entry, or `none` when it is invalid. -/
def placeAge (t : TapCache) (i : Fin 128) : Option Nat := (t[i]).map TapEntry.age

/-- The first of the places whose entry has the greatest age. -/
def oldest (t : TapCache) : List (Fin 128) → Option (Fin 128)
  | [] => none
  | i :: is =>
    match oldest t is with
    | none => some i
    | some j => if (placeAge t j).getD 0 ≤ (placeAge t i).getD 0 then some i else some j

/-- The victim among the unlocked ways of a set (R64): the lowest invalid one, or the first of the greatest age. -/
def victim (t : TapCache) (lock : Nat) (set : Fin 32) : Option (Fin 128) :=
  let unlocked := ((List.finRange 4).filter (fun w => !wayLocked lock w.val)).map (place set)
  (unlocked.find? (fun i => t[i] == none)).or (oldest t unlocked)

/-- One item offered to the cache with its frame's origin (R61 to R64). -/
def State.tapItem (origin : Nat) (s : State) (it : SampleItem) : State :=
  if origin = 0 ∨ 254 < origin ∨ origin = s.posA ∨ 3 < it.channel.toNat then s
  else
    match tapFind s.tap origin it.channel.toNat with
    | some i => { s with tap := s.tap.set i ((s.tap[i]).map (fun e => e.hit it)) }
    | none =>
      if s.learns origin it.kind then
        match victim s.tap s.node.effLock (setIndex origin it.channel.toNat) with
        | some i => { s with tap := s.tap.set i (some (learnedEntry origin it)) }
        | none => s
      else s

/-- The items of a SAMPLE frame, one at a time in their order (R61). -/
def State.tapItems (s : State) (f : SampleFields) : State := f.items.foldl (State.tapItem f.origin.toNat) s

/-- An ageing expiry (R59). -/
def TapEntry.aged (e : TapEntry) : TapEntry := { e with age := min (e.age + 1) 255 }

def State.tapAge (s : State) : State :=
  { s with ageTimer := s.startSec 1, tap := Vector.ofFn fun i => s.tap[i].map TapEntry.aged }

/-- A place after a flush of the unlocked ways, and of the locked ones too when `all` (R69, R70). -/
def flushPlaces (t : TapCache) (lock : Nat) (all : Bool) : TapCache :=
  Vector.ofFn fun i => if all || !wayLocked lock (wayOf i) then none else t[i]

/-- Some locked way holds a valid entry. -/
def anyLocked (t : TapCache) (lock : Nat) : Bool :=
  (List.finRange 128).any fun i => wayLocked lock (wayOf i) && (t[i]).isSome

/-- FLUSH_TAP (R69). -/
def State.flushTap (s : State) : State :=
  let s' := { s with tap := flushPlaces s.tap s.node.effLock (!s.node.tapProtect) }
  if !s.node.tapProtect && anyLocked s.tap s.node.effLock then s'.markDirty groupTaplock else s'

/-- The flush of the unlocked ways at a change of posA (R70). -/
def State.flushUnlocked (s : State) : State := { s with tap := flushPlaces s.tap s.node.effLock false }

/-- A place when the effective lock count goes from `l0` to `l1` (R65, R66). -/
def TapEntry.relock (l0 l1 way : Nat) (e : TapEntry) : TapEntry :=
  if wayLocked l1 way && !wayLocked l0 way then
    { e with lockedLoad := false, loadKind := e.kind, loadValue := e.value }
  else if wayLocked l0 way && !wayLocked l1 way then { e with lockedLoad := false }
  else e

/-- A change of the effective lock count (R65, R66): the TAPLOCK mark is set when a way that changed state held a valid
entry. -/
def State.lockChanged (s : State) (l0 l1 : Nat) : State :=
  let s' := { s with tap := Vector.ofFn fun i => (s.tap[i]).map (TapEntry.relock l0 l1 (wayOf i)) }
  if (List.finRange 128).any fun i => (wayLocked l0 (wayOf i) != wayLocked l1 (wayOf i)) && (s.tap[i]).isSome then
    s'.markDirty groupTaplock
  else s'

/-- The cache without the key outside the given place. -/
def withoutKey (t : TapCache) (keep : Fin 128) (origin channel : Nat) : TapCache :=
  Vector.ofFn fun i => if i ≠ keep ∧ holdsKey t i origin channel then none else t[i]

/-- An entry placed by TAP_LOAD or the image load (R67, R72). -/
def loadedEntry (origin channel : Nat) (k : Kind) (v : Int) (flag : Bool) : TapEntry :=
  { lockedLoad := flag, origin := origin, channel := channel, kind := k, value := v, clamped := false, fault := false
    age := 0, loadKind := k, loadValue := v }

/-- The target of a TAP_LOAD (R67): the locked way that holds the key, else the lowest invalid locked way. -/
def loadTarget (t : TapCache) (lock : Nat) (origin channel : Nat) : Option (Fin 128) :=
  let locked := ((List.finRange 4).filter (fun w => wayLocked lock w.val)).map (place (setIndex origin channel))
  (locked.find? (fun i => holdsKey t i origin channel)).or (locked.find? (fun i => t[i] == none))

/-- A TAP_LOAD that finds a target (R67); `none` is FULL (R68). -/
def State.tapLoad (s : State) (origin channel : Nat) (k : Kind) (v : Int) : Option State :=
  (loadTarget s.tap s.node.effLock origin channel).map fun i =>
    State.markDirty
      { s with tap := (withoutKey s.tap i origin channel).set i (some (loadedEntry origin channel k v true)) }
      groupTaplock

/-! ### The TAPLOCK group (R71, R72) -/

/-- The six words of a stored way (R182): a locked way with a valid entry, or empty. -/
def taplockWords (t : TapCache) (lock : Nat) (i : Fin 128) : List Word :=
  match t[i] with
  | none => [0, 0, 0, 0, 0, 0]
  | some e =>
    if wayLocked lock (wayOf i) then
      [1, natW e.origin, natW e.channel, natW (kindCode e.loadKind), intW e.loadValue, boolW e.lockedLoad]
    else [0, 0, 0, 0, 0, 0]

/-- The places of the TAPLOCK group in its order: ways 0 to 2 of every set (R182). -/
def taplockPlaces : List (Fin 128) :=
  (List.finRange 32).flatMap fun set => [place set 0, place set 1, place set 2]

/-- The content of the TAPLOCK group (R71). -/
def State.taplockContent (s : State) : List Word :=
  taplockPlaces.flatMap (taplockWords s.tap s.node.effLock)

/-- The load of the TAPLOCK group on its way: the cache, the keys placed so far, and whether an entry was not placed. -/
structure TaplockLoad where
  tap : TapCache
  placed : List (Nat × Nat)
  missed : Bool
  deriving DecidableEq, Repr

/-- A stored entry that R72's last case does not catch, for a place: its key, kind, value and flag. -/
def storedEntry (placed : List (Nat × Nat)) (i : Fin 128) (w : List Word) : Option TapEntry :=
  match w with
  | [pres, o, c, k, v, fl] =>
    match kindOfCode k.toNat with
    | none => none
    | some kind =>
      if pres.toNat ≤ 1 ∧ fl.toNat ≤ 1 ∧ 1 ≤ o.toNat ∧ o.toNat ≤ 254 ∧ c.toNat ≤ 3 ∧
          (setIndex o.toNat c.toNat).val = i.val / 4 ∧ (o.toNat, c.toNat) ∉ placed then
        some (loadedEntry o.toNat c.toNat kind v.toInt (fl != 0))
      else none
  | _ => none

/-- One stored way taken (R72). -/
def TaplockLoad.take (lock : Nat) (L : TaplockLoad) (i : Fin 128) (w : List Word) : TaplockLoad :=
  let locked := wayLocked lock (wayOf i)
  let emptied := if locked then L.tap.set i none else L.tap
  if w.head? = some 0 then { L with tap := emptied }
  else
    match storedEntry L.placed i w with
    | none => { L with tap := emptied, missed := true }
    | some e =>
      if locked then
        { tap := (withoutKey L.tap i e.origin e.channel).set i (some e)
          placed := (e.origin, e.channel) :: L.placed
          missed := L.missed }
      else { L with missed := true }

/-- The stored ways taken in order, six words each. -/
def TaplockLoad.takeAll (lock : Nat) : TaplockLoad → List (Fin 128) → List Word → TaplockLoad
  | L, [], _ => L
  | L, i :: is, ws => TaplockLoad.takeAll lock (L.take lock i (ws.take 6)) is (ws.drop 6)

/-- The TAPLOCK content taken from the image (R72): the cache, and whether the group stays dirty. -/
def State.loadTaplock (s : State) (ws : List Word) : TapCache × Bool :=
  let L := TaplockLoad.takeAll s.node.effLock ⟨s.tap, [], false⟩ taplockPlaces ws
  (L.tap, L.missed)

/-- Every locked way made invalid: the reset value of the group's content (R72). -/
def State.emptyLocked (s : State) : State :=
  { s with tap := Vector.ofFn fun i => if wayLocked s.node.effLock (wayOf i) then none else s.tap[i] }

end Sys2Proof.Machine
end

