-- ==== Sys2Proof/Machine/Fan.lean ====
section
/-! DEFINITION. Machine/Fan.lean: the state rules of a fan channel (chapter 6): requests, start, stall, coast, fault,
isolation, tach measurement and the speed reference. A channel's rules are functions of the channel and of the core
clock time; the sources they raise are raised by the State operations at the end. -/

namespace Sys2Proof.Machine

/-! ### Entries to the states -/

/-- The run outputs go off: the duty becomes 0 at once (R101) and the start, stall and dwell timers stop. -/
def Fan.quiet (F : Fan) : Fan :=
  { F with duty := 0, pendingDuty := 0, startTimer := none, stallTimer := none, dwellTimer := none }

/-- Entry to STOPPING (R109, R112, R113): the dwell timer starts with the coast dwell. -/
def Fan.enterStopping (now : Nat) (d : Option Direction) (F : Fan) : Fan :=
  { F.quiet with state := .stopping d, dwellTimer := some (now + usOfSec F.cfg.coastDwell) }

/-- The stall test of a RUNNING channel (R109): the stall timer starts when the condition becomes true and stops when it
becomes false. -/
def Fan.stallTest (now : Nat) (F : Fan) : Fan :=
  if F.stalled then
    { F with stallTimer := if F.stallTimer.isSome then F.stallTimer else some (now + usOfSec F.cfg.stallTime) }
  else { F with stallTimer := none }

/-- The start confirmation of a channel in STARTING(d) (R108). -/
def Fan.confirm (now : Nat) (d : Direction) (F : Fan) : Fan :=
  if F.cfg.confirmSpeed ≤ F.speed then { F with state := .running d, startTimer := none }.stallTest now else F

/-- The duty of the present request magnitude under the fields as they stand (R95, R101). -/
def Fan.requestDuty (F : Fan) : Nat := F.cfg.dutyOf F.request.mag

/-- The duty that came with the request (R107, R109); one that a WRITE since has put outside the effective bounds is taken
at the nearest bound, by R101's law (log entry 17). -/
def Fan.startDuty (F : Fan) : Nat := max F.cfg.effDmin (min F.heldDuty F.cfg.effDmax)

/-- Entry to STARTING(d) (R107): the run output goes on with the duty that came with the request, in a period started at once
(R101), and the start is confirmed at entry when the fan already turns (R108). -/
def Fan.enterStarting (now : Nat) (d : Direction) (F : Fan) : Fan :=
  Fan.confirm now d
    { F with
      state := .starting d
      lastDir := some d
      duty := F.startDuty
      pendingDuty := F.startDuty
      tp := F.pendingTp
      pwmCount := 0
      startTimer := some (now + usOfSec F.cfg.startTime)
      stallTimer := none
      dwellTimer := none }

/-! ### The request -/

/-- The request is a run request in direction `d`. -/
def Fan.wants (F : Fan) (d : Direction) : Bool := F.request.mag != 0 && F.request.dir == some d

/-- A STOPPED channel takes its request (R107). -/
def Fan.serveStopped (now : Nat) (F : Fan) : Fan :=
  match F.request.dir with
  | some d => if F.request.mag = 0 then F else F.enterStarting now d
  | none => F

/-- The channel acts on its request, taken at a hand-off or at a re-formation (R105, R107 to R111, R113). STOPPING(d) is
left at once for a run request in d on the passage channel too (R115; R114's last sentence read by log entry 32). The stall
test of a RUNNING channel is made at a re-formation between hand-offs as at a hand-off (R109, log entry 35). -/
def Fan.serve (now : Nat) (F : Fan) : Fan :=
  match F.state with
  | .stopped => F.serveStopped now
  | .starting d => if F.wants d then { F with pendingDuty := F.startDuty } else F.enterStopping now (some d)
  | .running d =>
    if F.wants d then { F with pendingDuty := F.startDuty }.stallTest now else F.enterStopping now (some d)
  | .stopping (some d) => if F.wants d then F.enterStarting now d else F
  | .stopping none => F
  | .fault => F
  | .disabled => F

/-- The exit condition of STOPPING (R110): the dwell timer has expired (in STOPPING it stands stopped only then) and
the speed is at or below the still threshold. The request held is served at once as from STOPPED. -/
def Fan.tryStopped (now : Nat) (F : Fan) : Fan :=
  match F.state with
  | .stopping _ =>
    if F.dwellTimer = none ∧ F.speed ≤ F.cfg.stillThreshold then { F with state := .stopped }.serveStopped now else F
  | .stopped => F
  | .starting _ => F
  | .running _ => F
  | .fault => F
  | .disabled => F

/-- The tests of a speed change event (R103, R108 to R110). -/
def Fan.speedChanged (now : Nat) (F : Fan) : Fan :=
  match F.state with
  | .starting d => F.confirm now d
  | .running _ => F.stallTest now
  | .stopping _ => F.tryStopped now
  | .stopped => F
  | .fault => F
  | .disabled => F

/-- Minimum run (R94). -/
def Fan.minRun (F : Fan) (c : Cmd) : Cmd :=
  let least : Option Nat :=
    match F.state with
    | .stopped => some F.cfg.startLevel
    | .stopping _ => some F.cfg.startLevel
    | .starting d => some (if c.dir = some d then F.cfg.effStop else F.cfg.startLevel)
    | .running d => some (if c.dir = some d then F.cfg.effStop else F.cfg.startLevel)
    | .fault => none
    | .disabled => none
  match least with
  | none => {}
  | some l => if c.mag = 0 ∨ c.mag < l then {} else c

/-- The channel takes a request with its duty (R104, R105). -/
def Fan.takeRequest (now : Nat) (c : Cmd) (duty : Nat) (F : Fan) : Fan :=
  { F with request := if c.mag = 0 then {} else c, heldDuty := if c.mag = 0 then 0 else duty }.serve now

/-! ### Measurement and the speed reference -/

/-- A period start (R101). -/
def Fan.periodStart (F : Fan) : Fan := { F with duty := F.pendingDuty, tp := F.pendingTp, pwmCount := 0 }

/-- A write of Tp, Dmin or Dmax (R101): the pending period, and the pending duty of a channel whose run output is on. -/
def Fan.dutyFieldsWritten (F : Fan) : Fan :=
  { F with pendingTp := F.cfg.tp, pendingDuty := if F.runDir.isSome then F.requestDuty else F.pendingDuty }

/-- An accepted edge is captured (R102), and the 1 s to the overflow begins anew. -/
def Fan.capture (now : Nat) (e : Edge) (F : Fan) : Fan :=
  let F := { F with captureTimer := some (now + usOfSec 1) }
  match e with
  | .rising =>
    match F.lastRise with
    | none => { F with lastRise := some now }
    | some t => { F with lastRise := some now, pNew := some (now - t), pPrev := F.pNew }
  | .falling =>
    match F.lastFall with
    | none => { F with lastFall := some now }
    | some t => { F with lastFall := some now, pNew := some (now - t), pPrev := F.pNew }

/-- p of R103, while the pair holds two periods. -/
def Fan.pairMean (F : Fan) : Option Nat :=
  match F.pNew, F.pPrev with
  | some a, some b => some ((a + b) / 2)
  | some _, none => none
  | none, some _ => none
  | none, none => none

/-- The measured speed of the capture pair (R103); `free` is the value where the quotient has none. -/
def Fan.measure (free : Nat) (F : Fan) : Nat :=
  match F.pairMean with
  | none => 0
  | some p => if p = 0 then min free 2000 else min (F.cfg.ratedPeriod * 1000 / p) 2000

/-- The channel with a measured speed, tested when it has changed (R103, log entry 11). -/
def Fan.setSpeed (now : Nat) (v : Nat) (F : Fan) : Fan :=
  if v = F.speed then F else { F with speed := v }.speedChanged now

/-- The capture timer overflows (R102): the pair is emptied, and the timer stands until the next accepted edge. -/
def Fan.overflow (now : Nat) (F : Fan) : Fan :=
  if F.captureTimer = none then F
  else
    { F with captureTimer := none, lastRise := none, lastFall := none, pNew := none, pPrev := none }.setSpeed now 0

/-! ### The channels in the node -/

/-- An override forces every request of a jet channel to 0: the guard (R106), or the node STARTING (R116). -/
def State.jetsHeld (s : State) : Bool := s.nodeState == .starting || s.guardApplies

/-- The passage request (R114): the handed passage speed, or the record's when none has been handed yet (log entry
17). -/
def State.passageRequest (s : State) : Cmd :=
  let F := s.fans[passage]
  if s.passageRuns then ⟨if F.handed.mag = 0 then F.cfg.passageSpeed else F.handed.mag, some .forward⟩ else {}

/-- The passage request is formed again (R114), its duty by R95 as at a hand-off (section 6.8). -/
def State.reformPassage (s : State) : State :=
  let F := s.fans[passage]
  s.setFan passage (F.takeRequest s.now s.passageRequest (F.cfg.dutyOf s.passageRequest.mag))

/-- A jet channel's request is formed again from its handed command and duty (R104, R105). The minimum-run test reads S and
P as they stand (log entry 29). -/
def State.reformJet (s : State) (f : FanId) : State :=
  let F := s.fans[f]
  s.setFan f (F.takeRequest s.now (if s.jetsHeld then {} else F.minRun F.handed) F.handedDuty)

/-- The requests of the jet channels when the guard comes to apply or stops applying at a change of posA (R106). -/
def State.guardRetest (was : Bool) (s : State) : State :=
  if s.guardApplies = was then s else (s.reformJet jet1).reformJet jet2

/-- A hand-off to a jet channel (R96, R105). -/
def State.handJet (s : State) (f : FanId) (c : Cmd) : State :=
  let F := { s.fans[f] with handed := c, handedDuty := s.fans[f].cfg.dutyOf c.mag }
  s.setFan f (F.takeRequest s.now (if s.jetsHeld then {} else c) F.handedDuty)

/-- A hand-off to the passage channel: its passage speed FORWARD with the duty of that speed (R96, R114). -/
def State.handPassage (s : State) : State :=
  let F := s.fans[passage]
  let s := s.setFan passage
    { F with handed := ⟨F.cfg.passageSpeed, some .forward⟩, handedDuty := F.cfg.dutyOf F.cfg.passageSpeed }
  s.reformPassage

/-- A channel enters FAULT and its fault source asserts (R111). -/
def State.fanFault (s : State) (f : FanId) : State :=
  (s.setFan f { s.fans[f].quiet with state := .fault }).occur (srcFanFault f)

/-- The start timer's expiry (R108). -/
def State.startExpired (s : State) (f : FanId) : State :=
  if s.fans[f].startTimer = none then s else s.fanFault f

/-- The stall timer's expiry (R109). -/
def State.stallExpired (s : State) (f : FanId) : State :=
  if s.fans[f].stallTimer = none then s else s.fanFault f

/-- The dwell timer's expiry (R110). -/
def State.dwellExpired (s : State) (f : FanId) : State :=
  if s.fans[f].dwellTimer = none then s
  else s.setFan f ({ s.fans[f] with dwellTimer := none }.tryStopped s.now)

/-- A tach edge (R102, R103). A quotient of period 0 uses one free value (log entry 6). -/
def State.tachEdge (s : State) (f : FanId) (e : Edge) : State :=
  let F := s.fans[f].capture s.now e
  let s' := s.setFan f (F.setSpeed s.now (F.measure (Config.speedAtPeriodZero s.freeCount)))
  { s' with freeCount := if F.pairMean = some 0 then s.freeCount + 1 else s.freeCount }

/-- FAN_RESET of a channel (R112): it acts on a channel in FAULT alone, and the request it holds is served by R110. -/
def State.fanReset (s : State) (f : FanId) : State :=
  let F := s.fans[f]
  if F.state = .fault then
    (s.setFan f ((F.enterStopping s.now F.lastDir).serve s.now)).clearSource (srcFanFault f)
  else s

/-- The isolator state becomes open or closed (R113): a fault's clearing comes before the isolation's occurrence (log entry 27). -/
def State.isolatorState (s : State) (f : FanId) (isOpen : Bool) : State :=
  let F := { s.fans[f] with isoOpen := isOpen, isoTimer := none }
  if isOpen then
    ((s.setFan f { F.quiet with state := .disabled }).clearSource (srcFanFault f)).occur (srcIsolated f)
  else
    (s.setFan f ((F.enterStopping s.now F.lastDir).serve s.now)).clearSource (srcIsolated f)

/-- The isolator input changes (R100): a level that differs from the isolator state begins the 20 ms, the isolator
state's own level ends them. -/
def State.isolatorInput (s : State) (f : FanId) (isOpen : Bool) : State :=
  let F := s.fans[f]
  let t := if isOpen = F.isoOpen then none else if F.isoTimer.isSome then F.isoTimer else s.startMs 20
  { s.setFan f { F with isoTimer := t } with
    pins := { s.pins with isolatorOpen := s.pins.isolatorOpen.set f isOpen } }

/-- The 20 ms interval of an isolator input ends (R100). -/
def State.isolatorAccepted (s : State) (f : FanId) : State :=
  if s.fans[f].isoTimer = none then s else s.isolatorState f (!s.fans[f].isoOpen)

end Sys2Proof.Machine
end

