-- ==== Sys2Proof/Machine/Demand.lean ====
section
/-! DEFINITION. Machine/Demand.lean: the ventilation demand unit (chapter 5): term validity, kind status and level,
demands, alarms, the limited demand, the velocity command, jet commands, hand-off and renewal. -/

namespace Sys2Proof.Machine

/-- The four kinds in table order. -/
def allKinds : List Kind := [.co, .no2, .opac, .vel]

/-- VEL forms no demand and has no alarm (R85, R86). -/
def isGas : Kind → Bool
  | .co => true
  | .no2 => true
  | .opac => true
  | .vel => false

/-- The term list of a kind (R77). -/
def State.termsOf (s : State) (k : Kind) : List Term := (s.terms.toList.drop (8 * (kindCode k - 1))).take 8

/-- A LOCAL term's value, if it is valid (R78). -/
def State.localTerm (s : State) (k : Kind) (t : Term) : Option Int :=
  let r := s.channels[t.channel].reading
  if r.kind = some k ∧ r.hasValue ∧ r.fault = false then some r.value else none

/-- A TAP term's value, if it is valid (R79). A term of offset 0 is always invalid, also where a locked way holds the
node's own key. -/
def State.tapTerm (s : State) (k : Kind) (t : Term) : Option Int :=
  let pos : Int := s.posA + t.offset
  if t.offset ≠ 0 ∧ s.posA ≠ 0 ∧ 1 ≤ pos ∧ pos ≤ 254 then
    match tapLookup s.tap pos.toNat t.channel.val with
    | none => none
    | some e => if e.kind = k ∧ e.fault = false ∧ e.age ≤ s.node.staleLimit then some e.value else none
  else none

/-- A term's value, if it is valid. -/
def State.termValue (s : State) (k : Kind) (t : Term) : Option Int :=
  match t.source with
  | .loc => s.localTerm k t
  | .tap => s.tapTerm k t

/-- The valid weight W and the weighted sum of a kind's valid terms (R81, R84). -/
def State.weigh (s : State) (k : Kind) : Nat × Int :=
  (s.termsOf k).foldl
    (fun acc t =>
      match s.termValue k t with
      | none => acc
      | some v => (acc.1 + t.weight, acc.2 + t.weight * v))
    (0, 0)

/-- The quorum met: a Q of 0 is taken as 1 (R80, R81). -/
def KindCfg.meets (c : KindCfg) (w : Nat) : Bool := decide (max c.quorum 1 ≤ w)

/-- The status, level and hold timer of a used kind at an evaluation (R81, R82, R84). -/
def KindUnit.settle (now w : Nat) (sum : Int) (K : KindUnit) : KindUnit :=
  let K := { K with weight := w }
  if K.cfg.meets w then { K with status := .ok, level := some (roundDiv sum w), holdTimer := none }
  else
    match K.status with
    | .ok =>
      if K.cfg.hold = 0 then { K with status := .failed }
      else { K with status := .degraded, holdTimer := some (now + usOfSec K.cfg.hold) }
    | .degraded => K
    | .failed => K
    | .unused => K

/-- The ramp of R85. -/
def KindCfg.ramp (c : KindCfg) (l : Int) : Nat :=
  if c.tLo < c.tHi then
    if l ≤ c.tLo then 0 else if c.tHi ≤ l then 1000 else (1000 * (l - c.tLo) / (c.tHi - c.tLo)).toNat
  else if l < c.tHi then 0
  else 1000

/-- The per-kind demand of a gas kind (R85). -/
def KindUnit.demand (K : KindUnit) : Nat :=
  match K.status with
  | .unused => 0
  | .ok => K.cfg.ramp (K.level.getD 0)
  | .degraded => K.cfg.ramp (K.level.getD 0)
  | .failed => K.cfg.failed

/-- C′ of R86. -/
def KindCfg.effClear (c : KindCfg) : Int := if c.alarm ≤ c.clear then c.alarm - 1 else c.clear

/-- The alarm state of a gas kind after an evaluation (R86). -/
def KindUnit.alarmAfter (K : KindUnit) : Bool :=
  let l := K.level.getD 0
  match K.status with
  | .ok => if K.alarm then !decide (l ≤ K.cfg.effClear) else decide (K.cfg.alarm ≤ l)
  | .degraded => if K.alarm then !decide (l ≤ K.cfg.effClear) else decide (K.cfg.alarm ≤ l)
  | .failed => K.alarm
  | .unused => K.alarm

/-- A kind after stages 1 to 3 of an evaluation (R75); an UNUSED kind is not evaluated (R83). -/
def State.evaluated (s : State) (k : Kind) : KindUnit :=
  let K := s.kind k
  if K.status = .unused then K
  else
    let K := K.settle s.now (s.weigh k).1 (s.weigh k).2
    if isGas k then { K with d := K.demand, alarm := K.alarmAfter } else K

/-- The failed source of a kind follows its status (R87). -/
def State.failedChange (s : State) (k : Kind) (was is : KindStatus) : State :=
  if is = .failed ∧ was ≠ .failed then s.occur (srcKindFailed k)
  else if was = .failed ∧ is ≠ .failed then s.clearSource (srcKindFailed k)
  else s

/-- The alarm source of a gas kind follows its alarm state (R86). -/
def State.alarmChange (s : State) (k : Kind) (was is : Bool) : State :=
  match srcGasAlarm k with
  | none => s
  | some n => if is && !was then s.occur n else if was && !is then s.clearSource n else s

/-- The source changes between two sets of kinds: statuses in kind order, then alarms (log entry 27). -/
def State.kindSources (old : Kinds) (s : State) : State :=
  let new := s.kinds
  let s := s.failedChange .co old.co.status new.co.status
  let s := s.failedChange .no2 old.no2.status new.no2.status
  let s := s.failedChange .opac old.opac.status new.opac.status
  let s := s.failedChange .vel old.vel.status new.vel.status
  let s := s.alarmChange .co old.co.alarm new.co.alarm
  let s := s.alarmChange .no2 old.no2.alarm new.no2.alarm
  s.alarmChange .opac old.opac.alarm new.opac.alarm

/-- A hold timer's expiry (R82). -/
def State.kindHoldExpired (s : State) (k : Kind) : State :=
  let K := s.kind k
  if K.holdTimer = none then s
  else (s.setKind k { K with status := .failed, holdTimer := none }).failedChange k K.status .failed

/-- A kind after a change of its term list (R83). -/
def KindUnit.usedChange (used : Bool) (K : KindUnit) : KindUnit :=
  if used then if K.status = .unused then { K with status := .failed, level := none } else K
  else if K.status = .unused then K
  else { K with status := .unused, level := none, weight := 0, holdTimer := none, alarm := false, d := 0 }

/-- Some weight of the kind's list is not 0 (R83). -/
def State.kindUsed (s : State) (k : Kind) : Bool := (s.termsOf k).any fun t => t.weight != 0

/-- Every kind enters or leaves UNUSED as the term lists now have it (R83). -/
def State.termsChanged (s : State) : State :=
  let s' := { s with kinds :=
    { co := s.kinds.co.usedChange (s.kindUsed .co)
      no2 := s.kinds.no2.usedChange (s.kindUsed .no2)
      opac := s.kinds.opac.usedChange (s.kindUsed .opac)
      vel := s.kinds.vel.usedChange (s.kindUsed .vel) } }
  s'.kindSources s.kinds

/-! ### Limited demand and velocity -/

/-- R_up and R_dn as used: 0 is taken as 1 (R88). -/
def NodeCfg.effUp (n : NodeCfg) : Nat := max n.rUp 1
def NodeCfg.effDn (n : NodeCfg) : Nat := max n.rDn 1

/-- D_lim moved toward D (R88). -/
def NodeCfg.limit (n : NodeCfg) (d lim : Nat) : Nat :=
  if lim < d then lim + min (d - lim) n.effUp else lim - min (lim - d) n.effDn

/-- One controller step of u toward a target (R90). -/
def NodeCfg.velocityStep (n : NodeCfg) (vt level u : Int) : Int :=
  clampInt (-1000) 1000
    (u + clampInt (-(n.effUp : Int)) n.effUp (((n.kp : Int) * (vt - level)).tdiv 256))

/-- u after an evaluation (R90). -/
def State.uAfter (s : State) : Int :=
  match s.jetDirective with
  | .velocity vt =>
    match s.kinds.vel.status with
    | .ok => s.node.velocityStep vt (s.kinds.vel.level.getD 0) s.u
    | .degraded => s.node.velocityStep vt (s.kinds.vel.level.getD 0) s.u
    | .failed => s.u
    | .unused => s.u
  | .auto => s.u
  | .off => s.u
  | .fixed _ _ => s.u
  | .holdLast _ _ => s.u

/-- D_lim after an evaluation (R88). -/
def State.dLimAfter (s : State) (d : Nat) : Nat :=
  match s.jetDirective with
  | .auto => s.node.limit d s.dLim
  | .off => s.dLim
  | .fixed _ _ => s.dLim
  | .velocity _ => s.dLim
  | .holdLast _ _ => s.dLim

/-- The zone demand D (R88). -/
def Kinds.zoneDemand (K : Kinds) : Nat := max (max K.co.d K.no2.d) K.opac.d

/-- The signed magnitude of a command record (R91). -/
def Cmd.signed (c : Cmd) : Int :=
  match c.dir with
  | some .forward => c.mag
  | some .reverse => -(c.mag : Int)
  | none => 0

/-- The seed of u (R91): the last command record of the first available jet channel, or 0. -/
def State.seed (s : State) : Int :=
  if s.fans[jet1].available then s.fans[jet1].handed.signed
  else if s.fans[jet2].available then s.fans[jet2].handed.signed
  else 0

/-! ### Jet commands -/

/-- The staged magnitude of a channel of the given offset (R92); an offset of 1000 is taken as 999. -/
def staged (m off : Nat) : Nat :=
  let off := min off 999
  if m ≤ off then 0 else (m - off) * 1000 / (1000 - off)

/-- The stage offset of a jet channel: 0 for the first available one (R92). -/
def State.offsetOf (s : State) (f : FanId) : Nat :=
  if f = jet1 then 0 else if s.fans[jet1].available then s.fans[f].cfg.stageOffset else 0

/-- The direction of u. -/
def dirOfSign (u : Int) : Option Direction := if 0 < u then some .forward else if u < 0 then some .reverse else none

/-- The command the directive forms for a jet channel, before minimum run (R92, R93). -/
def State.formed (s : State) (f : FanId) : Cmd :=
  if s.fans[f].available then
    match s.jetDirective with
    | .auto => ⟨staged s.dLim (s.offsetOf f), some s.node.autoDirection⟩
    | .off => {}
    | .fixed d v => ⟨v, some d⟩
    | .velocity _ => ⟨staged s.u.natAbs (s.offsetOf f), dirOfSign s.u⟩
    | .holdLast c1 c2 => if f = jet1 then c1 else c2
  else {}

/-- The command handed to a jet channel (R94). -/
def State.jetCommand (s : State) (f : FanId) : Cmd := s.fans[f].minRun (s.formed f)

/-- Stages 6 and 7 of R75: the commands are formed from one reading of the channel states, then handed (R96). -/
def State.handOff (s : State) : State :=
  let c1 := s.jetCommand jet1
  let c2 := s.jetCommand jet2
  ((s.handJet jet1 c1).handJet jet2 c2).handPassage

/-- A renewal under VELOCITY seeds u before it forms its commands (R91). -/
def State.seeded (s : State) : State :=
  match s.jetDirective with
  | .velocity _ => { s with u := s.seed }
  | .auto => s
  | .off => s
  | .fixed _ _ => s
  | .holdLast _ _ => s

/-- A directive renewal (R76, R91). -/
def State.renew (s : State) : State :=
  s.seeded.handOff

/-! ### The full evaluation (R75) -/

/-- Stages 1 to 5: kinds, D, D_lim and u. -/
def State.evaluate (s : State) : State :=
  let kinds : Kinds :=
    { co := s.evaluated .co, no2 := s.evaluated .no2, opac := s.evaluated .opac, vel := s.evaluated .vel }
  let s' := { s with kinds := kinds, demand := kinds.zoneDemand, dLim := s.dLimAfter kinds.zoneDemand }
  { s' with u := s'.uAfter }

/-- A control timer expiry: the timer starts anew, the evaluation is made, its source changes are raised and the
commands handed over (R75). -/
def State.controlExpired (s : State) : State :=
  ({ s with controlTimer := s.startSec s.node.controlPeriod }.evaluate.kindSources s.kinds).handOff

end Sys2Proof.Machine
end

