-- ==== Sys2Proof/Machine/Door.lean ====
section
/-! DEFINITION. Machine/Door.lean: the state rules of a door channel (chapter 7): debounce, release, opening, closing,
holding, relocking, lock feedback, policy and lamp. A door's rules are functions of the door, the core clock time and
whether the node is STARTING; `State.doorTo` raises what follows from a door's change. -/

namespace Sys2Proof.Machine

/-! ### Rules of one door -/

/-- A pressed bar with the egress timer stopped starts it, at a re-evaluation (R123). -/
def Door.barTimer (now : Nat) (D : Door) : Timer :=
  if D.pushBar.level && D.egressTimer.isNone then some (now + usOfSec D.cfg.egressTime) else D.egressTimer

/-- A closed door is placed: RELEASED when it requires release, SECURED when it does not (R123). -/
def Door.placed (starting : Bool) (D : Door) : Door :=
  if D.requiresRelease starting then { D with state := .released (D.releaseCause starting) }
  else { D with state := .secured, egressTimer := none }

/-- The re-evaluation of a closed door (R123). -/
def Door.reevaluate (now : Nat) (starting : Bool) (D : Door) : Door :=
  { D with egressTimer := D.barTimer now }.placed starting

/-- The bar is pressed (R124, R125, R129), and whether that is an occurrence of the egress source. -/
def Door.pressed (now : Nat) (starting : Bool) (D : Door) : Door × Bool :=
  let t : Timer := some (now + usOfSec D.cfg.egressTime)
  match D.state with
  | .secured => ({ D with state := .released .egress, egressTimer := t }, true)
  | .released _ => ({ D with egressTimer := t, state := .released (D.releaseCause starting) }, false)
  | .relocking => ({ D with state := .released .egress, egressTimer := t, relockTimer := none }, true)
  | .opened _ => (D, false)
  | .held => (D, false)
  | .fault => (D, false)

/-- The cause an open door takes from a released one (R125). -/
def ReleaseCause.toOpen : ReleaseCause → OpenCause
  | .policy => .policy
  | .egress => .egress

/-- Entry to OPEN: the hold timer starts and the closed door's timers stop (R124 to R126, R129). -/
def Door.enterOpen (now : Nat) (c : OpenCause) (D : Door) : Door :=
  { D with
    state := .opened c, egressTimer := none, relockTimer := none
    holdTimer := some (now + usOfSec D.cfg.holdLimit) }

/-- The door opens (R124, R125, R129), and whether that is an occurrence of the egress source. -/
def Door.opens (now : Nat) (D : Door) : Door × Bool :=
  match D.state with
  | .secured => (D.enterOpen now .forced, true)
  | .released c => (D.enterOpen now c.toOpen, false)
  | .relocking => (D.enterOpen now .egress, false)
  | .opened _ => (D, false)
  | .held => (D, false)
  | .fault => (D, false)

/-- An OPEN or HELD door closes (R129); a required release is entered as at a re-evaluation (log entry 13). -/
def Door.shut (now : Nat) (starting : Bool) (D : Door) : Door :=
  let D := { D with holdTimer := none, holdExpired := false }
  if D.requiresRelease starting then D.reevaluate now starting
  else { D with state := .relocking, relockTimer := some (now + usOfSec D.cfg.relockDelay) }

/-- The door closes. -/
def Door.closes (now : Nat) (starting : Bool) (D : Door) : Door :=
  match D.state with
  | .opened _ => D.shut now starting
  | .held => D.shut now starting
  | .secured => D
  | .released _ => D
  | .relocking => D
  | .fault => D

/-- The edge events that the state rules act on (R120). -/
def Door.edgeEvent (now : Nat) (starting : Bool) (i : DoorInput) (level : Bool) (D : Door) : Door × Bool :=
  match i with
  | .closed => if level then (D.closes now starting, false) else D.opens now
  | .pushBar => if level then D.pressed now starting else (D, false)
  | .lockEngaged => (D, false)

/-- The debounce interval of an input ends: the change is accepted (R120). -/
def Door.accept (i : DoorInput) (D : Door) : Door :=
  let x := D.input i
  D.setInput i { level := !x.level, candidate := none, timer := none, lastEdge := x.candidate }

/-- The raw level of an input changes (R120). -/
def Door.rawChange (now : Nat) (t : Stamp) (i : DoorInput) (level : Bool) (D : Door) : Door :=
  let x := D.input i
  if level = x.level then D.setInput i { x with candidate := none, timer := none }
  else if x.timer.isSome then D
  else D.setInput i { x with candidate := some t, timer := some (now + usOfMs D.cfg.debounce) }

/-- The egress timer expires (R126). -/
def Door.egressExpired (now : Nat) (starting : Bool) (D : Door) : Door :=
  if D.egressTimer = none then D
  else if D.pushBar.level then { D with egressTimer := some (now + usOfSec D.cfg.egressTime) }
  else { D with egressTimer := none }.reevaluate now starting

/-- Entry to HELD (R128): the hold timer and the hold expired mark are cleared. -/
def Door.enterHeld (D : Door) : Door := { D with state := .held, holdTimer := none, holdExpired := false }

/-- The hold timer expires (R127). -/
def Door.holdExpires (D : Door) : Door :=
  if D.holdTimer = none then D
  else if D.policy = .holdOpen then { D with holdTimer := none, holdExpired := true }
  else D.enterHeld

/-- The relock timer expires (R129). -/
def Door.relockExpired (now : Nat) (starting : Bool) (D : Door) : Door :=
  if D.relockTimer = none then D else { D with relockTimer := none }.reevaluate now starting

/-- The feedback timer expires: entry to FAULT (R130). -/
def Door.feedbackExpired (D : Door) : Door :=
  if D.feedbackTimer = none then D
  else
    { D with
      state := .fault, egressTimer := none, holdTimer := none, relockTimer := none, feedbackTimer := none
      holdExpired := false }

/-- DOOR_RESET (R131): it acts on a door in FAULT alone. -/
def Door.reset (now : Nat) (starting : Bool) (D : Door) : Door :=
  if D.state = .fault then
    if D.closed.level then D.reevaluate now starting
    else D.enterOpen now (if D.policy.isOpen then .policy else .egress)
  else D

/-- The door takes its new policy by the rules of its state (R122 to R125, R127, R129). -/
def Door.takePolicy (now : Nat) (starting : Bool) (D : Door) : Door :=
  match D.state with
  | .secured => if D.policy.isOpen then { D with state := .released .policy } else D
  | .released _ =>
    if D.policy.isOpen then { D with state := .released (D.releaseCause starting) } else D.reevaluate now starting
  | .relocking => if D.policy.isOpen then { D with state := .released .policy, relockTimer := none } else D
  | .opened _ => if D.holdExpired && D.policy != .holdOpen then D.enterHeld else D
  | .held => D
  | .fault => D

/-- The effective policy is formed again: a change of it is an event of the door (R122). -/
def Door.policyChange (now : Nat) (starting : Bool) (p : Policy) (D : Door) : Door :=
  if p = D.policy then D else { D with policy := p }.takePolicy now starting

/-- The node leaves STARTING: a RELEASED door is re-evaluated (R125, R134). -/
def Door.leaveStarting (now : Nat) (D : Door) : Door :=
  match D.state with
  | .released _ => D.reevaluate now false
  | .secured => D
  | .opened _ => D
  | .held => D
  | .relocking => D
  | .fault => D

/-- The feedback comparison after a door went from `old` to `D` (R130): in FAULT none is made; coming to disagree
starts the timer, coming to agree stops it. -/
def Door.supervise (now : Nat) (D old : Door) : Door :=
  if D.state = .fault ∨ D.agrees then { D with feedbackTimer := none }
  else if old.agrees ∨ old.state = .fault then { D with feedbackTimer := some (now + usOfSec D.cfg.feedbackTime) }
  else D

/-- The lamp takes a mode (R133). -/
def Door.takeLamp (now : Nat) (old new : LampMode) (D : Door) : Door :=
  match new with
  | .off => { D with lamp := false, lampTimer := none }
  | .steady => { D with lamp := true, lampTimer := none }
  | .flash => if old = .flash then D else { D with lamp := true, lampTimer := some (now + usOfMs D.cfg.flashHalf) }

/-- A compare match of the lamp timer (R133): the compare value advances from the match itself. -/
def Door.lampMatch (D : Door) : Door :=
  match D.lampTimer with
  | none => D
  | some t => { D with lamp := !D.lamp, lampTimer := some (t + usOfMs D.cfg.flashHalf) }

/-! ### The doors in the node -/

/-- The node is STARTING. -/
def State.isStarting (s : State) : Bool := s.nodeState == .starting

/-- A level source follows a condition that went from `was` to `is`. -/
def State.follow (n : EntryId) (was is : Bool) (s : State) : State :=
  if is && !was then s.occur n else if was && !is then s.clearSource n else s

/-- An occurrence, if there is one. -/
def State.occurIf (n : EntryId) (is : Bool) (s : State) : State := if is then s.occur n else s

/-- The passage request is formed again when a door's state entered or left OPEN or HELD (R114). -/
def State.passageFollows (was is : Bool) (s : State) : State := if was = is then s else s.reformPassage

/-- A door goes to a new value: its lock feedback is compared, its egress, fault and held sources follow, in that order
(log entry 27), and the passage request follows its position. -/
def State.doorTo (s : State) (d : DoorId) (D : Door) (egress : Bool) : State :=
  ((((s.setDoor d (D.supervise s.now s.doors[d])).occurIf (srcEgress d) egress).follow
    (srcDoorFault d) (s.doors[d].state == .fault) (D.state == .fault)).follow
    (srcHeld d) (s.doors[d].state == .held) (D.state == .held)).passageFollows
    s.doors[d].isOpenState D.isOpenState

/-- An accepted change of a door input (R120). -/
def State.doorDebounced (s : State) (d : DoorId) (i : DoorInput) : State :=
  let D := s.doors[d]
  if (D.input i).timer = none then s
  else
    let r := (D.accept i).edgeEvent s.now s.isStarting i (!(D.input i).level)
    s.doorTo d r.1 r.2

/-- A raw change of a door input (R120). -/
def State.doorInput (s : State) (d : DoorId) (i : DoorInput) (level : Bool) : State :=
  { s.setDoor d (s.doors[d].rawChange s.now s.stamp i level) with
    pins := { s.pins with door := s.pins.door.set d (s.pins.door[d].setLevel i level) } }

/-- The effective policy of a door is formed again (R122). -/
def State.repolicy (s : State) (d : DoorId) : State :=
  s.doorTo d (s.doors[d].policyChange s.now s.isStarting (s.effectivePolicy d)) false

/-- Both doors' policies are formed again, DOOR1 first (log entry 27). -/
def State.repolicyBoth (s : State) : State := (s.repolicy 0).repolicy 1

/-- The lamp mode of the ACTIVE context's step is taken by both doors (R133). -/
def State.retakeLamp (s : State) : State :=
  { s with
    lampMode := s.lampDirective
    doors := Vector.ofFn fun d => s.doors[d].takeLamp s.now s.lampMode s.lampDirective }

/-- A RELEASED door is re-evaluated when the node has left STARTING (R134). -/
def State.doorLeavesStarting (s : State) (d : DoorId) : State := s.doorTo d (s.doors[d].leaveStarting s.now) false

/-- Both RELEASED doors are re-evaluated when the node has left STARTING (R134), DOOR1 first (log entry 27). -/
def State.doorsLeaveStarting (s : State) : State :=
  (s.doorLeavesStarting 0).doorLeavesStarting 1

end Sys2Proof.Machine
end

