-- ==== Sys2Proof/Machine/Plan.lean ====
section
/-! DEFINITION. Machine/Plan.lean: the plan unit (chapter 9): step entry, step end, resumption, launch, drop, acceptance
decisions, CLEAR_PLAN; and `settle`, which takes the step end and the acceptance decisions that an event owes
(log entry 3). -/

namespace Sys2Proof.Machine

/-! ### Steps -/

/-- A step timer set now with a duration in s (R160). -/
def State.runFor (s : State) (sec : Nat) : StepTimer := .running (s.now + usOfSec sec)

/-- The step timer at entry to a step, and whether the step awaits a clearing of its source (R160, R161). -/
def State.entryTimer (s : State) (n : EntryId) (p : PlanStep) : StepTimer × Bool :=
  match p.endCond with
  | .timer => (s.runFor (max p.duration 1), false)
  | .sourceClear =>
    if isLevel n && s.latch[n].asserted then (if p.duration = 0 then .none else s.runFor p.duration, true)
    else (s.runFor (max p.duration 1), false)
  | .held => (.none, false)

/-- A context as it enters a step (R159). -/
def State.entered (s : State) (i : Fin 64) (c : Context) : Context :=
  let t := s.entryTimer c.source s.plan[i]
  { c with
    step := i, timer := t.1, waiting := t.2, clearSeen := false
    captured := if s.plan[i].jet = .holdLast then some (s.fans[jet1].handed, s.fans[jet2].handed) else none }

/-- The spread TRIGGER of a step (R159). -/
def State.spreadFrame (s : State) (p : PlanStep) : Frame :=
  .trigger
    { origin := BitVec.ofNat 8 s.posA
      mode := p.spreadMode
      code := p.spreadCode
      first := BitVec.ofNat 8 (max (s.posA - p.spreadSpan) 1)
      last := BitVec.ofNat 8 (min (s.posA + p.spreadSpan) 254) }

/-- The spread of a step goes out unless its code or posA is 0 (R159). -/
def State.spread (s : State) (p : PlanStep) : State :=
  if p.spreadCode = 0 ∨ s.posA = 0 then s else s.sendLocal (s.spreadFrame p)

/-- The ACTIVE context enters a step (R159). -/
def State.enterStep (s : State) (i : Fin 64) : State :=
  match s.stack with
  | [] => s
  | c :: rest => (s.setStack (s.entered i c :: rest)).spread s.plan[i]

/-- The valid next step of a context's current step, as the field stands (R162). -/
def State.nextStep (s : State) (c : Context) : Option (Fin 64) :=
  (s.stepOf c).next.filter fun j => s.plan[j].valid

/-! ### End and resumption -/

/-- The serve state of a latch entry set. -/
def State.setServe (s : State) (n : EntryId) (v : Serve) : State := s.setLatch n { s.latch[n] with serve := v }

/-- The source's entry of a context that ended: SPENT or IDLE (R163, step 2). -/
def State.serveEnded (s : State) (n : EntryId) : State := s.setServe n (s.latch[n].afterEnd n)

/-- The ACTIVE context ends: steps 1 to 3 of R163. CL changes, so a decision is owed (R154). -/
def State.endContext (s : State) : State :=
  match s.stack with
  | [] => s
  | c :: rest => (((s.report c.source .ended (some c.step)).serveEnded c.source).setStack rest).oweDecision

/-- A kept end is taken at resumption: remaining time 0, or clear seen (R160, R161). -/
def Context.endPending (c : Context) : Bool := c.timer == .frozen 0 || c.clearSeen

/-- A frozen step timer counts down again from its remaining time (R160). -/
def StepTimer.thaw (now : Nat) : StepTimer → StepTimer
  | .none => .none
  | .running t => .running t
  | .frozen ms => .running (now + usOfMs ms)

/-- The top of the stack resumes, at most `k` contexts ending on the way (R163). -/
def State.resume : Nat → State → State
  | 0, s => s
  | k + 1, s =>
    match s.stack with
    | [] => s
    | c :: rest =>
      if c.endPending then
        match s.nextStep c with
        | some j => s.enterStep j
        | none => State.resume k s.endContext
      else s.setStack ({ c with timer := c.timer.thaw s.now } :: rest)

/-- The ACTIVE context ends and the newest saved context resumes (R163). -/
def State.endActive (s : State) : State := State.resume s.stack.length s.endContext

/-- The ACTIVE context's step ends (R162). -/
def State.endStep (s : State) : State :=
  match s.stack with
  | [] => s
  | c :: _ =>
    match s.nextStep c with
    | some j => s.enterStep j
    | none => s.endActive

/-- What follows a change of the stack (R157, R159, R163): the renewal, the doors' policies and the lamp's mode. -/
def State.afterStackChange (s : State) : State := s.renew.repolicyBoth.retakeLamp

/-- Every context ends, newest first, none resuming (R164). -/
def State.endAll : Nat → State → State
  | 0, s => s
  | k + 1, s => State.endAll k s.endContext

/-- CLEAR_PLAN ACTIVE (R164). -/
def State.clearActive (s : State) : State := if s.stack = [] then s else s.endActive.afterStackChange

/-- CLEAR_PLAN ALL (R164). -/
def State.clearAll (s : State) : State :=
  if s.stack = [] then s else (State.endAll s.stack.length s).afterStackChange

/-! ### Launch and drop -/

/-- A step timer as it is kept when its context becomes saved (R160). -/
def StepTimer.freeze (now : Nat) : StepTimer → StepTimer
  | .none => .none
  | .running t => .frozen (ceilMs (t - now))
  | .frozen ms => .frozen ms

/-- The ACTIVE context becomes saved (R157, step 1). -/
def State.saveActive (s : State) : State :=
  match s.stack with
  | [] => s
  | c :: rest => s.setStack ({ c with timer := c.timer.freeze s.now } :: rest)

/-- The serve state of a dropped context's source (R158). -/
def State.serveAfterDrop (s : State) (n : EntryId) : Serve :=
  if isLevel n && s.latch[n].asserted && s.planValid n then .pending else .idle

/-- The source's entry of a dropped context: PENDING or IDLE (R158). -/
def State.serveDropped (s : State) (n : EntryId) : State := s.setServe n (s.serveAfterDrop n)

/-- The oldest context leaves the stack for the dropped record, with the drop time (R158). -/
def State.recordDrop (s : State) (c : Context) : State :=
  { s with stack := s.stack.dropLast, dropped := some (c, s.stamp) }

/-- The oldest saved context is dropped (R158). -/
def State.dropOldest (s : State) : State :=
  match s.stack.getLast? with
  | none => s
  | some c =>
    State.occur ((((s.recordDrop c).report c.source .dropped (some c.step)).serveDropped c.source).oweDecision)
      srcPlanDropped

/-- The context a launch builds from what the latch hands (R144, R157 step 3). -/
def State.newContext (s : State) (n : EntryId) (i : Fin 64) : Context :=
  { step := i, timer := .none, clearSeen := false, waiting := false, source := n, origin := s.latch[n].origin
    level := s.effLevel n, cls := s.effClass n, entry := s.stamp, captured := none }

/-- The launch hold starts; with the field at 0 it expires in the event that starts it (R155). -/
def State.startHold (s : State) : State :=
  { s with launchHold := if s.node.launchHold = 0 then none else s.startMs s.node.launchHold }

/-- With two contexts saved already, the oldest is dropped (R157, step 2). -/
def State.makeRoom (s : State) : State := if 3 ≤ s.stack.length then s.dropOldest else s

/-- The new context becomes ACTIVE and its entry SERVED (R157, steps 3 and 4). -/
def State.pushContext (s : State) (n : EntryId) (i : Fin 64) : State :=
  (s.setStack (s.newContext n i :: s.stack)).setServe n .served

/-- A winning entry is launched at a step (R157, steps 1 to 6). -/
def State.launch (s : State) (n : EntryId) (i : Fin 64) : State :=
  (((s.saveActive.makeRoom.pushContext n i).report n .launched (some i)).enterStep i).startHold

/-! ### Acceptance -/

/-- An entry is eligible (R153). -/
def State.eligible (s : State) (n : EntryId) : Bool :=
  s.latch[n].serve == .pending && decide (s.currentLevel < s.effLevel n) &&
    (s.effClass n == .life ||
      (decide (s.mask < s.effLevel n) && s.launchHold.isNone && s.nodeState == .operating))

/-- The better of two entries: the higher effective level, the earlier one when equal (R153). -/
def State.better (s : State) (best : Option EntryId) (n : EntryId) : Option EntryId :=
  match best with
  | none => some n
  | some b => if s.effLevel b < s.effLevel n then some n else some b

/-- The winner among the eligible entries (R153). -/
def State.winner (s : State) : Option EntryId := ((List.finRange 51).filter s.eligible).foldl s.better none

/-- The winner with the step it starts at: the entry's plan step as it stands (R157, log entry 26). -/
def State.accepted (s : State) : Option (EntryId × Fin 64) :=
  s.winner.bind fun n => (s.sourceCfg n).step.map fun i => (n, i)

/-- Acceptance decisions, each launch followed by another decision (R154). Every launch raises CL, which stays below 8,
so seven launches are the most there can be. -/
def State.decideN : Nat → State → State
  | 0, s => s
  | k + 1, s =>
    match s.accepted with
    | none => s
    | some (n, i) => State.decideN k (s.launch n i).afterStackChange

/-- The step end that a clearing owes the ACTIVE context (R161). -/
def State.settleStep (s : State) : State :=
  match s.stack with
  | [] => s
  | c :: _ => if c.clearSeen then s.endStep.afterStackChange else s

/-- No acceptance decision is owed any more. -/
def State.settledDecision (s : State) : State := { s with decisionDue := false }

/-- The acceptance decisions that the event owes (R154). -/
def State.settleDecisions (s : State) : State :=
  if s.decisionDue then (State.decideN 8 s).settledDecision else s

/-- What an event owes the plan unit: the step end a clearing asks for, then the decisions. -/
def State.settle (s : State) : State := s.settleStep.settleDecisions

/-- The ACTIVE context's step timer expires (R160). -/
def State.stepExpired (s : State) : State :=
  match s.stack with
  | [] => s
  | c :: _ =>
    match c.timer with
    | .running _ => s.endStep.afterStackChange
    | .none => s
    | .frozen _ => s

/-- The launch hold expires (R155). -/
def State.launchHoldExpired (s : State) : State :=
  if s.launchHold = none then s else { s with launchHold := none }.oweDecision

end Sys2Proof.Machine
end

