-- ==== Sys2Proof/Machine/Tables.lean ====
section
/-! DEFINITION. Machine/Tables.lean: the thirteen tables as word-addressed views of State (R170, R178, R180): the words
of each entry, the storing of configuration words with their clamps (R172), the dirty marks (R173) and the effects of a
change. -/

namespace Sys2Proof.Machine

/-- The tables (R178). -/
inductive Table where
  | status
  | channel
  | terms
  | kind
  | fan
  | door
  | source
  | linemap
  | plan
  | tap
  | node
  | latch
  | stack
  deriving DecidableEq, Repr

/-- The table of a number (R178). -/
def Table.ofNumber : Nat → Option Table
  | 0 => some .status
  | 1 => some .channel
  | 2 => some .terms
  | 3 => some .kind
  | 4 => some .fan
  | 5 => some .door
  | 6 => some .source
  | 7 => some .linemap
  | 8 => some .plan
  | 9 => some .tap
  | 10 => some .node
  | 11 => some .latch
  | 12 => some .stack
  | _ => none

/-- Words per entry (R180). -/
def Table.size : Table → Nat
  | .status => 18
  | .channel => 10
  | .terms => 4
  | .kind => 14
  | .fan => 31
  | .door => 29
  | .source => 4
  | .linemap => 5
  | .plan => 17
  | .tap => 11
  | .node => 17
  | .latch => 14
  | .stack => 21

/-- The entries of a table (R178); entry e counts from 0, the first one (R170). -/
def Table.entries : Table → Nat
  | .status => 1
  | .channel => 4
  | .terms => 32
  | .kind => 4
  | .fan => 3
  | .door => 2
  | .source => 35
  | .linemap => 16
  | .plan => 64
  | .tap => 128
  | .node => 1
  | .latch => 51
  | .stack => 4

/-- The table's length in words. -/
def Table.length (t : Table) : Nat := t.size * t.entries

/-- The configuration words of an entry, which stand first in it; the others are live (R180). -/
def Table.cfgWords : Table → Nat
  | .status => 0
  | .channel => 4
  | .terms => 4
  | .kind => 7
  | .fan => 14
  | .door => 6
  | .source => 4
  | .linemap => 5
  | .plan => 17
  | .tap => 0
  | .node => 17
  | .latch => 0
  | .stack => 0

/-- The tables 0, 9, 11 and 12 (R169). -/
def Table.readOnly (t : Table) : Bool := t.cfgWords == 0

/-! ### Words of the entries (R180) -/

/-- Seconds left on a timer, rounded up. -/
def State.left (s : State) (t : Timer) : Word := natW (ceilSeconds (remaining s.now t))

/-- The dirty marks as one word: group g adds 2^(g−1). -/
def State.dirtyWord (s : State) : Word :=
  natW ((List.finRange 15).foldl (fun acc g => acc + (if s.dirty[g] then 2 ^ g.val else 0)) 0)

/-- STORE progress (STATUS word 13). -/
def StoreState.progress : StoreState → Nat
  | .idle => 0
  | .group g _ _ => g.val + 1
  | .header _ _ => 16

def State.statusWords (s : State) : List Word :=
  [natW (nodeStateCode s.nodeState), natW (resetCauseCode s.resetCause), natW s.posA, natW s.posB,
    natW (portStateCode s.ports.a.state), natW (portStateCode s.ports.b.state)]
  ++ stampWords (some s.stamp)
  ++ [natW s.currentLevel, natW s.mask, natW s.stack.length, s.dirtyWord, natW s.storing.progress,
    natW s.lastFailing, natW s.demand, natW s.dLim, intW s.u]

def Channel.words (C : Channel) : List Word :=
  [natW (optKindCode C.cfg.kind), intW C.cfg.lo, intW C.cfg.hi, natW C.cfg.window, natW C.ring.length,
    natW (convOutcomeCode C.last), boolW C.fault, natW C.goodRun, boolW C.smoothed.isSome, intW (C.smoothed.getD 0)]

def Term.words (t : Term) : List Word :=
  [natW (termSourceCode t.source), intW t.offset, natW t.channel.val, natW t.weight]

def State.kindWords (s : State) (K : KindUnit) : List Word :=
  [natW K.cfg.quorum, natW K.cfg.hold, intW K.cfg.tLo, intW K.cfg.tHi, intW K.cfg.alarm, intW K.cfg.clear,
    natW K.cfg.failed, natW (kindStatusCode K.status), boolW K.level.isSome, intW (K.level.getD 0), natW K.weight,
    s.left K.holdTimer, boolW K.alarm, natW K.d]

/-- The words of a command: magnitude, direction. -/
def Cmd.words (c : Cmd) : List Word := [natW c.mag, natW (optDirectionCode c.dir)]

/-- The periods in the capture pair. -/
def Fan.periods (F : Fan) : Nat := (if F.pNew.isSome then 1 else 0) + (if F.pPrev.isSome then 1 else 0)

def FanCfg.words (c : FanCfg) : List Word :=
  [natW c.stageOffset, natW c.startLevel, natW c.stopLevel, natW c.passageSpeed, natW c.tp, natW c.dMin, natW c.dMax,
    natW c.ratedPeriod, natW c.startTime, natW c.confirmSpeed, natW c.stallRatio, natW c.stallTime, natW c.coastDwell,
    natW c.stillThreshold]

def State.fanWords (s : State) (f : FanId) : List Word :=
  let F := s.fans[f]
  F.cfg.words
  ++ [natW (fanStateCode F.state), natW (optDirectionCode (fanStateDir F.state)), natW (optDirectionCode F.lastDir)]
  ++ F.handed.words ++ [natW F.handedDuty] ++ F.request.words
  ++ [natW F.duty, natW F.tp, natW F.speed, natW F.periods, s.left F.startTimer, s.left F.stallTimer,
    s.left F.dwellTimer, boolW F.isoOpen, boolW (f != passage && s.guardApplies)]

def DoorCfg.words (c : DoorCfg) : List Word :=
  [natW c.debounce, natW c.egressTime, natW c.holdLimit, natW c.relockDelay, natW c.feedbackTime, natW c.flashHalf]

def State.doorWords (s : State) (D : Door) : List Word :=
  D.cfg.words
  ++ [natW (doorStateCode D.state), natW (doorCauseCode D.state), boolW D.closed.level, boolW D.lockEngaged.level,
    boolW D.pushBar.level]
  ++ stampWords D.closed.lastEdge ++ stampWords D.lockEngaged.lastEdge ++ stampWords D.pushBar.lastEdge
  ++ [natW (policyCode D.policy), s.left D.egressTimer, s.left D.holdTimer, s.left D.relockTimer,
    s.left D.feedbackTimer, boolW D.holdExpired, boolW D.lockDrive, boolW D.operatorDrive, boolW D.lamp]

def SourceCfg.words (c : SourceCfg) : List Word :=
  [natW (classCode c.cls), natW c.level, natW (stepCode c.step), boolW c.report]

def LineMapEntry.words (e : LineMapEntry) : List Word := e.code :: e.cfg.words

def PlanStep.words (p : PlanStep) : List Word :=
  [boolW p.valid, boolW p.isProtected, natW (stepCode p.next), natW p.duration, natW (endCondCode p.endCond),
    natW (jetCode p.jet), natW (directionCode p.fixedDir), natW p.fixedSpeed, intW p.vt, natW (passageCode p.passage),
    natW (policyCode p.door1), natW (policyCode p.door2), natW p.guardSpan, natW (lampCode p.lamp), p.spreadCode,
    natW p.spreadSpan, natW (modeCode p.spreadMode)]

/-- A TAP entry; an invalid place reads as zeros but for the way's lock (log entry 18). -/
def State.tapWords (s : State) (i : Fin 128) : List Word :=
  let locked := boolW (wayLocked s.node.effLock (wayOf i))
  match s.tap[i] with
  | none => [0, 0, 0, 0, 0, 0, 0, 0, 0, 0, locked]
  | some e =>
    [1, boolW e.lockedLoad, natW e.origin, natW e.channel, natW (kindCode e.kind), intW e.value,
      natW (flagsCode e.clamped e.fault), natW e.age, natW (kindCode e.loadKind), intW e.loadValue, locked]

def NodeCfg.words (n : NodeCfg) : List Word :=
  [natW n.reportPeriod, natW n.sampleReach, natW n.linkTimeout, natW n.fillPeriod, natW n.sampleAgeLimit,
    natW n.tapLock, boolW n.tapProtect, natW n.learnWindow, natW (learnMaskCode n.learnMask), natW n.controlPeriod,
    natW n.staleLimit, natW n.rUp, natW n.rDn, natW n.kp, natW (directionCode n.autoDirection), natW n.launchHold,
    boolW n.planProtect]

def State.latchWords (s : State) (n : EntryId) : List Word :=
  let e := s.latch[n]
  [boolW e.asserted, natW e.count.toNat, boolW e.unack] ++ stampWords e.first ++ stampWords e.last
  ++ [natW e.origin, natW (serveCode e.serve), s.sourceCode n, natW (classCode (s.effClass n)), natW (s.effLevel n)]

/-- The remaining ms of a step timer, a running one's rounded up (log entry 16); 0 where there is none. -/
def StepTimer.left (now : Nat) : StepTimer → Nat
  | .none => 0
  | .running t => ceilMs (t - now)
  | .frozen ms => ms

/-- The 21 words of a STACK place: a context with its drop time, or an empty place. -/
def State.contextWords (s : State) : Option (Context × Option Stamp) → List Word
  | none => List.replicate 21 0
  | some (c, drop) =>
    [1, natW c.step.val, boolW (c.timer != .none)] ++ natWords (c.timer.left s.now)
    ++ [boolW c.clearSeen, natW (c.source.val + 1), natW c.origin, natW c.level, natW (classCode c.cls)]
    ++ stampWords (some c.entry) ++ [boolW c.captured.isSome]
    ++ (c.captured.getD ({}, {})).1.words ++ (c.captured.getD ({}, {})).2.words ++ stampWords drop

/-- The places of the STACK table: ACTIVE, newest saved, oldest saved, dropped record (R167). A lone saved context stands in
the newest's place (log entry 31). -/
def State.stackPlace (s : State) (e : Nat) : Option (Context × Option Stamp) :=
  if e < 3 then s.stack[e]?.map fun c => (c, none) else s.dropped.map fun d => (d.1, some d.2)

/-- The kind of a KIND entry. -/
def kindAt (e : Nat) : Kind := (kindOfCode (e + 1)).getD .vel

/-- The words of a table's entry (R180); entry e counts from 0. -/
def State.entryWords (s : State) (t : Table) (e : Nat) : List Word :=
  match t with
  | .status => s.statusWords
  | .channel => if h : e < 4 then s.channels[e].words else []
  | .terms => if h : e < 32 then s.terms[e].words else []
  | .kind => s.kindWords (s.kind (kindAt e))
  | .fan => if h : e < 3 then s.fanWords ⟨e, h⟩ else []
  | .door => if h : e < 2 then s.doorWords s.doors[e] else []
  | .source => if h : e < 35 then s.sources[e].words else []
  | .linemap => if h : e < 16 then s.lines[e].words else []
  | .plan => if h : e < 64 then s.plan[e].words else []
  | .tap => if h : e < 128 then s.tapWords ⟨e, h⟩ else []
  | .node => s.node.words
  | .latch => if h : e < 51 then s.latchWords ⟨e, h⟩ else []
  | .stack => s.contextWords (s.stackPlace e)

/-- The word at a word address of a table (R170). -/
def State.tableWord (s : State) (t : Table) (a : Nat) : Word := (s.entryWords t (a / t.size)).getD (a % t.size) 0

/-- `n` words from a word address on (R171). -/
def State.tableWords (s : State) (t : Table) (a n : Nat) : List Word := (List.range n).map fun i => s.tableWord t (a + i)

/-! ### Storing configuration words (R172): the new record and whether the clamp changed the value -/

/-- A stored field: the record rebuilt around the clamped value. -/
def putBack {α β : Type} (f : α → β) (r : α × Bool) : β × Bool := (f r.1, r.2)

def ChannelCfg.put (c : ChannelCfg) (w : Nat) (v : Word) : ChannelCfg × Bool :=
  match w with
  | 0 => putBack (fun x : Option Kind => { c with kind := x }) (putKind v)
  | 1 => putBack (fun x : Int => { c with lo := x }) (putAnyInt v)
  | 2 => putBack (fun x : Int => { c with hi := x }) (putAnyInt v)
  | 3 => putBack (fun x : Nat => { c with window := x }) (putNat 0 7 v)
  | _ => (c, false)

def Term.put (t : Term) (w : Nat) (v : Word) : Term × Bool :=
  match w with
  | 0 => putBack (fun x : TermSource => { t with source := x }) (putEnum .loc (termSourceOfCode v.toNat))
  | 1 => putBack (fun x : Int => { t with offset := x }) (putInt (-15) 15 v)
  | 2 => putBack (fun x : Fin 4 => { t with channel := x }) (putChannel v)
  | 3 => putBack (fun x : Nat => { t with weight := x }) (putNat 0 15 v)
  | _ => (t, false)

def KindCfg.put (c : KindCfg) (w : Nat) (v : Word) : KindCfg × Bool :=
  match w with
  | 0 => putBack (fun x : Nat => { c with quorum := x }) (putNat 0 120 v)
  | 1 => putBack (fun x : Nat => { c with hold := x }) (putNat 0 600 v)
  | 2 => putBack (fun x : Int => { c with tLo := x }) (putAnyInt v)
  | 3 => putBack (fun x : Int => { c with tHi := x }) (putAnyInt v)
  | 4 => putBack (fun x : Int => { c with alarm := x }) (putAnyInt v)
  | 5 => putBack (fun x : Int => { c with clear := x }) (putAnyInt v)
  | 6 => putBack (fun x : Nat => { c with failed := x }) (putNat 0 1000 v)
  | _ => (c, false)

def FanCfg.put (c : FanCfg) (w : Nat) (v : Word) : FanCfg × Bool :=
  match w with
  | 0 => putBack (fun x : Nat => { c with stageOffset := x }) (putNat 0 1000 v)
  | 1 => putBack (fun x : Nat => { c with startLevel := x }) (putNat 0 1000 v)
  | 2 => putBack (fun x : Nat => { c with stopLevel := x }) (putNat 0 1000 v)
  | 3 => putBack (fun x : Nat => { c with passageSpeed := x }) (putNat 1 1000 v)
  | 4 => putBack (fun x : Nat => { c with tp := x }) (putNat 200 4000 v)
  | 5 => putBack (fun x : Nat => { c with dMin := x }) (putNat 0 4000 v)
  | 6 => putBack (fun x : Nat => { c with dMax := x }) (putNat 0 4000 v)
  | 7 => putBack (fun x : Nat => { c with ratedPeriod := x }) (putNat 50 65535 v)
  | 8 => putBack (fun x : Nat => { c with startTime := x }) (putNat 1 60 v)
  | 9 => putBack (fun x : Nat => { c with confirmSpeed := x }) (putNat 1 1000 v)
  | 10 => putBack (fun x : Nat => { c with stallRatio := x }) (putNat 0 100 v)
  | 11 => putBack (fun x : Nat => { c with stallTime := x }) (putNat 1 60 v)
  | 12 => putBack (fun x : Nat => { c with coastDwell := x }) (putNat 30 300 v)
  | 13 => putBack (fun x : Nat => { c with stillThreshold := x }) (putNat 0 1000 v)
  | _ => (c, false)

def DoorCfg.put (c : DoorCfg) (w : Nat) (v : Word) : DoorCfg × Bool :=
  match w with
  | 0 => putBack (fun x : Nat => { c with debounce := x }) (putNat 5 100 v)
  | 1 => putBack (fun x : Nat => { c with egressTime := x }) (putNat 5 60 v)
  | 2 => putBack (fun x : Nat => { c with holdLimit := x }) (putNat 10 600 v)
  | 3 => putBack (fun x : Nat => { c with relockDelay := x }) (putNat 1 30 v)
  | 4 => putBack (fun x : Nat => { c with feedbackTime := x }) (putNat 1 10 v)
  | 5 => putBack (fun x : Nat => { c with flashHalf := x }) (putNat 250 2000 v)
  | _ => (c, false)

def SourceCfg.put (c : SourceCfg) (w : Nat) (v : Word) : SourceCfg × Bool :=
  match w with
  | 0 => putBack (fun x : EventClass => { c with cls := x }) (putEnum .advisory (classOfCode v.toNat))
  | 1 => putBack (fun x : Nat => { c with level := x }) (putNat 0 7 v)
  | 2 => putBack (fun x : Option (Fin 64) => { c with step := x }) (putStep v)
  | 3 => putBack (fun x : Bool => { c with report := x }) (putFlag v)
  | _ => (c, false)

def LineMapEntry.put (e : LineMapEntry) (w : Nat) (v : Word) : LineMapEntry × Bool :=
  match w with
  | 0 => putBack (fun x : Word => { e with code := x }) (putCode v)
  | w + 1 => putBack (fun x : SourceCfg => { e with cfg := x }) (e.cfg.put w v)

def PlanStep.put (p : PlanStep) (w : Nat) (v : Word) : PlanStep × Bool :=
  match w with
  | 0 => putBack (fun x : Bool => { p with valid := x }) (putFlag v)
  | 1 => putBack (fun x : Bool => { p with isProtected := x }) (putFlag v)
  | 2 => putBack (fun x : Option (Fin 64) => { p with next := x }) (putStep v)
  | 3 => putBack (fun x : Nat => { p with duration := x }) (putAnyNat v)
  | 4 => putBack (fun x : EndCond => { p with endCond := x }) (putEnum .timer (endCondOfCode v.toNat))
  | 5 => putBack (fun x : JetKind => { p with jet := x }) (putEnum .auto (jetOfCode v.toNat))
  | 6 => putBack (fun x : Direction => { p with fixedDir := x }) (putEnum .forward (directionOfCode v.toNat))
  | 7 => putBack (fun x : Nat => { p with fixedSpeed := x }) (putNat 0 1000 v)
  | 8 => putBack (fun x : Int => { p with vt := x }) (putAnyInt v)
  | 9 => putBack (fun x : PassageDir => { p with passage := x }) (putEnum .autoDoor (passageOfCode v.toNat))
  | 10 => putBack (fun x : Policy => { p with door1 := x }) (putEnum .normal (policyOfCode v.toNat))
  | 11 => putBack (fun x : Policy => { p with door2 := x }) (putEnum .normal (policyOfCode v.toNat))
  | 12 => putBack (fun x : Nat => { p with guardSpan := x }) (putNat 0 15 v)
  | 13 => putBack (fun x : LampMode => { p with lamp := x }) (putEnum .off (lampOfCode v.toNat))
  | 14 => putBack (fun x : Word => { p with spreadCode := x }) (putCode v)
  | 15 => putBack (fun x : Nat => { p with spreadSpan := x }) (putNat 0 31 v)
  | 16 => putBack (fun x : TriggerMode => { p with spreadMode := x }) (putEnum .set (modeOfCode v.toNat))
  | _ => (p, false)

def NodeCfg.put (n : NodeCfg) (w : Nat) (v : Word) : NodeCfg × Bool :=
  match w with
  | 0 => putBack (fun x : Nat => { n with reportPeriod := x }) (putNat 1 60 v)
  | 1 => putBack (fun x : Nat => { n with sampleReach := x }) (putNat 0 15 v)
  | 2 => putBack (fun x : Nat => { n with linkTimeout := x }) (putNat 100 5000 v)
  | 3 => putBack (fun x : Nat => { n with fillPeriod := x }) (putNat 20 1000 v)
  | 4 => putBack (fun x : Nat => { n with sampleAgeLimit := x }) (putNat 100 5000 v)
  | 5 => putBack (fun x : Nat => { n with tapLock := x }) (putNat 0 7 v)
  | 6 => putBack (fun x : Bool => { n with tapProtect := x }) (putFlag v)
  | 7 => putBack (fun x : Nat => { n with learnWindow := x }) (putNat 0 15 v)
  | 8 => putBack (fun x : LearnMask => { n with learnMask := x }) (putLearnMask v)
  | 9 => putBack (fun x : Nat => { n with controlPeriod := x }) (putNat 1 10 v)
  | 10 => putBack (fun x : Nat => { n with staleLimit := x }) (putNat 1 255 v)
  | 11 => putBack (fun x : Nat => { n with rUp := x }) (putNat 0 1000 v)
  | 12 => putBack (fun x : Nat => { n with rDn := x }) (putNat 0 1000 v)
  | 13 => putBack (fun x : Nat => { n with kp := x }) (putNat 0 255 v)
  | 14 => putBack (fun x : Direction => { n with autoDirection := x }) (putEnum .forward (directionOfCode v.toNat))
  | 15 => putBack (fun x : Nat => { n with launchHold := x }) (putNat 0 5000 v)
  | 16 => putBack (fun x : Bool => { n with planProtect := x }) (putFlag v)
  | _ => (n, false)

/-- A fan record's word stored; a word of Tp, Dmin or Dmax also re-forms the pending period and duty (R101). -/
def Fan.putCfg (F : Fan) (w : Nat) (v : Word) : Fan × Bool :=
  let r := F.cfg.put w v
  let F := { F with cfg := r.1 }
  (if 4 ≤ w ∧ w ≤ 6 then F.dutyFieldsWritten else F, r.2)

/-- Word `w` of entry `e` of a table stored; a live word and a word of a read-only table are left unchanged. -/
def State.putWord (s : State) (t : Table) (e w : Nat) (v : Word) : State × Bool :=
  match t with
  | .channel =>
    if h : e < 4 then
      putBack (fun x : ChannelCfg => s.setChannel ⟨e, h⟩ { s.channels[e] with cfg := x }) (s.channels[e].cfg.put w v)
    else (s, false)
  | .terms =>
    if h : e < 32 then putBack (fun x : Term => { s with terms := s.terms.set e x }) (s.terms[e].put w v)
    else (s, false)
  | .kind =>
    putBack (fun x : KindCfg => s.setKind (kindAt e) { s.kind (kindAt e) with cfg := x })
      ((s.kind (kindAt e)).cfg.put w v)
  | .fan => if h : e < 3 then putBack (fun x : Fan => s.setFan ⟨e, h⟩ x) (s.fans[e].putCfg w v) else (s, false)
  | .door =>
    if h : e < 2 then
      putBack (fun x : DoorCfg => s.setDoor ⟨e, h⟩ { s.doors[e] with cfg := x }) (s.doors[e].cfg.put w v)
    else (s, false)
  | .source =>
    if h : e < 35 then putBack (fun x : SourceCfg => { s with sources := s.sources.set e x }) (s.sources[e].put w v)
    else (s, false)
  | .linemap =>
    if h : e < 16 then putBack (fun x : LineMapEntry => { s with lines := s.lines.set e x }) (s.lines[e].put w v)
    else (s, false)
  | .plan =>
    if h : e < 64 then putBack (fun x : PlanStep => { s with plan := s.plan.set e x }) (s.plan[e].put w v)
    else (s, false)
  | .node => putBack (fun x : NodeCfg => { s with node := x }) (s.node.put w v)
  | .status => (s, false)
  | .tap => (s, false)
  | .latch => (s, false)
  | .stack => (s, false)

/-- The word at a word address stored (R170, R172). -/
def State.putTableWord (s : State) (t : Table) (a : Nat) (v : Word) : State × Bool :=
  if a % t.size < t.cfgWords then s.putWord t (a / t.size) (a % t.size) v else (s, false)

/-- Words stored from a word address on, and whether some clamp changed a value (R172). -/
def State.putTableWords (s : State) (t : Table) : Nat → List Word → State × Bool
  | _, [] => (s, false)
  | a, v :: vs =>
    let r := s.putTableWord t a v
    let q := State.putTableWords r.1 t (a + 1) vs
    (q.1, r.2 || q.2)

/-! ### Dirty marks (R173) -/

/-- The image group of an entry of a table (R173). -/
def groupOf (t : Table) (e : Nat) : Option (Fin 15) :=
  match t with
  | .channel => some groupChannel
  | .terms => some 1
  | .kind => some 2
  | .fan => some 3
  | .door => some 4
  | .source => some (if e < 12 then 5 else if e < 24 then 6 else 7)
  | .linemap => some 8
  | .plan => if h : e < 64 then some (groupOfStep ⟨e, h⟩) else none
  | .node => some 13
  | .status => none
  | .tap => none
  | .latch => none
  | .stack => none

/-- The mark of the group that holds the configuration word at an address. -/
def State.markWord (s : State) (t : Table) (a : Nat) : State :=
  if a % t.size < t.cfgWords then
    match groupOf t (a / t.size) with
    | none => s
    | some g => s.markDirty g
  else s

/-- The marks of `n` words from an address on. -/
def State.markWords (s : State) (t : Table) (a : Nat) : Nat → State
  | 0 => s
  | n + 1 => State.markWords (s.markWord t a) t (a + 1) n

/-! ### The effects of a change, each taken as one (R172) -/

/-- A line entry whose code changed while asserted clears with its old code (R139). -/
def State.lineChanged (old : State) (s : State) (i : Fin 16) : State :=
  if s.lines[i].code = old.lines[i].code then s else s.clearWithCode (srcLine i) old.lines[i].code

/-- The timers and locked ways that follow NODE fields (R13, R75, R65, R66). -/
def State.nodeChanged (s old : State) : State :=
  let s := if s.node.reportPeriod = old.node.reportPeriod then s
    else { s with reportTimer := s.startSec s.node.reportPeriod }
  let s := if s.node.controlPeriod = old.node.controlPeriod then s
    else { s with controlTimer := s.startSec s.node.controlPeriod }
  if s.node.effLock = old.node.effLock then s else s.lockChanged old.node.effLock s.node.effLock

/-- A PENDING entry's effective class or level changed (R154). -/
def State.pendingReclassed (s old : State) : Bool :=
  (List.finRange 51).any fun n =>
    s.latch[n].serve == .pending && (s.effLevel n != old.effLevel n || s.effClass n != old.effClass n)

/-- The effects that follow when every word is stored, in the order of log entry 27: `old` is the state before. -/
def State.changed (old s : State) : State :=
  let s := (List.finRange 4).foldl (State.channelChanged old) s
  let s := if s.terms = old.terms then s else s.termsChanged
  let s := s.nodeChanged old
  let s := (List.finRange 16).foldl (State.lineChanged old) s
  let s := { s with decisionDue := s.decisionDue || s.pendingReclassed old }
  State.revalidate old s

/-- A WRITE that passed its checks: stored, marked and its effects taken (R172, R173). -/
def State.writeTable (s : State) (t : Table) (a : Nat) (ws : List Word) : State × Bool :=
  let r := s.putTableWords t a ws
  (State.changed s (r.1.markWords t a ws.length), r.2)

end Sys2Proof.Machine
end

