-- ==== Sys2Proof/Machine/Image.lean ====
section
/-! DEFINITION. Machine/Image.lean: the stored image (chapter 11): group contents and records with their places, the
load with its end, and the STORE. Place g of the groups is group g + 1. -/

namespace Sys2Proof.Machine

/-! ### Records and places (R182) -/

/-- The table entries a group holds: table, first entry and number of entries; none for TAPLOCK (R173). -/
def groupTable (g : Fin 15) : Option (Table × Nat × Nat) :=
  match g.val with
  | 0 => some (.channel, 0, 4)
  | 1 => some (.terms, 0, 32)
  | 2 => some (.kind, 0, 4)
  | 3 => some (.fan, 0, 3)
  | 4 => some (.door, 0, 2)
  | 5 => some (.source, 0, 12)
  | 6 => some (.source, 12, 12)
  | 7 => some (.source, 24, 11)
  | 8 => some (.linemap, 0, 16)
  | 9 => some (.plan, 0, 16)
  | 10 => some (.plan, 16, 16)
  | 11 => some (.plan, 32, 16)
  | 12 => some (.plan, 48, 16)
  | 13 => some (.node, 0, 1)
  | _ => none

/-- The word length of a group's data (R182). -/
def dataLength (g : Fin 15) : Nat :=
  match groupTable g with
  | some (t, _, n) => t.cfgWords * n
  | none => 576

/-- The word address of a group's place (R182): each follows the one before it, the first the header. -/
def placeOf (g : Fin 15) : Nat :=
  ((List.finRange 15).filter fun h => h.val < g.val).foldl (fun a h => a + 3 + dataLength h) 5

/-- The content of a group (R182, R71). -/
def State.groupContent (s : State) (g : Fin 15) : List Word :=
  match groupTable g with
  | some (t, f, n) => (List.range n).flatMap fun i => (s.entryWords t (f + i)).take t.cfgWords
  | none => s.taplockContent

/-- A group record: group number, word length, check word, data (R182). -/
def groupRecord (g : Fin 15) (data : List Word) : List Word :=
  let number := natW (g.val + 1)
  let len := natW data.length
  number :: len :: checkWord (number :: len :: data) :: data

/-- The image's signature and format number (R182). -/
def signature : Word := 0x7424
def formatNumber : Word := 1

/-- The header's five words (R182). -/
def headerRecord (locked : Bool) : List Word :=
  let fields := [signature, formatNumber, boolW locked, 15]
  fields ++ [checkWord fields]

/-- The start-locked flag and group count of a valid header (R183). -/
def headerOf (ws : List Word) : Option (Bool × Nat) :=
  match ws with
  | [sig, fmt, locked, count, check] =>
    if sig = signature ∧ fmt = formatNumber ∧ checkPasses [sig, fmt, locked, count] check then
      some (locked != 0, count.toNat)
    else none
  | _ => none

/-- The data of a group record whose check passes and whose number and length are those of its place (R183). -/
def recordData (g : Fin 15) (ws : List Word) : Option (List Word) :=
  match ws with
  | number :: len :: check :: data =>
    if number = natW (g.val + 1) ∧ len = natW (dataLength g) ∧ data.length = dataLength g ∧
        checkPasses (number :: len :: data) check then
      some data
    else none
  | _ => none

/-- What a read of `n` words from a word address yields (log entry 8). -/
def State.serialRead (s : State) (r : SerialAnswer) (a n : Nat) : List Word :=
  match r with
  | .asStored => s.serial.words a n
  | .instead ws => ws

/-- What a write of a record leaves at its place (log entry 8). -/
def State.serialWrite (s : State) (r : SerialAnswer) (a : Nat) (record : List Word) : State :=
  match r with
  | .asStored => { s with serial := s.serial.putWords a record }
  | .instead ws => { s with serial := s.serial.putWords a (ws.take record.length) }

/-! ### The load (R183) -/

/-- The end of the load, one event (R181), its parts in the order of log entry 27. The acceptance decision is owed (R154). -/
def State.endLoad (s : State) (locked : Bool) : State :=
  let s := { s with loading := .done, nodeState := if locked then .lockout else .operating }
  let s := ((s.reformJet jet1).reformJet jet2).reformPassage
  { s.doorsLeaveStarting.renew with decisionDue := true }

/-- The TAPLOCK group is not loaded: its content stands at its reset value (R72, log entry 15). -/
def State.taplockSkipped (s : State) : State := s.emptyLocked

/-- The next group to read, from place `i` on; past the last group, or above the header's group count, the load ends in the event
of the last read, whose decision comes after both (log entry 34). -/
def State.nextGroup (s : State) (i : Nat) (locked : Bool) (count : Nat) : State :=
  if h : i < 15 then
    if i < count then { s with loading := .group ⟨i, h⟩ locked count } else s.taplockSkipped.endLoad locked
  else s.endLoad locked

/-- The header read completes (R183). -/
def State.headerRead (s : State) (r : SerialAnswer) : State :=
  match s.loading with
  | .header =>
    match headerOf (s.serialRead r 0 5) with
    | none => ({ s with loading := .done }.occur srcStoreAbsent).endLoad true
    | some (locked, count) => s.nextGroup 0 locked count
  | .done => s
  | .group _ _ _ => s

/-- `n` entries of a table stored from their configuration words, entry `e` first. -/
def State.loadEntries (s : State) (t : Table) : Nat → Nat → List Word → State
  | _, 0, _ => s
  | e, n + 1, ws =>
    State.loadEntries (s.putTableWords t (e * t.size) (ws.take t.cfgWords)).1 t (e + 1) n (ws.drop t.cfgWords)

/-- A group whose record passed: its content replaces the table words, with the effects of a change; the group is clean
(R183), TAPLOCK by R72. -/
def State.loadGroup (s : State) (g : Fin 15) (data : List Word) : State :=
  match groupTable g with
  | some (t, f, n) =>
    let s' := State.changed s (s.loadEntries t f n data)
    { s' with dirty := s'.dirty.set g false }
  | none =>
    let r := s.loadTaplock data
    { s with tap := r.1, dirty := s.dirty.set g r.2 }

/-- A group whose record failed (R183, R72). -/
def State.failGroup (s : State) (g : Fin 15) : State :=
  let s := if g = groupTaplock then s.emptyLocked else s
  { s with dirty := s.dirty.set g true, lastFailing := g.val + 1 }.occur srcStoreCorrupt

/-- A group record read completes (R183). -/
def State.groupRead (s : State) (r : SerialAnswer) : State :=
  match s.loading with
  | .group g locked count =>
    let s' :=
      match recordData g (s.serialRead r (placeOf g) (3 + dataLength g)) with
      | some data => s.loadGroup g data
      | none => s.failGroup g
    s'.nextGroup (g.val + 1) locked count
  | .done => s
  | .header => s

/-! ### The STORE (R184) -/

/-- The lowest group from place `i` on whose dirty mark is set. -/
def State.firstDirty (s : State) (i : Nat) : Option (Fin 15) :=
  (List.finRange 15).find? fun g => decide (i ≤ g.val) && s.dirty[g]

/-- The copy of a group starts (R184, part 1). -/
def State.startCopy (s : State) (g : Fin 15) : State :=
  { s with rewritten := s.rewritten.set g false, storing := .group g .writing (groupRecord g (s.groupContent g)) }

/-- The header's write starts, its start-locked flag as the node state stands (R184). -/
def State.startHeader (s : State) : State :=
  { s with storing := .header .writing (headerRecord (s.nodeState == .lockout)) }

/-- The STORE moves to the next dirty group from place `i` on, or to the header (R184). -/
def State.storeFrom (s : State) (i : Nat) : State :=
  match s.firstDirty i with
  | some g => s.startCopy g
  | none => s.startHeader

/-- A write completes and its verify read begins (R184, part 2). -/
def State.writeComplete (s : State) (r : SerialAnswer) : State :=
  match s.storing with
  | .group g .writing rec => { s.serialWrite r (placeOf g) rec with storing := .group g .verifying rec }
  | .header .writing rec => { s.serialWrite r 0 rec with storing := .header .verifying rec }
  | .group _ .verifying _ => s
  | .header .verifying _ => s
  | .idle => s

/-- A word in a place changed in its lowest bit. -/
def Memory.flipWord (m : Memory) (a : Nat) : Memory := m.putWord a (m.word a ^^^ 1)

/-- A group's place after a failed verify: it fails its check (R184); words that would pass have their check word's lowest
bit inverted (log entry 33). -/
def failPlace (g : Fin 15) (m : Memory) : Memory :=
  if (recordData g (m.words (placeOf g) (3 + dataLength g))).isSome then m.flipWord (placeOf g + 2) else m

/-- The header's place after a failed verify, likewise (R184, log entry 33). -/
def failHeader (m : Memory) : Memory := if (headerOf (m.words 0 5)).isSome then m.flipWord 4 else m

/-- What the verify of `n` words shows the write to have left in their place: the words it read (log entry 33). -/
def State.serialShown (s : State) (r : SerialAnswer) (a n : Nat) : Memory :=
  match r with
  | .asStored => s.serial
  | .instead ws => s.serial.putWords a (ws.take n)

/-- The serial memory after the verify of a record at word address `a`, `fail` making its place fail (R184). -/
def State.serialVerified (s : State) (r : SerialAnswer) (a : Nat) (record : List Word) (fail : Memory → Memory) : Memory :=
  if s.serialRead r a record.length = record then s.serialShown r a record.length
  else fail (s.serialShown r a record.length)

/-- A group after its verify (R184, part 3). -/
def State.verified (s : State) (g : Fin 15) (good : Bool) : State :=
  if good then (if s.rewritten[g] then s else { s with dirty := s.dirty.set g false })
  else s.occur srcStoreFailed

/-- A verify completes (R184, part 3 and last paragraph). -/
def State.verifyComplete (s : State) (r : SerialAnswer) : State :=
  match s.storing with
  | .group g .verifying rec =>
    let good := s.serialRead r (placeOf g) rec.length == rec
    let s := { s with serial := s.serialVerified r (placeOf g) rec (failPlace g) }
    (s.verified g good).storeFrom (g.val + 1)
  | .header .verifying rec =>
    let good := s.serialRead r 0 rec.length == rec
    let s := { s with serial := s.serialVerified r 0 rec failHeader, storing := .idle }
    if good then s else s.occur srcStoreFailed
  | .group _ .writing _ => s
  | .header .writing _ => s
  | .idle => s

/-! ### A STORE cut short by a reset (R186) -/

/-- Words that fail a check: a partial record's check word is flipped in its lowest bit where it would pass. -/
def spoil (passes : Bool) (check : Word) : Word := if passes then check ^^^ 1 else check

/-- The partial record of a group: free words that fail their check (log entry 7). -/
def partialGroup (k n : Nat) : List Word :=
  let w := Config.partialWord k
  let data := (List.range n).map fun i => w (3 + i)
  w 0 :: w 1 :: spoil (checkPasses (w 0 :: w 1 :: data) (w 2)) (w 2) :: data

/-- The partial header: free words that fail their check (log entry 7). -/
def partialHeader (k : Nat) : List Word :=
  let w := Config.partialWord k
  [w 0, w 1, w 2, w 3, spoil (checkPasses [w 0, w 1, w 2, w 3] (w 4)) (w 4)]

/-- The serial memory and the free counter as a reset leaves them (R186). -/
def State.cutShort (s : State) : Memory × Nat :=
  match s.storing with
  | .idle => (s.serial, s.freeCount)
  | .group g _ _ => (s.serial.putWords (placeOf g) (partialGroup s.freeCount (dataLength g)), s.freeCount + 1)
  | .header _ _ => (s.serial.putWords 0 (partialHeader s.freeCount), s.freeCount + 1)

end Sys2Proof.Machine
end

