-- ==== Sys2Proof/Machine/Reset.lean ====
section
/-! DEFINITION. Machine/Reset.lean: power-on reset, pin reset and RESTART (R16, R23, R24, R34, R54, R74, R97, R117, R134,
R137, R149, R166, R181, R183, R186), each one event that ends with the first evaluation of R141. -/

namespace Sys2Proof.Machine

/-- A fan channel after a reset that ends at `now` (R117). -/
def resetFan (pins : Pins) (now : Nat) (f : FanId) : Fan :=
  if pins.isolatorOpen[f] then { cfg := defaultFanCfg f, state := .disabled, isoOpen := true }
  else { cfg := defaultFanCfg f, dwellTimer := some (now + usOfSec 60) }

/-- A door channel after a reset that ends at `now` (R120, R134). -/
def resetDoor (pins : Pins) (now : Nat) (d : DoorId) : Door :=
  let p := pins.door[d]
  { closed := { level := p.closed }
    lockEngaged := { level := p.lockEngaged }
    pushBar := { level := p.pushBar }
    state := if p.closed then .released .policy else .opened .policy
    holdTimer := if p.closed then none else some (now + usOfSec 120)
    feedbackTimer := if p.lockEngaged then some (now + usOfSec 2) else none }

/-- Every block at its reset values, at core clock time `now`: what the three resets share. The input pins, the serial
memory, the waiting commands and the free counter are not the node's to reset. -/
def State.fresh (s : State) (now : Nat) (cause : ResetCause) : State :=
  { pending := s.pending
    now := now
    resetCause := cause
    pins := s.pins
    channels := Vector.replicate 4 { convTimer := some (now + usOfMs 250) }
    reportTimer := some (now + usOfSec 2)
    ageTimer := some (now + usOfSec 1)
    controlTimer := some (now + usOfSec 1)
    fans := Vector.ofFn (resetFan s.pins now)
    doors := Vector.ofFn (resetDoor s.pins now)
    sources := Vector.ofFn defaultSource
    callPoint := s.pins.callPoint
    serial := s.cutShort.1
    freeCount := s.cutShort.2 }

/-- A level source found asserted at its first evaluation counts an occurrence (R141). -/
def State.firstFound (n : EntryId) (asserted : Bool) (s : State) : State := if asserted then s.occur n else s

/-- The first evaluation of the level sources (R141), in index order (log entry 27). -/
def State.firstEvaluation (s : State) : State :=
  let s := s.firstFound (srcLinkDown .a) (!s.ports.a.isUp)
  let s := s.firstFound (srcLinkDown .b) (!s.ports.b.isUp)
  let s := s.firstFound (srcIsolated jet1) s.fans[jet1].isoOpen
  let s := s.firstFound (srcIsolated jet2) s.fans[jet2].isoOpen
  let s := s.firstFound (srcIsolated passage) s.fans[passage].isoOpen
  s.firstFound srcCallPoint s.callPoint

/-- A power-on or pin reset (R181): clock, positions and ports too are at their reset values (R23, R33, R34). -/
def State.hardReset (s : State) (cause : ResetCause) : State := (s.fresh 0 cause).firstEvaluation

/-- A line port after a RESTART: supervision, fill timer and transmission stand (R23, R24); the queues are empty and the
pointers at their first members (R54). -/
def LinePort.restarted (P : LinePort) : LinePort := { P.emptied with high := .rh, low := .rl }

/-- A RESTART (R177, R181): positions, node clock and port supervision are kept (R23, R33, R34). -/
def State.restarted (s : State) : State :=
  State.firstEvaluation
    { s.fresh s.now .restart with
      clock := s.clock
      clockSet := s.clockSet
      msPhase := s.msPhase
      posA := s.posA
      posB := s.posB
      ports := { a := s.ports.a.restarted, b := s.ports.b.restarted } }

/-- POWER_ON_RESET (R181). -/
def execPowerOnReset (s : State) : Host.Outcome State Fault Refusal := .next (s.hardReset .powerOn)

/-- PIN_RESET (R181). -/
def execPinReset (s : State) : Host.Outcome State Fault Refusal := .next (s.hardReset .pin)

end Sys2Proof.Machine
end

