-- ==== Sys2Proof/Machine/Line.lean ====
section
/-! DEFINITION. Machine/Line.lean: port supervision, dispatch of received frames by kind, and the events of a port's
timers and transmitter (chapter 2). A good frame is taken by supervision first, then dispatched in the state that
supervision has left the port in (R21, R25). -/

namespace Sys2Proof.Machine

/-! ### Supervision (R20 to R23) -/

/-- The port state and probe count after a good frame (R21). -/
def LinePort.afterGood (P : LinePort) : PortState × Nat :=
  match P.state with
  | .down => (.probing, 1)
  | .probing => if 2 ≤ P.probe then (.up, 3) else (.probing, P.probe + 1)
  | .up => (.up, P.probe)

/-- A good frame counts toward supervision (R21); LINK_x_DOWN clears when the port enters UP (R23). -/
def State.superviseGood (s : State) (p : Port) : State :=
  let P := s.port p
  let s := s.setPort p
    { P with state := P.afterGood.1, probe := P.afterGood.2, linkTimer := s.startMs s.node.linkTimeout }
  if P.isUp = false ∧ P.afterGood.1 = .up then s.clearSource (srcLinkDown p) else s

/-- The port goes DOWN: probe count 0, link timer stopped. -/
def LinePort.toDown (P : LinePort) : LinePort := { P with state := .down, probe := 0, linkTimer := none }

/-- A bad frame at a port (R20). -/
def State.badFrame (s : State) (p : Port) : State :=
  let P := s.port p
  let s := if P.state = .probing then s.setPort p P.toDown else s
  s.occur (srcLinkError p)

/-- The link timer expires (R21); a port that leaves UP has its queues emptied (R49), and LINK_x_DOWN asserts (R23). -/
def State.linkExpired (s : State) (p : Port) : State :=
  let P := s.port p
  if P.linkTimer = none then s
  else if P.isUp then (s.setPort p P.toDown.emptied).occur (srcLinkDown p)
  else s.setPort p P.toDown

/-! ### Dispatch (2.6) -/

/-- The change of posA to a new value (R33): an occurrence, the flush of the unlocked ways, and the guard re-tested. -/
def State.setPosA (s : State) (k : Nat) : State :=
  if s.posA = k then s
  else State.guardRetest s.guardApplies ({ s with posA := k }.occur srcPosition).flushUnlocked

/-- The position a counter gives: k + 1, or 0 past 254 (R31). -/
def nextPosition (k : Byte) : Nat := if k.toNat + 1 ≤ 254 then k.toNat + 1 else 0

/-- A COUNT goes on with k + 1 while that is at most 254 (R31). -/
def State.relayCount (s : State) (p : Port) (side : Side) (k : Byte) : State :=
  if k.toNat + 1 ≤ 254 then s.relay p (.count side (k + 1)) else s

/-- A COUNT frame (R31, R32): the node's own frames are offered before the relayed one (log entry 27). -/
def State.takeCount (s : State) (p : Port) (side : Side) (k : Byte) : State :=
  match side, p with
  | .a, .a => (s.setPosA (nextPosition k)).relayCount p side k
  | .b, .b => { s with posB := nextPosition k }.relayCount p side k
  | .a, .b => s.occur srcWiring
  | .b, .a => s.occur srcWiring

/-- A SAMPLE frame (R28): tapped, then relayed with its reach lowered by 1 while the reach allows. -/
def State.takeSample (s : State) (p : Port) (f : SampleFields) : State :=
  let s := s.tapItems f
  if 1 < f.reach.toNat then s.relay p (.sample { f with reach := f.reach - 1 }) else s

/-- The line entry a code selects: the lowest line map entry that holds it (R36). -/
def State.lineFor (s : State) (code : Word) : Option (Fin 16) :=
  if code.toNat < 0x0800 then none else (List.finRange 16).find? fun i => s.lines[i].code == code

/-- The node lies inside the span of a TRIGGER that is not its own (R36). -/
def State.insideSpan (s : State) (f : TriggerFields) : Bool :=
  s.posA != 0 && decide (f.first.toNat ≤ s.posA) && decide (s.posA ≤ f.last.toNat) && f.origin.toNat != s.posA &&
    decide (f.origin.toNat ≤ 254)

/-- A TRIGGER acts on its line entry (R36, R142). -/
def State.actTrigger (s : State) (f : TriggerFields) : State :=
  if s.insideSpan f then
    match s.lineFor f.code with
    | none => s
    | some i =>
      match f.mode with
      | .set => s.occurFrom (srcLine i) f.origin.toNat
      | .clear => s.clearSource (srcLine i)
  else s

/-- The span still lies ahead (R37). -/
def State.spanAhead (s : State) (p : Port) (f : TriggerFields) : Bool :=
  s.posA == 0 ||
    match p with
    | .a => decide (s.posA < f.last.toNat)
    | .b => decide (f.first.toNat < s.posA)

/-- A TRIGGER frame (R36, R37): the node's own frames are offered before the relayed one (log entry 27). -/
def State.takeTrigger (s : State) (p : Port) (f : TriggerFields) : State :=
  let s := s.actTrigger f
  if s.spanAhead p f then s.relay p (.trigger f) else s

/-- A TIME frame (R35). -/
def State.takeTime (s : State) (p : Port) (clock : BitVec 32) : State :=
  { s with clock := clock, clockSet := true }.relay p (.time clock)

/-- A good frame of a kind that UP alone dispatches (R25). What supervision owes the plan unit is taken before dispatch (log
entry 27). -/
def State.goodUp (s : State) (p : Port) (dispatch : State → State) : State :=
  let s := (s.superviseGood p).settle
  if (s.port p).isUp then (dispatch s).settle else s

/-- A good COUNT or FILL frame, dispatched in PROBING too (R25), after what supervision owes (log entry 27). -/
def State.goodAny (s : State) (p : Port) (dispatch : State → State) : State :=
  (dispatch (s.superviseGood p).settle).settle

/-! ### The commands of the line -/

/-- BAD_FRAME (R20). -/
def execBadFrame (p : Port) (s : State) : Host.Outcome State Fault Refusal := .next (s.badFrame p).settle

/-- FILL (R27). -/
def execFill (p : Port) (s : State) : Host.Outcome State Fault Refusal := .next (s.goodAny p id)

/-- COUNT (R31). -/
def execCount (p : Port) (side : Side) (k : Byte) (s : State) : Host.Outcome State Fault Refusal :=
  .next (s.goodAny p fun s => s.takeCount p side k)

/-- SAMPLE (R28); without its 1 to 4 items it fails its structure test (R26, log entry 19). -/
def execSample (p : Port) (f : SampleFields) (s : State) : Host.Outcome State Fault Refusal :=
  .next (s.goodUp p fun s => if f.wf then s.takeSample p f else s)

/-- EVENT (R29). -/
def execEvent (p : Port) (f : EventFields) (s : State) : Host.Outcome State Fault Refusal :=
  .next (s.goodUp p fun s => s.relay p (.event f))

/-- TRIGGER (R36, R37). -/
def execTrigger (p : Port) (f : TriggerFields) (s : State) : Host.Outcome State Fault Refusal :=
  .next (s.goodUp p fun s => s.takeTrigger p f)

/-- MGMT_REPLY (R29); with more than 16 data words it fails its structure test (R26, log entry 19). -/
def execMgmtReply (p : Port) (f : ReplyFields) (s : State) : Host.Outcome State Fault Refusal :=
  .next (s.goodUp p fun s => if f.wf then s.relay p (.mgmtReply f) else s)

/-- MGMT_REQ at a distance above 0 (R30); fields of no MGMT_REQ_RELAY are discarded (log entry 19). -/
def execMgmtReqRelay (p : Port) (f : RequestFields) (s : State) : Host.Outcome State Fault Refusal :=
  .next (s.goodUp p fun s =>
    if f.req.wf && f.distance != 0 then s.relay p (.mgmtReq { f with distance := f.distance - 1 }) else s)

/-- TIME (R35). -/
def execTime (p : Port) (clock : BitVec 32) (s : State) : Host.Outcome State Fault Refusal :=
  .next (s.goodUp p fun s => s.takeTime p clock)

/-- UNKNOWN_FRAME (R26). -/
def execUnknownFrame (p : Port) (s : State) : Host.Outcome State Fault Refusal := .next (s.goodUp p id)

/-- LINK_TIMER_EXPIRY (R21, R23, R49). -/
def execLinkTimerExpiry (p : Port) (s : State) : Host.Outcome State Fault Refusal := .next (s.linkExpired p).settle

/-- The fill timer expires: a FILL is sent at once and the timer is stopped while it is (R24). -/
def State.fillExpired (s : State) (p : Port) : State :=
  let P := s.port p
  if P.fillTimer = none ∨ P.tx ≠ none then s else s.setPort p { P with tx := some .fill, fillTimer := none }

/-- FILL_TIMER_EXPIRY (R24). -/
def execFillTimerExpiry (p : Port) (s : State) : Host.Outcome State Fault Refusal := .next (s.fillExpired p)

/-- A transmission completes: the fill timer starts (R24) and an UP port makes a grant decision (R50). -/
def State.sent (s : State) (p : Port) : State :=
  let P := s.port p
  if P.tx = none then s
  else s.setPort p ({ P with tx := none, fillTimer := s.startMs s.node.effFill }.decide s.now s.node.sampleAgeLimit)

/-- TRANSMISSION_COMPLETION (R18, R24, R50). -/
def execTransmissionCompletion (p : Port) (s : State) : Host.Outcome State Fault Refusal := .next (s.sent p)

end Sys2Proof.Machine
end

