-- ==== Sys2Proof/Machine/Mgmt.lean ====
section
/-! DEFINITION. Machine/Mgmt.lean: the management responder (chapter 10): the checks of R169, the thirteen operations and
the replies of R168. -/

namespace Sys2Proof.Machine

/-! ### Status codes and op codes (R179) -/

def stOk : Nat := 0
def stOkClamped : Nat := 1
def stBusy : Nat := 2
def stBadOp : Nat := 3
def stBadTable : Nat := 4
def stBadIndex : Nat := 5
def stReadOnly : Nat := 6
def stInUse : Nat := 7
def stFull : Nat := 8
def stStale : Nat := 9

/-- What an operation answers: its status and the reply's data words. -/
structure Answer where
  status : Nat
  data : List Word := []
  deriving DecidableEq, Repr

/-- OK, or OK_CLAMPED when a clamp changed a value. -/
def okClamped (clamped : Bool) : Answer := { status := if clamped then stOkClamped else stOk }

/-! ### Replies and the common checks -/

/-- The MGMT_REPLY of a request, formed now (R168). -/
def State.replyFrame (s : State) (op : Byte) (r : Request) (a : Answer) : Frame :=
  .mgmtReply
    { origin := BitVec.ofNat 8 s.posA, op := op, tag := r.tag, status := BitVec.ofNat 8 a.status, table := r.table
      index := r.index, count := r.count, data := a.data }

/-- The reply is offered to the LL queue of the arrival port (R41, R168). -/
def State.reply (s : State) (p : Port) (op : Byte) (r : Request) (a : Answer) : State :=
  (s.offer p .ll (s.replyFrame op r a)).1

/-- A request dispatched on an UP port (R168, R169): BUSY in STARTING but where `free` says otherwise, else executed,
what it owes the plan unit taken, and answered. -/
def State.respond (s : State) (p : Port) (op : Byte) (r : Request) (free : Bool) (run : State → State × Answer) :
    State :=
  if s.isStarting && !free then s.reply p op r { status := stBusy }
  else
    let q := run s
    q.1.settle.reply p op r q.2

/-- A MGMT_REQ at distance 0 arrives (R21, R25, R30): supervision, then the responder. Fields that fail the structure
test are discarded (R26, log entry 19). -/
def State.request (s : State) (p : Port) (op : Byte) (r : Request) (free : Bool) (run : State → State × Answer) :
    State :=
  s.goodUp p fun s => if r.wf then s.respond p op r free run else s

/-! ### READ and WRITE -/

/-- READ (R171). A count of 0 past the table's end is BAD_INDEX (log entry 30). -/
def State.runRead (r : Request) (s : State) : State × Answer :=
  match Table.ofNumber r.table.toNat with
  | none => (s, { status := stBadTable })
  | some t =>
    if 16 < r.count.toNat ∨ t.length < r.index.toNat + r.count.toNat then (s, { status := stBadIndex })
    else (s, { status := stOk, data := s.tableWords t r.index.toNat r.count.toNat })

/-- The WRITE covers a word of a step that is current for a context on the stack (R151). -/
def State.coversCurrent (s : State) (a n : Nat) : Bool :=
  s.stack.any fun c => decide (c.step.val * 17 < a + n) && decide (a < (c.step.val + 1) * 17)

/-- WRITE (R172, R173). -/
def State.runWrite (r : Request) (s : State) : State × Answer :=
  match Table.ofNumber r.table.toNat with
  | none => (s, { status := stBadTable })
  | some t =>
    let n := r.data.length
    if t.readOnly then (s, { status := stReadOnly })
    else if r.count.toNat ≠ n ∨ n = 0 ∨ t.length < r.index.toNat + n then (s, { status := stBadIndex })
    else if t = .plan ∧ s.coversCurrent r.index.toNat n then (s, { status := stInUse })
    else
      let q := s.writeTable t r.index.toNat r.data
      (q.1, okClamped q.2)

/-! ### Operations on other blocks (R174) -/

/-- TAP_LOAD (R67, R68). -/
def State.runTapLoad (r : Request) (s : State) : State × Answer :=
  match r.data with
  | o :: c :: k :: v :: _ =>
    match kindOfCode k.toNat with
    | none => (s, { status := stBadIndex })
    | some kind =>
      if o.toNat = 0 ∨ 254 < o.toNat ∨ 3 < c.toNat then (s, { status := stBadIndex })
      else
        match s.tapLoad o.toNat c.toNat kind v.toInt with
        | none => (s, { status := stFull })
        | some s' => (s', { status := stOk })
  | [] => (s, { status := stBadIndex })
  | [_] => (s, { status := stBadIndex })
  | [_, _] => (s, { status := stBadIndex })
  | [_, _, _] => (s, { status := stBadIndex })

/-- FLUSH_TAP (R69). -/
def State.runFlushTap (s : State) : State × Answer := (s.flushTap, { status := stOk })

/-- A step after FLUSH_PLANS (R175). -/
def PlanStep.flushed (spare : Bool) (p : PlanStep) : PlanStep :=
  if p.isProtected && spare then p else { p with valid := false }

/-- The marks of the PLAN groups in which a step went from valid to invalid (R175). -/
def State.markFlushed (old : Vector PlanStep 64) (s : State) : State :=
  (List.finRange 64).foldl
    (fun s i => if old[i].valid && !s.plan[i].valid then s.markDirty (groupOfStep i) else s) s

/-- FLUSH_PLANS (R175). -/
def State.runFlushPlans (s : State) : State × Answer :=
  if s.stack ≠ [] then (s, { status := stInUse })
  else
    let s' := { s with plan := Vector.ofFn fun i => s.plan[i].flushed s.node.planProtect }
    (State.revalidate s (s'.markFlushed s.plan), { status := stOk })

/-- The latch entry an ACK names: entries 1 to 51 (R146). -/
def entryOf (index : Word) : Option EntryId :=
  if h : 1 ≤ index.toNat ∧ index.toNat ≤ 51 then some ⟨index.toNat - 1, by omega⟩ else none

/-- ACK (R146). -/
def State.runAck (r : Request) (s : State) : State × Answer :=
  match entryOf r.index, r.data with
  | some n, c :: _ =>
    let e := s.latch[n]
    if c.toNat = e.count.toNat then (s.setLatch n { e with unack := false }, { status := stOk })
    else (s, { status := stStale, data := [natW e.count.toNat] })
  | some _, [] => (s, { status := stBadIndex })
  | none, _ => (s, { status := stBadIndex })

/-- CLEAR_PLAN (R164): selector 0 ACTIVE, 1 ALL. -/
def State.runClearPlan (r : Request) (s : State) : State × Answer :=
  if r.index = 0 then (s.clearActive, { status := stOk })
  else if r.index = 1 then (s.clearAll, { status := stOk })
  else (s, { status := stBadIndex })

/-- SET_MASK (R156); lowering M owes a decision (R154). -/
def State.runSetMask (r : Request) (s : State) : State × Answer :=
  let m := clampNat 0 7 r.index.toNat
  ({ s with mask := m, decisionDue := s.decisionDue || decide (m < s.mask) }, okClamped (decide (7 < r.index.toNat)))

/-- FAN_RESET (R112). -/
def State.runFanReset (r : Request) (s : State) : State × Answer :=
  if h : r.index.toNat < 3 then (s.fanReset ⟨r.index.toNat, h⟩, { status := stOk }) else (s, { status := stBadIndex })

/-- DOOR_RESET (R131). -/
def State.runDoorReset (r : Request) (s : State) : State × Answer :=
  if h : r.index.toNat < 2 then
    let d : DoorId := ⟨r.index.toNat, h⟩
    (s.doorTo d (s.doors[d].reset s.now s.isStarting) false, { status := stOk })
  else (s, { status := stBadIndex })

/-- OPEN (R176): the move from LOCKOUT to OPERATING is a renewal (R76) and owes a decision (R154). -/
def State.runOpen (s : State) : State × Answer :=
  if s.nodeState = .lockout then
    ({ { s with nodeState := .operating }.renew with decisionDue := true }, { status := stOk })
  else (s, { status := stOk })

/-- STORE (R177, R184). -/
def State.runStore (s : State) : State × Answer :=
  if s.storing = .idle then (s.storeFrom 0, { status := stOk }) else (s, { status := stBusy })

/-! ### The commands of the responder -/

/-- READ (R171): a READ of table 0 is answered in STARTING too (R169). -/
def execRead (p : Port) (r : Request) (s : State) : Host.Outcome State Fault Refusal :=
  .next (s.request p 1 r (r.table == 0) (State.runRead r))

/-- WRITE (R172). -/
def execWrite (p : Port) (r : Request) (s : State) : Host.Outcome State Fault Refusal :=
  .next (s.request p 2 r false (State.runWrite r))

/-- TAP_LOAD (R67, R68). -/
def execTapLoad (p : Port) (r : Request) (s : State) : Host.Outcome State Fault Refusal :=
  .next (s.request p 3 r false (State.runTapLoad r))

/-- FLUSH_TAP (R69). -/
def execFlushTap (p : Port) (r : Request) (s : State) : Host.Outcome State Fault Refusal :=
  .next (s.request p 4 r false State.runFlushTap)

/-- FLUSH_PLANS (R175). -/
def execFlushPlans (p : Port) (r : Request) (s : State) : Host.Outcome State Fault Refusal :=
  .next (s.request p 5 r false State.runFlushPlans)

/-- ACK (R146). -/
def execAck (p : Port) (r : Request) (s : State) : Host.Outcome State Fault Refusal :=
  .next (s.request p 6 r false (State.runAck r))

/-- CLEAR_PLAN (R164). -/
def execClearPlan (p : Port) (r : Request) (s : State) : Host.Outcome State Fault Refusal :=
  .next (s.request p 7 r false (State.runClearPlan r))

/-- SET_MASK (R156). -/
def execSetMask (p : Port) (r : Request) (s : State) : Host.Outcome State Fault Refusal :=
  .next (s.request p 8 r false (State.runSetMask r))

/-- FAN_RESET (R112). -/
def execFanReset (p : Port) (r : Request) (s : State) : Host.Outcome State Fault Refusal :=
  .next (s.request p 9 r false (State.runFanReset r))

/-- DOOR_RESET (R131). -/
def execDoorReset (p : Port) (r : Request) (s : State) : Host.Outcome State Fault Refusal :=
  .next (s.request p 10 r false (State.runDoorReset r))

/-- OPEN (R176). -/
def execOpen (p : Port) (r : Request) (s : State) : Host.Outcome State Fault Refusal :=
  .next (s.request p 11 r false State.runOpen)

/-- STORE (R177). -/
def execStore (p : Port) (r : Request) (s : State) : Host.Outcome State Fault Refusal :=
  .next (s.request p 12 r false State.runStore)

/-- RESTART (R177): BUSY in STARTING; otherwise the reset begins and no reply is formed. -/
def execRestart (p : Port) (r : Request) (s : State) : Host.Outcome State Fault Refusal :=
  .next (s.goodUp p fun s =>
    if r.wf then (if s.isStarting then s.reply p 13 r { status := stBusy } else s.restarted) else s)

/-- BAD_OP_REQUEST (R169); an op of the thirteen, or a malformed request, is not this command's (log entry 19). -/
def execBadOpRequest (p : Port) (op : Byte) (r : Request) (s : State) : Host.Outcome State Fault Refusal :=
  .next (s.goodUp p fun s =>
    if r.wf && !(1 ≤ op.toNat && op.toNat ≤ 13) then s.respond p op r false (fun s => (s, { status := stBadOp })) else s)

end Sys2Proof.Machine
end

