-- ==== Sys2Proof/Machine/Events.lean ====
section
/-! DEFINITION. Machine/Events.lean: the commands that are events of timers, inputs and the serial memory. An expiry row
is the expiry itself: it takes effect whenever its timer or interval runs (log entry 2). -/

namespace Sys2Proof.Machine

/-! ### Sensors, reports, tap cache, demand -/

/-- CONVERSION_COMPLETION (R3). -/
def execConversionCompletion (ch : ChannelId) (code : BitVec 12) (s : State) : Host.Outcome State Fault Refusal :=
  .next (s.conversion ch code).settle

/-- REPORT_TIMER_EXPIRY (R13 to R15). -/
def execReportTimerExpiry (s : State) : Host.Outcome State Fault Refusal := .next s.reportExpiry.settle

/-- TAP_AGEING_EXPIRY (R59). -/
def execTapAgeingExpiry (s : State) : Host.Outcome State Fault Refusal := .next s.tapAge

/-- CONTROL_TIMER_EXPIRY (R75). -/
def execControlTimerExpiry (s : State) : Host.Outcome State Fault Refusal := .next s.controlExpired.settle

/-- KIND_HOLD_EXPIRY (R82). -/
def execKindHoldExpiry (k : Kind) (s : State) : Host.Outcome State Fault Refusal := .next (s.kindHoldExpired k).settle

/-! ### Fans -/

/-- TACH_EDGE (R102, R103). -/
def execTachEdge (f : FanId) (e : Edge) (s : State) : Host.Outcome State Fault Refusal := .next (s.tachEdge f e)

/-- TACH_OVERFLOW (R102). -/
def execTachOverflow (f : FanId) (s : State) : Host.Outcome State Fault Refusal :=
  .next (s.setFan f (s.fans[f].overflow s.now))

/-- PERIOD_START (R101). -/
def execPeriodStart (f : FanId) (s : State) : Host.Outcome State Fault Refusal :=
  .next (s.setFan f s.fans[f].periodStart)

/-- START_TIMER_EXPIRY (R108, R111). -/
def execStartTimerExpiry (f : FanId) (s : State) : Host.Outcome State Fault Refusal := .next (s.startExpired f).settle

/-- STALL_TIMER_EXPIRY (R109, R111). -/
def execStallTimerExpiry (f : FanId) (s : State) : Host.Outcome State Fault Refusal := .next (s.stallExpired f).settle

/-- DWELL_TIMER_EXPIRY (R110). -/
def execDwellTimerExpiry (f : FanId) (s : State) : Host.Outcome State Fault Refusal := .next (s.dwellExpired f)

/-- ISOLATOR_INPUT_CHANGE (R100). -/
def execIsolatorInputChange (f : FanId) (isOpen : Bool) (s : State) : Host.Outcome State Fault Refusal :=
  .next (s.isolatorInput f isOpen)

/-- ISOLATOR_ACCEPTED (R100, R113). -/
def execIsolatorAccepted (f : FanId) (s : State) : Host.Outcome State Fault Refusal :=
  .next (s.isolatorAccepted f).settle

/-! ### Doors -/

/-- DOOR_INPUT_CHANGE (R120). -/
def execDoorInputChange (d : DoorId) (i : DoorInput) (active : Bool) (s : State) : Host.Outcome State Fault Refusal :=
  .next (s.doorInput d i active)

/-- DOOR_DEBOUNCE_EXPIRY (R120). -/
def execDoorDebounceExpiry (d : DoorId) (i : DoorInput) (s : State) : Host.Outcome State Fault Refusal :=
  .next (s.doorDebounced d i).settle

/-- EGRESS_TIMER_EXPIRY (R126). -/
def execEgressTimerExpiry (d : DoorId) (s : State) : Host.Outcome State Fault Refusal :=
  .next (s.doorTo d (s.doors[d].egressExpired s.now s.isStarting) false).settle

/-- HOLD_TIMER_EXPIRY (R127). -/
def execHoldTimerExpiry (d : DoorId) (s : State) : Host.Outcome State Fault Refusal :=
  .next (s.doorTo d s.doors[d].holdExpires false).settle

/-- RELOCK_TIMER_EXPIRY (R129). -/
def execRelockTimerExpiry (d : DoorId) (s : State) : Host.Outcome State Fault Refusal :=
  .next (s.doorTo d (s.doors[d].relockExpired s.now s.isStarting) false).settle

/-- FEEDBACK_TIMER_EXPIRY (R130). -/
def execFeedbackTimerExpiry (d : DoorId) (s : State) : Host.Outcome State Fault Refusal :=
  .next (s.doorTo d s.doors[d].feedbackExpired false).settle

/-- LAMP_COMPARE_MATCH (R133). -/
def execLampCompareMatch (d : DoorId) (s : State) : Host.Outcome State Fault Refusal :=
  .next (s.setDoor d s.doors[d].lampMatch)

/-! ### Call point, plan unit -/

/-- The call point input changes (R137): a level that differs from the accepted one begins the 20 ms, the accepted level
ends them. -/
def State.callPointInput (s : State) (active : Bool) : State :=
  { s with
    pins := { s.pins with callPoint := active }
    callTimer :=
      if active = s.callPoint then none else if s.callTimer.isSome then s.callTimer else s.startMs 20 }

/-- The 20 ms of the call point end: the level is accepted, and CALL_POINT follows it (R137). -/
def State.callPointAccepted (s : State) : State :=
  if s.callTimer = none then s
  else State.follow srcCallPoint s.callPoint (!s.callPoint) { s with callPoint := !s.callPoint, callTimer := none }

/-- CALL_POINT_INPUT_CHANGE (R137). -/
def execCallPointInputChange (active : Bool) (s : State) : Host.Outcome State Fault Refusal :=
  .next (s.callPointInput active)

/-- CALL_POINT_ACCEPTED (R137). -/
def execCallPointAccepted (s : State) : Host.Outcome State Fault Refusal := .next s.callPointAccepted.settle

/-- LAUNCH_HOLD_EXPIRY (R155). -/
def execLaunchHoldExpiry (s : State) : Host.Outcome State Fault Refusal := .next s.launchHoldExpired.settle

/-- STEP_TIMER_EXPIRY (R160). -/
def execStepTimerExpiry (s : State) : Host.Outcome State Fault Refusal := .next s.stepExpired.settle

/-! ### Image store -/

/-- IMAGE_HEADER_READ (R183). -/
def execImageHeaderRead (r : SerialAnswer) (s : State) : Host.Outcome State Fault Refusal :=
  .next (s.headerRead r).settle

/-- IMAGE_GROUP_READ (R183). -/
def execImageGroupRead (r : SerialAnswer) (s : State) : Host.Outcome State Fault Refusal :=
  .next (s.groupRead r).settle

/-- STORE_WRITE_COMPLETE (R184). -/
def execStoreWriteComplete (r : SerialAnswer) (s : State) : Host.Outcome State Fault Refusal :=
  .next (s.writeComplete r)

/-- STORE_VERIFY_COMPLETE (R184). -/
def execStoreVerifyComplete (r : SerialAnswer) (s : State) : Host.Outcome State Fault Refusal :=
  .next (s.verifyComplete r).settle

end Sys2Proof.Machine
end

