-- ==== Sys2Proof/Machine/Dispatch.lean ====
section
/-! DEFINITION. Machine/Dispatch.lean: one arm per command, each a call of the command's meaning. -/

namespace Sys2Proof.Machine

/-- The effect of a command on everything but the queue. -/
def exec (i : Instr) (s : State) : Host.Outcome State Fault Refusal :=
  match i with
  | .powerOnReset => Sys2Proof.Machine.execPowerOnReset s
  | .pinReset => Sys2Proof.Machine.execPinReset s
  | .badFrame p => Sys2Proof.Machine.execBadFrame p s
  | .fill p => Sys2Proof.Machine.execFill p s
  | .count p side k => Sys2Proof.Machine.execCount p side k s
  | .sample p f => Sys2Proof.Machine.execSample p f s
  | .event p f => Sys2Proof.Machine.execEvent p f s
  | .trigger p f => Sys2Proof.Machine.execTrigger p f s
  | .mgmtReply p f => Sys2Proof.Machine.execMgmtReply p f s
  | .mgmtReqRelay p f => Sys2Proof.Machine.execMgmtReqRelay p f s
  | .time p clock => Sys2Proof.Machine.execTime p clock s
  | .unknownFrame p => Sys2Proof.Machine.execUnknownFrame p s
  | .read p r => Sys2Proof.Machine.execRead p r s
  | .write p r => Sys2Proof.Machine.execWrite p r s
  | .tapLoad p r => Sys2Proof.Machine.execTapLoad p r s
  | .flushTap p r => Sys2Proof.Machine.execFlushTap p r s
  | .flushPlans p r => Sys2Proof.Machine.execFlushPlans p r s
  | .ack p r => Sys2Proof.Machine.execAck p r s
  | .clearPlan p r => Sys2Proof.Machine.execClearPlan p r s
  | .setMask p r => Sys2Proof.Machine.execSetMask p r s
  | .fanReset p r => Sys2Proof.Machine.execFanReset p r s
  | .doorReset p r => Sys2Proof.Machine.execDoorReset p r s
  | .openNode p r => Sys2Proof.Machine.execOpen p r s
  | .store p r => Sys2Proof.Machine.execStore p r s
  | .restart p r => Sys2Proof.Machine.execRestart p r s
  | .linkTimerExpiry p => Sys2Proof.Machine.execLinkTimerExpiry p s
  | .fillTimerExpiry p => Sys2Proof.Machine.execFillTimerExpiry p s
  | .transmissionCompletion p => Sys2Proof.Machine.execTransmissionCompletion p s
  | .conversionCompletion ch code => Sys2Proof.Machine.execConversionCompletion ch code s
  | .reportTimerExpiry => Sys2Proof.Machine.execReportTimerExpiry s
  | .tapAgeingExpiry => Sys2Proof.Machine.execTapAgeingExpiry s
  | .controlTimerExpiry => Sys2Proof.Machine.execControlTimerExpiry s
  | .kindHoldExpiry k => Sys2Proof.Machine.execKindHoldExpiry k s
  | .tachEdge f e => Sys2Proof.Machine.execTachEdge f e s
  | .tachOverflow f => Sys2Proof.Machine.execTachOverflow f s
  | .periodStart f => Sys2Proof.Machine.execPeriodStart f s
  | .startTimerExpiry f => Sys2Proof.Machine.execStartTimerExpiry f s
  | .stallTimerExpiry f => Sys2Proof.Machine.execStallTimerExpiry f s
  | .dwellTimerExpiry f => Sys2Proof.Machine.execDwellTimerExpiry f s
  | .isolatorInputChange f isOpen => Sys2Proof.Machine.execIsolatorInputChange f isOpen s
  | .isolatorAccepted f => Sys2Proof.Machine.execIsolatorAccepted f s
  | .doorInputChange d x active => Sys2Proof.Machine.execDoorInputChange d x active s
  | .doorDebounceExpiry d x => Sys2Proof.Machine.execDoorDebounceExpiry d x s
  | .egressTimerExpiry d => Sys2Proof.Machine.execEgressTimerExpiry d s
  | .holdTimerExpiry d => Sys2Proof.Machine.execHoldTimerExpiry d s
  | .relockTimerExpiry d => Sys2Proof.Machine.execRelockTimerExpiry d s
  | .feedbackTimerExpiry d => Sys2Proof.Machine.execFeedbackTimerExpiry d s
  | .lampCompareMatch d => Sys2Proof.Machine.execLampCompareMatch d s
  | .callPointInputChange active => Sys2Proof.Machine.execCallPointInputChange active s
  | .callPointAccepted => Sys2Proof.Machine.execCallPointAccepted s
  | .launchHoldExpiry => Sys2Proof.Machine.execLaunchHoldExpiry s
  | .stepTimerExpiry => Sys2Proof.Machine.execStepTimerExpiry s
  | .imageHeaderRead r => Sys2Proof.Machine.execImageHeaderRead r s
  | .imageGroupRead r => Sys2Proof.Machine.execImageGroupRead r s
  | .storeWriteComplete r => Sys2Proof.Machine.execStoreWriteComplete r s
  | .storeVerifyComplete r => Sys2Proof.Machine.execStoreVerifyComplete r s
  | .badOpRequest p op r => Sys2Proof.Machine.execBadOpRequest p op r s

end Sys2Proof.Machine
end

