-- ==== Sys2Proof/Machine/Wire.lean ====
section
/-! DEFINITION. Machine/Wire.lean: the bytes of a frame on the line (R19, R179) and the command that received bytes are:
the receiver's check, the structure test of R26 and the dispatch of a MGMT_REQ by its distance and op (R30, R169). -/

namespace Sys2Proof.Machine

/-! ### Bytes of a frame as it is sent -/

/-- A word as two bytes, the more significant first. -/
def wordBytes (w : Word) : List Byte := [w.extractLsb' 8 8, w.extractLsb' 0 8]

/-- A 32-bit value as four bytes, the most significant first. -/
def clockBytes (c : BitVec 32) : List Byte :=
  [c.extractLsb' 24 8, c.extractLsb' 16 8, c.extractLsb' 8 8, c.extractLsb' 0 8]

/-- A small number as a byte. -/
def byteOf (n : Nat) : Byte := BitVec.ofNat 8 n

/-- The kind code of a frame (R179). -/
def frameCode : Frame → Nat
  | .fill => 1
  | .count _ _ => 2
  | .sample _ => 3
  | .event _ => 4
  | .trigger _ => 5
  | .mgmtReq _ => 6
  | .mgmtReply _ => 7
  | .time _ => 8

/-- The five bytes of a SAMPLE item. -/
def itemBytes (i : SampleItem) : List Byte := [i.channel, byteOf (kindCode i.kind), i.flags] ++ wordBytes i.value

/-- The payload of a frame (R179). -/
def payloadBytes : Frame → List Byte
  | .fill => []
  | .count side k => [byteOf (sideCode side), k]
  | .sample f => f.origin :: f.reach :: f.items.flatMap itemBytes
  | .event f =>
    f.origin :: byteOf (transitionCode f.transition) :: (wordBytes f.code
      ++ f.count :: byteOf (classCode f.cls) :: f.level :: f.step :: (clockBytes f.clock ++ [f.flag]))
  | .trigger f => f.origin :: byteOf (modeCode f.mode) :: (wordBytes f.code ++ [f.first, f.last])
  | .mgmtReq f =>
    f.distance :: f.op :: (wordBytes f.req.tag ++ f.req.table :: (wordBytes f.req.index
      ++ f.req.count :: byteOf f.req.data.length :: f.req.data.flatMap wordBytes))
  | .mgmtReply f =>
    f.origin :: f.op :: (wordBytes f.tag ++ f.status :: f.table :: (wordBytes f.index
      ++ f.count :: byteOf f.data.length :: f.data.flatMap wordBytes))
  | .time c => clockBytes c

/-- Header and payload (R179). -/
def frameBody (f : Frame) : List Byte :=
  byteOf (frameCode f) :: byteOf (payloadBytes f).length :: payloadBytes f

/-- The bytes of a frame on the line, with the check word formed at transmission (R18, R19). -/
def wireBytes (f : Frame) : List Byte := frameBody f ++ wordBytes (checkWord (pairBytes (frameBody f)))

/-! ### Parsing a payload -/

/-- The items of a SAMPLE; none when a kind names none of the four or bytes are left over (R26). -/
def parseItems : List Byte → Option (List SampleItem)
  | [] => some []
  | c :: k :: fl :: v1 :: v0 :: rest =>
    match kindOfCode k.toNat, parseItems rest with
    | some kind, some is => some (⟨c, kind, fl, v1 ++ v0⟩ :: is)
    | some _, none => none
    | none, _ => none
  | [_] => none
  | [_, _] => none
  | [_, _, _] => none
  | [_, _, _, _] => none

/-- Data words; none when a byte is left over. -/
def parseWords : List Byte → Option (List Word)
  | [] => some []
  | a :: b :: rest => (parseWords rest).map fun ws => (a ++ b) :: ws
  | [_] => none

def parseSample : List Byte → Option Frame
  | o :: r :: rest =>
    match parseItems rest with
    | some is => if 1 ≤ is.length ∧ is.length ≤ 4 then some (.sample ⟨o, r, is⟩) else none
    | none => none
  | _ => none

def parseCount : List Byte → Option Frame
  | [side, k] => (sideOfCode side.toNat).map fun s => .count s k
  | _ => none

def parseEvent : List Byte → Option Frame
  | [o, t, c1, c0, n, cls, lvl, st, k3, k2, k1, k0, fl] =>
    match transitionOfCode t.toNat, classOfCode cls.toNat with
    | some tr, some cl => some (.event ⟨o, tr, c1 ++ c0, n, cl, lvl, st, k3 ++ k2 ++ k1 ++ k0, fl⟩)
    | some _, none => none
    | none, _ => none
  | _ => none

def parseTrigger : List Byte → Option Frame
  | [o, m, c1, c0, first, last] => (modeOfCode m.toNat).map fun mode => .trigger ⟨o, mode, c1 ++ c0, first, last⟩
  | _ => none

/-- The stated count of data words, at most 16 (R26). -/
def parseData (n : Byte) (rest : List Byte) : Option (List Word) :=
  match parseWords rest with
  | some ws => if ws.length = n.toNat ∧ ws.length ≤ 16 then some ws else none
  | none => none

def parseRequest : List Byte → Option Frame
  | d :: op :: t1 :: t0 :: tb :: i1 :: i0 :: c :: n :: rest =>
    (parseData n rest).map fun ws => .mgmtReq ⟨d, op, ⟨t1 ++ t0, tb, i1 ++ i0, c, ws⟩⟩
  | _ => none

def parseReply : List Byte → Option Frame
  | o :: op :: t1 :: t0 :: st :: tb :: i1 :: i0 :: c :: n :: rest =>
    (parseData n rest).map fun ws => .mgmtReply ⟨o, op, t1 ++ t0, st, tb, i1 ++ i0, c, ws⟩
  | _ => none

def parseTime : List Byte → Option Frame
  | [k3, k2, k1, k0] => some (.time (k3 ++ k2 ++ k1 ++ k0))
  | _ => none

/-- The frame of a kind code and payload; none for an unknown kind or a failed structure test (R26). -/
def parseFrame (code : Nat) (payload : List Byte) : Option Frame :=
  match code with
  | 1 => if payload = [] then some .fill else none
  | 2 => parseCount payload
  | 3 => parseSample payload
  | 4 => parseEvent payload
  | 5 => parseTrigger payload
  | 6 => parseRequest payload
  | 7 => parseReply payload
  | 8 => parseTime payload
  | _ => none

/-! ### The command a frame is -/

/-- The command of a request at distance 0 by its op (R169, R179). -/
def commandOfOp (p : Port) (op : Byte) (r : Request) : Instr :=
  match op.toNat with
  | 1 => .read p r
  | 2 => .write p r
  | 3 => .tapLoad p r
  | 4 => .flushTap p r
  | 5 => .flushPlans p r
  | 6 => .ack p r
  | 7 => .clearPlan p r
  | 8 => .setMask p r
  | 9 => .fanReset p r
  | 10 => .doorReset p r
  | 11 => .openNode p r
  | 12 => .store p r
  | 13 => .restart p r
  | _ => .badOpRequest p op r

/-- The command of a good frame that arrives on a port. -/
def commandOf (p : Port) : Frame → Instr
  | .fill => .fill p
  | .count side k => .count p side k
  | .sample f => .sample p f
  | .event f => .event p f
  | .trigger f => .trigger p f
  | .mgmtReq f => if f.distance = 0 then commandOfOp p f.op f.req else .mgmtReqRelay p f
  | .mgmtReply f => .mgmtReply p f
  | .time c => .time p c

/-- The command of a header, its payload and a check word (R19, R26). -/
def receiveBody (p : Port) (code len : Byte) (payload : List Byte) (check : Word) : Instr :=
  if 42 < len.toNat ∨ payload.length ≠ len.toNat then .badFrame p
  else if checkPasses (pairBytes (code :: len :: payload)) check then
    match parseFrame code.toNat payload with
    | some f => commandOf p f
    | none => .unknownFrame p
  else .badFrame p

/-- The last two bytes of a list as a word, with the bytes before them. -/
def splitCheck (bytes : List Byte) : Option (List Byte × Word) :=
  match bytes.reverse with
  | b :: a :: rest => some (rest.reverse, a ++ b)
  | _ => none

/-- The command that the bytes the receiver delivers on a port are (R18, R19, R20, R26). -/
def receive (p : Port) (bytes : List Byte) : Instr :=
  match splitCheck bytes with
  | some (code :: len :: payload, check) => receiveBody p code len payload check
  | some ([], _) => .badFrame p
  | some ([_], _) => .badFrame p
  | none => .badFrame p

end Sys2Proof.Machine
end

