-- ==== Sys2Proof/Safety.lean ====
section
/-! DEFINITION. Safety.lean: the device laws that the spec names, as predicates on a state (R23, R24, R38, R57, R100, R101,
R106, R114, R123, R130, R145, R152), the ranges of the configuration records, and the small vocabulary the statements are
written in. -/

namespace Sys2Proof.Machine

/-! ### Vocabulary -/

/-- Nothing is owed within an event: no acceptance decision, and no step end of the ACTIVE context (log entry 3). -/
def State.Settled (s : State) : Prop := s.decisionDue = false ∧ ∀ c, s.active = some c → c.clearSeen = false

/-- A settled state whose port `p` is UP: a good frame on it is dispatched whatever its kind. -/
def State.Hears (s : State) (p : Port) : Prop := s.Settled ∧ (s.port p).state = .up

/-- After a good frame on an UP port: the link timer starts again (R21). -/
def State.heard (s : State) (p : Port) : State :=
  s.setPort p { s.port p with linkTimer := s.startMs s.node.linkTimeout }

/-- A latch entry after one occurrence, its serve state apart (R141, steps 1 to 5). -/
structure LatchEntry.CountedOnce (n : EntryId) (t : Stamp) (origin : Nat) (e e' : LatchEntry) : Prop where
  count : e'.count = e.count + 1
  unack : e'.unack = true
  first : e'.first = some (e.first.getD t)
  last : e'.last = some t
  origin : e'.origin = origin
  asserted : e'.asserted = (isLevel n || e.asserted)

/-- Two latch entries agree but for the serve state. -/
structure SameRecord (e e' : LatchEntry) : Prop where
  asserted : e'.asserted = e.asserted
  count : e'.count = e.count
  unack : e'.unack = e.unack
  first : e'.first = e.first
  last : e'.last = e.last
  origin : e'.origin = e.origin

/-- The entries that the consequences of any event may count an occurrence of: QUEUE_OVERRUN (R43), DOORn_HELD (R127) and
PLAN_DROPPED (R158). -/
def settleSide (n : EntryId) : Prop := n = srcOverrun ∨ n = srcHeld 0 ∨ n = srcHeld 1 ∨ n = srcPlanDropped

/-- The state with all that an event's consequences may touch blanked: the frames they send (ports), the occurrences
they count (latch), and the plan unit with what it directs (stack, fans, doors, lamps, u). Equal for two states, so every
other field is unchanged. -/
def State.still (s : State) : State :=
  { s with
    ports := {}
    latch := Vector.replicate 51 {}
    stack := []
    dropped := none
    decisionDue := false
    fans := Vector.replicate 3 {}
    doors := Vector.replicate 2 {}
    u := 0
    launchHold := none
    lampMode := .off }

/-- The supervision and transmission fields of a port agree (the queues and pointers may differ). -/
structure SameLink (P Q : LinePort) : Prop where
  state : Q.state = P.state
  probe : Q.probe = P.probe
  linkTimer : Q.linkTimer = P.linkTimer

/-- Both transmitters are busy and each local queue has room for four frames more, so a local frame waits at each UP port and
none is discarded. -/
def State.Roomy (s : State) : Prop := ∀ p, (s.port p).tx ≠ none ∧ (s.port p).lh.length ≤ 4 ∧ (s.port p).ll.length ≤ 12

/-- A port at which a local frame waits: at the tail of its queue with its entry time, or lost at a port that is not UP (R39,
R41, R42). -/
def LinePort.waits (now : Nat) (f : Frame) (P : LinePort) : LinePort :=
  if P.isUp then P.setQueue (localQueue f) (P.queue (localQueue f) ++ [⟨f, now⟩]) else P

/-- A port at which the spread TRIGGER of a step waits (R159), unless the spread code or posA is 0: its span runs from
posA − s to posA + s within 1 to 254. -/
def LinePort.waitsSpread (s : State) (i : Fin 64) (P : LinePort) : LinePort :=
  if s.plan[i].spreadCode = 0 ∨ s.posA = 0 then P
  else P.waits s.now (.trigger
    { origin := BitVec.ofNat 8 s.posA, mode := s.plan[i].spreadMode, code := s.plan[i].spreadCode
      first := BitVec.ofNat 8 (max (s.posA - s.plan[i].spreadSpan) 1)
      last := BitVec.ofNat 8 (min (s.posA + s.plan[i].spreadSpan) 254) })

/-- The EVENT frame of the occurrence that a source counts now (R147): its count is the one after it. -/
def State.occurredFrame (s : State) (n : EntryId) : Frame :=
  (s.setLatch n { s.latch[n] with count := s.latch[n].count + 1 }).eventFrame n .occurred (s.sourceCode n)
    (s.sourceCfg n).step

/-- The configuration fields of two states agree. -/
structure SameConfig (s t : State) : Prop where
  node : t.node = s.node
  channels : ∀ c : ChannelId, t.channels[c].cfg = s.channels[c].cfg
  terms : t.terms = s.terms
  kinds : ∀ k, (t.kind k).cfg = (s.kind k).cfg
  fans : ∀ f : FanId, t.fans[f].cfg = s.fans[f].cfg
  doors : ∀ d : DoorId, t.doors[d].cfg = s.doors[d].cfg
  sources : t.sources = s.sources
  lines : t.lines = s.lines
  plan : t.plan = s.plan

/-- The port of a good frame that UP alone dispatches (R25): every kind but FILL and COUNT. -/
def upOnly : Instr → Option Port
  | .sample p _ => some p
  | .event p _ => some p
  | .trigger p _ => some p
  | .mgmtReply p _ => some p
  | .mgmtReqRelay p _ => some p
  | .time p _ => some p
  | .unknownFrame p => some p
  | .read p _ => some p
  | .write p _ => some p
  | .tapLoad p _ => some p
  | .flushTap p _ => some p
  | .flushPlans p _ => some p
  | .ack p _ => some p
  | .clearPlan p _ => some p
  | .setMask p _ => some p
  | .fanReset p _ => some p
  | .doorReset p _ => some p
  | .openNode p _ => some p
  | .store p _ => some p
  | .restart p _ => some p
  | .badOpRequest p _ _ => some p
  | _ => none

/-- The port, op and fields of a management request (R168, R179). -/
def requestOf : Instr → Option (Port × Byte × Request)
  | .read p r => some (p, 1, r)
  | .write p r => some (p, 2, r)
  | .tapLoad p r => some (p, 3, r)
  | .flushTap p r => some (p, 4, r)
  | .flushPlans p r => some (p, 5, r)
  | .ack p r => some (p, 6, r)
  | .clearPlan p r => some (p, 7, r)
  | .setMask p r => some (p, 8, r)
  | .fanReset p r => some (p, 9, r)
  | .doorReset p r => some (p, 10, r)
  | .openNode p r => some (p, 11, r)
  | .store p r => some (p, 12, r)
  | .restart p r => some (p, 13, r)
  | .badOpRequest p op r => some (p, op, r)
  | _ => none

/-- The commands that are no reset (R177, R181). -/
def keepsRunning : Instr → Bool
  | .powerOnReset => false
  | .pinReset => false
  | .restart _ _ => false
  | _ => true

/-- A settled node outside STARTING hears a request that passes its structure test: the responder executes it. -/
def State.Serves (s : State) (p : Port) (r : Request) : Prop :=
  s.Hears p ∧ s.nodeState ≠ .starting ∧ r.wf = true

/-! ### Line ports and queues -/

/-- The frames a queue may hold (R38). -/
def QueueId.mayHold : QueueId → Frame → Bool
  | .rh, .trigger _ => true
  | .rh, .event f => f.cls != .advisory
  | .lh, .trigger _ => true
  | .lh, .event f => f.cls != .advisory
  | .rl, .count _ _ => true
  | .rl, .sample _ => true
  | .rl, .event f => f.cls == .advisory
  | .rl, .mgmtReq _ => true
  | .rl, .mgmtReply _ => true
  | .rl, .time _ => true
  | .ll, .sample _ => true
  | .ll, .event f => f.cls == .advisory
  | .ll, .mgmtReply _ => true
  | _, _ => false

/-- The probe counts of a supervision state (R21). -/
def PortState.probes : PortState → Nat → Bool
  | .down, n => n == 0
  | .probing, n => n == 1 || n == 2
  | .up, n => n == 3

/-- The laws of a line port: supervision (R21, R22), the fill timer (R24), the queues (R38, R39, R49), and an arbiter that
leaves no frame waiting behind an idle transmitter (R42, R50). -/
structure LinePort.Lawful (P : LinePort) : Prop where
  probe : P.state.probes P.probe = true
  link : P.linkTimer.isSome = (P.state != .down)
  fill : P.fillTimer.isSome = P.tx.isNone
  bounded : ∀ q, (P.queue q).length ≤ q.capacity
  kinds : ∀ q x, x ∈ P.queue q → q.mayHold x.frame = true
  quiet : P.isUp = false → ∀ q, P.queue q = []
  idle : P.tx = none → ∀ q, P.queue q = []

/-- Both ports keep the laws, and LINK_x_DOWN is asserted exactly while its port is not UP (R23). -/
def State.LineLaw (s : State) : Prop :=
  ∀ p, (s.port p).Lawful ∧ s.latch[srcLinkDown p].asserted = !(s.port p).isUp

/-! ### Tap cache -/

/-- A valid entry at a place: its key selects the place's set, and its fields are in range (R57, R58). -/
structure TapEntry.Fits (i : Fin 128) (e : TapEntry) : Prop where
  set : (setIndex e.origin e.channel).val = i.val / 4
  origin : 1 ≤ e.origin ∧ e.origin ≤ 254
  channel : e.channel ≤ 3
  age : e.age ≤ 255

/-- The laws of the tap cache: every valid entry fits its place, and no key stands in two valid entries (R57). -/
structure State.TapLaw (s : State) : Prop where
  fits : ∀ (i : Fin 128) (e : TapEntry), s.tap[i] = some e → e.Fits i
  unique : ∀ (i j : Fin 128) (e f : TapEntry), s.tap[i] = some e → s.tap[j] = some f →
    e.origin = f.origin → e.channel = f.channel → i = j

/-! ### Fans -/

/-- The laws of a fan channel: outputs off means duty 0, and while one is on the pending duty lies between the effective
Dmin and Dmax (R101, log entry 17, of a request within R104's magnitudes), each timer runs in its own state alone (R107 to
R113), an open isolator means DISABLED (R113), magnitude 0 carries no direction (R105), an output is on as the request asks
(R109), STOPPING(d) carries the last direction (R109, R112, R113), and what the tach has given stands only while the capture
timer runs (R102). -/
structure Fan.Lawful (F : Fan) : Prop where
  duty : F.runDir = none → F.duty = 0 ∧ F.pendingDuty = 0
  start : F.startTimer.isSome = true → ∃ d, F.state = .starting d
  stall : F.stallTimer.isSome = true → ∃ d, F.state = .running d
  dwell : F.dwellTimer.isSome = true → ∃ d, F.state = .stopping d
  isolated : F.isoOpen = true ↔ F.state = .disabled
  request : F.request.mag = 0 → F.request.dir = none
  driven : ∀ d, F.runDir = some d → F.lastDir = some d
  commanded : ∀ d, F.runDir = some d → F.wants d = true
  coasting : ∀ d, F.state = .stopping (some d) → F.lastDir = some d
  pending : F.runDir.isSome = true → F.request.mag ≤ 1000 →
    F.cfg.effDmin ≤ F.pendingDuty ∧ F.pendingDuty ≤ F.cfg.effDmax
  period : F.pendingTp = F.cfg.tp
  capture : F.captureTimer = none →
    F.lastRise = none ∧ F.lastFall = none ∧ F.pNew = none ∧ F.pPrev = none ∧ F.speed = 0

def State.FanLaw (s : State) : Prop := ∀ f : FanId, s.fans[f].Lawful

/-- While the guard applies or the node is STARTING, both jet requests are 0 and no jet is driven (R105, R106, R116). -/
def State.GuardLaw (s : State) : Prop :=
  s.jetsHeld = true → ∀ f : FanId, f ≠ passage → s.fans[f].request.mag = 0 ∧ s.fans[f].runDir = none

/-- The door law of R114, with the converse: the passage channel's request is a run request exactly while it has reason to
run. Its speed field is never 0 (R99). -/
structure State.PassageLaw (s : State) : Prop where
  speed : 1 ≤ s.fans[passage].cfg.passageSpeed
  runs : s.passageRuns = true →
    1 ≤ s.fans[passage].request.mag ∧ s.fans[passage].request.dir = some .forward
  stops : s.passageRuns = false → s.fans[passage].request.mag = 0

/-! ### Doors -/

/-- The laws of a door channel in a node that is, or is not, STARTING: position (R121), SECURED and RELEASED (R123), the
timers of each state (R124 to R129), FAULT and the lock feedback (R130). -/
structure Door.Lawful (starting : Bool) (D : Door) : Prop where
  secured : D.state = .secured →
    D.closed.level = true ∧ D.requiresRelease starting = false
  released : ∀ c, D.state = .released c →
    D.closed.level = true ∧ D.requiresRelease starting = true ∧ c = D.releaseCause starting
  bar : (∃ c, D.state = .released c) → D.pushBar.level = true → starting = true ∨ D.egressTimer.isSome = true
  relocking : D.state = .relocking →
    D.closed.level = true ∧ D.requiresRelease starting = false ∧ D.relockTimer.isSome = true
  opened : ∀ c, D.state = .opened c → D.closed.level = false ∧ D.holdTimer.isSome = !D.holdExpired
  held : D.state = .held → D.closed.level = false ∧ D.holdTimer = none ∧ D.holdExpired = false
  egress : D.egressTimer.isSome = true → ∃ c, D.state = .released c
  hold : D.holdTimer.isSome = true → ∃ c, D.state = .opened c
  expired : D.holdExpired = true → (∃ c, D.state = .opened c) ∧ D.policy = .holdOpen
  relock : D.relockTimer.isSome = true → D.state = .relocking
  feedback : D.feedbackTimer.isSome = (D.state != .fault && !D.agrees)

def State.DoorLaw (s : State) : Prop := ∀ d : DoorId, s.doors[d].Lawful s.isStarting

/-- Each door has taken the most open policy that the stack directs for it (R122). -/
def State.PolicyLaw (s : State) : Prop := ∀ d : DoorId, s.doors[d].policy = s.effectivePolicy d

/-- The laws of the lamps (R133): the mode is that of the ACTIVE context's step, OFF with an empty stack; both LAMPs are off in
OFF and on in STEADY, and the lamp timers run in FLASH alone. -/
structure State.LampLaw (s : State) : Prop where
  mode : s.lampMode = s.lampDirective
  off : s.lampMode = .off → ∀ d : DoorId, s.doors[d].lamp = false
  steady : s.lampMode = .steady → ∀ d : DoorId, s.doors[d].lamp = true
  timers : ∀ d : DoorId, s.doors[d].lampTimer.isSome = (s.lampMode == .flash)

/-! ### Plan unit -/

/-- A saved context's step timer is frozen, the ACTIVE context's is not (R152). -/
def StepTimer.isRunning : StepTimer → Bool
  | .running _ => true
  | .none => false
  | .frozen _ => false

def StepTimer.isFrozen : StepTimer → Bool
  | .frozen _ => true
  | .none => false
  | .running _ => false

/-- The laws of the stack (R152, R144): at most three contexts, levels strictly rising to the ACTIVE one, one context for
each SERVED entry and none besides. -/
structure State.StackLaw (s : State) : Prop where
  depth : s.stack.length ≤ 3
  rising : s.stack.Pairwise fun c d => d.level < c.level
  single : s.stack.Pairwise fun c d => c.source ≠ d.source
  served : ∀ n : EntryId, s.latch[n].serve = .served ↔ ∃ c ∈ s.stack, c.source = n
  active : ∀ c, s.active = some c → c.timer.isFrozen = false
  saved : ∀ c ∈ s.stack.tail, c.timer.isRunning = false

/-- The steps that a load has brought: those of the PLAN groups below the one it reads. -/
def State.stepLoaded (s : State) (i : Fin 64) : Prop :=
  match s.loading with
  | .done => True
  | .header => False
  | .group g _ _ => (groupOfStep i).val < g.val

/-- The node is STARTING while the load runs (R181), a PENDING entry's plan step is valid (R145), and valid steps and the
contexts' steps are of groups already loaded (R166). -/
structure State.LoadLaw (s : State) : Prop where
  starting : s.nodeState = .starting ↔ s.loading ≠ .done
  pending : ∀ n : EntryId, s.latch[n].serve = .pending → s.planValid n = true
  valid : ∀ i : Fin 64, s.plan[i].valid = true → s.stepLoaded i
  current : ∀ c ∈ s.stack, s.stepLoaded c.step

/-! ### Configuration ranges -/

/-- A channel record's range (R1). -/
def ChannelCfg.InRange (c : ChannelCfg) : Prop :=
  -32768 ≤ c.lo ∧ c.lo ≤ 32767 ∧ -32768 ≤ c.hi ∧ c.hi ≤ 32767 ∧ c.window ≤ 7

/-- A term's range (R77). -/
def Term.InRange (t : Term) : Prop := -15 ≤ t.offset ∧ t.offset ≤ 15 ∧ t.weight ≤ 15

/-- A kind record's range (R80). -/
def KindCfg.InRange (c : KindCfg) : Prop :=
  c.quorum ≤ 120 ∧ c.hold ≤ 600 ∧ c.failed ≤ 1000 ∧
    ∀ x ∈ [c.tLo, c.tHi, c.alarm, c.clear], -32768 ≤ x ∧ x ≤ 32767

/-- A fan record's range (R99). -/
def FanCfg.InRange (c : FanCfg) : Prop :=
  c.stageOffset ≤ 1000 ∧ c.startLevel ≤ 1000 ∧ c.stopLevel ≤ 1000 ∧ (1 ≤ c.passageSpeed ∧ c.passageSpeed ≤ 1000) ∧
    (200 ≤ c.tp ∧ c.tp ≤ 4000) ∧ c.dMin ≤ 4000 ∧ c.dMax ≤ 4000 ∧ (50 ≤ c.ratedPeriod ∧ c.ratedPeriod ≤ 65535) ∧
    (1 ≤ c.startTime ∧ c.startTime ≤ 60) ∧ (1 ≤ c.confirmSpeed ∧ c.confirmSpeed ≤ 1000) ∧ c.stallRatio ≤ 100 ∧
    (1 ≤ c.stallTime ∧ c.stallTime ≤ 60) ∧ (30 ≤ c.coastDwell ∧ c.coastDwell ≤ 300) ∧ c.stillThreshold ≤ 1000

/-- A door record's range (R119). -/
def DoorCfg.InRange (c : DoorCfg) : Prop :=
  (5 ≤ c.debounce ∧ c.debounce ≤ 100) ∧ (5 ≤ c.egressTime ∧ c.egressTime ≤ 60) ∧
    (10 ≤ c.holdLimit ∧ c.holdLimit ≤ 600) ∧ (1 ≤ c.relockDelay ∧ c.relockDelay ≤ 30) ∧
    (1 ≤ c.feedbackTime ∧ c.feedbackTime ≤ 10) ∧ (250 ≤ c.flashHalf ∧ c.flashHalf ≤ 2000)

/-- A source configuration's range (R138). -/
def SourceCfg.InRange (c : SourceCfg) : Prop := c.level ≤ 7

/-- A line map entry's range (R139). -/
def LineMapEntry.InRange (e : LineMapEntry) : Prop := (e.code = 0 ∨ 0x0800 ≤ e.code.toNat) ∧ e.cfg.InRange

/-- A plan step's range (R150). -/
def PlanStep.InRange (p : PlanStep) : Prop :=
  p.duration ≤ 65535 ∧ p.fixedSpeed ≤ 1000 ∧ -32768 ≤ p.vt ∧ p.vt ≤ 32767 ∧ p.guardSpan ≤ 15 ∧
    (p.spreadCode = 0 ∨ 0x0800 ≤ p.spreadCode.toNat) ∧ p.spreadSpan ≤ 31

/-- The NODE fields' ranges (R13, R22, R24, R48, R60, R75, R79, R88, R90, R155). -/
def NodeCfg.InRange (n : NodeCfg) : Prop :=
  (1 ≤ n.reportPeriod ∧ n.reportPeriod ≤ 60) ∧ n.sampleReach ≤ 15 ∧ (100 ≤ n.linkTimeout ∧ n.linkTimeout ≤ 5000) ∧
    (20 ≤ n.fillPeriod ∧ n.fillPeriod ≤ 1000) ∧ (100 ≤ n.sampleAgeLimit ∧ n.sampleAgeLimit ≤ 5000) ∧ n.tapLock ≤ 7 ∧
    n.learnWindow ≤ 15 ∧ (1 ≤ n.controlPeriod ∧ n.controlPeriod ≤ 10) ∧ (1 ≤ n.staleLimit ∧ n.staleLimit ≤ 255) ∧
    n.rUp ≤ 1000 ∧ n.rDn ≤ 1000 ∧ n.kp ≤ 255 ∧ n.launchHold ≤ 5000

/-- Every configuration field lies in the range of its rule. -/
structure State.ConfigLaw (s : State) : Prop where
  node : s.node.InRange
  channels : ∀ c : ChannelId, s.channels[c].cfg.InRange
  terms : ∀ i : Fin 32, s.terms[i].InRange
  kinds : ∀ k, (s.kind k).cfg.InRange
  fans : ∀ f : FanId, s.fans[f].cfg.InRange
  doors : ∀ d : DoorId, s.doors[d].cfg.InRange
  sources : ∀ n : Fin 35, s.sources[n].InRange
  lines : ∀ i : Fin 16, s.lines[i].InRange
  plan : ∀ i : Fin 64, s.plan[i].InRange

end Sys2Proof.Machine
end

