-- ==== Sys2Proof/Certificates/Slice0/Obligations.lean ====
section
/-! DEFINITION. Certificates/Slice0/Obligations.lean: the statements for the provers, in the order of the spec's chapters:
what each command does (its completion, result and frame), then the device laws that every step keeps. -/

open Sys2Proof Sys2Proof.Machine

/-! ### The machine -/

/-- A step takes the command at the front of the queue (95_what_each_step_holds.md). -/
def Obligations.StepRunsTheFrontCommand : Prop :=
  ∀ (c : Instr) (rest : List Instr) (s : State),
    s.pending = c :: rest → step s = exec c { s with pending := rest }

/-- With no command waiting one µs of core clock time passes: the model's choice (log entry 1). The node clock counts its
milliseconds (R34, its phase by log entry 9) and the period counters count up to Tp (R101, log entry 23). -/
def Obligations.AnEmptyQueueLetsAMicrosecondPass : Prop :=
  ∀ s : State, s.pending = [] → s.msPhase < 1000 →
    step s = .next
      { s with
        now := s.now + 1
        clock := if s.msPhase = 999 then s.clock + 1 else s.clock
        msPhase := if s.msPhase = 999 then 0 else s.msPhase + 1
        fans := Vector.ofFn fun f => { s.fans[f] with pwmCount := min (s.fans[f].pwmCount + 1) s.fans[f].tp } }

/-- Every command answers a next state in every state, and leaves the waiting commands as they are. -/
def Obligations.EveryCommandAnswersANextState : Prop :=
  ∀ (c : Instr) (s : State), ∃ t, exec c s = .next t ∧ t.pending = s.pending

/-! ### Resets (R16, R23, R24, R34, R54, R74, R97, R117, R134, R137, R149, R166, R181, R183, R186) -/

/-- The level sources asserted when a reset ends: the LINK_x_DOWN of a port that is not UP, an isolation source whose
isolator is open, CALL_POINT while its input is active (R141). -/
def Sys2Proof.Machine.State.assertedAtReset (s : State) (down : Port → Bool) (n : EntryId) : Bool :=
  (n.val == 0 && down .a) || (n.val == 1 && down .b) || (n.val == 21 && s.pins.isolatorOpen[0]) ||
    (n.val == 22 && s.pins.isolatorOpen[1]) || (n.val == 23 && s.pins.isolatorOpen[2]) ||
    (n.val == 30 && s.pins.callPoint)

/-- State.reset's values in every block, at core clock time `now`, with what the input pins of `s` decide: isolators, doors
and call point take their inputs' levels, and each level source found asserted counts one occurrence. -/
def Sys2Proof.Machine.State.blocksReset (s : State) (now : Nat) (down : Port → Bool) (t : Stamp) (origin : Nat) : State :=
  { State.reset with
    pending := s.pending
    now := now
    pins := s.pins
    channels := Vector.replicate 4 { convTimer := some (now + 250000) }
    reportTimer := some (now + 2000000)
    ageTimer := some (now + 1000000)
    controlTimer := some (now + 1000000)
    fans := Vector.ofFn fun f : FanId =>
      if s.pins.isolatorOpen[f] then { cfg := defaultFanCfg f, state := .disabled, isoOpen := true }
      else { cfg := defaultFanCfg f, dwellTimer := some (now + 60000000) }
    doors := Vector.ofFn fun d : DoorId =>
      { closed := { level := s.pins.door[d].closed }
        lockEngaged := { level := s.pins.door[d].lockEngaged }
        pushBar := { level := s.pins.door[d].pushBar }
        state := if s.pins.door[d].closed then .released .policy else .opened .policy
        holdTimer := if s.pins.door[d].closed then none else some (now + 120000000)
        feedbackTimer := if s.pins.door[d].lockEngaged then some (now + 2000000) else none }
    callPoint := s.pins.callPoint
    latch := Vector.ofFn fun n : EntryId =>
      if s.assertedAtReset down n then
        { asserted := true, count := 1, unack := true, first := some t, last := some t, origin := origin }
      else {} }

/-- The serial memory after a reset: as it stood, but for a copy of a STORE that the reset cut short, which leaves a record
or a header that fails its check, and every word outside its place as it was (R186). -/
structure Sys2Proof.Machine.CutShort (s t : State) : Prop where
  kept : s.storing = .idle → t.serial = s.serial
  group : ∀ g ph r, s.storing = .group g ph r → s.serial.wf = true →
    recordData g (t.serial.words (placeOf g) (3 + dataLength g)) = none ∧
    ∀ a, a < placeOf g ∨ placeOf g + 3 + dataLength g ≤ a → t.serial.word a = s.serial.word a
  header : ∀ ph r, s.storing = .header ph r → s.serial.wf = true →
    headerOf (t.serial.words 0 5) = none ∧ ∀ a, 5 ≤ a → t.serial.word a = s.serial.word a

/-- The OCCURRED report of a level source found asserted at the end of a reset (R141, R147): its first occurrence, under the
default configurations of R138. -/
def Sys2Proof.Machine.State.resetReport (s : State) (n : EntryId) : Frame :=
  .event
    { origin := BitVec.ofNat 8 s.posA, transition := .occurred, code := BitVec.ofNat 16 (32 * (n.val + 1)), count := 1
      cls := if n = srcCallPoint then .life else .advisory, level := if n = srcCallPoint then 7 else 1
      step := BitVec.ofNat 8 (stepCode none), clock := s.clock, flag := if s.clockSet then 2 else 1 }

/-- A line port after a RESTART (R23, R24, R54): supervision, fill timer and transmission as they stood, pointers at their first
members, and queues that hold the reports of the first evaluation alone; an idle UP port has the first of them in
transmission. -/
def Sys2Proof.Machine.LinePort.afterRestart (now : Nat) (reports : List Frame) (P : LinePort) : LinePort :=
  let wait (q : QueueId) (fs : List Frame) : List Queued :=
    (fs.filter fun f => localQueue f == q).map fun f => ⟨f, now⟩
  let P : LinePort := { P with rh := [], lh := [], rl := [], ll := [], high := .rh, low := .rl }
  if P.isUp then
    match P.tx, reports with
    | some _, fs => { P with lh := wait .lh fs, ll := wait .ll fs }
    | none, [] => P
    | none, f :: fs =>
      { P with
        tx := some f, fillTimer := none, high := highAfter (localQueue f), low := lowAfter .rl (localQueue f)
        lh := wait .lh fs, ll := wait .ll fs }
  else P

/-- POWER_ON_RESET and PIN_RESET bring every block to State.reset's value but for what the input pins decide. That the core
clock count starts at 0 is the model's choice (log entry 10), and so are the pins kept (log entry 4), the blank memory of
State.reset (log entry 5), the millisecond's phase (log entry 9), and what a STORE cut short leaves beyond a failing check
(log entry 7). -/
def Obligations.HardResetsReturnEveryBlock : Prop :=
  (∀ (s : State) (c : Instr) (cause : ResetCause),
    (c, cause) = (.powerOnReset, .powerOn) ∨ (c, cause) = (.pinReset, .pin) →
    ∃ t, exec c s = .next t ∧ CutShort s t ∧
      t = { s.blocksReset 0 (fun _ => true) ⟨0, false⟩ 0 with
            resetCause := cause, serial := t.serial, freeCount := t.freeCount }) ∧
  exec .powerOnReset State.reset = .next State.reset

/-- A RESTART outside STARTING begins a reset that keeps the positions, the node clock and the ports' supervision, fill timers
and transmissions; every other block is at its reset values, and no reply is formed: the local queues hold the reports of the
first evaluation alone (R177, R23, R24, R33, R34, R54, R141). The pins, the core clock count and a STORE cut short are as log
entries 4, 7, 9 and 10 have them, the order of the reports as log entry 27 has it. -/
def Obligations.RestartKeepsPositionsClockAndLinks : Prop :=
  ∀ (p : Port) (r : Request) (s : State), s.Serves p r →
    let down (q : Port) : Bool := !(s.port q).isUp
    let reports : List Frame := ((List.finRange 51).filter (s.assertedAtReset down)).map s.resetReport
    ∃ t, exec (.restart p r) s = .next t ∧ CutShort s t ∧
      t = { s.blocksReset s.now down s.stamp s.posA with
            resetCause := .restart, clock := s.clock, clockSet := s.clockSet, msPhase := s.msPhase
            posA := s.posA, posB := s.posB
            ports :=
              { a := ((s.heard p).port .a).afterRestart s.now reports
                b := ((s.heard p).port .b).afterRestart s.now reports }
            serial := t.serial, freeCount := t.freeCount }

/-! ### The line (chapter 2) -/

/-- A good frame takes a DOWN port to PROBING, the third one to UP, and restarts the link timer of an UP port (R21); at
entry to UP the port's LINK_x_DOWN clears (R23). Said of FILL, which has no other effect. -/
def Obligations.GoodFramesSuperviseAPort : Prop :=
  ∀ (p : Port) (s : State), s.Settled →
    ((s.port p).state = .down →
      exec (.fill p) s = .next (s.setPort p
        { s.port p with state := .probing, probe := 1, linkTimer := some (s.now + s.node.linkTimeout * 1000) })) ∧
    ((s.port p).state = .probing → (s.port p).probe = 1 →
      exec (.fill p) s = .next (s.setPort p
        { s.port p with probe := 2, linkTimer := some (s.now + s.node.linkTimeout * 1000) })) ∧
    ((s.port p).state = .probing → (s.port p).probe = 2 →
      ∃ t, exec (.fill p) s = .next t ∧ (t.port p).state = .up ∧ (t.port p).probe = 3 ∧
        (t.port p).linkTimer = some (s.now + s.node.linkTimeout * 1000) ∧
        t.latch[srcLinkDown p].asserted = false ∧ t.still = s.still) ∧
    ((s.port p).state = .up → exec (.fill p) s = .next (s.heard p))

/-- A FILL has no effect beyond its count toward port supervision, and is not relayed (R27); no more has a good frame of
unknown kind or one that fails its structure test (R26). -/
def Obligations.FillsAndUnknownFramesOnlyCount : Prop :=
  ∀ (p : Port) (s : State),
    exec (.fill p) s = .next (s.superviseGood p).settle ∧ exec (.unknownFrame p) s = exec (.fill p) s

/-- The least magnitude that runs a channel under a command of direction `dir` (R94): S, or P′ = min(P, S) in the direction in
which it is STARTING or RUNNING already. -/
def Sys2Proof.Machine.Fan.leastRun (F : Fan) (dir : Option Direction) : Nat :=
  if F.runDir ≠ none ∧ F.runDir = dir then min F.cfg.stopLevel F.cfg.startLevel else F.cfg.startLevel

/-- The node `v` that a COUNT of value `k` makes of `s` before its relay, where posA changes: POSITION_CHANGED occurs with the
new posA (R33, R141), the unlocked tap ways are empty (R70), and where the guard comes to apply or stops applying the
jets' requests, and no other, are formed again with the duty handed (R104 to R106): minimum run reads S and P as they stand (log
entry 29), and a handed duty that a WRITE since has put outside the effective bounds is taken at the nearest one (log entry 17).
That all of this comes before the frame's relay is log entry 27's. -/
structure Sys2Proof.Machine.PositionSet (s : State) (k : Byte) (v : State) : Prop where
  same : v = { State.occur { s with posA := nextPosition k } srcPosition with tap := v.tap, fans := v.fans }
  tap : ∀ i : Fin 128, v.tap[i] = if wayOf i < s.node.effLock then s.tap[i] else none
  kept : State.guardApplies { s with posA := nextPosition k } = s.guardApplies → v.fans = s.fans
  passageKept : v.fans[passage] = s.fans[passage]
  reformed : State.guardApplies { s with posA := nextPosition k } ≠ s.guardApplies → ∀ f : FanId, f ≠ passage →
    v.fans[f] = s.fans[f].takeRequest s.now
      (if State.jetsHeld { s with posA := nextPosition k } ∨ s.fans[f].available = false ∨
          s.fans[f].handed.mag < s.fans[f].leastRun s.fans[f].handed.dir
        then {} else s.fans[f].handed) s.fans[f].handedDuty

/-- On a port that the frame leaves in PROBING, a frame of any kind but FILL and COUNT is discarded: it does what a FILL
does (R25). A COUNT acts there by R31 to R33 as on an UP port, once it has counted toward supervision; the frame it relays is
offered after the node's own reports (log entry 27), and the jets' requests that it forms again read S and P as they stand (log
entry 29) and start with the duty handed (log entry 17). -/
def Obligations.ProbingDiscardsOtherKinds : Prop :=
  (∀ (c : Instr) (p : Port) (s : State), upOnly c = some p →
    ((s.port p).state = .down ∨ ((s.port p).state = .probing ∧ (s.port p).probe < 2)) →
    exec c s = exec (.fill p) s) ∧
  ∀ (p : Port) (side : Side) (k : Byte) (s u : State), s.Settled →
    ((s.port p).state = .down ∨ ((s.port p).state = .probing ∧ (s.port p).probe < 2)) →
    u = s.setPort p
      { s.port p with
        state := .probing, probe := if (s.port p).state = .down then 1 else (s.port p).probe + 1
        linkTimer := some (s.now + s.node.linkTimeout * 1000) } →
    (side = .a → p = .a → s.posA ≠ nextPosition k →
      ∃ t, exec (.count p side k) s = .next t ∧ t.still = { u.still with posA := nextPosition k, tap := t.tap } ∧
        LatchEntry.CountedOnce srcPosition s.stamp (nextPosition k) s.latch[srcPosition] t.latch[srcPosition] ∧
        ∃ v, PositionSet u k v ∧
          t = State.settle (if k.toNat + 1 ≤ 254 then (v.offer .b .rl (.count .a (k + 1))).1 else v)) ∧
    (side = .a → p = .a → s.posA = nextPosition k →
      exec (.count p side k) s = .next
        (if k.toNat + 1 ≤ 254 then (u.offer .b .rl (.count .a (k + 1))).1 else u)) ∧
    (side = .b → p = .b →
      exec (.count p side k) s = .next
        (if k.toNat + 1 ≤ 254 then ({ u with posB := nextPosition k }.offer .a .rl (.count .b (k + 1))).1
        else { u with posB := nextPosition k })) ∧
    ((side = .a ∧ p = .b ∨ side = .b ∧ p = .a) →
      ∃ t, exec (.count p side k) s = .next t ∧ t.still = u.still ∧
        LatchEntry.CountedOnce srcWiring s.stamp s.posA s.latch[srcWiring] t.latch[srcWiring])

/-- A bad frame counts an occurrence of the port's LINK_x_ERROR and takes a PROBING port to DOWN; a DOWN or UP port keeps
its state and its link timer (R20, R21). -/
def Obligations.BadFramesCountAnError : Prop :=
  ∀ (p : Port) (s : State), ∃ t, exec (.badFrame p) s = .next t ∧
    LatchEntry.CountedOnce (srcLinkError p) s.stamp s.posA s.latch[srcLinkError p] t.latch[srcLinkError p] ∧
    ((s.port p).state = .probing →
      (t.port p).state = .down ∧ (t.port p).probe = 0 ∧ (t.port p).linkTimer = none) ∧
    ((s.port p).state ≠ .probing → SameLink (s.port p) (t.port p)) ∧
    SameLink (s.port p.opposite) (t.port p.opposite) ∧
    t.still = s.still ∧
    ∀ n : EntryId, n ≠ srcLinkError p → ¬ settleSide n → SameRecord s.latch[n] t.latch[n]

/-- At its link timer's expiry a port goes DOWN; a port that leaves UP has its four queues emptied, its pointers and
transmitter left as they stand, and counts an occurrence of LINK_x_DOWN (R21, R23, R49). -/
def Obligations.LinkTimerExpiryTakesAPortDown : Prop :=
  ∀ (p : Port) (s : State), (s.port p).linkTimer.isSome = true →
    ((s.port p).state = .up →
      ∃ t, exec (.linkTimerExpiry p) s = .next t ∧
        t.port p =
          { s.port p with state := .down, probe := 0, linkTimer := none, rh := [], lh := [], rl := [], ll := [] } ∧
        LatchEntry.CountedOnce (srcLinkDown p) s.stamp s.posA s.latch[srcLinkDown p] t.latch[srcLinkDown p] ∧
        t.still = s.still ∧
        ∀ n : EntryId, n ≠ srcLinkDown p → ¬ settleSide n → SameRecord s.latch[n] t.latch[n]) ∧
    ((s.port p).state ≠ .up → s.Settled →
      exec (.linkTimerExpiry p) s = .next (s.setPort p
        { s.port p with state := .down, probe := 0, linkTimer := none }))

/-! ### Relay and arbitration (chapter 3) -/

/-- A frame offered to a port that is not UP is discarded (R39); to a queue with a free place it is appended with its entry
time, or sent at once when the port is idle (R42, R50); at a full high queue it is discarded, an occurrence of QUEUE_OVERRUN
but for the node's own report of it (R43, R44; that the test reads a relayed frame's fields too is the model's choice, log
entry 12); at a full low queue a SAMPLE displaces the oldest SAMPLE (R45), and any other frame, or one that finds no SAMPLE,
is discarded in silence (R45, R46). -/
def Obligations.OffersMeetTheQueueRules : Prop :=
  ∀ (s : State) (p : Port) (q : QueueId) (f : Frame),
    ((s.port p).isUp = false → s.offer p q f = (s, false)) ∧
    ((s.port p).isUp = true → ((s.port p).queue q).length < q.capacity → (s.port p).tx ≠ none →
      s.offer p q f = (s.setPort p ((s.port p).setQueue q ((s.port p).queue q ++ [⟨f, s.now⟩])), false)) ∧
    ((s.port p).isUp = true → (∀ j, (s.port p).queue j = []) → (s.port p).tx = none →
      s.offer p q f = (s.setPort p
        { s.port p with tx := some f, fillTimer := none, high := highAfter q, low := lowAfter (s.port p).low q },
        false)) ∧
    ((s.port p).isUp = true → q.capacity ≤ ((s.port p).queue q).length →
      (q.isHigh = true → s.offer p q f = (s, !ownOverrunReport s.posA f)) ∧
      (q.isHigh = false → isSample f = false → s.offer p q f = (s, false)) ∧
      (q.isHigh = false → (∀ x ∈ (s.port p).queue q, isSample x.frame = false) → s.offer p q f = (s, false)) ∧
      (q.isHigh = false → isSample f = true → (s.port p).tx ≠ none → ∀ older y newer,
        (s.port p).queue q = older ++ y :: newer → (∀ x ∈ older, isSample x.frame = false) →
        isSample y.frame = true →
        s.offer p q f = (s.setPort p ((s.port p).setQueue q (older ++ newer ++ [⟨f, s.now⟩])), false)))

/-- EVENT and MGMT_REPLY frames go straight through with every field unchanged (R29), a MGMT_REQ with its distance lowered
by 1 (R30), a TIME frame after it has set the node clock (R35). An EVENT of class ALARM or LIFE needs a free place in
RH here; a full RH is the next statement's. -/
def Obligations.RelayedKindsGoStraightThrough : Prop :=
  ∀ (p : Port) (s : State), s.Hears p →
    (∀ f : EventFields, f.cls = .advisory →
      exec (.event p f) s = .next ((s.heard p).offer p.opposite .rl (.event f)).1) ∧
    (∀ f : EventFields, f.cls ≠ .advisory → (s.port p.opposite).rh.length < 8 →
      exec (.event p f) s = .next ((s.heard p).offer p.opposite .rh (.event f)).1) ∧
    (∀ f : ReplyFields, f.wf = true →
      exec (.mgmtReply p f) s = .next ((s.heard p).offer p.opposite .rl (.mgmtReply f)).1) ∧
    (∀ f : RequestFields, f.req.wf = true → f.distance ≠ 0 →
      exec (.mgmtReqRelay p f) s =
        .next ((s.heard p).offer p.opposite .rl (.mgmtReq { f with distance := f.distance - 1 })).1) ∧
    (∀ k : BitVec 32,
      exec (.time p k) s =
        .next ({ s.heard p with clock := k, clockSet := true }.offer p.opposite .rl (.time k)).1)

/-- An ALARM or LIFE EVENT relayed to a full RH is discarded and counts one occurrence of QUEUE_OVERRUN, unless it is the
node's own report of QUEUE_OVERRUN, which counts none (R43, R44; that the test reads a relayed frame too is the model's
choice, log entry 12). The source launches no plan here. -/
def Obligations.AFullHighQueueCountsAnOverrun : Prop :=
  ∀ (p : Port) (f : EventFields) (s : State), s.Hears p → f.cls ≠ .advisory →
    (s.port p.opposite).isUp = true → (s.port p.opposite).tx ≠ none → (s.port p.opposite).rh.length = 8 →
    s.planValid srcOverrun = false →
    (ownOverrunReport s.posA (.event f) = true → exec (.event p f) s = .next (s.heard p)) ∧
    (ownOverrunReport s.posA (.event f) = false →
      ∃ t, exec (.event p f) s = .next t ∧ (t.port p.opposite).rh = (s.port p.opposite).rh ∧
        LatchEntry.CountedOnce srcOverrun s.stamp s.posA s.latch[srcOverrun] t.latch[srcOverrun] ∧
        (∀ n : EntryId, n ≠ srcOverrun → t.latch[n] = s.latch[n]) ∧ t.still = s.still)

/-- A SAMPLE frame's items are offered to the tap cache, and the frame goes on with its reach lowered by 1 when the received
reach is above 1 (R28). -/
def Obligations.SamplesAreTappedAndRelayed : Prop :=
  ∀ (p : Port) (f : SampleFields) (s : State), s.Hears p → f.wf = true →
    (f.reach.toNat ≤ 1 → exec (.sample p f) s = .next { s.heard p with tap := (s.tapItems f).tap }) ∧
    (1 < f.reach.toNat →
      exec (.sample p f) s = .next
        ({ s.heard p with tap := (s.tapItems f).tap }.offer p.opposite .rl
          (.sample { f with reach := f.reach - 1 })).1)

/-- A COUNT whose tag names its arrival port sets that port's position to k + 1, or to 0 past 254; a change of posA counts
POSITION_CHANGED, empties the unlocked tap ways, tests the guard again, and then the frame is offered to the B-port with k + 1
(R31, R33, R70, R106; the model's choice are that the node's own reports come before it, log entry 27, that the jets' requests
formed again read S and P as they stand, log entry 29, and how a handed duty stays between the bounds, log entry 17); an
unchanged posA, or posB, has no further effect than the relay with k + 1 (R31). Tag and port that differ count WIRING and
leave the positions (R32). The guard applies while posA lies within the ACTIVE step's guard span, above 0, of the context's
origin (R106). -/
def Obligations.CountsSetPositions : Prop :=
  (∀ s : State, s.guardApplies = true ↔ ∃ c, s.active = some c ∧ 0 < s.plan[c.step].guardSpan ∧
    s.posA ≤ c.origin + s.plan[c.step].guardSpan ∧ c.origin ≤ s.posA + s.plan[c.step].guardSpan) ∧
  ∀ (p : Port) (side : Side) (k : Byte) (s : State), s.Hears p →
    (side = .a → p = .a → s.posA ≠ nextPosition k →
      ∃ t, exec (.count p side k) s = .next t ∧
        t.still = { (s.heard p).still with posA := nextPosition k, tap := t.tap } ∧
        LatchEntry.CountedOnce srcPosition s.stamp (nextPosition k) s.latch[srcPosition] t.latch[srcPosition] ∧
        (∀ i : Fin 128, t.tap[i] = if wayOf i < s.node.effLock then s.tap[i] else none) ∧
        ∃ v, PositionSet (s.heard p) k v ∧
          t = State.settle (if k.toNat + 1 ≤ 254 then (v.offer .b .rl (.count .a (k + 1))).1 else v)) ∧
    (side = .a → p = .a → s.posA = nextPosition k →
      exec (.count p side k) s = .next
        (if k.toNat + 1 ≤ 254 then ((s.heard p).offer .b .rl (.count .a (k + 1))).1 else s.heard p)) ∧
    (side = .b → p = .b →
      exec (.count p side k) s = .next
        (if k.toNat + 1 ≤ 254 then
          ({ s.heard p with posB := nextPosition k }.offer .a .rl (.count .b (k + 1))).1
        else { s.heard p with posB := nextPosition k })) ∧
    ((side = .a ∧ p = .b ∨ side = .b ∧ p = .a) →
      ∃ t, exec (.count p side k) s = .next t ∧ t.still = (s.heard p).still ∧
        LatchEntry.CountedOnce srcWiring s.stamp s.posA s.latch[srcWiring] t.latch[srcWiring])

/-- A TRIGGER acts when the node has a position inside its span that is not its origin, the origin is at most 254 and a line
map entry holds its code: SET counts an occurrence of the lowest such line entry with the TRIGGER's origin, CLEAR clears
it (R36, R142, R143). Acting or not, it is relayed while its span lies ahead, else consumed (R37): an acting one after the
node's own report (log entry 27). Where RH is full the relayed frame is discarded and counts QUEUE_OVERRUN (R43). -/
def Obligations.TriggersActInsideTheirSpan : Prop :=
  (∀ (p : Port) (f : TriggerFields) (s : State), s.Hears p →
    (∀ i : Fin 16,
      s.posA ≠ 0 → f.first.toNat ≤ s.posA → s.posA ≤ f.last.toNat → f.origin.toNat ≠ s.posA →
      f.origin.toNat ≤ 254 → 0x0800 ≤ f.code.toNat → s.lines[i].code = f.code →
      (∀ j : Fin 16, s.lines[j].code = f.code → i ≤ j) →
      ∃ t u, exec (.trigger p f) s = .next t ∧ t.still = (s.heard p).still ∧
        (f.mode = .set → u = (s.heard p).occurFrom (srcLine i) f.origin.toNat ∧
          LatchEntry.CountedOnce (srcLine i) s.stamp f.origin.toNat s.latch[srcLine i] t.latch[srcLine i]) ∧
        (f.mode = .clear → u = (s.heard p).clearWithCode (srcLine i) f.code ∧
          SameRecord { s.latch[srcLine i] with asserted := false } t.latch[srcLine i]) ∧
        ((p = .a ∧ s.posA < f.last.toNat) ∨ (p = .b ∧ f.first.toNat < s.posA) →
          ((s.port p.opposite).rh.length < 8 → t = (u.offer p.opposite .rh (.trigger f)).1.settle) ∧
          ((s.port p.opposite).isUp = true → (s.port p.opposite).tx ≠ none → 8 ≤ (s.port p.opposite).rh.length →
            t = u.overrun.settle)) ∧
        ((p = .a → s.posA = f.last.toNat) → (p = .b → s.posA = f.first.toNat) → t = u.settle)) ∧
    ((s.posA = 0 ∨ s.posA < f.first.toNat ∨ f.last.toNat < s.posA ∨ f.origin.toNat = s.posA ∨
        254 < f.origin.toNat ∨ f.code.toNat < 0x0800 ∨ ∀ i : Fin 16, s.lines[i].code ≠ f.code) →
      (s.posA = 0 ∨ (p = .a ∧ s.posA < f.last.toNat) ∨ (p = .b ∧ f.first.toNat < s.posA) →
        ((s.port p.opposite).rh.length < 8 →
          exec (.trigger p f) s = .next ((s.heard p).offer p.opposite .rh (.trigger f)).1) ∧
        ((s.port p.opposite).isUp = true → (s.port p.opposite).tx ≠ none → 8 ≤ (s.port p.opposite).rh.length →
          exec (.trigger p f) s = .next (s.heard p).overrun.settle)) ∧
      (s.posA ≠ 0 → (p = .a → f.last.toNat ≤ s.posA) → (p = .b → s.posA ≤ f.first.toNat) →
        exec (.trigger p f) s = .next (s.heard p)))) ∧
  ∀ u : State, u.overrun.still = u.still ∧
    LatchEntry.CountedOnce srcOverrun u.stamp u.posA u.latch[srcOverrun] u.overrun.latch[srcOverrun]

/-- An idle transmitter whose fill timer expires sends FILL (R24); a completion starts the fill timer with the effective
fill period, and on an UP port the aged SAMPLE heads are discarded (R48) and the rings searched: the granted head leaves
its queue and is sent (R50). -/
def Obligations.TransmittersSendFillsAndGrants : Prop :=
  ∀ (p : Port) (s : State),
    ((s.port p).fillTimer.isSome = true → (s.port p).tx = none →
      exec (.fillTimerExpiry p) s = .next (s.setPort p { s.port p with tx := some .fill, fillTimer := none })) ∧
    ((s.port p).tx ≠ none → (s.port p).isUp = false →
      exec (.transmissionCompletion p) s = .next (s.setPort p
        { s.port p with
          tx := none, fillTimer := some (s.now + min s.node.fillPeriod (s.node.linkTimeout / 2) * 1000) })) ∧
    ((s.port p).tx ≠ none → (s.port p).isUp = true →
      let old (x : Queued) : Bool := isSample x.frame && decide (s.node.sampleAgeLimit * 1000 < s.now - x.entry)
      let P : LinePort := { s.port p with rl := (s.port p).rl.dropWhile old, ll := (s.port p).ll.dropWhile old }
      (P.choice = none →
        exec (.transmissionCompletion p) s = .next (s.setPort p
          { P with
            tx := none, fillTimer := some (s.now + min s.node.fillPeriod (s.node.linkTimeout / 2) * 1000) })) ∧
      (∀ q x rest, P.choice = some q → P.queue q = x :: rest →
        exec (.transmissionCompletion p) s = .next (s.setPort p
          { P.setQueue q rest with
            tx := some x.frame, fillTimer := none, high := highAfter q, low := lowAfter P.low q })))

/-- The rotating search: a head of RH or LH is granted within the next three grants of its port, a head of RL or LL within
the next six, while no frame arrives and none ages out (R51, R52 and its note). -/
def Obligations.HeadsAreGrantedInTurn : Prop :=
  ∀ (P : LinePort) (grant : LinePort → LinePort),
    (∀ Q, grant Q = match Q.choice with | none => Q | some q => Q.grantFrom q) →
    (∀ q, P.queue q ≠ [] → q.isHigh = true → ∃ k < 3, (grant^[k] P).choice = some q) ∧
    (∀ q, P.queue q ≠ [] → ∃ k < 6, (grant^[k] P).choice = some q)

/-- What is sent is what is received: words with their check word pass a receiver's test (R19), and the bytes of every frame
that passes its structure test, received on a port, are the command of that frame (R18, R19, R26, R30, R169, R179). -/
def Obligations.SentBytesAreTheFramesCommand : Prop :=
  (∀ ws : List Word, checkPasses ws (checkWord ws) = true) ∧
  ∀ (p : Port) (f : Frame), f.wf = true → receive p (wireBytes f) = commandOf p f

/-! ### The tap cache (chapter 4) -/

/-- An item is ignored for its origin or channel (R61), updates the entry that holds its key (R62), is learned into the
victim place, an invalid one if there is one, else one of the greatest age (R63, R64), or is ignored. -/
def Obligations.ItemsHitOrAreLearned : Prop :=
  ∀ (s : State) (origin : Nat) (it : SampleItem), s.TapLaw →
    (origin = 0 ∨ 254 < origin ∨ origin = s.posA ∨ 3 < it.channel.toNat → s.tapItem origin it = s) ∧
    (1 ≤ origin → origin ≤ 254 → origin ≠ s.posA → it.channel.toNat ≤ 3 →
      (∀ (i : Fin 128) (e : TapEntry), s.tap[i] = some e → e.origin = origin → e.channel = it.channel.toNat →
        s.tapItem origin it =
          { s with tap := s.tap.set i (some
              { e with
                kind := it.kind, value := it.value.toInt, clamped := it.flags.getLsbD 0, fault := it.flags.getLsbD 1
                age := 0 }) }) ∧
      ((∀ (i : Fin 128) (e : TapEntry), s.tap[i] = some e → ¬(e.origin = origin ∧ e.channel = it.channel.toNat)) →
        (s.learns origin it.kind = false → s.tapItem origin it = s) ∧
        (s.learns origin it.kind = true →
          ∃ w : Fin 4, s.node.effLock ≤ w.val ∧
            (∀ v : Fin 4, s.node.effLock ≤ v.val → v < w →
              placeAge s.tap (place (setIndex origin it.channel.toNat) v) ≠ none) ∧
            (placeAge s.tap (place (setIndex origin it.channel.toNat) w) ≠ none →
              ∀ v : Fin 4, s.node.effLock ≤ v.val →
                ∃ a b, placeAge s.tap (place (setIndex origin it.channel.toNat) v) = some a ∧
                  placeAge s.tap (place (setIndex origin it.channel.toNat) w) = some b ∧
                  a ≤ b ∧ (v < w → a < b)) ∧
            s.tapItem origin it =
              { s with tap := s.tap.set (place (setIndex origin it.channel.toNat) w) (some
                  { lockedLoad := false, origin := origin, channel := it.channel.toNat, kind := it.kind
                    value := it.value.toInt, clamped := it.flags.getLsbD 0, fault := it.flags.getLsbD 1, age := 0
                    loadKind := it.kind, loadValue := it.value.toInt }) })))

/-- An ageing expiry raises the age of every valid entry by 1, an age of 255 stays 255, and the timer starts anew with 1 s
(R59). -/
def Obligations.AgeingRaisesEveryAge : Prop :=
  ∀ s : State, exec .tapAgeingExpiry s = .next
    { s with
      ageTimer := some (s.now + 1000000)
      tap := Vector.ofFn fun i => s.tap[i].map fun e => { e with age := min (e.age + 1) 255 } }

/-- TAP_LOAD places its reading in the locked way that holds its key, else in the lowest invalid locked way of the key's set,
and takes the key out of every other place (R67); it is refused by R68. FLUSH_TAP empties the unlocked ways, and the
locked ones too when tap protect is off; a valid entry lost in a locked way sets the TAPLOCK mark (R69). A load, and such a
loss, while TAPLOCK is in hand of a STORE marks it rewritten (R185). -/
def Obligations.TapLoadAndFlush : Prop :=
  ∀ (p : Port) (r : Request) (s : State), s.Serves p r →
    (r.data.length < 4 → exec (.tapLoad p r) s = .next ((s.heard p).reply p 3 r { status := 5 })) ∧
    (∀ o c k v rest, r.data = o :: c :: k :: v :: rest →
      (o.toNat = 0 ∨ 254 < o.toNat ∨ 3 < c.toNat ∨ k.toNat = 0 ∨ 4 < k.toNat →
        exec (.tapLoad p r) s = .next ((s.heard p).reply p 3 r { status := 5 })) ∧
      (∀ kind, kindOfCode k.toNat = some kind → 1 ≤ o.toNat → o.toNat ≤ 254 → c.toNat ≤ 3 →
        (loadTarget s.tap s.node.effLock o.toNat c.toNat = none →
          exec (.tapLoad p r) s = .next ((s.heard p).reply p 3 r { status := 8 })) ∧
        (∀ i, loadTarget s.tap s.node.effLock o.toNat c.toNat = some i →
          ∃ t, exec (.tapLoad p r) s = .next t ∧
            (∀ j : Fin 128, t.tap[j] =
              if j = i then some
                { lockedLoad := true, origin := o.toNat, channel := c.toNat, kind := kind, value := v.toInt
                  clamped := false, fault := false, age := 0, loadKind := kind, loadValue := v.toInt }
              else if holdsKey s.tap j o.toNat c.toNat then none else s.tap[j]) ∧
            t.dirty = s.dirty.set 14 true ∧
            t.rewritten = (if s.storing.inHand = some 14 then s.rewritten.set 14 true else s.rewritten) ∧
            t = ({ s.heard p with tap := t.tap, dirty := t.dirty, rewritten := t.rewritten }).reply p 3 r
              { status := 0 }))) ∧
    ∃ t, exec (.flushTap p r) s = .next t ∧
      (∀ j : Fin 128, t.tap[j] =
        if s.node.tapProtect = true ∧ wayOf j < s.node.effLock then s.tap[j] else none) ∧
      t.dirty = (if s.node.tapProtect = false ∧ ∃ j : Fin 128, wayOf j < s.node.effLock ∧ s.tap[j] ≠ none then
        s.dirty.set 14 true else s.dirty) ∧
      t.rewritten = (if (s.node.tapProtect = false ∧ ∃ j : Fin 128, wayOf j < s.node.effLock ∧ s.tap[j] ≠ none) ∧
          s.storing.inHand = some 14 then
        s.rewritten.set 14 true else s.rewritten) ∧
      t = ({ s.heard p with tap := t.tap, dirty := t.dirty, rewritten := t.rewritten }).reply p 4 r { status := 0 }

/-! ### Management (chapter 10) -/

/-- While the node is STARTING every request but a READ of table 0 is answered BUSY and changes nothing; outside STARTING an
op that names none of the thirteen is answered BAD_OP (R169). The reply goes to LL of the arrival port with the tag, op,
table, index and count of the request (R168). -/
def Obligations.RequestsMeetTheFirstChecks : Prop :=
  (∀ (c : Instr) (p : Port) (op : Byte) (r : Request) (s : State), requestOf c = some (p, op, r) → c.wf = true →
    s.Hears p → s.nodeState = .starting → (op = 1 → r.table ≠ 0) →
    exec c s = .next ((s.heard p).reply p op r { status := 2 })) ∧
  (∀ (p : Port) (op : Byte) (r : Request) (s : State), s.Serves p r → (op.toNat = 0 ∨ 13 < op.toNat) →
    exec (.badOpRequest p op r) s = .next ((s.heard p).reply p op r { status := 3 })) ∧
  (∀ (p : Port) (op : Byte) (r : Request) (a : Answer) (s : State),
    s.reply p op r a =
      (s.offer p .ll (.mgmtReply
        { origin := BitVec.ofNat 8 s.posA, op := op, tag := r.tag, status := BitVec.ofNat 8 a.status, table := r.table
          index := r.index, count := r.count, data := a.data })).1)

/-- The word lengths of the tables 0 to 12 (R178, R180). -/
def Sys2Proof.Machine.tableLengths : List Nat := [18, 40, 128, 56, 93, 58, 140, 80, 1088, 1408, 17, 714, 84]

/-- The words of entry `e` of a table, entries counted from 0, as a READ returns them (R170). -/
def Sys2Proof.Machine.State.entryRead (s : State) (T : Table) (e : Nat) : List Word :=
  (List.range T.size).map fun w => s.tableWord T (T.size * e + w)

/-- The code of a value that R179 encodes as its place in a list, counted from 0. -/
def Sys2Proof.Machine.codeIn {α : Type} [DecidableEq α] (names : List α) (x : α) : Word := natW (names.idxOf x)

/-- Kind, direction, class, policy and plan step (R179). -/
def Sys2Proof.Machine.kindRead : Option Kind → Word := codeIn [none, some .co, some .no2, some .opac, some .vel]
def Sys2Proof.Machine.dirRead : Option Direction → Word := codeIn [none, some .forward, some .reverse]
def Sys2Proof.Machine.classRead : EventClass → Word := codeIn [.advisory, .alarm, .life]
def Sys2Proof.Machine.policyRead : Policy → Word := codeIn [.normal, .release, .holdOpen]
def Sys2Proof.Machine.stepRead (i : Option (Fin 64)) : Word := natW (i.elim 255 Fin.val)

/-- A fan state and its direction (R179, R180). -/
def Sys2Proof.Machine.FanState.read : FanState → List Word
  | .stopped => [0, 0]
  | .starting d => [1, dirRead (some d)]
  | .running d => [2, dirRead (some d)]
  | .stopping d => [3, dirRead d]
  | .fault => [4, 0]
  | .disabled => [5, 0]

/-- A door state and its cause (R179, R180). -/
def Sys2Proof.Machine.DoorState.read : DoorState → List Word
  | .secured => [0, 0]
  | .released c => [1, natW ([ReleaseCause.policy, .egress].idxOf c + 1)]
  | .opened c => [2, natW ([OpenCause.policy, .egress, .forced].idxOf c + 1)]
  | .held => [3, 0]
  | .relocking => [4, 0]
  | .fault => [5, 0]

/-- The three words of a time, absent as zeros (R180). -/
def Sys2Proof.Machine.timeRead : Option Stamp → List Word
  | none => [0, 0, 0]
  | some t => [natW (t.value.toNat / 65536), natW (t.value.toNat % 65536), if t.set then 2 else 1]

/-- The remaining seconds of a timer, rounded up, 0 for a stopped one (R180). -/
def Sys2Proof.Machine.secondsRead (now : Nat) (t : Timer) : Word := t.elim 0 fun u => natW ((u - now + 999999) / 1000000)

/-- A source configuration's words (R180). -/
def Sys2Proof.Machine.sourceRead (c : SourceCfg) : List Word :=
  [classRead c.cls, natW c.level, stepRead c.step, boolW c.report]

/-- The words of a STACK place that holds a context, with a drop time on the dropped record alone (R180); the remaining
milliseconds of a running timer are rounded up (log entry 16). -/
def Sys2Proof.Machine.contextRead (now : Nat) (c : Context) (drop : Option Stamp) : List Word :=
  let ms : Nat :=
    match c.timer with
    | .none => 0
    | .running t => (t - now + 999) / 1000
    | .frozen m => m
  let j := c.captured.getD ({}, {})
  [1, natW c.step.val, boolW (decide (c.timer ≠ .none)), natW (ms / 65536), natW (ms % 65536), boolW c.clearSeen,
    natW (c.source.val + 1), natW c.origin, natW c.level, classRead c.cls]
  ++ timeRead (some c.entry)
  ++ [boolW c.captured.isSome, natW j.1.mag, dirRead j.1.dir, natW j.2.mag, dirRead j.2.dir] ++ timeRead drop

/-- The words of every table's entries (R179, R180). An invalid TAP place reads as zeros but for its way's lock (log entry 18),
and a lone saved context stands in the newest's place of STACK (log entry 31). -/
structure Sys2Proof.Machine.TablesRead (s : State) : Prop where
  status : s.entryRead .status 0 =
    [codeIn [.starting, .lockout, .operating] s.nodeState, codeIn [.powerOn, .pin, .restart] s.resetCause, natW s.posA,
      natW s.posB, codeIn [.down, .probing, .up] s.ports.a.state, codeIn [.down, .probing, .up] s.ports.b.state]
    ++ timeRead (some ⟨s.clock, s.clockSet⟩)
    ++ [natW ((s.stack.head?.map Context.level).getD 0), natW s.mask, natW s.stack.length,
      natW ((List.finRange 15).map fun g => if s.dirty[g] = true then 2 ^ g.val else 0).sum,
      (match s.storing with
        | .idle => 0
        | .group g _ _ => natW (g.val + 1)
        | .header _ _ => 16),
      natW s.lastFailing, natW s.demand, natW s.dLim, intW s.u]
  channel : ∀ (c : ChannelId) (C : Channel), C = s.channels[c] → s.entryRead .channel c.val =
    [kindRead C.cfg.kind, intW C.cfg.lo, intW C.cfg.hi, natW C.cfg.window, natW C.ring.length,
      codeIn [.none, .good, .clamped, .low, .high] C.last, boolW C.fault, natW C.goodRun, boolW C.smoothed.isSome,
      intW (C.smoothed.getD 0)]
  terms : ∀ (i : Fin 32) (x : Term), x = s.terms[i] → s.entryRead .terms i.val =
    [codeIn [.loc, .tap] x.source, intW x.offset, natW x.channel.val, natW x.weight]
  kind : ∀ (k : Kind) (K : KindUnit), K = s.kind k → s.entryRead .kind ([Kind.co, .no2, .opac, .vel].idxOf k) =
    [natW K.cfg.quorum, natW K.cfg.hold, intW K.cfg.tLo, intW K.cfg.tHi, intW K.cfg.alarm, intW K.cfg.clear,
      natW K.cfg.failed, codeIn [.unused, .ok, .degraded, .failed] K.status, boolW K.level.isSome,
      intW (K.level.getD 0), natW K.weight, secondsRead s.now K.holdTimer, boolW K.alarm, natW K.d]
  fan : ∀ (f : FanId) (F : Fan), F = s.fans[f] → s.entryRead .fan f.val =
    [natW F.cfg.stageOffset, natW F.cfg.startLevel, natW F.cfg.stopLevel, natW F.cfg.passageSpeed, natW F.cfg.tp,
      natW F.cfg.dMin, natW F.cfg.dMax, natW F.cfg.ratedPeriod, natW F.cfg.startTime, natW F.cfg.confirmSpeed,
      natW F.cfg.stallRatio, natW F.cfg.stallTime, natW F.cfg.coastDwell, natW F.cfg.stillThreshold]
    ++ F.state.read
    ++ [dirRead F.lastDir, natW F.handed.mag, dirRead F.handed.dir, natW F.handedDuty, natW F.request.mag,
      dirRead F.request.dir, natW F.duty, natW F.tp, natW F.speed,
      natW (F.pNew.toList.length + F.pPrev.toList.length), secondsRead s.now F.startTimer,
      secondsRead s.now F.stallTimer, secondsRead s.now F.dwellTimer, boolW F.isoOpen,
      boolW (decide (f ≠ passage ∧ s.guardApplies = true))]
  door : ∀ (d : DoorId) (D : Door), D = s.doors[d] → s.entryRead .door d.val =
    [natW D.cfg.debounce, natW D.cfg.egressTime, natW D.cfg.holdLimit, natW D.cfg.relockDelay, natW D.cfg.feedbackTime,
      natW D.cfg.flashHalf]
    ++ D.state.read ++ [boolW D.closed.level, boolW D.lockEngaged.level, boolW D.pushBar.level]
    ++ timeRead D.closed.lastEdge ++ timeRead D.lockEngaged.lastEdge ++ timeRead D.pushBar.lastEdge
    ++ [policyRead D.policy, secondsRead s.now D.egressTimer, secondsRead s.now D.holdTimer,
      secondsRead s.now D.relockTimer, secondsRead s.now D.feedbackTimer, boolW D.holdExpired,
      boolW (decide (D.state = .secured)), boolW (decide (D.policy = .holdOpen ∧ D.state ≠ .fault)), boolW D.lamp]
  source : ∀ i : Fin 35, s.entryRead .source i.val = sourceRead s.sources[i]
  linemap : ∀ i : Fin 16, s.entryRead .linemap i.val = s.lines[i].code :: sourceRead s.lines[i].cfg
  plan : ∀ (i : Fin 64) (P : PlanStep), P = s.plan[i] → s.entryRead .plan i.val =
    [boolW P.valid, boolW P.isProtected, stepRead P.next, natW P.duration,
      codeIn [.timer, .sourceClear, .held] P.endCond, codeIn [.auto, .off, .fixed, .velocity, .holdLast] P.jet,
      dirRead (some P.fixedDir), natW P.fixedSpeed, intW P.vt, codeIn [.autoDoor, .on, .off] P.passage,
      policyRead P.door1, policyRead P.door2, natW P.guardSpan, codeIn [.off, .steady, .flash] P.lamp, P.spreadCode,
      natW P.spreadSpan, codeIn [.set, .clear] P.spreadMode]
  tap : ∀ i : Fin 128, s.entryRead .tap i.val =
    (match s.tap[i] with
      | none => List.replicate 10 0
      | some e =>
        [1, boolW e.lockedLoad, natW e.origin, natW e.channel, kindRead (some e.kind), intW e.value,
          natW ((if e.clamped = true then 1 else 0) + if e.fault = true then 2 else 0), natW e.age,
          kindRead (some e.loadKind), intW e.loadValue])
    ++ [boolW (decide (wayOf i < s.node.effLock))]
  node : ∀ N : NodeCfg, N = s.node → s.entryRead .node 0 =
    [natW N.reportPeriod, natW N.sampleReach, natW N.linkTimeout, natW N.fillPeriod, natW N.sampleAgeLimit,
      natW N.tapLock, boolW N.tapProtect, natW N.learnWindow,
      natW ((if N.learnMask.co = true then 1 else 0) + (if N.learnMask.no2 = true then 2 else 0) +
        (if N.learnMask.opac = true then 4 else 0) + if N.learnMask.vel = true then 8 else 0),
      natW N.controlPeriod, natW N.staleLimit, natW N.rUp, natW N.rDn, natW N.kp, dirRead (some N.autoDirection),
      natW N.launchHold, boolW N.planProtect]
  latch : ∀ (n : EntryId) (e : LatchEntry), e = s.latch[n] → s.entryRead .latch n.val =
    [boolW e.asserted, natW e.count.toNat, boolW e.unack] ++ timeRead e.first ++ timeRead e.last
    ++ [natW e.origin, codeIn [.idle, .pending, .served, .spent] e.serve, s.sourceCode n, classRead (s.effClass n),
      natW (s.effLevel n)]
  stack : ∀ e : Nat, e < 3 →
    s.entryRead .stack e = s.stack[e]?.elim (List.replicate 21 0) fun c => contextRead s.now c none
  dropped : s.entryRead .stack 3 = s.dropped.elim (List.replicate 21 0) fun d => contextRead s.now d.1 (some d.2)

/-- A READ returns count words of the table from the word address index on, as they stand, and changes nothing (R171); a table
above 12 is BAD_TABLE, a count above 16 or a run past the table's end BAD_INDEX, also a run of count 0 (log entry 30). A READ
of table 0 is answered in STARTING too (R169). The words of every table's entries are R180's, by R179's encodings; what the
layout leaves open is log entries 16, 18 and 31. -/
def Obligations.ReadsAnswerTheTablesWords : Prop :=
  (∀ s : State, TablesRead s) ∧
  ∀ (p : Port) (r : Request) (s : State), s.Hears p → r.wf = true → (s.nodeState = .starting → r.table = 0) →
    (12 < r.table.toNat → exec (.read p r) s = .next ((s.heard p).reply p 1 r { status := 4 })) ∧
    (∀ len t, tableLengths[r.table.toNat]? = some len → Table.ofNumber r.table.toNat = some t →
      (16 < r.count.toNat ∨ len < r.index.toNat + r.count.toNat →
        exec (.read p r) s = .next ((s.heard p).reply p 1 r { status := 5 })) ∧
      (r.count.toNat ≤ 16 → r.index.toNat + r.count.toNat ≤ len →
        exec (.read p r) s = .next ((s.heard p).reply p 1 r
          { status := 0, data := (List.range r.count.toNat).map fun i => s.tableWord t (r.index.toNat + i) })))

/-- A WRITE is refused, with nothing changed, in the order of R169: BAD_TABLE, READ_ONLY for the tables 0, 9, 11 and 12,
BAD_INDEX (R172), IN_USE when it covers a word of a step current for a context on the stack (R151). -/
def Obligations.WritesAreRefusedUnchanged : Prop :=
  ∀ (p : Port) (r : Request) (s : State), s.Serves p r →
    (12 < r.table.toNat → exec (.write p r) s = .next ((s.heard p).reply p 2 r { status := 4 })) ∧
    (r.table.toNat ∈ [0, 9, 11, 12] → exec (.write p r) s = .next ((s.heard p).reply p 2 r { status := 6 })) ∧
    (∀ len, tableLengths[r.table.toNat]? = some len → r.table.toNat ∉ [0, 9, 11, 12] →
      (r.count.toNat ≠ r.data.length ∨ r.data = [] ∨ len < r.index.toNat + r.data.length →
        exec (.write p r) s = .next ((s.heard p).reply p 2 r { status := 5 })) ∧
      (r.count.toNat = r.data.length → r.data ≠ [] → r.index.toNat + r.data.length ≤ len → r.table = 8 →
        (∃ c ∈ s.stack, ∃ w, r.index.toNat ≤ w ∧ w < r.index.toNat + r.data.length ∧ w / 17 = c.step.val) →
        exec (.write p r) s = .next ((s.heard p).reply p 2 r { status := 7 })))

/-- A channel record after its words were stored: R8 of the record it had. -/
def Sys2Proof.Machine.Channel.after (old : ChannelCfg) (C : Channel) : Channel :=
  if C.cfg.kind = old.kind ∧ C.cfg.lo = old.lo ∧ C.cfg.hi = old.hi then C
  else
    { C with
      ring := [], last := .none, fault := C.fault && decide (C.cfg.kind ≠ none)
      goodRun := if C.cfg.kind = none then 0 else C.goodRun }

/-- A kind after a change of its term list (R83). -/
def Sys2Proof.Machine.KindUnit.after (used : Prop) [Decidable used] (K : KindUnit) : KindUnit :=
  if used ∧ K.status = .unused then { K with status := .failed, level := none }
  else if ¬used ∧ K.status ≠ .unused then
    { K with status := .unused, level := none, weight := 0, holdTimer := none, alarm := false, d := 0 }
  else K

/-- The effects of an accepted change, `s` being the state with the words stored and `old` the one before: R8 for the
channels, R13 and R75 for the timers, R65 and R66 for the ways whose lock changed, R83 for the kinds, R139 for the line
entries, R145 and R154 for the latch, R185 for a STORE in progress. -/
structure Sys2Proof.Machine.ChangeEffects (old s t : State) : Prop where
  still : t.still =
    { s.still with
      channels := t.channels, kinds := t.kinds, tap := t.tap, dirty := t.dirty, rewritten := t.rewritten
      reportTimer := t.reportTimer, controlTimer := t.controlTimer }
  actuators : t.fans = s.fans ∧ t.doors = s.doors ∧ t.u = s.u
  channels : ∀ c : ChannelId, t.channels[c] = s.channels[c].after old.channels[c].cfg ∧
    (old.channels[c].fault = true → t.channels[c].fault = false → t.latch[srcLoopFault c].asserted = false)
  reportTimer : t.reportTimer =
    if s.node.reportPeriod = old.node.reportPeriod then s.reportTimer
    else some (s.now + s.node.reportPeriod * 1000000)
  controlTimer : t.controlTimer =
    if s.node.controlPeriod = old.node.controlPeriod then s.controlTimer
    else some (s.now + s.node.controlPeriod * 1000000)
  tap : ∀ i : Fin 128, t.tap[i] = s.tap[i].map fun e =>
    if wayOf i < s.node.effLock ∧ ¬ wayOf i < old.node.effLock then
      { e with lockedLoad := false, loadKind := e.kind, loadValue := e.value }
    else if wayOf i < old.node.effLock ∧ ¬ wayOf i < s.node.effLock then { e with lockedLoad := false }
    else e
  dirty : t.dirty =
    if ∃ i : Fin 128, s.tap[i] ≠ none ∧ ¬(wayOf i < old.node.effLock ↔ wayOf i < s.node.effLock) then
      s.dirty.set groupTaplock true
    else s.dirty
  rewritten : t.rewritten =
    if (∃ i : Fin 128, s.tap[i] ≠ none ∧ ¬(wayOf i < old.node.effLock ↔ wayOf i < s.node.effLock)) ∧
        s.storing.inHand = some groupTaplock then
      s.rewritten.set groupTaplock true
    else s.rewritten
  kinds : ∀ k : Kind,
    (s.terms = old.terms → t.kind k = s.kind k) ∧
    (s.terms ≠ old.terms →
      t.kind k = (s.kind k).after (∃ x ∈ s.termsOf k, x.weight ≠ 0) ∧
      ((s.kind k).status = .unused → (t.kind k).status = .failed →
        LatchEntry.CountedOnce (srcKindFailed k) s.stamp s.posA s.latch[srcKindFailed k] t.latch[srcKindFailed k]) ∧
      ((s.kind k).status = .failed → (t.kind k).status = .unused → t.latch[srcKindFailed k].asserted = false) ∧
      ((s.kind k).alarm = true → (t.kind k).alarm = false →
        ∀ n, srcGasAlarm k = some n → t.latch[n].asserted = false))
  lines : ∀ i : Fin 16, SameRecord
    { s.latch[srcLine i] with
      asserted := s.latch[srcLine i].asserted && decide (s.lines[i].code = old.lines[i].code) }
    t.latch[srcLine i]
  others : ∀ n : EntryId, n.val < 6 ∨ (18 ≤ n.val ∧ n.val < 35) → SameRecord s.latch[n] t.latch[n]
  invalidated : ∀ n : EntryId, old.planValid n = true → t.planValid n = false → t.latch[n].serve ≠ .pending
  validated : ∀ n : EntryId, old.planValid n = false → t.planValid n = true → isLevel n = true →
    t.latch[n].asserted = true → s.latch[n].serve = .idle → t.latch[n].serve = .pending
  served : ∀ n : EntryId, s.latch[n].serve = .served → t.latch[n].serve = .served
  waiting : ∀ n : EntryId, s.latch[n].serve = .pending → t.planValid n = true →
    t.latch[n].asserted = s.latch[n].asserted → t.latch[n].serve = .pending
  decision : ∀ n : EntryId, t.latch[n].serve = .pending →
    s.latch[n].serve ≠ .pending ∨ s.effLevel n ≠ old.effLevel n ∨ s.effClass n ≠ old.effClass n →
    t.decisionDue = true

/-- A WRITE that passes its checks stores its words, each with its field's clamp, and nothing else of the configuration (R172),
sets the dirty mark of every group that holds a configuration word it covers, and no other but TAPLOCK's (R173), takes the
effects of the change as one, the decisions they owe last, and is answered OK or OK_CLAMPED. The effects are ChangeEffects;
their order is log entry 27's. A stored word of Tp, Dmin or Dmax also forms the pending period, and with a run output on the
pending duty (R101), that of the request magnitude held. -/
def Obligations.WritesStoreTheirWords : Prop :=
  (∀ (p : Port) (r : Request) (s : State) (T : Table) (len : Nat), s.Serves p r →
    Table.ofNumber r.table.toNat = some T → tableLengths[r.table.toNat]? = some len → T.readOnly = false →
    r.count.toNat = r.data.length → r.data ≠ [] → r.index.toNat + r.data.length ≤ len →
    (r.table = 8 → ∀ c ∈ s.stack, ∀ w, r.index.toNat ≤ w → w < r.index.toNat + r.data.length →
      w / 17 ≠ c.step.val) →
    ∃ t u v : State, exec (.write p r) s = .next t ∧ SameConfig (s.putTableWords T r.index.toNat r.data).1 t ∧
      (∀ g : Fin 15, g ≠ groupTaplock →
        t.dirty[g] = (s.dirty[g] || (List.range r.data.length).any fun i =>
          decide ((r.index.toNat + i) % T.size < T.cfgWords) &&
            decide (groupOf T ((r.index.toNat + i) / T.size) = some g))) ∧
      (s.dirty[groupTaplock] = true → t.dirty[groupTaplock] = true) ∧
      t.still =
        { (s.heard p).still with
          node := t.node, channels := t.channels, terms := t.terms, kinds := t.kinds, sources := t.sources
          lines := t.lines, plan := t.plan, tap := t.tap, dirty := t.dirty, rewritten := t.rewritten
          reportTimer := t.reportTimer, controlTimer := t.controlTimer } ∧
      v = ((s.heard p).putTableWords T r.index.toNat r.data).1.markWords T r.index.toNat r.data.length ∧
      u = (State.changed (s.heard p) v).settle ∧
      (∀ g : Fin 15, v.rewritten[g] = (s.rewritten[g] || (decide (s.storing.inHand = some g) &&
        (List.range r.data.length).any fun i =>
          decide ((r.index.toNat + i) % T.size < T.cfgWords) &&
            decide (groupOf T ((r.index.toNat + i) / T.size) = some g)))) ∧
      t = u.reply p 2 r { status := if (s.putTableWords T r.index.toNat r.data).2 then 1 else 0 }) ∧
  (∀ old s : State, ChangeEffects old s (State.changed old s)) ∧
  ∀ (s : State) (f : FanId) (w : Nat) (v : Word) (F : Fan), F = (s.putWord .fan f.val w v).1.fans[f] →
    (w < 4 ∨ 6 < w → F = { s.fans[f] with cfg := F.cfg }) ∧
    (4 ≤ w → w ≤ 6 → F =
      { s.fans[f] with
        cfg := F.cfg, pendingTp := F.cfg.tp
        pendingDuty := if s.fans[f].runDir = none then s.fans[f].pendingDuty
          else F.cfg.dutyOf s.fans[f].request.mag })

/-- What a stored word becomes, and whether the clamp changed it: the nearest value of a range (a flag's is 0 to 1), of a
signed range, any value, one of a field's codes or else its default, a line code (R172). -/
def Sys2Proof.Machine.fieldRange (lo hi : Nat) (v : Word) : Word × Bool :=
  (natW (max lo (min v.toNat hi)), decide (v.toNat < lo ∨ hi < v.toNat))
def Sys2Proof.Machine.fieldSigned (lo hi : Int) (v : Word) : Word × Bool :=
  (intW (max lo (min v.toInt hi)), decide (v.toInt < lo ∨ hi < v.toInt))
def Sys2Proof.Machine.fieldAny (v : Word) : Word × Bool := (v, false)
def Sys2Proof.Machine.fieldAmong (codes : List Nat) (dflt : Word) (v : Word) : Word × Bool :=
  if v.toNat ∈ codes then (v, false) else (dflt, true)
def Sys2Proof.Machine.fieldLineCode (v : Word) : Word × Bool :=
  if 1 ≤ v.toNat ∧ v.toNat ≤ 0x07FF then (0, true) else (v, false)

/-- Class, level, plan step and report flag (R138); 255 is NONE. -/
def Sys2Proof.Machine.sourceFields : List (Word → Word × Bool) :=
  [fieldAmong [0, 1, 2] 0, fieldRange 0 7, fieldAmong (255 :: List.range 64) 255, fieldRange 0 1]

/-- The fields of a table entry's configuration words, in R180's order: CHANNEL (R1), TERMS (R77), KIND (R80), FAN (R99),
DOOR (R119), SOURCE (R138), LINEMAP (R139), PLAN (R150), and NODE (R13, R22, R24, R48, R60, R75, R79, R88, R89, R90, R155,
R175, R179). -/
def Sys2Proof.Machine.Table.fields : Table → List (Word → Word × Bool)
  | .channel => [fieldAmong [0, 1, 2, 3, 4] 0, fieldAny, fieldAny, fieldRange 0 7]
  | .terms => [fieldAmong [0, 1] 0, fieldSigned (-15) 15, fieldRange 0 3, fieldRange 0 15]
  | .kind => [fieldRange 0 120, fieldRange 0 600, fieldAny, fieldAny, fieldAny, fieldAny, fieldRange 0 1000]
  | .fan =>
    [fieldRange 0 1000, fieldRange 0 1000, fieldRange 0 1000, fieldRange 1 1000, fieldRange 200 4000, fieldRange 0 4000,
      fieldRange 0 4000, fieldRange 50 65535, fieldRange 1 60, fieldRange 1 1000, fieldRange 0 100, fieldRange 1 60,
      fieldRange 30 300, fieldRange 0 1000]
  | .door =>
    [fieldRange 5 100, fieldRange 5 60, fieldRange 10 600, fieldRange 1 30, fieldRange 1 10, fieldRange 250 2000]
  | .source => sourceFields
  | .linemap => fieldLineCode :: sourceFields
  | .plan =>
    [fieldRange 0 1, fieldRange 0 1, fieldAmong (255 :: List.range 64) 255, fieldAny, fieldAmong [0, 1, 2] 0,
      fieldAmong [0, 1, 2, 3, 4] 0, fieldAmong [1, 2] 1, fieldRange 0 1000, fieldAny, fieldAmong [0, 1, 2] 0,
      fieldAmong [0, 1, 2] 0, fieldAmong [0, 1, 2] 0, fieldRange 0 15, fieldAmong [0, 1, 2] 0, fieldLineCode,
      fieldRange 0 31, fieldAmong [0, 1] 0]
  | .node =>
    [fieldRange 1 60, fieldRange 0 15, fieldRange 100 5000, fieldRange 20 1000, fieldRange 100 5000, fieldRange 0 7,
      fieldRange 0 1, fieldRange 0 15, fieldRange 0 15, fieldRange 1 10, fieldRange 1 255, fieldRange 0 1000,
      fieldRange 0 1000, fieldRange 0 255, fieldAmong [1, 2] 1, fieldRange 0 5000, fieldRange 0 1]
  | .status => []
  | .tap => []
  | .latch => []
  | .stack => []

/-- A configuration word of any table, numeric, flag, enumeration or code, is stored with its field's clamp, which is marked
exactly when it changes the value, and every other configuration word stands; a live word, or one of a read-only table, is left
unchanged (R172). The words of one WRITE are stored in turn, and some clamp is enough for OK_CLAMPED. -/
def Obligations.NumericFieldsClampToTheirRanges : Prop :=
  (∀ (s : State) (T : Table) (e w : Nat) (field : Word → Word × Bool) (v : Word),
    e < T.entries → T.fields[w]? = some field →
    (s.putTableWord T (T.size * e + w) v).2 = (field v).2 ∧
    (s.putTableWord T (T.size * e + w) v).1.tableWord T (T.size * e + w) = (field v).1 ∧
    ∀ (T' : Table) (e' w' : Nat), e' < T'.entries → w' < T'.fields.length → ¬(T' = T ∧ e' = e ∧ w' = w) →
      (s.putTableWord T (T.size * e + w) v).1.tableWord T' (T'.size * e' + w') = s.tableWord T' (T'.size * e' + w')) ∧
  (∀ (s : State) (T : Table) (e w : Nat) (v : Word), T.fields.length ≤ w → w < T.size →
    s.putTableWord T (T.size * e + w) v = (s, false)) ∧
  ∀ (s : State) (T : Table) (a : Nat),
    s.putTableWords T a [] = (s, false) ∧
    ∀ (v : Word) (vs : List Word), s.putTableWords T a (v :: vs) =
      (((s.putTableWord T a v).1.putTableWords T (a + 1) vs).1,
        (s.putTableWord T a v).2 || ((s.putTableWord T a v).1.putTableWords T (a + 1) vs).2)

/-- FLUSH_PLANS is IN_USE while the stack holds a context; else it invalidates every step that protection does not spare, marks
the PLAN groups of the steps that became invalid, rewritten too where a STORE has the group in hand (R185), and a PENDING entry
whose step it invalidated becomes IDLE (R175). -/
def Obligations.FlushPlansInvalidatesSteps : Prop :=
  ∀ (p : Port) (r : Request) (s : State), s.Serves p r →
    (s.stack ≠ [] → exec (.flushPlans p r) s = .next ((s.heard p).reply p 5 r { status := 7 })) ∧
    (s.stack = [] →
      ∃ t, exec (.flushPlans p r) s = .next t ∧
        (∀ i : Fin 64, t.plan[i] =
          if s.plan[i].isProtected = true ∧ s.node.planProtect = true then s.plan[i]
          else { s.plan[i] with valid := false }) ∧
        (∀ g : Fin 15, t.dirty[g] = (s.dirty[g] || (List.finRange 64).any fun i =>
          decide (groupOfStep i = g) && s.plan[i].valid && !t.plan[i].valid)) ∧
        (∀ g : Fin 15, t.rewritten[g] = (s.rewritten[g] || (decide (s.storing.inHand = some g) &&
          (List.finRange 64).any fun i => decide (groupOfStep i = g) && s.plan[i].valid && !t.plan[i].valid))) ∧
        (∀ n : EntryId, t.latch[n] =
          if s.latch[n].serve = .pending ∧ s.planValid n = true ∧ t.planValid n = false then
            { s.latch[n] with serve := .idle }
          else s.latch[n]) ∧
        t = ({ s.heard p with plan := t.plan, dirty := t.dirty, rewritten := t.rewritten, latch := t.latch }).reply p 5 r
          { status := 0 })

/-- ACK: a count equal to the entry's occurrence count clears its unacknowledged flag, another count is STALE with the
current count, and an index outside 1 to 51 is BAD_INDEX (R146); so is a request with no data word (R174). -/
def Obligations.AcksMatchTheCount : Prop :=
  ∀ (p : Port) (r : Request) (s : State), s.Serves p r →
    (r.index.toNat = 0 ∨ 51 < r.index.toNat ∨ r.data = [] →
      exec (.ack p r) s = .next ((s.heard p).reply p 6 r { status := 5 })) ∧
    (∀ (n : EntryId) (c : Word) (rest : List Word), r.index.toNat = n.val + 1 → r.data = c :: rest →
      (c.toNat = s.latch[n].count.toNat →
        exec (.ack p r) s = .next
          (((s.heard p).setLatch n { s.latch[n] with unack := false }).reply p 6 r { status := 0 })) ∧
      (c.toNat ≠ s.latch[n].count.toNat →
        exec (.ack p r) s = .next ((s.heard p).reply p 6 r
          { status := 9, data := [BitVec.ofNat 16 s.latch[n].count.toNat] })))

/-- CLEAR_PLAN with selector ACTIVE ends the ACTIVE context, and a saved context with no kept end resumes; with ALL every
context ends; a selector above 1 is BAD_INDEX, and an empty stack is left as it is (R163, R164). The acceptance decisions
that follow an end are owed to `settle` (R154, R163). SET_MASK makes the level M, a level above 7 storing 7 with OK_CLAMPED;
lowering M owes an acceptance decision, and else nothing else changes (R154, R156). A context that resumes with a kept end
moves on at once, as by a step's end (R160, R161, R163). -/
def Obligations.ClearPlanEndsContextsAndSetMaskStores : Prop :=
  (∀ (p : Port) (r : Request) (s : State), s.Serves p r →
    (1 < r.index.toNat → exec (.clearPlan p r) s = .next ((s.heard p).reply p 7 r { status := 5 })) ∧
    (r.index.toNat ≤ 1 → s.stack = [] → exec (.clearPlan p r) s = .next ((s.heard p).reply p 7 r { status := 0 })) ∧
    (r.index.toNat = 0 →
      exec (.clearPlan p r) s = .next ((s.heard p).clearActive.settle.reply p 7 r { status := 0 })) ∧
    (r.index.toNat = 1 →
      exec (.clearPlan p r) s = .next ((s.heard p).clearAll.settle.reply p 7 r { status := 0 }))) ∧
  (∀ s : State, s.clearAll.stack = []) ∧
  (∀ (s : State) (c : Context), s.stack = [c] → s.clearActive.stack = []) ∧
  (∀ (s : State) (c d : Context) (rest : List Context), s.stack = c :: d :: rest → d.endPending = false →
    s.clearActive.stack = { d with timer := d.timer.thaw s.now } :: rest) ∧
  (∀ (s : State) (c d : Context) (rest : List Context), s.stack = c :: d :: rest →
    d.timer = .frozen 0 ∨ d.clearSeen = true → s.clearActive = s.endContext.endStep.afterStackChange) ∧
  (∀ s : State, s.stack ≠ [] → s.clearActive.decisionDue = true ∧ s.clearAll.decisionDue = true) ∧
  (∀ (s : State) (c : Context) (rest : List Context), s.stack = c :: rest → c.source ≠ srcOverrun →
    s.endContext.stack = rest ∧
    s.endContext.latch[c.source].serve =
      if isLevel c.source && s.latch[c.source].asserted then .spent else .idle) ∧
  (∀ (p : Port) (r : Request) (s : State), s.Serves p r →
    (s.mask ≤ min r.index.toNat 7 →
      exec (.setMask p r) s = .next
        ({ s.heard p with mask := min r.index.toNat 7 }.reply p 8 r
          { status := if 7 < r.index.toNat then 1 else 0 })) ∧
    (min r.index.toNat 7 < s.mask →
      exec (.setMask p r) s = .next
        ((State.settle { s.heard p with mask := min r.index.toNat 7, decisionDue := true }).reply p 8 r
          { status := if 7 < r.index.toNat then 1 else 0 })) ∧
    ∃ t, exec (.setMask p r) s = .next t ∧ t.still = { (s.heard p).still with mask := min r.index.toNat 7 })

/-- FAN_RESET takes a channel out of FAULT to STOPPING with its last direction, starts its dwell timer and clears its fault
source; applied in any other state it changes nothing (R112). DOOR_RESET takes a door out of FAULT to OPEN, RELEASED or
SECURED by its inputs, and clears its fault source (R131). Channel and door numbers past the last are BAD_INDEX. The
clauses on FAULT take the case that the clearing ends no step and no report of it launches a plan. -/
def Obligations.FanAndDoorResets : Prop :=
  ∀ (p : Port) (r : Request) (s : State), s.Serves p r →
    (3 ≤ r.index.toNat → exec (.fanReset p r) s = .next ((s.heard p).reply p 9 r { status := 5 })) ∧
    (2 ≤ r.index.toNat → exec (.doorReset p r) s = .next ((s.heard p).reply p 10 r { status := 5 })) ∧
    (∀ f : FanId, r.index.toNat = f.val →
      (s.fans[f].state ≠ .fault → exec (.fanReset p r) s = .next ((s.heard p).reply p 9 r { status := 0 })) ∧
      (s.fans[f].state = .fault → (∀ c ∈ s.stack, c.source ≠ srcFanFault f) → s.planValid srcOverrun = false →
        ∃ t, exec (.fanReset p r) s = .next t ∧ t.latch[srcFanFault f].asserted = false ∧
          t.still = (s.heard p).still ∧
          ((∀ d, s.fans[f].lastDir = some d → s.fans[f].wants d = false) →
            t.fans[f] =
              { s.fans[f] with
                state := .stopping s.fans[f].lastDir, duty := 0, pendingDuty := 0, startTimer := none
                stallTimer := none, dwellTimer := some (s.now + s.fans[f].cfg.coastDwell * 1000000) }) ∧
          (∀ d, s.fans[f].lastDir = some d → s.fans[f].wants d = true → t.fans[f].runDir = some d) ∧
          ∀ g : FanId, g ≠ f → t.fans[g] = s.fans[g])) ∧
    (∀ d : DoorId, r.index.toNat = d.val →
      (s.doors[d].state ≠ .fault → s.DoorLaw →
        exec (.doorReset p r) s = .next ((s.heard p).reply p 10 r { status := 0 })) ∧
      (s.doors[d].state = .fault → s.DoorLaw → (∀ c ∈ s.stack, c.source ≠ srcDoorFault d) →
        s.planValid srcOverrun = false →
        ∃ t, exec (.doorReset p r) s = .next t ∧ t.latch[srcDoorFault d].asserted = false ∧
          t.still = (s.heard p).still ∧
          (s.doors[d].closed.level = false →
            t.doors[d].state = .opened (if s.doors[d].policy = .normal then .egress else .policy) ∧
            t.doors[d].holdTimer = some (s.now + s.doors[d].cfg.holdLimit * 1000000)) ∧
          (s.doors[d].closed.level = true → s.doors[d].policy = .normal → s.doors[d].pushBar.level = false →
            t.doors[d].state = .secured) ∧
          (s.doors[d].closed.level = true → s.doors[d].policy = .normal → s.doors[d].pushBar.level = true →
            t.doors[d].state = .released .egress ∧
            t.doors[d].egressTimer = some (s.now + s.doors[d].cfg.egressTime * 1000000)) ∧
          (s.doors[d].closed.level = true → s.doors[d].policy ≠ .normal → t.doors[d].state = .released .policy) ∧
          ∀ e : DoorId, e ≠ d → t.doors[e] = s.doors[e]))

/-- OPEN moves LOCKOUT to OPERATING with a renewal and an acceptance decision, and changes nothing in OPERATING (R176).
STORE starts with the lowest group whose dirty mark is set, or with the header when there is none, and is BUSY while a
STORE runs (R177, R184). -/
def Obligations.OpenAndStore : Prop :=
  ∀ (p : Port) (r : Request) (s : State), s.Serves p r →
    (s.nodeState = .operating → exec (.openNode p r) s = .next ((s.heard p).reply p 11 r { status := 0 })) ∧
    (s.nodeState = .lockout →
      ∃ t, exec (.openNode p r) s = .next t ∧ t.still = { (s.heard p).still with nodeState := .operating } ∧
        t.decisionDue = false ∧
        t = (State.settle { { s.heard p with nodeState := .operating }.renew with decisionDue := true }).reply p 11 r
          { status := 0 }) ∧
    (s.storing ≠ .idle → exec (.store p r) s = .next ((s.heard p).reply p 12 r { status := 2 })) ∧
    (s.storing = .idle →
      (∀ g : Fin 15, s.dirty[g] = true → (∀ h : Fin 15, s.dirty[h] = true → g ≤ h) →
        exec (.store p r) s = .next
          ({ s.heard p with
              rewritten := s.rewritten.set g false
              storing := .group g .writing (groupRecord g (s.groupContent g)) }.reply p 12 r { status := 0 })) ∧
      ((∀ g : Fin 15, s.dirty[g] = false) →
        exec (.store p r) s = .next
          ({ s.heard p with storing := .header .writing (headerRecord (decide (s.nodeState = NodeState.lockout))) }.reply p 12 r
            { status := 0 })))

/-! ### Sensor channels (chapter 1) and demand (chapter 5) -/

/-- The engineering value of a code used for scaling: the exact quotient rounded to nearest with halves toward plus infinity,
so between lo and hi, lo at 682 and hi at 3412 (R5). -/
def Obligations.ScaledValuesFollowTheLoop : Prop :=
  ∀ (cfg : ChannelCfg) (c : Nat), 682 ≤ c → c ≤ 3412 →
    (2 * 2730 * (cfg.scale c - cfg.lo) ≤ 2 * (((c : Int) - 682) * (cfg.hi - cfg.lo)) + 2730 ∧
      2 * (((c : Int) - 682) * (cfg.hi - cfg.lo)) + 2730 < 2 * 2730 * (cfg.scale c - cfg.lo + 1)) ∧
    min cfg.lo cfg.hi ≤ cfg.scale c ∧ cfg.scale c ≤ max cfg.lo cfg.hi ∧
    (c = 682 → cfg.scale c = cfg.lo) ∧ (c = 3412 → cfg.scale c = cfg.hi)

/-- A conversion completion: an UNUSED channel discards the code (R3); a good one is scaled and enters the ring, which keeps the
16 newest (R4 to R6), and the fourth good one running clears a loop fault (R10); a code below 614 or above 3583 asserts the
loop fault and leaves the ring (R9). The next 250 ms interval begins. -/
def Obligations.ConversionsFillTheRing : Prop :=
  ∀ (ch : ChannelId) (code : BitVec 12) (s : State) (C : Channel), s.Settled → s.channels[ch] = C →
    (C.cfg.kind = none →
      exec (.conversionCompletion ch code) s = .next (s.setChannel ch { C with convTimer := some (s.now + 250000) })) ∧
    (C.cfg.kind ≠ none → 614 ≤ code.toNat → code.toNat ≤ 3583 → ∀ (v : Int) (o : ConvOutcome),
      v = C.cfg.scale (max 682 (min code.toNat 3412)) →
      o = (if 682 ≤ code.toNat ∧ code.toNat ≤ 3412 then ConvOutcome.good else .clamped) →
      (C.fault = false →
        exec (.conversionCompletion ch code) s = .next (s.setChannel ch
          { C with
            ring := (v :: C.ring).take 16, last := o, goodRun := 0, convTimer := some (s.now + 250000) })) ∧
      (C.fault = true → C.goodRun < 3 →
        exec (.conversionCompletion ch code) s = .next (s.setChannel ch
          { C with
            ring := (v :: C.ring).take 16, last := o, goodRun := C.goodRun + 1
            convTimer := some (s.now + 250000) })) ∧
      (C.fault = true → C.goodRun = 3 →
        ∃ t, exec (.conversionCompletion ch code) s = .next t ∧
          t.still = (s.setChannel ch
            { C with
              ring := (v :: C.ring).take 16, last := o, goodRun := 0, fault := false
              convTimer := some (s.now + 250000) }).still ∧
          t.latch[srcLoopFault ch].asserted = false)) ∧
    (C.cfg.kind ≠ none → code.toNat < 614 ∨ 3583 < code.toNat →
      ∃ t, exec (.conversionCompletion ch code) s = .next t ∧
        t.still = (s.setChannel ch
          { C with
            last := if code.toNat < 614 then .low else .high, goodRun := 0, fault := true
            convTimer := some (s.now + 250000) }).still ∧
        (C.fault = false →
          LatchEntry.CountedOnce (srcLoopFault ch) s.stamp s.posA s.latch[srcLoopFault ch]
            t.latch[srcLoopFault ch]) ∧
        (C.fault = true → SameRecord s.latch[srcLoopFault ch] t.latch[srcLoopFault ch]))

/-- A report timer expiry starts the timer anew, and offers one SAMPLE with an item for each used channel to LL of each port,
unless every channel is UNUSED or the sample reach is 0 (R13, R14, R15). The smoothed value is the mean of the newest values
of the ring, the window's 1, 2, 4, 8 or 16 or as many as there are, rounded to nearest with halves toward plus infinity;
an empty ring has none (R7). -/
def Obligations.ReportsSendTheReadings : Prop :=
  (∀ (s u : State) (items : List SampleItem), s.Settled →
    u = { s with reportTimer := some (s.now + s.node.reportPeriod * 1000000) } →
    items = ((List.finRange 4).filterMap fun c : ChannelId => s.channels[c].cfg.kind.map fun k =>
      { channel := BitVec.ofNat 8 c.val, kind := k
        flags := BitVec.ofNat 8
          ((if s.channels[c].last = .clamped then 1 else 0) +
            (if s.channels[c].fault = true ∨ s.channels[c].ring = [] then 2 else 0))
        value := BitVec.ofInt 16 (s.channels[c].smoothed.getD 0) }) →
    ((items = [] ∨ s.node.sampleReach = 0) → exec .reportTimerExpiry s = .next u) ∧
    (items ≠ [] → s.node.sampleReach ≠ 0 → ∀ f : Frame,
      f = .sample { origin := BitVec.ofNat 8 s.posA, reach := BitVec.ofNat 8 s.node.sampleReach, items := items } →
      exec .reportTimerExpiry s = .next ((u.offer .a .ll f).1.offer .b .ll f).1)) ∧
  ∀ (C : Channel) (n : Nat), n = min (2 ^ min C.cfg.window 4) C.ring.length →
    (C.ring = [] → C.smoothed = none) ∧
    (C.ring ≠ [] → ∃ v : Int, C.smoothed = some v ∧
      2 * (n : Int) * v ≤ 2 * (C.ring.take n).sum + n ∧ 2 * (C.ring.take n).sum + n < 2 * (n : Int) * (v + 1))

/-- A term of a kind counts with value `v`: a LOCAL term reads a channel of that kind that has a value and no loop fault (R78,
R12); a TAP term of an offset other than 0 finds its key's entry in the cache, of that kind, its FAULT flag clear and within
the stale limit (R79). -/
def Sys2Proof.Machine.Term.Counts (x : Term) (s : State) (k : Kind) (v : Int) : Prop :=
  (x.source = .loc ∧ s.channels[x.channel].cfg.kind = some k ∧ s.channels[x.channel].fault = false ∧
    s.channels[x.channel].smoothed = some v) ∨
  (x.source = .tap ∧ x.offset ≠ 0 ∧ s.posA ≠ 0 ∧ 1 ≤ (s.posA : Int) + x.offset ∧ (s.posA : Int) + x.offset ≤ 254 ∧
    ∃ (i : Fin 128) (e : TapEntry), s.tap[i] = some e ∧ (e.origin : Int) = s.posA + x.offset ∧
      e.channel = x.channel.val ∧ e.kind = k ∧ e.fault = false ∧ e.age ≤ s.node.staleLimit ∧ e.value = v)

/-- An evaluation: each used kind's status and level by its valid weight and quorum (R81, R84), its demand by the ramp (R85) and
its alarm by its thresholds (R86); an UNUSED kind is not evaluated (R83). The valid weight and the weighted sum are those of the
terms of the kind's list of 8 that count, each with its value (R77 to R79). -/
def Obligations.EvaluationsSettleTheKinds : Prop :=
  (∀ (s : State) (k : Kind) (x : Term) (v : Int), s.TapLaw → (s.termValue k x = some v ↔ x.Counts s k v)) ∧
  (∀ (s : State) (k : Kind) (ts : List Term),
    ts = (List.range 8).filterMap (fun i => s.terms[8 * [Kind.co, .no2, .opac, .vel].idxOf k + i]?) →
    s.weigh k =
      ((ts.map fun x => if (s.termValue k x).isSome then x.weight else 0).sum,
        (ts.map fun x => (x.weight : Int) * (s.termValue k x).getD 0).sum)) ∧
  ∀ s : State, ∃ t, exec .controlTimerExpiry s = .next t ∧
    t.controlTimer = some (s.now + s.node.controlPeriod * 1000000) ∧
    ∀ k : Kind,
      (t.kind k).cfg = (s.kind k).cfg ∧
      ((s.kind k).status = .unused → t.kind k = s.kind k) ∧
      ((s.kind k).status ≠ .unused →
        (t.kind k).weight = (s.weigh k).1 ∧
        (max (s.kind k).cfg.quorum 1 ≤ (s.weigh k).1 →
          (t.kind k).status = .ok ∧ (t.kind k).holdTimer = none ∧
          ∃ l : Int, (t.kind k).level = some l ∧
            2 * ((s.weigh k).1 : Int) * l ≤ 2 * (s.weigh k).2 + (s.weigh k).1 ∧
            2 * (s.weigh k).2 + (s.weigh k).1 < 2 * ((s.weigh k).1 : Int) * (l + 1)) ∧
        ((s.weigh k).1 < max (s.kind k).cfg.quorum 1 →
          (t.kind k).level = (s.kind k).level ∧
          ((s.kind k).status = .ok → (s.kind k).cfg.hold ≠ 0 →
            (t.kind k).status = .degraded ∧
            (t.kind k).holdTimer = some (s.now + (s.kind k).cfg.hold * 1000000)) ∧
          ((s.kind k).status = .ok → (s.kind k).cfg.hold = 0 → (t.kind k).status = .failed) ∧
          ((s.kind k).status ≠ .ok →
            (t.kind k).status = (s.kind k).status ∧ (t.kind k).holdTimer = (s.kind k).holdTimer)) ∧
        (k = .vel → (t.kind k).d = (s.kind k).d ∧ (t.kind k).alarm = (s.kind k).alarm) ∧
        (k ≠ .vel → (t.kind k).status = .failed →
          (t.kind k).d = (s.kind k).cfg.failed ∧ (t.kind k).alarm = (s.kind k).alarm) ∧
        (k ≠ .vel → (t.kind k).status = .ok ∨ (t.kind k).status = .degraded →
          ∀ l lo hi a c : Int, (t.kind k).level = some l → lo = (s.kind k).cfg.tLo → hi = (s.kind k).cfg.tHi →
            a = (s.kind k).cfg.alarm → c = (s.kind k).cfg.clear →
            (lo < hi → l ≤ lo → (t.kind k).d = 0) ∧
            (hi ≤ lo → l < hi → (t.kind k).d = 0) ∧
            (hi ≤ l → (t.kind k).d = 1000) ∧
            (lo < l → l < hi →
              ((t.kind k).d : Int) * (hi - lo) ≤ 1000 * (l - lo) ∧
              1000 * (l - lo) < ((t.kind k).d + 1) * (hi - lo)) ∧
            (a ≤ l → (t.kind k).alarm = true) ∧
            (c < a → l ≤ c → (t.kind k).alarm = false) ∧
            (a ≤ c → l < a → (t.kind k).alarm = false) ∧
            (c < l → l < a → (t.kind k).alarm = (s.kind k).alarm)))

/-- A duty taken between the effective Dmin and Dmax (R95, R101): itself, but where a WRITE since it was formed has put it
outside them (log entry 17). -/
def Sys2Proof.Machine.FanCfg.bounded (c : FanCfg) (duty : Nat) : Nat :=
  let lo := min c.dMin c.tp
  let hi := max (min c.dMax c.tp) lo
  if duty < lo then lo else if hi < duty then hi else duty

/-- A channel that starts in direction `d` with its request and the duty that came with it (R107): STARTING, or RUNNING at once
when its speed confirms it (R108), then with the stall test made (R109). -/
def Sys2Proof.Machine.Fan.started (now : Nat) (d : Direction) (F : Fan) : Fan :=
  let F : Fan :=
    { F with
      lastDir := some d, duty := F.cfg.bounded F.heldDuty, pendingDuty := F.cfg.bounded F.heldDuty
      tp := F.pendingTp, pwmCount := 0, dwellTimer := none }
  if F.speed < F.cfg.confirmSpeed then
    { F with state := .starting d, startTimer := some (now + F.cfg.startTime * 1000000), stallTimer := none }
  else
    { F with
      state := .running d, startTimer := none
      stallTimer := if F.speed * 100 < F.request.mag * F.cfg.stallRatio then some (now + F.cfg.stallTime * 1000000)
        else none }

/-- What the jets' directive asks of an available jet channel before minimum run (R92, R93), `o` being its stage offset: 0
for the first available one. -/
def Sys2Proof.Machine.Directive.Asks (D : Directive) (s : State) (f : FanId) (o : Nat) (c : Cmd) : Prop :=
  let stagedOf (m q : Nat) : Prop :=
    (m ≤ min o 999 → q = 0) ∧
    (min o 999 < m → q * (1000 - min o 999) ≤ (m - min o 999) * 1000 ∧
      (m - min o 999) * 1000 < (q + 1) * (1000 - min o 999))
  match D with
  | .auto => stagedOf s.dLim c.mag ∧ c.dir = some s.node.autoDirection
  | .off => c = {}
  | .fixed d v => c = ⟨v, some d⟩
  | .velocity _ => stagedOf s.u.natAbs c.mag ∧ (0 < s.u → c.dir = some .forward) ∧ (s.u < 0 → c.dir = some .reverse)
  | .holdLast c1 c2 => c = if f = jet1 then c1 else c2

/-- At an evaluation the zone demand is the greatest of the gas kinds' demands, and D_lim moves toward it under AUTO alone, by
at most R_up or R_dn, 0 taken as 1 (R88). A hold timer's expiry takes its kind to FAILED, which is an occurrence of the
kind's failed source (R82, R87). Under VELOCITY an evaluation steps u toward the target, with the quotient by 256 rounded
toward zero (R90), and a renewal seeds u with the last command of the first available jet (R91). An evaluation ends, and a
renewal goes on, with a hand-off (R75, R76): each jet is handed its directive's command (R92, R93), 0 below minimum run (R94),
with that magnitude's duty (R95), and the passage its speed FORWARD (R96); the request is the command, 0 while an override
holds the jets, the passage's 0 without reason to run (R105, R114); a jet's formed again is the handed command with its duty,
above minimum run with S and P as they stand (R105, log entry 29), the passage's the speed last handed (log entry 17) with its
duty formed then (R95, section 6.8). The sources of an evaluation are raised before its hand-off, in the order of
log entry 27. A channel acts on a request by its state (R105, R107 to R111): it starts from STOPPED, or again in the direction
it coasts in, the passage channel too (log entry 32), with the duty that came with the request, kept between the bounds (log
entry 17); it takes the new duty while it runs in the request's direction, with the stall test made at a re-formation too (log
entry 35), stops for another, and else holds the request. -/
def Obligations.DemandFollowsTheKindsAndHoldTimersFailThem : Prop :=
  (∀ s : State, ∃ t, exec .controlTimerExpiry s = .next t ∧
    t.still =
      { s.still with controlTimer := t.controlTimer, kinds := t.kinds, demand := t.demand, dLim := t.dLim } ∧
    t.demand = max (max t.kinds.co.d t.kinds.no2.d) t.kinds.opac.d ∧
    (s.jetDirective ≠ .auto → t.dLim = s.dLim) ∧
    (s.jetDirective = .auto →
      (s.dLim < t.demand → t.dLim = min t.demand (s.dLim + max s.node.rUp 1)) ∧
      (t.demand < s.dLim → t.dLim = max t.demand (s.dLim - max s.node.rDn 1)) ∧
      (t.demand = s.dLim → t.dLim = s.dLim)) ∧
    t = (State.kindSources s.kinds
      (State.evaluate { s with controlTimer := some (s.now + s.node.controlPeriod * 1000000) })).handOff.settle) ∧
  (∀ (k : Kind) (s : State), (s.kind k).holdTimer.isSome = true →
    ∃ t, exec (.kindHoldExpiry k) s = .next t ∧
      t.still = (s.setKind k { s.kind k with status := .failed, holdTimer := none }).still ∧
      ((s.kind k).status ≠ .failed →
        LatchEntry.CountedOnce (srcKindFailed k) s.stamp s.posA s.latch[srcKindFailed k] t.latch[srcKindFailed k])) ∧
  (∀ s : State,
    ((∀ vt, s.jetDirective ≠ .velocity vt) → s.evaluate.u = s.u ∧ s.renew = s.handOff) ∧
    ∀ vt : Int, s.jetDirective = .velocity vt →
      (∀ l r : Int, s.evaluate.kinds.vel.status = .ok ∨ s.evaluate.kinds.vel.status = .degraded →
        s.evaluate.kinds.vel.level = some l → r = max (s.node.rUp : Int) 1 →
        s.evaluate.u =
          max (-1000) (min 1000 (s.u + max (-r) (min r (((s.node.kp : Int) * (vt - l)).tdiv 256))))) ∧
      (s.evaluate.kinds.vel.status = .failed ∨ s.evaluate.kinds.vel.status = .unused → s.evaluate.u = s.u) ∧
      s.renew = State.handOff
        { s with
          u := if s.fans[jet1].available = true then s.fans[jet1].handed.signed
            else if s.fans[jet2].available = true then s.fans[jet2].handed.signed else 0 }) ∧
  (∀ c : Cmd, c.signed = if c.dir = some .forward then (c.mag : Int) else if c.dir = some .reverse then -c.mag else 0) ∧
  (∀ s : State, (∀ f : FanId, f ≠ passage →
      (s.fans[f].available = false → s.jetCommand f = {}) ∧
      (s.fans[f].available = true → ∃ c : Cmd,
        s.jetDirective.Asks s f (if f = jet1 ∨ s.fans[jet1].available = false then 0 else s.fans[f].cfg.stageOffset) c ∧
        s.jetCommand f = if c.mag = 0 ∨ c.mag < s.fans[f].leastRun c.dir then {} else c) ∧
      s.handOff.fans[f] =
        Fan.takeRequest s.now (if s.jetsHeld then {} else s.jetCommand f)
          (s.fans[f].cfg.dutyOf (s.jetCommand f).mag)
          { s.fans[f] with handed := s.jetCommand f, handedDuty := s.fans[f].cfg.dutyOf (s.jetCommand f).mag } ∧
      (s.reformJet f).fans[f] =
        s.fans[f].takeRequest s.now
          (if s.jetsHeld ∨ s.fans[f].available = false ∨ s.fans[f].handed.mag < s.fans[f].leastRun s.fans[f].handed.dir
            then {} else s.fans[f].handed) s.fans[f].handedDuty) ∧
    s.handOff.fans[passage] =
      Fan.takeRequest s.now (if s.passageRuns then ⟨s.fans[passage].cfg.passageSpeed, some .forward⟩ else {})
        (s.fans[passage].cfg.dutyOf s.fans[passage].cfg.passageSpeed)
        { s.fans[passage] with
          handed := ⟨s.fans[passage].cfg.passageSpeed, some .forward⟩
          handedDuty := s.fans[passage].cfg.dutyOf s.fans[passage].cfg.passageSpeed } ∧
    s.handOff = { s with fans := s.handOff.fans } ∧
    ∀ m : Nat, m = (if s.fans[passage].handed.mag = 0 then s.fans[passage].cfg.passageSpeed
        else s.fans[passage].handed.mag) →
      s.reformPassage = s.setFan passage (s.fans[passage].takeRequest s.now
        (if s.passageRuns then ⟨m, some .forward⟩ else {}) (s.fans[passage].cfg.dutyOf m))) ∧
  (∀ (c : FanCfg) (m lo hi : Nat), lo = min c.dMin c.tp → hi = max (min c.dMax c.tp) lo →
    c.dutyOf 0 = 0 ∧ (0 < m → lo ≤ c.dutyOf m ∧ 2 * 1000 * (c.dutyOf m - lo) ≤ 2 * (m * (hi - lo)) + 1000 ∧
      2 * (m * (hi - lo)) + 1000 < 2 * 1000 * (c.dutyOf m - lo + 1))) ∧
  (∀ (now duty : Nat) (c : Cmd) (F G : Fan),
    G = { F with request := if c.mag = 0 then {} else c, heldDuty := if c.mag = 0 then 0 else duty } →
    (F.state = .stopped →
      (∀ d, G.wants d = true → F.takeRequest now c duty = G.started now d) ∧
      ((∀ d, G.wants d = false) → F.takeRequest now c duty = G)) ∧
    (∀ d, F.state = .stopping (some d) →
      (G.wants d = true → F.takeRequest now c duty = G.started now d) ∧
      (G.wants d = false → F.takeRequest now c duty = G)) ∧
    (F.state = .stopping none ∨ F.state = .fault ∨ F.state = .disabled → F.takeRequest now c duty = G) ∧
    (∀ d, F.runDir = some d →
      (G.wants d = false → F.takeRequest now c duty =
        { G with
          state := .stopping (some d), duty := 0, pendingDuty := 0, startTimer := none, stallTimer := none
          dwellTimer := some (now + F.cfg.coastDwell * 1000000) }) ∧
      (G.wants d = true → F.takeRequest now c duty =
        { G with
          pendingDuty := F.cfg.bounded duty
          stallTimer :=
            if F.state = .starting d then F.stallTimer
            else if F.speed * 100 < c.mag * F.cfg.stallRatio then
              some (F.stallTimer.getD (now + F.cfg.stallTime * 1000000))
            else none })))

/-! ### Fans (chapter 6) -/

/-- A channel after the tests of a speed change event, `F` being the channel with the new speed (R108 to R110): the
confirmation in STARTING, the stall test in RUNNING, and in STOPPING with the dwell timer expired the still test. -/
structure Sys2Proof.Machine.SpeedTested (now : Nat) (F G : Fan) : Prop where
  starting : ∀ d, F.state = .starting d → G =
    if F.speed < F.cfg.confirmSpeed then F
    else
      { F with
        state := .running d, startTimer := none
        stallTimer := if F.speed * 100 < F.request.mag * F.cfg.stallRatio then
          some (F.stallTimer.getD (now + F.cfg.stallTime * 1000000)) else none }
  running : ∀ d, F.state = .running d → G =
    { F with
      stallTimer := if F.speed * 100 < F.request.mag * F.cfg.stallRatio then
        some (F.stallTimer.getD (now + F.cfg.stallTime * 1000000)) else none }
  coasting : ∀ x, F.state = .stopping x →
    (F.dwellTimer.isSome = true ∨ F.cfg.stillThreshold < F.speed → G = F) ∧
    (F.dwellTimer = none → F.speed ≤ F.cfg.stillThreshold →
      (∀ d, F.wants d = true → G = F.started now d) ∧
      ((∀ d, F.wants d = false) → G = { F with state := .stopped }))
  others : F.state = .stopped ∨ F.state = .fault ∨ F.state = .disabled → G = F

/-- An accepted edge starts the capture timer with 1 s, and with a last edge of its polarity puts a new period into the pair
(R102); two periods of mean p above 0 give the speed min(floor(rated period × 1000 / p), 2000) (R103). The capture timer's
expiry, an overflow, empties the pair and makes the speed 0 (R102); with the timer stopped, as before the first edge (log
entry 28), it does nothing. A changed speed is tested by the channel's state (R108, R109, R110), an unchanged one is not (log
entry 11); a request held until STOPPED starts with the duty that came with it (R107), kept between the bounds (log entry 17).
A period start takes the pending duty and period, and the speed reference is high while the period's count is below the duty,
throughout when the duty is the period (R101). No other channel changes (R118). -/
def Obligations.TachsAreMeasured : Prop :=
  (∀ (f : FanId) (e : Edge) (s : State), ∃ t, exec (.tachEdge f e) s = .next t ∧
    t.fans[f].captureTimer = some (s.now + 1000000) ∧
    (e = .rising → t.fans[f].lastRise = some s.now ∧ t.fans[f].lastFall = s.fans[f].lastFall) ∧
    (e = .falling → t.fans[f].lastFall = some s.now ∧ t.fans[f].lastRise = s.fans[f].lastRise) ∧
    (∀ u, (if e = .rising then s.fans[f].lastRise else s.fans[f].lastFall) = some u →
      t.fans[f].pNew = some (s.now - u) ∧ t.fans[f].pPrev = s.fans[f].pNew) ∧
    ((if e = .rising then s.fans[f].lastRise else s.fans[f].lastFall) = none →
      t.fans[f].pNew = s.fans[f].pNew ∧ t.fans[f].pPrev = s.fans[f].pPrev) ∧
    (t.fans[f].pNew = none ∨ t.fans[f].pPrev = none → t.fans[f].speed = 0) ∧
    (∀ a b, t.fans[f].pNew = some a → t.fans[f].pPrev = some b → 2 ≤ a + b →
      t.fans[f].speed = min (s.fans[f].cfg.ratedPeriod * 1000 / ((a + b) / 2)) 2000) ∧
    (∀ F : Fan, F =
      { s.fans[f] with
        captureTimer := t.fans[f].captureTimer, lastRise := t.fans[f].lastRise, lastFall := t.fans[f].lastFall
        pNew := t.fans[f].pNew, pPrev := t.fans[f].pPrev, speed := t.fans[f].speed } →
      (t.fans[f].speed = s.fans[f].speed → t.fans[f] = F) ∧
      (t.fans[f].speed ≠ s.fans[f].speed → SpeedTested s.now F t.fans[f])) ∧
    (∀ g : FanId, g ≠ f → t.fans[g] = s.fans[g]) ∧
    t = { s with fans := t.fans, freeCount := t.freeCount }) ∧
  (∀ (f : FanId) (s : State),
    (s.fans[f].captureTimer = none → exec (.tachOverflow f) s = .next s) ∧
    (s.fans[f].captureTimer.isSome = true → ∃ t, exec (.tachOverflow f) s = .next t ∧
      (∀ F : Fan, F =
        { s.fans[f] with
          captureTimer := none, lastRise := none, lastFall := none, pNew := none, pPrev := none, speed := 0 } →
        (s.fans[f].speed = 0 → t.fans[f] = F) ∧ (s.fans[f].speed ≠ 0 → SpeedTested s.now F t.fans[f])) ∧
      (∀ g : FanId, g ≠ f → t.fans[g] = s.fans[g]) ∧ t = { s with fans := t.fans })) ∧
  (∀ (f : FanId) (s : State), exec (.periodStart f) s = .next (s.setFan f
    { s.fans[f] with duty := s.fans[f].pendingDuty, tp := s.fans[f].pendingTp, pwmCount := 0 })) ∧
  (∀ F : Fan, (F.duty = 0 → F.speedRef = false) ∧ (0 < F.duty → F.duty = F.tp → F.speedRef = true) ∧
    (F.duty < F.tp → F.speedRef = decide (F.pwmCount < F.duty)))

/-- The start timer's expiry and the stall timer's take a channel to FAULT: outputs off, duty 0 at once, timers stopped, and an
occurrence of its fault source (R108, R109, R111). The dwell timer's expiry lets a channel in STOPPING reach STOPPED when its
speed is at or below the still threshold, and serves the request it holds (R110, R107), confirmed at once where the speed
confirms it (R108), with the duty that came with the request (R107), kept between the bounds (log entry 17). -/
def Obligations.FanTimersAct : Prop :=
  (∀ (f : FanId) (s : State) (c : Instr),
    (c = .startTimerExpiry f ∧ s.fans[f].startTimer.isSome = true) ∨
      (c = .stallTimerExpiry f ∧ s.fans[f].stallTimer.isSome = true) →
    ∃ t, exec c s = .next t ∧ t.fans[f].state = .fault ∧ t.fans[f].duty = 0 ∧ t.fans[f].pendingDuty = 0 ∧
      t.fans[f].startTimer = none ∧ t.fans[f].stallTimer = none ∧ t.fans[f].dwellTimer = none ∧
      LatchEntry.CountedOnce (srcFanFault f) s.stamp s.posA s.latch[srcFanFault f] t.latch[srcFanFault f] ∧
      t.still = s.still) ∧
  (∀ (f : FanId) (s : State) (x : Option Direction), s.fans[f].dwellTimer.isSome = true →
    s.fans[f].state = .stopping x →
    (s.fans[f].cfg.stillThreshold < s.fans[f].speed →
      exec (.dwellTimerExpiry f) s = .next (s.setFan f { s.fans[f] with dwellTimer := none })) ∧
    (s.fans[f].speed ≤ s.fans[f].cfg.stillThreshold → s.fans[f].request.mag = 0 →
      exec (.dwellTimerExpiry f) s = .next (s.setFan f { s.fans[f] with state := .stopped, dwellTimer := none })) ∧
    (∀ d, s.fans[f].speed ≤ s.fans[f].cfg.stillThreshold → s.fans[f].wants d = true →
      exec (.dwellTimerExpiry f) s = .next (s.setFan f (s.fans[f].started s.now d))))

/-- The isolator input's level that differs from the isolator state begins the 20 ms, the state's own level ends them (R100);
at their end an opened isolator disables its channel, clears its fault source and counts its isolation source, and a closed one
leads to STOPPING with the last direction, from where a request held in that direction starts at once (R110, R113), with the
duty that came with it (R107), kept between the bounds (log entry 17). -/
def Obligations.IsolatorsDisableAChannel : Prop :=
  (∀ (f : FanId) (isOpen : Bool) (s : State),
    exec (.isolatorInputChange f isOpen) s = .next
      { s.setFan f
          { s.fans[f] with
            isoTimer :=
              if isOpen = s.fans[f].isoOpen then none
              else some (s.fans[f].isoTimer.getD (s.now + 20000)) } with
        pins := { s.pins with isolatorOpen := s.pins.isolatorOpen.set f isOpen } }) ∧
  (∀ (f : FanId) (s : State), s.fans[f].isoTimer.isSome = true → s.fans[f].isoOpen = false →
    ∃ t, exec (.isolatorAccepted f) s = .next t ∧ t.fans[f].state = .disabled ∧ t.fans[f].isoOpen = true ∧
      t.fans[f].duty = 0 ∧ t.fans[f].pendingDuty = 0 ∧ t.fans[f].startTimer = none ∧
      t.fans[f].stallTimer = none ∧ t.fans[f].dwellTimer = none ∧ t.latch[srcFanFault f].asserted = false ∧
      LatchEntry.CountedOnce (srcIsolated f) s.stamp s.posA s.latch[srcIsolated f] t.latch[srcIsolated f] ∧
      t.still = s.still) ∧
  (∀ (f : FanId) (s : State), s.Settled → s.fans[f].isoTimer.isSome = true → s.fans[f].isoOpen = true →
    (∀ c ∈ s.stack, c.source ≠ srcIsolated f) → s.planValid srcOverrun = false →
    (∀ d, s.fans[f].lastDir = some d → s.fans[f].wants d = false) →
    ∃ t, exec (.isolatorAccepted f) s = .next t ∧
      t.fans[f] =
        { s.fans[f] with
          state := .stopping s.fans[f].lastDir, isoOpen := false, isoTimer := none, duty := 0, pendingDuty := 0
          startTimer := none, stallTimer := none
          dwellTimer := some (s.now + s.fans[f].cfg.coastDwell * 1000000) } ∧
      t.latch[srcIsolated f].asserted = false ∧ t.still = s.still) ∧
  (∀ (f : FanId) (d : Direction) (s : State), s.Settled → s.fans[f].isoTimer.isSome = true → s.fans[f].isoOpen = true →
    (∀ c ∈ s.stack, c.source ≠ srcIsolated f) → s.planValid srcOverrun = false →
    s.fans[f].lastDir = some d → s.fans[f].wants d = true →
    ∃ t, exec (.isolatorAccepted f) s = .next t ∧
      t.fans[f] = Fan.started s.now d { s.fans[f] with isoOpen := false, isoTimer := none } ∧
      t.latch[srcIsolated f].asserted = false ∧ t.still = s.still)

/-! ### Doors (chapter 7) -/

/-- A raw change of a door input begins or ends its debounce interval, with the node clock as the candidate time, and leaves
the last edge time; at its end the level is accepted with the candidate time as the last edge time (R120). A SECURED door
whose bar is pressed is RELEASED(EGRESS) with its egress timer started, one that opens is OPEN(FORCED) with its hold timer
started, and either is an occurrence of the egress source (R124), which launches no plan here. A RELEASED door that opens is
OPEN with its cause, and a RELOCKING one OPEN(EGRESS), the hold timer started and no occurrence made (R125, R129); a bar
pressed on a RELEASED door starts its egress timer anew (R125), on a RELOCKING one it is the SECURED door's press (R129). An
OPEN or HELD door that closes is RELEASED where release is required, its egress timer running where its bar is pressed (log
entry 13), else RELOCKING, and a HELD door's source clears (R128, R129). -/
def Obligations.DoorInputsAreDebounced : Prop :=
  (∀ (d : DoorId) (i : DoorInput) (level : Bool) (s : State),
    ∃ t, exec (.doorInputChange d i level) s = .next t ∧
      t.pins = { s.pins with door := s.pins.door.set d (s.pins.door[d].setLevel i level) } ∧
      t = { s.setDoor d t.doors[d] with pins := t.pins } ∧
      t.doors[d] = s.doors[d].setInput i (t.doors[d].input i) ∧
      (t.doors[d].input i).level = (s.doors[d].input i).level ∧
      (t.doors[d].input i).lastEdge = (s.doors[d].input i).lastEdge ∧
      (level = (s.doors[d].input i).level →
        (t.doors[d].input i).timer = none ∧ (t.doors[d].input i).candidate = none) ∧
      (level ≠ (s.doors[d].input i).level → (s.doors[d].input i).timer = none →
        (t.doors[d].input i).timer = some (s.now + s.doors[d].cfg.debounce * 1000) ∧
        (t.doors[d].input i).candidate = some s.stamp) ∧
      (level ≠ (s.doors[d].input i).level → (s.doors[d].input i).timer.isSome = true →
        t.doors[d].input i = s.doors[d].input i)) ∧
  (∀ (d : DoorId) (i : DoorInput) (s : State), (s.doors[d].input i).timer.isSome = true →
    ∃ t, exec (.doorDebounceExpiry d i) s = .next t ∧
      t.doors[d].input i =
        { level := !(s.doors[d].input i).level, candidate := none, timer := none
          lastEdge := (s.doors[d].input i).candidate } ∧
      t.still = s.still) ∧
  (∀ (d : DoorId) (s : State), s.Settled → s.doors[d].state = .secured → s.planValid (srcEgress d) = false →
    s.planValid srcOverrun = false →
    (s.doors[d].pushBar.level = false → s.doors[d].pushBar.timer.isSome = true →
      ∃ t, exec (.doorDebounceExpiry d .pushBar) s = .next t ∧ t.doors[d].state = .released .egress ∧
        t.doors[d].egressTimer = some (s.now + s.doors[d].cfg.egressTime * 1000000) ∧
        LatchEntry.CountedOnce (srcEgress d) s.stamp s.posA s.latch[srcEgress d] t.latch[srcEgress d]) ∧
    (s.doors[d].closed.level = true → s.doors[d].closed.timer.isSome = true →
      ∃ t, exec (.doorDebounceExpiry d .closed) s = .next t ∧ t.doors[d].state = .opened .forced ∧
        t.doors[d].holdTimer = some (s.now + s.doors[d].cfg.holdLimit * 1000000) ∧
        LatchEntry.CountedOnce (srcEgress d) s.stamp s.posA s.latch[srcEgress d] t.latch[srcEgress d])) ∧
  (∀ (d : DoorId) (s : State), s.Settled → s.DoorLaw → s.doors[d].closed.level = true →
    s.doors[d].closed.timer.isSome = true → ∀ cause : OpenCause,
    (∃ c, s.doors[d].state = .released c ∧ cause = if c = .policy then .policy else .egress) ∨
      (s.doors[d].state = .relocking ∧ cause = .egress) →
    ∃ t, exec (.doorDebounceExpiry d .closed) s = .next t ∧ t.doors[d].state = .opened cause ∧
      t.doors[d].holdTimer = some (s.now + s.doors[d].cfg.holdLimit * 1000000) ∧ t.doors[d].egressTimer = none ∧
      t.doors[d].relockTimer = none ∧ t.doors[d].holdExpired = false ∧ t.latch = s.latch ∧ t.stack = s.stack) ∧
  (∀ (d : DoorId) (s : State), s.Settled → s.DoorLaw → s.doors[d].pushBar.level = false →
    s.doors[d].pushBar.timer.isSome = true →
    (∀ c, s.doors[d].state = .released c →
      ∃ t, exec (.doorDebounceExpiry d .pushBar) s = .next t ∧ t.latch = s.latch ∧ t.stack = s.stack ∧
        t.doors[d].state = .released c ∧
        t.doors[d].egressTimer = some (s.now + s.doors[d].cfg.egressTime * 1000000)) ∧
    (s.doors[d].state = .relocking → s.planValid (srcEgress d) = false → s.planValid srcOverrun = false →
      ∃ t, exec (.doorDebounceExpiry d .pushBar) s = .next t ∧ t.doors[d].state = .released .egress ∧
        t.doors[d].egressTimer = some (s.now + s.doors[d].cfg.egressTime * 1000000) ∧
        t.doors[d].relockTimer = none ∧
        LatchEntry.CountedOnce (srcEgress d) s.stamp s.posA s.latch[srcEgress d] t.latch[srcEgress d])) ∧
  (∀ (d : DoorId) (s : State), s.Settled → s.DoorLaw → (∀ c ∈ s.stack, c.source ≠ srcHeld d) →
    s.planValid srcOverrun = false → s.doors[d].closed.timer.isSome = true →
    (∃ c, s.doors[d].state = .opened c) ∨ s.doors[d].state = .held →
    ∃ t, exec (.doorDebounceExpiry d .closed) s = .next t ∧ t.stack = s.stack ∧
      t.doors[d].holdTimer = none ∧ t.doors[d].holdExpired = false ∧
      (s.doors[d].state = .held → t.latch[srcHeld d].asserted = false) ∧
      (s.nodeState ≠ .starting → s.doors[d].policy = .normal → s.doors[d].pushBar.level = false →
        t.doors[d].state = .relocking ∧ t.doors[d].egressTimer = none ∧
        t.doors[d].relockTimer = some (s.now + s.doors[d].cfg.relockDelay * 1000000)) ∧
      (s.nodeState = .starting ∨ s.doors[d].policy ≠ .normal ∨ s.doors[d].pushBar.level = true →
        t.doors[d].state = .released
          (if s.nodeState = .starting ∨ s.doors[d].policy ≠ .normal then .policy else .egress) ∧
        t.doors[d].relockTimer = none ∧
        t.doors[d].egressTimer =
          if s.doors[d].pushBar.level = true then some (s.now + s.doors[d].cfg.egressTime * 1000000) else none))

/-- The egress timer restarts while the bar is pressed, else a door that nothing else releases is SECURED (R126); the hold
timer takes an OPEN door to HELD, or marks it under HOLD_OPEN (R127); the relock timer takes a RELOCKING door to SECURED
(R129); the feedback timer takes a door to FAULT (R130); a lamp match toggles LAMP and moves the compare value on (R133). What
follows a change of the stack takes the lamp mode of the ACTIVE context's step, OFF with an empty stack: LAMP goes off, or on,
with the lamp timer stopped, or enters FLASH, on with the first match a half period ahead; a mode that stays FLASH changes
neither (R133). -/
def Obligations.DoorTimersAct : Prop :=
  (∀ (d : DoorId) (s : State), s.Settled → s.DoorLaw → s.doors[d].egressTimer.isSome = true →
    ∃ t, exec (.egressTimerExpiry d) s = .next t ∧ t.latch = s.latch ∧ t.stack = s.stack ∧
      (s.doors[d].pushBar.level = true →
        t.doors[d] =
          { s.doors[d] with egressTimer := some (s.now + s.doors[d].cfg.egressTime * 1000000) }) ∧
      (s.doors[d].pushBar.level = false → s.nodeState ≠ .starting → s.doors[d].policy = .normal →
        t.doors[d].state = .secured ∧ t.doors[d].lockDrive = true ∧ t.doors[d].egressTimer = none) ∧
      (s.doors[d].pushBar.level = false → s.nodeState = .starting ∨ s.doors[d].policy ≠ .normal →
        t.doors[d].state = .released .policy ∧ t.doors[d].egressTimer = none)) ∧
  (∀ (d : DoorId) (s : State), s.Settled → s.DoorLaw → s.doors[d].holdTimer.isSome = true →
    (s.doors[d].policy = .holdOpen →
      exec (.holdTimerExpiry d) s = .next (s.setDoor d { s.doors[d] with holdTimer := none, holdExpired := true })) ∧
    (s.doors[d].policy ≠ .holdOpen → s.planValid (srcHeld d) = false → s.planValid srcOverrun = false →
      ∃ t, exec (.holdTimerExpiry d) s = .next t ∧
        t.doors[d] = { s.doors[d] with state := .held, holdTimer := none, holdExpired := false } ∧
        LatchEntry.CountedOnce (srcHeld d) s.stamp s.posA s.latch[srcHeld d] t.latch[srcHeld d])) ∧
  (∀ (d : DoorId) (s : State), s.Settled → s.DoorLaw → s.doors[d].relockTimer.isSome = true →
    ∃ t, exec (.relockTimerExpiry d) s = .next t ∧ t.latch = s.latch ∧ t.stack = s.stack ∧
      t.doors[d].state = .secured ∧ t.doors[d].lockDrive = true ∧ t.doors[d].relockTimer = none) ∧
  (∀ (d : DoorId) (s : State), s.doors[d].feedbackTimer.isSome = true → s.doors[d].state ≠ .fault →
    ∃ t, exec (.feedbackTimerExpiry d) s = .next t ∧ t.doors[d].state = .fault ∧ t.doors[d].lockDrive = false ∧
      t.doors[d].operatorDrive = false ∧ t.doors[d].egressTimer = none ∧ t.doors[d].holdTimer = none ∧
      t.doors[d].relockTimer = none ∧ t.doors[d].feedbackTimer = none ∧ t.doors[d].holdExpired = false ∧
      LatchEntry.CountedOnce (srcDoorFault d) s.stamp s.posA s.latch[srcDoorFault d] t.latch[srcDoorFault d] ∧
      t.still = s.still) ∧
  (∀ (d : DoorId) (s : State) (u : Nat), s.doors[d].lampTimer = some u →
    exec (.lampCompareMatch d) s = .next (s.setDoor d
      { s.doors[d] with lamp := !s.doors[d].lamp, lampTimer := some (u + s.doors[d].cfg.flashHalf * 1000) })) ∧
  (∀ s : State, (s.stack = [] → s.lampDirective = .off) ∧
    (∀ c, s.active = some c → s.lampDirective = s.plan[c.step].lamp) ∧
    s.afterStackChange.lampMode = s.lampDirective ∧
    ∀ (d : DoorId) (D : Door), D = s.afterStackChange.doors[d] →
      (s.lampDirective = .off → D.lamp = false ∧ D.lampTimer = none) ∧
      (s.lampDirective = .steady → D.lamp = true ∧ D.lampTimer = none) ∧
      (s.lampDirective = .flash → s.lampMode = .flash →
        D.lamp = s.doors[d].lamp ∧ D.lampTimer = s.doors[d].lampTimer) ∧
      (s.lampDirective = .flash → s.lampMode ≠ .flash →
        D.lamp = true ∧ D.lampTimer = some (s.now + s.doors[d].cfg.flashHalf * 1000)))

/-! ### Sources and plans (chapters 8 and 9) -/

/-- The call point input is debounced with 20 ms; its accepted level is the state of CALL_POINT (R137). A source's occurrence
counts and makes an IDLE entry PENDING, owing a decision, when its plan step is valid (R141); its clearing makes the entry no
longer asserted and IDLE unless SERVED, and gives a step that awaits it its clear seen mark (R143, R161). With its report flag
set each sends an EVENT frame of the count, class, effective level, step and time as they stand then (R147, R148); said of ports
with room, where it waits in its local queue. -/
def Obligations.TheCallPointIsDebounced : Prop :=
  (∀ (active : Bool) (s : State),
    exec (.callPointInputChange active) s = .next
      { s with
        pins := { s.pins with callPoint := active }
        callTimer := if active = s.callPoint then none else some (s.callTimer.getD (s.now + 20000)) }) ∧
  (∀ s : State, s.callTimer.isSome = true →
    ∃ t, exec .callPointAccepted s = .next t ∧ t.callPoint = (!s.callPoint) ∧ t.callTimer = none ∧
      t.still = { s.still with callPoint := !s.callPoint, callTimer := none } ∧
      (s.callPoint = false →
        LatchEntry.CountedOnce srcCallPoint s.stamp s.posA s.latch[srcCallPoint] t.latch[srcCallPoint] ∧
        t = (State.occurFrom { s with callPoint := true, callTimer := none } srcCallPoint s.posA).settle) ∧
      (s.callPoint = true → t.latch[srcCallPoint].asserted = false ∧
        t = (State.clearWithCode { s with callPoint := false, callTimer := none } srcCallPoint 0x03E0).settle)) ∧
  (∀ (s : State) (n : EntryId) (kind : Transition) (code : Word) (i : Option (Fin 64)), (s.sourceCfg n).level ≤ 7 →
    s.eventFrame n kind code i = .event
      { origin := BitVec.ofNat 8 s.posA, transition := kind, code := code, count := s.latch[n].count
        cls := (s.sourceCfg n).cls
        level := BitVec.ofNat 8 (if (s.sourceCfg n).cls = .life then 7 else max 1 (min 6 (s.sourceCfg n).level))
        step := BitVec.ofNat 8 (i.elim 255 Fin.val), clock := s.clock, flag := if s.clockSet then 2 else 1 }) ∧
  (∀ (s : State) (n : EntryId), (n.val < 35 → s.sourceCode n = BitVec.ofNat 16 (32 * (n.val + 1))) ∧
    ∀ i : Fin 16, n = srcLine i → s.sourceCode n = s.lines[i].code) ∧
  (∀ (s t : State) (n : EntryId) (origin : Nat), s.Roomy → t = s.occurFrom n origin →
    LatchEntry.CountedOnce n s.stamp origin s.latch[n] t.latch[n] ∧
    t.latch[n].serve = (if s.latch[n].serve = .idle ∧ s.planValid n = true then .pending else s.latch[n].serve) ∧
    (∀ p, t.port p =
      if (s.sourceCfg n).report = true then (s.port p).waits s.now (s.occurredFrame n) else s.port p) ∧
    t =
      { s with
        ports := t.ports, latch := s.latch.set n t.latch[n]
        decisionDue := s.decisionDue || decide (s.latch[n].serve = .idle ∧ s.planValid n = true) }) ∧
  (∀ (s t : State) (n : EntryId) (code : Word), s.Roomy → t = s.clearWithCode n code →
    (s.latch[n].asserted = false → t = s) ∧
    (s.latch[n].asserted = true →
      t.latch[n] =
        { s.latch[n] with asserted := false, serve := if s.latch[n].serve = .served then .served else .idle } ∧
      (∀ p, t.port p =
        if (s.sourceCfg n).report = true then
          (s.port p).waits s.now (s.eventFrame n .cleared code (s.sourceCfg n).step)
        else s.port p) ∧
      t =
        { s with
          ports := t.ports, latch := s.latch.set n t.latch[n]
          stack := s.stack.map fun c => if c.source = n ∧ c.waiting = true then { c with clearSeen := true } else c }))

/-- The context `d` has entered step `i` at `s` (R159): its clear seen mark is no, its timer is set by the step's end condition
(R160, R161), and under HOLD_LAST, and else not, it holds the jets' last commands (R89, R93). -/
structure Sys2Proof.Machine.StepEntered (s : State) (i : Fin 64) (d : Context) : Prop where
  step : d.step = i
  unseen : d.clearSeen = false
  timed : s.plan[i].endCond = .timer →
    d.waiting = false ∧ d.timer = .running (s.now + max s.plan[i].duration 1 * 1000000)
  awaits : s.plan[i].endCond = .sourceClear → isLevel d.source = true → s.latch[d.source].asserted = true →
    d.waiting = true ∧
      d.timer = if s.plan[i].duration = 0 then .none else .running (s.now + s.plan[i].duration * 1000000)
  cleared : s.plan[i].endCond = .sourceClear → isLevel d.source = false ∨ s.latch[d.source].asserted = false →
    d.waiting = false ∧ d.timer = .running (s.now + max s.plan[i].duration 1 * 1000000)
  untimed : s.plan[i].endCond = .held → d.waiting = false ∧ d.timer = .none
  captured : d.captured = if s.plan[i].jet = .holdLast then some (s.fans[jet1].handed, s.fans[jet2].handed) else none

/-- The winner of a decision is an eligible entry of the highest effective level, the first such, and there is one whenever an
entry is eligible; eligible means PENDING above CL, and of class LIFE, or above M with no launch hold running in OPERATING
(R153). An event that owes a decision launches the winner, the change of the stack follows, and decisions go on until no entry
is eligible (R154). Its launch makes it SERVED and the ACTIVE context, with its level, class and origin, entering the step its
entry names (R159), saves the contexts below, the newest with its step timer frozen (R157; that the remaining time is rounded
up is log entry 16's), and starts the launch hold (R157); a drop for room counts PLAN_DROPPED and leaves the dropped context's
entry PENDING when its level source is still asserted with a valid step, else IDLE, from where PLAN_DROPPED's own occurrence
takes PLAN_DROPPED (R144, R158); the frames LAUNCHED and, when a context is dropped for room, DROPPED before it with the
report of PLAN_DROPPED, and last the step's spread, go out in that order (R147, R157 to R159), said of ports with room. -/
def Obligations.AcceptanceLaunchesTheHighest : Prop :=
  (∀ (s : State) (n : EntryId) (i : Fin 64), s.accepted = some (n, i) →
    (s.sourceCfg n).step = some i ∧ s.latch[n].serve = .pending ∧ s.currentLevel < s.effLevel n ∧
    (s.effClass n = .life ∨ (s.mask < s.effLevel n ∧ s.launchHold = none ∧ s.nodeState = .operating)) ∧
    ∀ m : EntryId, s.latch[m].serve = .pending → s.currentLevel < s.effLevel m →
      (s.effClass m = .life ∨ (s.mask < s.effLevel m ∧ s.launchHold = none ∧ s.nodeState = .operating)) →
      s.effLevel m < s.effLevel n ∨ (s.effLevel m = s.effLevel n ∧ n ≤ m)) ∧
  (∀ (s : State) (m : EntryId), s.LoadLaw → s.latch[m].serve = .pending → s.currentLevel < s.effLevel m →
    (s.effClass m = .life ∨ (s.mask < s.effLevel m ∧ s.launchHold = none ∧ s.nodeState = .operating)) →
    ∃ n i, s.accepted = some (n, i)) ∧
  (∀ s : State, s.decisionDue = true → (∀ c, s.active = some c → c.clearSeen = false) →
    (s.accepted = none → s.settle = { s with decisionDue := false }) ∧
    (∀ n i, s.accepted = some (n, i) →
      s.settle = { State.decideN 7 (s.launch n i).afterStackChange with decisionDue := false }) ∧
    (s.ConfigLaw → s.settle.accepted = none)) ∧
  (∀ (k : Nat) (s : State), (s.accepted = none → State.decideN k s = s) ∧
    ∀ n i, s.accepted = some (n, i) → State.decideN (k + 1) s = State.decideN k (s.launch n i).afterStackChange) ∧
  (∀ (s : State) (n : EntryId) (i : Fin 64), n ≠ srcOverrun → n ≠ srcPlanDropped → s.StackLaw →
    s.latch[n].serve = .pending →
    (s.launch n i).latch[n].serve = .served ∧
    ((s.launch n i).launchHold =
      if s.node.launchHold = 0 then none else some (s.now + s.node.launchHold * 1000)) ∧
    (s.stack = [] → (s.launch n i).stack.tail = []) ∧
    (∀ (a : Context) (rest : List Context), s.stack = a :: rest →
      (s.launch n i).stack.tail = ({ a with timer := a.timer.freeze s.now } :: rest).take 2) ∧
    ∃ c, (s.launch n i).active = some c ∧ c.source = n ∧ StepEntered s i c ∧ c.level = s.effLevel n ∧
      c.cls = s.effClass n ∧ c.origin = s.latch[n].origin ∧ c.entry = s.stamp ∧
      (s.stack.length = 3 → ∃ d, (s.launch n i).dropped = some (d, s.stamp) ∧ s.stack.getLast? = some d)) ∧
  (∀ now t : Nat, (StepTimer.running t).freeze now = .frozen ((t - now + 999) / 1000) ∧ StepTimer.none.freeze now = .none) ∧
  (∀ (s : State) (n : EntryId) (i : Fin 64) (d : Context), n ≠ srcOverrun → n ≠ srcPlanDropped → s.StackLaw →
    s.latch[n].serve = .pending → s.stack.length = 3 → s.stack.getLast? = some d →
    LatchEntry.CountedOnce srcPlanDropped s.stamp s.posA s.latch[srcPlanDropped] (s.launch n i).latch[srcPlanDropped] ∧
    (d.source ≠ srcOverrun ∨ s.Roomy →
      (s.launch n i).latch[d.source].serve =
        if s.planValid d.source = true ∧
            (d.source = srcPlanDropped ∨ (isLevel d.source = true ∧ s.latch[d.source].asserted = true))
          then Serve.pending else .idle)) ∧
  (∀ (s : State) (n : EntryId) (i : Fin 64) (p : Port) (L : Frame), n ≠ srcPlanDropped → s.Roomy →
    L = s.eventFrame n .launched (s.sourceCode n) (some i) →
    (s.stack.length < 3 → (s.launch n i).port p = ((s.port p).waits s.now L).waitsSpread s i) ∧
    (∀ (d : Context) (D : Frame) (P : LinePort), s.stack.length = 3 → s.stack.getLast? = some d →
      D = s.eventFrame d.source .dropped (s.sourceCode d.source) (some d.step) →
      P = (s.port p).waits s.now D →
      (s.launch n i).port p =
        ((if (s.sourceCfg srcPlanDropped).report = true then P.waits s.now (s.occurredFrame srcPlanDropped)
          else P).waits s.now L).waitsSpread s i))

/-- The launch hold's expiry stops it and makes an acceptance decision (R154, R155); with no entry waiting nothing else
changes. A step timer's expiry takes the ACTIVE context into its valid next step, with the timer and the captured commands of
the entry, and its spread goes out (R159 to R161), or ends it, which its ENDED frame reports (R147, R160, R162, R163), both
said of ports with room. The newest saved context then resumes with its remaining time, or, with a kept end, moves on at once
as by a step's end (R160, R161, R163). The decision that an end owes (R154) is `settle`'s. -/
def Obligations.HoldAndStepTimersExpire : Prop :=
  (∀ s : State, s.Settled → s.launchHold.isSome = true → (∀ n : EntryId, s.latch[n].serve ≠ .pending) →
    exec .launchHoldExpiry s = .next { s with launchHold := none }) ∧
  (∀ s : State, s.launchHold.isSome = true →
    exec .launchHoldExpiry s = .next (State.settle { s with launchHold := none, decisionDue := true })) ∧
  (∀ now ms : Nat, (StepTimer.frozen ms).thaw now = .running (now + ms * 1000)) ∧
  (∀ (s : State) (c : Context) (rest : List Context) (deadline : Nat), s.stack = c :: rest →
    c.timer = .running deadline →
    exec .stepTimerExpiry s = .next s.endStep.afterStackChange.settle ∧
    (∀ j : Fin 64, s.plan[c.step].next = some j → s.plan[j].valid = true →
      ∃ d, s.endStep.stack = d :: rest ∧ d.source = c.source ∧ d.level = c.level ∧
        d.cls = c.cls ∧ d.origin = c.origin ∧ d.entry = c.entry ∧ StepEntered s j d) ∧
    ((∀ j : Fin 64, s.plan[c.step].next = some j → s.plan[j].valid = false) →
      s.endStep.afterStackChange.decisionDue = true ∧ (rest = [] → s.endStep.stack = []) ∧
      ∀ (d : Context) (more : List Context), rest = d :: more →
        (d.timer ≠ .frozen 0 → d.clearSeen = false →
          s.endStep.stack = { d with timer := d.timer.thaw s.now } :: more) ∧
        (d.timer = .frozen 0 ∨ d.clearSeen = true → s.endContext.stack = rest ∧ s.endStep = s.endContext.endStep)) ∧
    (s.Roomy → ∀ p : Port,
      (∀ j : Fin 64, s.plan[c.step].next = some j → s.plan[j].valid = true →
        s.endStep.port p = (s.port p).waitsSpread s j) ∧
      ((∀ j : Fin 64, s.plan[c.step].next = some j → s.plan[j].valid = false) →
        (∀ d, rest.head? = some d → d.endPending = false) →
        s.endStep.port p = (s.port p).waits s.now
          (s.eventFrame c.source .ended (s.sourceCode c.source) (some c.step)))))

/-! ### Stored image (chapter 11) -/

/-- A way of a set in a TAPLOCK record that holds a loadable entry: present 1, flag at most 1, a key of the set, one of the four
kinds (R72, R182). Words are numbered from the set's way, six to each. -/
def Sys2Proof.Machine.loadableWay (data : List Word) (set : Fin 32) (way : Fin 3) : Prop :=
  let w (k : Nat) : Nat := (data.getD (6 * (3 * set.val + way.val) + k) 0).toNat
  w 0 = 1 ∧ w 5 ≤ 1 ∧ 1 ≤ w 1 ∧ w 1 ≤ 254 ∧ w 2 ≤ 3 ∧ 1 ≤ w 3 ∧ w 3 ≤ 4 ∧ setIndex (w 1) (w 2) = set

/-- The origin and channel words of a stored way. -/
def Sys2Proof.Machine.storedKey (data : List Word) (set : Fin 32) (way : Fin 3) : Word × Word :=
  (data.getD (6 * (3 * set.val + way.val) + 1) 0, data.getD (6 * (3 * set.val + way.val) + 2) 0)

/-- A stored way that the load places: a loadable entry for a locked way, with a key that no way before it has (R72). -/
def Sys2Proof.Machine.placedWay (lock : Nat) (data : List Word) (set : Fin 32) (way : Fin 3) : Prop :=
  way.val < lock ∧ loadableWay data set way ∧
    ∀ v : Fin 3, v < way → loadableWay data set v → storedKey data set v ≠ storedKey data set way

/-- The load: a memory with no valid header ends it in LOCKOUT with STORE_ABSENT counted and the marks left as they stand, set
by the reset; a valid header leads to group 1, one of group count 0 ends the load with the locked ways empty (log entry 15),
and a start-locked word above 1 counts as 1 (log entry 21). A group whose record passes has its content taken, with WRITE's
clamps (log entry 14) and effects, and its mark clear. A TAPLOCK record fills each locked way with its entry, empty where it
has none to place, takes a placed key out of every other way, and sets the mark when a stored entry is not placed (R72). A
group whose record fails keeps its values, TAPLOCK its empty locked ways, sets its mark, puts its number in STATUS word 14,
and counts STORE_CORRUPT; then the next group is read, up to the header's count or group 15 (R183; log entry 15). What the
memory answers is the command's operand (log entry 8). The load ends in the event of its last read, with one acceptance
decision after both (log entry 34). -/
def Obligations.TheImageLoadTakesItsGroups : Prop :=
  (∀ (x : SerialAnswer) (s : State), s.Settled → s.loading = .header →
    (headerOf (s.serialRead x 0 5) = none →
      ∃ t, exec (.imageHeaderRead x) s = .next t ∧
        t.still = { s.still with loading := .done, nodeState := .lockout } ∧
        LatchEntry.CountedOnce srcStoreAbsent s.stamp s.posA s.latch[srcStoreAbsent] t.latch[srcStoreAbsent]) ∧
    (∀ locked n, headerOf (s.serialRead x 0 5) = some (locked, n) → 1 ≤ n →
      exec (.imageHeaderRead x) s = .next { s with loading := .group 0 locked n }) ∧
    (∀ locked, headerOf (s.serialRead x 0 5) = some (locked, 0) →
      ∃ t, exec (.imageHeaderRead x) s = .next t ∧
        t.still =
          { s.still with
            loading := .done, nodeState := if locked then NodeState.lockout else .operating, tap := t.tap } ∧
        ∀ i : Fin 128, t.tap[i] = if wayOf i < s.node.effLock then none else s.tap[i])) ∧
  (∀ (x : SerialAnswer) (s : State) (g : Fin 15) (locked : Bool) (n : Nat), s.loading = .group g locked n →
    ∃ t, exec (.imageGroupRead x) s = .next t ∧
      (∀ h : g.val + 1 < 15, g.val + 1 < n → t.loading = .group ⟨g.val + 1, h⟩ locked n ∧ t.nodeState = s.nodeState) ∧
      (g.val = 14 ∨ n ≤ g.val + 1 →
        t.loading = .done ∧ t.nodeState = if locked then NodeState.lockout else .operating) ∧
      (g.val < 14 → n ≤ g.val + 1 → ∀ i : Fin 128, wayOf i < t.node.effLock → t.tap[i] = none) ∧
      (∀ data, recordData g (s.serialRead x (placeOf g) (3 + dataLength g)) = some data →
        (∀ T first k, groupTable g = some (T, first, k) →
          SameConfig (s.loadEntries T first k data) t ∧ t.dirty[g] = false ∧ t.lastFailing = s.lastFailing ∧
          ∀ u : State, u = State.changed s (s.loadEntries T first k data) →
            t = (State.nextGroup { u with dirty := u.dirty.set g false } (g.val + 1) locked n).settle) ∧
        (g = groupTaplock → SameConfig s t ∧ t.lastFailing = s.lastFailing ∧
          (∀ i : Fin 128, s.node.effLock ≤ wayOf i → ∀ set way, placedWay s.node.effLock data set way →
            holdsKey s.tap i (storedKey data set way).1.toNat (storedKey data set way).2.toNat = true →
            t.tap[i] = none) ∧
          (∀ i : Fin 128, s.node.effLock ≤ wayOf i → (∀ set way, placedWay s.node.effLock data set way →
              holdsKey s.tap i (storedKey data set way).1.toNat (storedKey data set way).2.toNat = false) →
            t.tap[i] = s.tap[i]) ∧
          (∀ (i : Fin 128) (set : Fin 32) (way : Fin 3), i.val = 4 * set.val + way.val → way.val < s.node.effLock →
            (¬ placedWay s.node.effLock data set way → t.tap[i] = none) ∧
            (placedWay s.node.effLock data set way → ∀ k v f : Word,
              k = data.getD (6 * (3 * set.val + way.val) + 3) 0 → v = data.getD (6 * (3 * set.val + way.val) + 4) 0 →
              f = data.getD (6 * (3 * set.val + way.val) + 5) 0 → ∀ kind, kindOfCode k.toNat = some kind →
              t.tap[i] = some
                { lockedLoad := decide (f = 1), origin := (storedKey data set way).1.toNat
                  channel := (storedKey data set way).2.toNat, kind := kind, value := v.toInt, clamped := false
                  fault := false, age := 0, loadKind := kind, loadValue := v.toInt })) ∧
          (t.dirty[groupTaplock] = true ↔ ∃ (set : Fin 32) (way : Fin 3),
            data.getD (6 * (3 * set.val + way.val)) 0 ≠ 0 ∧ ¬ placedWay s.node.effLock data set way))) ∧
      (recordData g (s.serialRead x (placeOf g) (3 + dataLength g)) = none →
        SameConfig s t ∧ t.dirty[g] = true ∧ t.lastFailing = g.val + 1 ∧
        (g = groupTaplock → ∀ i : Fin 128, t.tap[i] = if wayOf i < s.node.effLock then none else s.tap[i]) ∧
        LatchEntry.CountedOnce srcStoreCorrupt s.stamp s.posA s.latch[srcStoreCorrupt] t.latch[srcStoreCorrupt]))

/-- The serial memory `m` after a verify of a place whose check word is at word address `c`, `held` holding the words read: the
words read stand, and after a mismatch the place fails its check, by its check word's lowest bit where they would pass (R184,
log entry 33). -/
structure Sys2Proof.Machine.VerifyLeaves (passes : Memory → Prop) (good : Prop) (c : Nat) (held m : Memory) : Prop where
  matched : good → m = held
  failing : ¬good → ¬passes held → m = held
  passing : ¬good → passes held → m = held.putWord c (held.word c ^^^ 1)

/-- A STORE writes the record of the group in hand at its place and reads it back; a match clears the mark unless the group was
rewritten meanwhile, a mismatch keeps it and counts STORE_FAILED; then the next marked group above it, or the header, is taken,
its words those of its content as it stands then, and the header's verify ends the STORE (R184). What the memory answers, and
what a write leaves at its place, is the command's operand (log entry 8). After a match the place holds the record; after a
mismatch the place holds what its write left, as the verify read it, and it fails its check as the next load reads it (R184's
last paragraph, log entry 33). -/
def Obligations.StoresWriteAndVerify : Prop :=
  (∀ (s : State) (g : Fin 15) (rec : List Word), s.storing = .group g .writing rec →
    exec (.storeWriteComplete .asStored) s = .next
      { s with serial := s.serial.putWords (placeOf g) rec, storing := .group g .verifying rec }) ∧
  (∀ (s : State) (rec : List Word), s.storing = .header .writing rec →
    exec (.storeWriteComplete .asStored) s = .next
      { s with serial := s.serial.putWords 0 rec, storing := .header .verifying rec }) ∧
  (∀ (s : State) (ws rec : List Word),
    (∀ g : Fin 15, s.storing = .group g .writing rec →
      exec (.storeWriteComplete (.instead ws)) s = .next
        { s with
          serial := s.serial.putWords (placeOf g) (ws.take rec.length), storing := .group g .verifying rec }) ∧
    (s.storing = .header .writing rec →
      exec (.storeWriteComplete (.instead ws)) s = .next
        { s with serial := s.serial.putWords 0 (ws.take rec.length), storing := .header .verifying rec })) ∧
  (∀ (x : SerialAnswer) (s : State) (g : Fin 15) (rec : List Word), s.storing = .group g .verifying rec →
    ∃ t, exec (.storeVerifyComplete x) s = .next t ∧
      t.still =
        { s.still with dirty := t.dirty, rewritten := t.rewritten, storing := t.storing, serial := t.serial } ∧
      (∀ held : Memory, (x = .asStored → held = s.serial) →
        (∀ ws, x = .instead ws → held = s.serial.putWords (placeOf g) (ws.take rec.length)) →
        VerifyLeaves (fun m => recordData g (m.words (placeOf g) (3 + dataLength g)) ≠ none)
          (s.serialRead x (placeOf g) rec.length = rec) (placeOf g + 2) held t.serial) ∧
      (s.serialRead x (placeOf g) rec.length = rec → s.serial.wf = true → rec.length = 3 + dataLength g →
        t.serial.words (placeOf g) rec.length = rec) ∧
      (s.serialRead x (placeOf g) rec.length ≠ rec → s.serial.wf = true →
        recordData g (t.serial.words (placeOf g) (3 + dataLength g)) = none) ∧
      (s.serialRead x (placeOf g) rec.length = rec → s.rewritten[g] = false → t.dirty = s.dirty.set g false) ∧
      (s.serialRead x (placeOf g) rec.length = rec → s.rewritten[g] = true → t.dirty = s.dirty) ∧
      (s.serialRead x (placeOf g) rec.length ≠ rec → t.dirty = s.dirty ∧
        LatchEntry.CountedOnce srcStoreFailed s.stamp s.posA s.latch[srcStoreFailed] t.latch[srcStoreFailed]) ∧
      (∀ h : Fin 15, g < h → s.dirty[h] = true → (∀ j : Fin 15, g < j → s.dirty[j] = true → h ≤ j) →
        t.storing = .group h .writing (groupRecord h (s.groupContent h)) ∧
        t.rewritten = s.rewritten.set h false) ∧
      ((∀ h : Fin 15, g < h → s.dirty[h] = false) →
        t.storing = .header .writing (headerRecord (decide (s.nodeState = NodeState.lockout))) ∧
        t.rewritten = s.rewritten)) ∧
  (∀ (x : SerialAnswer) (s : State) (rec : List Word), s.storing = .header .verifying rec →
    ∃ t, exec (.storeVerifyComplete x) s = .next t ∧
      t.still = { s.still with storing := .idle, serial := t.serial } ∧
      (∀ held : Memory, (x = .asStored → held = s.serial) →
        (∀ ws, x = .instead ws → held = s.serial.putWords 0 (ws.take rec.length)) →
        VerifyLeaves (fun m => headerOf (m.words 0 5) ≠ none) (s.serialRead x 0 rec.length = rec) 4 held t.serial) ∧
      (s.serialRead x 0 rec.length = rec → s.serial.wf = true → rec.length = 5 → t.serial.words 0 5 = rec) ∧
      (s.serialRead x 0 rec.length ≠ rec → s.serial.wf = true → headerOf (t.serial.words 0 5) = none) ∧
      (s.serialRead x 0 rec.length ≠ rec →
        LatchEntry.CountedOnce srcStoreFailed s.stamp s.posA s.latch[srcStoreFailed] t.latch[srcStoreFailed])) ∧
  (∀ (g : Fin 15) (data : List Word), data.length = dataLength g →
    recordData g (groupRecord g data) = some data) ∧
  (∀ locked : Bool, headerOf (headerRecord locked) = some (locked, 15))

/-! ### The device laws that every step keeps -/

/-- Every step leaves nothing owed within an event, keeps the serial memory in its canonical form, and keeps less than one ms
of the node clock uncounted: the model's own laws (log entries 3, 5 and 9). -/
def Obligations.StepsKeepTheModelsForm : Prop :=
  (∀ s t : State, s.Settled → step s = .next t → t.Settled) ∧
  (∀ s t : State, s.serial.wf = true → step s = .next t → t.serial.wf = true) ∧
  (∀ s t : State, s.msPhase < 1000 → step s = .next t → t.msPhase < 1000)

/-- On both ports: the probe count and the link timer fit the port state (R21, R22), the fill timer runs exactly while the
transmitter is idle (R24), each queue keeps its capacity and its kinds (R38), a port that is not UP has empty queues (R39,
R49), no frame waits behind an idle transmitter (R42, R50), and LINK_x_DOWN is asserted exactly while its port is not UP
(R23). -/
def Obligations.StepsKeepTheLineLaw : Prop :=
  ∀ s t : State, s.LineLaw → step s = .next t → t.LineLaw

/-- No key appears in two valid entries of the cache, and each stands in its key's set (R57). -/
def Obligations.StepsKeepTheTapLaw : Prop :=
  ∀ s t : State, s.TapLaw → step s = .next t → t.TapLaw

/-- On every fan channel: outputs off means duty 0, and a driven channel's pending duty lies between the effective Dmin and
Dmax of the record, for a request of a magnitude R104 gives (R101, R95, log entry 17), the pending period is the record's
(R101), the start, stall and dwell timers run in STARTING, RUNNING and STOPPING alone (R107 to R112), an open isolator means
DISABLED and nothing else does (R113), a request of magnitude 0 has no direction (R105), a driven channel's direction is its
last direction and its request's (R107, R109), STOPPING(d) carries the last direction (R109, R112, R113), and with the capture
timer stopped no edge or period stands and the speed is 0 (R102). -/
def Obligations.StepsKeepTheFanLaw : Prop :=
  ∀ s t : State, s.FanLaw → step s = .next t → t.FanLaw

/-- No step turns a running fan's outputs from one direction to the other: they go off first, for at least the dwell (R100). A
channel that enters STOPPING starts its dwell timer with the coast dwell, which stops in STOPPING at its expiry alone (log
entry 2 has the expiry as the command); and outputs off go on in a direction other than the last one, or in any when the
channel has not run since the reset, or the channel reaches STOPPED, only from STOPPED, or from STOPPING with the dwell timer
expired and the speed at or below the still threshold (R107, R110). -/
def Obligations.NoStepReversesARunningFan : Prop :=
  ∀ (s t : State) (f : FanId), s.FanLaw → step s = .next t →
    (∀ d d', s.fans[f].runDir = some d → t.fans[f].runDir = some d' → d' = d) ∧
    (∀ y, t.fans[f].state = .stopping y →
      t.fans[f].dwellTimer = some (t.now + t.fans[f].cfg.coastDwell * 1000000) ∨
      ∃ x, s.fans[f].state = .stopping x ∧
        (t.fans[f].dwellTimer = s.fans[f].dwellTimer ∨ s.pending.head? = some (.dwellTimerExpiry f))) ∧
    ((∃ d, s.fans[f].runDir = none ∧ s.fans[f].lastDir ≠ some d ∧ t.fans[f].runDir = some d) ∨
        t.fans[f].state = .stopped →
      s.fans[f].state = .stopped ∨
      (∃ x, s.fans[f].state = .stopping x) ∧
        (s.fans[f].dwellTimer = none ∨ s.pending.head? = some (.dwellTimerExpiry f)) ∧
        t.fans[f].speed ≤ t.fans[f].cfg.stillThreshold)

/-- While the guard applies or the node is STARTING both jets are held at 0 (R106, R116); outside STARTING the passage fan is
commanded to run while a door is OPEN or HELD, and only then or on a plan's ON (R114). -/
def Obligations.StepsKeepTheOverrideLaws : Prop :=
  (∀ s t : State, s.LoadLaw → s.GuardLaw → step s = .next t → t.GuardLaw) ∧
  (∀ s t : State, s.LoadLaw → s.PassageLaw → step s = .next t → t.PassageLaw)

/-- On every door: SECURED, RELEASED and RELOCKING doors are closed, OPEN and HELD ones open (R121); RELEASED exactly where
R123 requires release, with its cause; each timer runs in its own state alone (R124 to R129); the hold expired mark stands in
OPEN under HOLD_OPEN alone (R127); the feedback timer runs exactly while the lock's report disagrees with its drive outside
FAULT (R130); outside STARTING a RELEASED door whose bar is pressed has its egress timer running, also where it closed with
its bar pressed (R123, R126, log entry 13). The lamp mode is that of the ACTIVE context's step, OFF with an empty stack, both
LAMPs follow OFF and STEADY, and the lamp timers run in FLASH alone (R133). -/
def Obligations.StepsKeepTheDoorLaw : Prop :=
  (∀ s t : State, s.DoorLaw → step s = .next t → t.DoorLaw) ∧
  (∀ s t : State, s.LoadLaw → s.LampLaw → step s = .next t → t.LampLaw)

/-- Each door has taken the most open policy of the stack (R122), so a door is never SECURED while any context directs RELEASE
or HOLD_OPEN for it, nor while the node is STARTING (R123). -/
def Obligations.OpenPoliciesNeverSecure : Prop :=
  (∀ s t : State, s.LoadLaw → s.PolicyLaw → step s = .next t → t.PolicyLaw) ∧
  (∀ (s : State) (d : DoorId), s.DoorLaw → s.PolicyLaw → s.doors[d].state = .secured →
    s.nodeState ≠ .starting ∧ ∀ c ∈ s.stack, (s.plan[c.step].policyOf d) = .normal)

/-- The stack never holds more than three contexts, their levels strictly rise to the ACTIVE one, and the SERVED entries are
those with a context on the stack (R152, R144). -/
def Obligations.StepsKeepTheStackLaw : Prop :=
  ∀ s t : State, s.StackLaw → step s = .next t → t.StackLaw

/-- The node is STARTING exactly while the image load runs (R181), a PENDING entry's plan step is valid (R145), and the valid
steps and the contexts' steps are of groups that the load has passed (R166, R183). -/
def Obligations.StepsKeepTheLoadLaw : Prop :=
  ∀ s t : State, s.LoadLaw → step s = .next t → t.LoadLaw

/-- Between resets an entry's unacknowledged flag clears only through an ACK whose count equals its occurrence count (R146), as
it stands when the ACK is taken: after the frame's own supervision and what that owes, an order that is the model's choice (log
entry 27), and which changes no count on a port that is UP already. -/
def Obligations.OnlyAMatchingAckClearsUnacknowledged : Prop :=
  ∀ (c : Instr) (n : EntryId) (s t : State), keepsRunning c = true → exec c s = .next t →
    s.latch[n].unack = true → t.latch[n].unack = false →
    ∃ p r w rest, c = .ack p r ∧ r.index.toNat = n.val + 1 ∧ r.data = w :: rest ∧
      w.toNat = (s.superviseGood p).settle.latch[n].count.toNat ∧
      (s.Hears p → w.toNat = s.latch[n].count.toNat)

/-- Every configuration field stays in the range of its rule, whatever is written or loaded (R1, R13, R22, R24, R48, R60, R75,
R77, R79, R80, R88, R90, R99, R119, R138, R139, R150, R155). -/
def Obligations.StepsKeepFieldsInRange : Prop :=
  ∀ s t : State, s.ConfigLaw → step s = .next t → t.ConfigLaw

/-- State.reset has every law that steps keep. -/
def Obligations.TheLawsHoldAtReset : Prop :=
  State.reset.Settled ∧ State.reset.serial.wf = true ∧ State.reset.msPhase < 1000 ∧ State.reset.LineLaw ∧
    State.reset.TapLaw ∧ State.reset.FanLaw ∧ State.reset.GuardLaw ∧ State.reset.PassageLaw ∧ State.reset.DoorLaw ∧
    State.reset.LampLaw ∧ State.reset.PolicyLaw ∧ State.reset.StackLaw ∧ State.reset.LoadLaw ∧ State.reset.ConfigLaw
end

