-- ==== Sys2Proof/Laws/State.lean ====
section
/-! SUPPORT. Laws/State.lean: for each named update of State, one simp lemma per field it leaves as it was, and the
reading of what it sets, so that no proof unfolds a record update. -/

namespace Sys2Proof.Machine

/-! ### What an update sets -/

@[simp] theorem port_setPort (s : State) (p : Port) (P : LinePort) : (s.setPort p P).port p = P := by
  cases p <;> rfl

theorem port_setPort_ne (s : State) (p q : Port) (P : LinePort) (h : q ≠ p) : (s.setPort p P).port q = s.port q := by
  cases p <;> cases q <;> first | rfl | exact absurd rfl h

theorem port_setPort_eq (s : State) (p q : Port) (P : LinePort) :
    (s.setPort p P).port q = if q = p then P else s.port q := by
  cases p <;> cases q <;> rfl

@[simp] theorem setPort_port_self (s : State) (p : Port) : s.setPort p (s.port p) = s := by
  cases p <;> rfl

@[simp] theorem kind_setKind (s : State) (k : Kind) (K : KindUnit) : (s.setKind k K).kind k = K := by
  cases k <;> rfl

theorem kind_setKind_eq (s : State) (k j : Kind) (K : KindUnit) :
    (s.setKind k K).kind j = if j = k then K else s.kind j := by
  cases k <;> cases j <;> rfl

theorem fans_setFan (s : State) (f g : FanId) (F : Fan) :
    (s.setFan f F).fans[g] = if g = f then F else s.fans[g] := by
  by_cases h : g = f
  · subst h; simp [State.setFan]
  · have h' : f.val ≠ g.val := fun e => h (Fin.ext e.symm)
    simp [State.setFan, h, Vector.getElem_set_ne _ _ h']

theorem fans_setFan_self (s : State) (f : FanId) (F : Fan) : (s.setFan f F).fans[f] = F :=
  (fans_setFan s f f F).trans (if_pos rfl)

@[simp] theorem fans_setFan_val (s : State) (f : FanId) (F : Fan) :
    (s.setFan f F).fans[f.val] = F :=
  fans_setFan_self s f F

theorem doors_setDoor (s : State) (d e : DoorId) (D : Door) :
    (s.setDoor d D).doors[e] = if e = d then D else s.doors[e] := by
  by_cases h : e = d
  · subst h; simp [State.setDoor]
  · have h' : d.val ≠ e.val := fun q => h (Fin.ext q.symm)
    simp [State.setDoor, h, Vector.getElem_set_ne _ _ h']

theorem doors_setDoor_self (s : State) (d : DoorId) (D : Door) : (s.setDoor d D).doors[d] = D :=
  (doors_setDoor s d d D).trans (if_pos rfl)

@[simp] theorem doors_setDoor_val (s : State) (d : DoorId) (D : Door) :
    (s.setDoor d D).doors[d.val] = D :=
  doors_setDoor_self s d D

theorem latch_setLatch (s : State) (n m : EntryId) (e : LatchEntry) :
    (s.setLatch n e).latch[m] = if m = n then e else s.latch[m] := by
  by_cases h : m = n
  · subst h; simp [State.setLatch]
  · have h' : n.val ≠ m.val := fun q => h (Fin.ext q.symm)
    simp [State.setLatch, h, Vector.getElem_set_ne _ _ h']

theorem latch_setLatch_self (s : State) (n : EntryId) (e : LatchEntry) : (s.setLatch n e).latch[n] = e :=
  (latch_setLatch s n n e).trans (if_pos rfl)

@[simp] theorem latch_setLatch_val (s : State) (n : EntryId) (e : LatchEntry) :
    (s.setLatch n e).latch[n.val] = e :=
  latch_setLatch_self s n e

theorem channels_setChannel (s : State) (c d : ChannelId) (C : Channel) :
    (s.setChannel c C).channels[d] = if d = c then C else s.channels[d] := by
  by_cases h : d = c
  · subst h; simp [State.setChannel]
  · have h' : c.val ≠ d.val := fun q => h (Fin.ext q.symm)
    simp [State.setChannel, h, Vector.getElem_set_ne _ _ h']

theorem channels_setChannel_self (s : State) (c : ChannelId) (C : Channel) : (s.setChannel c C).channels[c] = C :=
  (channels_setChannel s c c C).trans (if_pos rfl)

@[simp] theorem channels_setChannel_val (s : State) (c : ChannelId) (C : Channel) :
    (s.setChannel c C).channels[c.val] = C :=
  channels_setChannel_self s c C

/-! ### What `setPort` leaves -/

section
variable (s : State) (p : Port) (P : LinePort)

@[simp] theorem setPort_pending : (s.setPort p P).pending = s.pending := by cases p <;> rfl
@[simp] theorem setPort_now : (s.setPort p P).now = s.now := by cases p <;> rfl
@[simp] theorem setPort_clock : (s.setPort p P).clock = s.clock := by cases p <;> rfl
@[simp] theorem setPort_clockSet : (s.setPort p P).clockSet = s.clockSet := by cases p <;> rfl
@[simp] theorem setPort_msPhase : (s.setPort p P).msPhase = s.msPhase := by cases p <;> rfl
@[simp] theorem setPort_nodeState : (s.setPort p P).nodeState = s.nodeState := by cases p <;> rfl
@[simp] theorem setPort_resetCause : (s.setPort p P).resetCause = s.resetCause := by cases p <;> rfl
@[simp] theorem setPort_posA : (s.setPort p P).posA = s.posA := by cases p <;> rfl
@[simp] theorem setPort_posB : (s.setPort p P).posB = s.posB := by cases p <;> rfl
@[simp] theorem setPort_pins : (s.setPort p P).pins = s.pins := by cases p <;> rfl
@[simp] theorem setPort_node : (s.setPort p P).node = s.node := by cases p <;> rfl
@[simp] theorem setPort_channels : (s.setPort p P).channels = s.channels := by cases p <;> rfl
@[simp] theorem setPort_reportTimer : (s.setPort p P).reportTimer = s.reportTimer := by cases p <;> rfl
@[simp] theorem setPort_tap : (s.setPort p P).tap = s.tap := by cases p <;> rfl
@[simp] theorem setPort_ageTimer : (s.setPort p P).ageTimer = s.ageTimer := by cases p <;> rfl
@[simp] theorem setPort_terms : (s.setPort p P).terms = s.terms := by cases p <;> rfl
@[simp] theorem setPort_kinds : (s.setPort p P).kinds = s.kinds := by cases p <;> rfl
@[simp] theorem setPort_controlTimer : (s.setPort p P).controlTimer = s.controlTimer := by cases p <;> rfl
@[simp] theorem setPort_demand : (s.setPort p P).demand = s.demand := by cases p <;> rfl
@[simp] theorem setPort_dLim : (s.setPort p P).dLim = s.dLim := by cases p <;> rfl
@[simp] theorem setPort_u : (s.setPort p P).u = s.u := by cases p <;> rfl
@[simp] theorem setPort_fans : (s.setPort p P).fans = s.fans := by cases p <;> rfl
@[simp] theorem setPort_doors : (s.setPort p P).doors = s.doors := by cases p <;> rfl
@[simp] theorem setPort_lampMode : (s.setPort p P).lampMode = s.lampMode := by cases p <;> rfl
@[simp] theorem setPort_sources : (s.setPort p P).sources = s.sources := by cases p <;> rfl
@[simp] theorem setPort_lines : (s.setPort p P).lines = s.lines := by cases p <;> rfl
@[simp] theorem setPort_latch : (s.setPort p P).latch = s.latch := by cases p <;> rfl
@[simp] theorem setPort_callPoint : (s.setPort p P).callPoint = s.callPoint := by cases p <;> rfl
@[simp] theorem setPort_callTimer : (s.setPort p P).callTimer = s.callTimer := by cases p <;> rfl
@[simp] theorem setPort_plan : (s.setPort p P).plan = s.plan := by cases p <;> rfl
@[simp] theorem setPort_stack : (s.setPort p P).stack = s.stack := by cases p <;> rfl
@[simp] theorem setPort_dropped : (s.setPort p P).dropped = s.dropped := by cases p <;> rfl
@[simp] theorem setPort_mask : (s.setPort p P).mask = s.mask := by cases p <;> rfl
@[simp] theorem setPort_launchHold : (s.setPort p P).launchHold = s.launchHold := by cases p <;> rfl
@[simp] theorem setPort_dirty : (s.setPort p P).dirty = s.dirty := by cases p <;> rfl
@[simp] theorem setPort_rewritten : (s.setPort p P).rewritten = s.rewritten := by cases p <;> rfl
@[simp] theorem setPort_storing : (s.setPort p P).storing = s.storing := by cases p <;> rfl
@[simp] theorem setPort_loading : (s.setPort p P).loading = s.loading := by cases p <;> rfl
@[simp] theorem setPort_lastFailing : (s.setPort p P).lastFailing = s.lastFailing := by cases p <;> rfl
@[simp] theorem setPort_serial : (s.setPort p P).serial = s.serial := by cases p <;> rfl
@[simp] theorem setPort_freeCount : (s.setPort p P).freeCount = s.freeCount := by cases p <;> rfl
@[simp] theorem setPort_decisionDue : (s.setPort p P).decisionDue = s.decisionDue := by cases p <;> rfl

end

/-! ### What `setKind` leaves -/

section
variable (s : State) (k : Kind) (K : KindUnit)

@[simp] theorem setKind_pending : (s.setKind k K).pending = s.pending := by cases k <;> rfl
@[simp] theorem setKind_now : (s.setKind k K).now = s.now := by cases k <;> rfl
@[simp] theorem setKind_clock : (s.setKind k K).clock = s.clock := by cases k <;> rfl
@[simp] theorem setKind_clockSet : (s.setKind k K).clockSet = s.clockSet := by cases k <;> rfl
@[simp] theorem setKind_msPhase : (s.setKind k K).msPhase = s.msPhase := by cases k <;> rfl
@[simp] theorem setKind_nodeState : (s.setKind k K).nodeState = s.nodeState := by cases k <;> rfl
@[simp] theorem setKind_resetCause : (s.setKind k K).resetCause = s.resetCause := by cases k <;> rfl
@[simp] theorem setKind_posA : (s.setKind k K).posA = s.posA := by cases k <;> rfl
@[simp] theorem setKind_posB : (s.setKind k K).posB = s.posB := by cases k <;> rfl
@[simp] theorem setKind_pins : (s.setKind k K).pins = s.pins := by cases k <;> rfl
@[simp] theorem setKind_node : (s.setKind k K).node = s.node := by cases k <;> rfl
@[simp] theorem setKind_channels : (s.setKind k K).channels = s.channels := by cases k <;> rfl
@[simp] theorem setKind_reportTimer : (s.setKind k K).reportTimer = s.reportTimer := by cases k <;> rfl
@[simp] theorem setKind_ports : (s.setKind k K).ports = s.ports := by cases k <;> rfl
@[simp] theorem setKind_tap : (s.setKind k K).tap = s.tap := by cases k <;> rfl
@[simp] theorem setKind_ageTimer : (s.setKind k K).ageTimer = s.ageTimer := by cases k <;> rfl
@[simp] theorem setKind_terms : (s.setKind k K).terms = s.terms := by cases k <;> rfl
@[simp] theorem setKind_controlTimer : (s.setKind k K).controlTimer = s.controlTimer := by cases k <;> rfl
@[simp] theorem setKind_demand : (s.setKind k K).demand = s.demand := by cases k <;> rfl
@[simp] theorem setKind_dLim : (s.setKind k K).dLim = s.dLim := by cases k <;> rfl
@[simp] theorem setKind_u : (s.setKind k K).u = s.u := by cases k <;> rfl
@[simp] theorem setKind_fans : (s.setKind k K).fans = s.fans := by cases k <;> rfl
@[simp] theorem setKind_doors : (s.setKind k K).doors = s.doors := by cases k <;> rfl
@[simp] theorem setKind_lampMode : (s.setKind k K).lampMode = s.lampMode := by cases k <;> rfl
@[simp] theorem setKind_sources : (s.setKind k K).sources = s.sources := by cases k <;> rfl
@[simp] theorem setKind_lines : (s.setKind k K).lines = s.lines := by cases k <;> rfl
@[simp] theorem setKind_latch : (s.setKind k K).latch = s.latch := by cases k <;> rfl
@[simp] theorem setKind_callPoint : (s.setKind k K).callPoint = s.callPoint := by cases k <;> rfl
@[simp] theorem setKind_callTimer : (s.setKind k K).callTimer = s.callTimer := by cases k <;> rfl
@[simp] theorem setKind_plan : (s.setKind k K).plan = s.plan := by cases k <;> rfl
@[simp] theorem setKind_stack : (s.setKind k K).stack = s.stack := by cases k <;> rfl
@[simp] theorem setKind_dropped : (s.setKind k K).dropped = s.dropped := by cases k <;> rfl
@[simp] theorem setKind_mask : (s.setKind k K).mask = s.mask := by cases k <;> rfl
@[simp] theorem setKind_launchHold : (s.setKind k K).launchHold = s.launchHold := by cases k <;> rfl
@[simp] theorem setKind_dirty : (s.setKind k K).dirty = s.dirty := by cases k <;> rfl
@[simp] theorem setKind_rewritten : (s.setKind k K).rewritten = s.rewritten := by cases k <;> rfl
@[simp] theorem setKind_storing : (s.setKind k K).storing = s.storing := by cases k <;> rfl
@[simp] theorem setKind_loading : (s.setKind k K).loading = s.loading := by cases k <;> rfl
@[simp] theorem setKind_lastFailing : (s.setKind k K).lastFailing = s.lastFailing := by cases k <;> rfl
@[simp] theorem setKind_serial : (s.setKind k K).serial = s.serial := by cases k <;> rfl
@[simp] theorem setKind_freeCount : (s.setKind k K).freeCount = s.freeCount := by cases k <;> rfl
@[simp] theorem setKind_decisionDue : (s.setKind k K).decisionDue = s.decisionDue := by cases k <;> rfl

end

/-! ### What `setChannel` leaves -/

section
variable (s : State) (c : ChannelId) (C : Channel)

@[simp] theorem setChannel_pending : (s.setChannel c C).pending = s.pending := rfl
@[simp] theorem setChannel_now : (s.setChannel c C).now = s.now := rfl
@[simp] theorem setChannel_clock : (s.setChannel c C).clock = s.clock := rfl
@[simp] theorem setChannel_clockSet : (s.setChannel c C).clockSet = s.clockSet := rfl
@[simp] theorem setChannel_msPhase : (s.setChannel c C).msPhase = s.msPhase := rfl
@[simp] theorem setChannel_nodeState : (s.setChannel c C).nodeState = s.nodeState := rfl
@[simp] theorem setChannel_resetCause : (s.setChannel c C).resetCause = s.resetCause := rfl
@[simp] theorem setChannel_posA : (s.setChannel c C).posA = s.posA := rfl
@[simp] theorem setChannel_posB : (s.setChannel c C).posB = s.posB := rfl
@[simp] theorem setChannel_pins : (s.setChannel c C).pins = s.pins := rfl
@[simp] theorem setChannel_node : (s.setChannel c C).node = s.node := rfl
@[simp] theorem setChannel_reportTimer : (s.setChannel c C).reportTimer = s.reportTimer := rfl
@[simp] theorem setChannel_ports : (s.setChannel c C).ports = s.ports := rfl
@[simp] theorem setChannel_tap : (s.setChannel c C).tap = s.tap := rfl
@[simp] theorem setChannel_ageTimer : (s.setChannel c C).ageTimer = s.ageTimer := rfl
@[simp] theorem setChannel_terms : (s.setChannel c C).terms = s.terms := rfl
@[simp] theorem setChannel_kinds : (s.setChannel c C).kinds = s.kinds := rfl
@[simp] theorem setChannel_controlTimer : (s.setChannel c C).controlTimer = s.controlTimer := rfl
@[simp] theorem setChannel_demand : (s.setChannel c C).demand = s.demand := rfl
@[simp] theorem setChannel_dLim : (s.setChannel c C).dLim = s.dLim := rfl
@[simp] theorem setChannel_u : (s.setChannel c C).u = s.u := rfl
@[simp] theorem setChannel_fans : (s.setChannel c C).fans = s.fans := rfl
@[simp] theorem setChannel_doors : (s.setChannel c C).doors = s.doors := rfl
@[simp] theorem setChannel_lampMode : (s.setChannel c C).lampMode = s.lampMode := rfl
@[simp] theorem setChannel_sources : (s.setChannel c C).sources = s.sources := rfl
@[simp] theorem setChannel_lines : (s.setChannel c C).lines = s.lines := rfl
@[simp] theorem setChannel_latch : (s.setChannel c C).latch = s.latch := rfl
@[simp] theorem setChannel_callPoint : (s.setChannel c C).callPoint = s.callPoint := rfl
@[simp] theorem setChannel_callTimer : (s.setChannel c C).callTimer = s.callTimer := rfl
@[simp] theorem setChannel_plan : (s.setChannel c C).plan = s.plan := rfl
@[simp] theorem setChannel_stack : (s.setChannel c C).stack = s.stack := rfl
@[simp] theorem setChannel_dropped : (s.setChannel c C).dropped = s.dropped := rfl
@[simp] theorem setChannel_mask : (s.setChannel c C).mask = s.mask := rfl
@[simp] theorem setChannel_launchHold : (s.setChannel c C).launchHold = s.launchHold := rfl
@[simp] theorem setChannel_dirty : (s.setChannel c C).dirty = s.dirty := rfl
@[simp] theorem setChannel_rewritten : (s.setChannel c C).rewritten = s.rewritten := rfl
@[simp] theorem setChannel_storing : (s.setChannel c C).storing = s.storing := rfl
@[simp] theorem setChannel_loading : (s.setChannel c C).loading = s.loading := rfl
@[simp] theorem setChannel_lastFailing : (s.setChannel c C).lastFailing = s.lastFailing := rfl
@[simp] theorem setChannel_serial : (s.setChannel c C).serial = s.serial := rfl
@[simp] theorem setChannel_freeCount : (s.setChannel c C).freeCount = s.freeCount := rfl
@[simp] theorem setChannel_decisionDue : (s.setChannel c C).decisionDue = s.decisionDue := rfl

end

/-! ### What `setFan` leaves -/

section
variable (s : State) (f : FanId) (F : Fan)

@[simp] theorem setFan_pending : (s.setFan f F).pending = s.pending := rfl
@[simp] theorem setFan_now : (s.setFan f F).now = s.now := rfl
@[simp] theorem setFan_clock : (s.setFan f F).clock = s.clock := rfl
@[simp] theorem setFan_clockSet : (s.setFan f F).clockSet = s.clockSet := rfl
@[simp] theorem setFan_msPhase : (s.setFan f F).msPhase = s.msPhase := rfl
@[simp] theorem setFan_nodeState : (s.setFan f F).nodeState = s.nodeState := rfl
@[simp] theorem setFan_resetCause : (s.setFan f F).resetCause = s.resetCause := rfl
@[simp] theorem setFan_posA : (s.setFan f F).posA = s.posA := rfl
@[simp] theorem setFan_posB : (s.setFan f F).posB = s.posB := rfl
@[simp] theorem setFan_pins : (s.setFan f F).pins = s.pins := rfl
@[simp] theorem setFan_node : (s.setFan f F).node = s.node := rfl
@[simp] theorem setFan_channels : (s.setFan f F).channels = s.channels := rfl
@[simp] theorem setFan_reportTimer : (s.setFan f F).reportTimer = s.reportTimer := rfl
@[simp] theorem setFan_ports : (s.setFan f F).ports = s.ports := rfl
@[simp] theorem setFan_tap : (s.setFan f F).tap = s.tap := rfl
@[simp] theorem setFan_ageTimer : (s.setFan f F).ageTimer = s.ageTimer := rfl
@[simp] theorem setFan_terms : (s.setFan f F).terms = s.terms := rfl
@[simp] theorem setFan_kinds : (s.setFan f F).kinds = s.kinds := rfl
@[simp] theorem setFan_controlTimer : (s.setFan f F).controlTimer = s.controlTimer := rfl
@[simp] theorem setFan_demand : (s.setFan f F).demand = s.demand := rfl
@[simp] theorem setFan_dLim : (s.setFan f F).dLim = s.dLim := rfl
@[simp] theorem setFan_u : (s.setFan f F).u = s.u := rfl
@[simp] theorem setFan_doors : (s.setFan f F).doors = s.doors := rfl
@[simp] theorem setFan_lampMode : (s.setFan f F).lampMode = s.lampMode := rfl
@[simp] theorem setFan_sources : (s.setFan f F).sources = s.sources := rfl
@[simp] theorem setFan_lines : (s.setFan f F).lines = s.lines := rfl
@[simp] theorem setFan_latch : (s.setFan f F).latch = s.latch := rfl
@[simp] theorem setFan_callPoint : (s.setFan f F).callPoint = s.callPoint := rfl
@[simp] theorem setFan_callTimer : (s.setFan f F).callTimer = s.callTimer := rfl
@[simp] theorem setFan_plan : (s.setFan f F).plan = s.plan := rfl
@[simp] theorem setFan_stack : (s.setFan f F).stack = s.stack := rfl
@[simp] theorem setFan_dropped : (s.setFan f F).dropped = s.dropped := rfl
@[simp] theorem setFan_mask : (s.setFan f F).mask = s.mask := rfl
@[simp] theorem setFan_launchHold : (s.setFan f F).launchHold = s.launchHold := rfl
@[simp] theorem setFan_dirty : (s.setFan f F).dirty = s.dirty := rfl
@[simp] theorem setFan_rewritten : (s.setFan f F).rewritten = s.rewritten := rfl
@[simp] theorem setFan_storing : (s.setFan f F).storing = s.storing := rfl
@[simp] theorem setFan_loading : (s.setFan f F).loading = s.loading := rfl
@[simp] theorem setFan_lastFailing : (s.setFan f F).lastFailing = s.lastFailing := rfl
@[simp] theorem setFan_serial : (s.setFan f F).serial = s.serial := rfl
@[simp] theorem setFan_freeCount : (s.setFan f F).freeCount = s.freeCount := rfl
@[simp] theorem setFan_decisionDue : (s.setFan f F).decisionDue = s.decisionDue := rfl

end

/-! ### What `setDoor` leaves -/

section
variable (s : State) (d : DoorId) (D : Door)

@[simp] theorem setDoor_pending : (s.setDoor d D).pending = s.pending := rfl
@[simp] theorem setDoor_now : (s.setDoor d D).now = s.now := rfl
@[simp] theorem setDoor_clock : (s.setDoor d D).clock = s.clock := rfl
@[simp] theorem setDoor_clockSet : (s.setDoor d D).clockSet = s.clockSet := rfl
@[simp] theorem setDoor_msPhase : (s.setDoor d D).msPhase = s.msPhase := rfl
@[simp] theorem setDoor_nodeState : (s.setDoor d D).nodeState = s.nodeState := rfl
@[simp] theorem setDoor_resetCause : (s.setDoor d D).resetCause = s.resetCause := rfl
@[simp] theorem setDoor_posA : (s.setDoor d D).posA = s.posA := rfl
@[simp] theorem setDoor_posB : (s.setDoor d D).posB = s.posB := rfl
@[simp] theorem setDoor_pins : (s.setDoor d D).pins = s.pins := rfl
@[simp] theorem setDoor_node : (s.setDoor d D).node = s.node := rfl
@[simp] theorem setDoor_channels : (s.setDoor d D).channels = s.channels := rfl
@[simp] theorem setDoor_reportTimer : (s.setDoor d D).reportTimer = s.reportTimer := rfl
@[simp] theorem setDoor_ports : (s.setDoor d D).ports = s.ports := rfl
@[simp] theorem setDoor_tap : (s.setDoor d D).tap = s.tap := rfl
@[simp] theorem setDoor_ageTimer : (s.setDoor d D).ageTimer = s.ageTimer := rfl
@[simp] theorem setDoor_terms : (s.setDoor d D).terms = s.terms := rfl
@[simp] theorem setDoor_kinds : (s.setDoor d D).kinds = s.kinds := rfl
@[simp] theorem setDoor_controlTimer : (s.setDoor d D).controlTimer = s.controlTimer := rfl
@[simp] theorem setDoor_demand : (s.setDoor d D).demand = s.demand := rfl
@[simp] theorem setDoor_dLim : (s.setDoor d D).dLim = s.dLim := rfl
@[simp] theorem setDoor_u : (s.setDoor d D).u = s.u := rfl
@[simp] theorem setDoor_fans : (s.setDoor d D).fans = s.fans := rfl
@[simp] theorem setDoor_lampMode : (s.setDoor d D).lampMode = s.lampMode := rfl
@[simp] theorem setDoor_sources : (s.setDoor d D).sources = s.sources := rfl
@[simp] theorem setDoor_lines : (s.setDoor d D).lines = s.lines := rfl
@[simp] theorem setDoor_latch : (s.setDoor d D).latch = s.latch := rfl
@[simp] theorem setDoor_callPoint : (s.setDoor d D).callPoint = s.callPoint := rfl
@[simp] theorem setDoor_callTimer : (s.setDoor d D).callTimer = s.callTimer := rfl
@[simp] theorem setDoor_plan : (s.setDoor d D).plan = s.plan := rfl
@[simp] theorem setDoor_stack : (s.setDoor d D).stack = s.stack := rfl
@[simp] theorem setDoor_dropped : (s.setDoor d D).dropped = s.dropped := rfl
@[simp] theorem setDoor_mask : (s.setDoor d D).mask = s.mask := rfl
@[simp] theorem setDoor_launchHold : (s.setDoor d D).launchHold = s.launchHold := rfl
@[simp] theorem setDoor_dirty : (s.setDoor d D).dirty = s.dirty := rfl
@[simp] theorem setDoor_rewritten : (s.setDoor d D).rewritten = s.rewritten := rfl
@[simp] theorem setDoor_storing : (s.setDoor d D).storing = s.storing := rfl
@[simp] theorem setDoor_loading : (s.setDoor d D).loading = s.loading := rfl
@[simp] theorem setDoor_lastFailing : (s.setDoor d D).lastFailing = s.lastFailing := rfl
@[simp] theorem setDoor_serial : (s.setDoor d D).serial = s.serial := rfl
@[simp] theorem setDoor_freeCount : (s.setDoor d D).freeCount = s.freeCount := rfl
@[simp] theorem setDoor_decisionDue : (s.setDoor d D).decisionDue = s.decisionDue := rfl

end

/-! ### What `setLatch` leaves -/

section
variable (s : State) (n : EntryId) (e : LatchEntry)

@[simp] theorem setLatch_pending : (s.setLatch n e).pending = s.pending := rfl
@[simp] theorem setLatch_now : (s.setLatch n e).now = s.now := rfl
@[simp] theorem setLatch_clock : (s.setLatch n e).clock = s.clock := rfl
@[simp] theorem setLatch_clockSet : (s.setLatch n e).clockSet = s.clockSet := rfl
@[simp] theorem setLatch_msPhase : (s.setLatch n e).msPhase = s.msPhase := rfl
@[simp] theorem setLatch_nodeState : (s.setLatch n e).nodeState = s.nodeState := rfl
@[simp] theorem setLatch_resetCause : (s.setLatch n e).resetCause = s.resetCause := rfl
@[simp] theorem setLatch_posA : (s.setLatch n e).posA = s.posA := rfl
@[simp] theorem setLatch_posB : (s.setLatch n e).posB = s.posB := rfl
@[simp] theorem setLatch_pins : (s.setLatch n e).pins = s.pins := rfl
@[simp] theorem setLatch_node : (s.setLatch n e).node = s.node := rfl
@[simp] theorem setLatch_channels : (s.setLatch n e).channels = s.channels := rfl
@[simp] theorem setLatch_reportTimer : (s.setLatch n e).reportTimer = s.reportTimer := rfl
@[simp] theorem setLatch_ports : (s.setLatch n e).ports = s.ports := rfl
@[simp] theorem setLatch_tap : (s.setLatch n e).tap = s.tap := rfl
@[simp] theorem setLatch_ageTimer : (s.setLatch n e).ageTimer = s.ageTimer := rfl
@[simp] theorem setLatch_terms : (s.setLatch n e).terms = s.terms := rfl
@[simp] theorem setLatch_kinds : (s.setLatch n e).kinds = s.kinds := rfl
@[simp] theorem setLatch_controlTimer : (s.setLatch n e).controlTimer = s.controlTimer := rfl
@[simp] theorem setLatch_demand : (s.setLatch n e).demand = s.demand := rfl
@[simp] theorem setLatch_dLim : (s.setLatch n e).dLim = s.dLim := rfl
@[simp] theorem setLatch_u : (s.setLatch n e).u = s.u := rfl
@[simp] theorem setLatch_fans : (s.setLatch n e).fans = s.fans := rfl
@[simp] theorem setLatch_doors : (s.setLatch n e).doors = s.doors := rfl
@[simp] theorem setLatch_lampMode : (s.setLatch n e).lampMode = s.lampMode := rfl
@[simp] theorem setLatch_sources : (s.setLatch n e).sources = s.sources := rfl
@[simp] theorem setLatch_lines : (s.setLatch n e).lines = s.lines := rfl
@[simp] theorem setLatch_callPoint : (s.setLatch n e).callPoint = s.callPoint := rfl
@[simp] theorem setLatch_callTimer : (s.setLatch n e).callTimer = s.callTimer := rfl
@[simp] theorem setLatch_plan : (s.setLatch n e).plan = s.plan := rfl
@[simp] theorem setLatch_stack : (s.setLatch n e).stack = s.stack := rfl
@[simp] theorem setLatch_dropped : (s.setLatch n e).dropped = s.dropped := rfl
@[simp] theorem setLatch_mask : (s.setLatch n e).mask = s.mask := rfl
@[simp] theorem setLatch_launchHold : (s.setLatch n e).launchHold = s.launchHold := rfl
@[simp] theorem setLatch_dirty : (s.setLatch n e).dirty = s.dirty := rfl
@[simp] theorem setLatch_rewritten : (s.setLatch n e).rewritten = s.rewritten := rfl
@[simp] theorem setLatch_storing : (s.setLatch n e).storing = s.storing := rfl
@[simp] theorem setLatch_loading : (s.setLatch n e).loading = s.loading := rfl
@[simp] theorem setLatch_lastFailing : (s.setLatch n e).lastFailing = s.lastFailing := rfl
@[simp] theorem setLatch_serial : (s.setLatch n e).serial = s.serial := rfl
@[simp] theorem setLatch_freeCount : (s.setLatch n e).freeCount = s.freeCount := rfl
@[simp] theorem setLatch_decisionDue : (s.setLatch n e).decisionDue = s.decisionDue := rfl

end

/-! ### What `setServe` leaves -/

section
variable (s : State) (n : EntryId) (v : Serve)

@[simp] theorem setServe_pending : (s.setServe n v).pending = s.pending := rfl
@[simp] theorem setServe_now : (s.setServe n v).now = s.now := rfl
@[simp] theorem setServe_clock : (s.setServe n v).clock = s.clock := rfl
@[simp] theorem setServe_clockSet : (s.setServe n v).clockSet = s.clockSet := rfl
@[simp] theorem setServe_msPhase : (s.setServe n v).msPhase = s.msPhase := rfl
@[simp] theorem setServe_nodeState : (s.setServe n v).nodeState = s.nodeState := rfl
@[simp] theorem setServe_resetCause : (s.setServe n v).resetCause = s.resetCause := rfl
@[simp] theorem setServe_posA : (s.setServe n v).posA = s.posA := rfl
@[simp] theorem setServe_posB : (s.setServe n v).posB = s.posB := rfl
@[simp] theorem setServe_pins : (s.setServe n v).pins = s.pins := rfl
@[simp] theorem setServe_node : (s.setServe n v).node = s.node := rfl
@[simp] theorem setServe_channels : (s.setServe n v).channels = s.channels := rfl
@[simp] theorem setServe_reportTimer : (s.setServe n v).reportTimer = s.reportTimer := rfl
@[simp] theorem setServe_ports : (s.setServe n v).ports = s.ports := rfl
@[simp] theorem setServe_tap : (s.setServe n v).tap = s.tap := rfl
@[simp] theorem setServe_ageTimer : (s.setServe n v).ageTimer = s.ageTimer := rfl
@[simp] theorem setServe_terms : (s.setServe n v).terms = s.terms := rfl
@[simp] theorem setServe_kinds : (s.setServe n v).kinds = s.kinds := rfl
@[simp] theorem setServe_controlTimer : (s.setServe n v).controlTimer = s.controlTimer := rfl
@[simp] theorem setServe_demand : (s.setServe n v).demand = s.demand := rfl
@[simp] theorem setServe_dLim : (s.setServe n v).dLim = s.dLim := rfl
@[simp] theorem setServe_u : (s.setServe n v).u = s.u := rfl
@[simp] theorem setServe_fans : (s.setServe n v).fans = s.fans := rfl
@[simp] theorem setServe_doors : (s.setServe n v).doors = s.doors := rfl
@[simp] theorem setServe_lampMode : (s.setServe n v).lampMode = s.lampMode := rfl
@[simp] theorem setServe_sources : (s.setServe n v).sources = s.sources := rfl
@[simp] theorem setServe_lines : (s.setServe n v).lines = s.lines := rfl
@[simp] theorem setServe_callPoint : (s.setServe n v).callPoint = s.callPoint := rfl
@[simp] theorem setServe_callTimer : (s.setServe n v).callTimer = s.callTimer := rfl
@[simp] theorem setServe_plan : (s.setServe n v).plan = s.plan := rfl
@[simp] theorem setServe_stack : (s.setServe n v).stack = s.stack := rfl
@[simp] theorem setServe_dropped : (s.setServe n v).dropped = s.dropped := rfl
@[simp] theorem setServe_mask : (s.setServe n v).mask = s.mask := rfl
@[simp] theorem setServe_launchHold : (s.setServe n v).launchHold = s.launchHold := rfl
@[simp] theorem setServe_dirty : (s.setServe n v).dirty = s.dirty := rfl
@[simp] theorem setServe_rewritten : (s.setServe n v).rewritten = s.rewritten := rfl
@[simp] theorem setServe_storing : (s.setServe n v).storing = s.storing := rfl
@[simp] theorem setServe_loading : (s.setServe n v).loading = s.loading := rfl
@[simp] theorem setServe_lastFailing : (s.setServe n v).lastFailing = s.lastFailing := rfl
@[simp] theorem setServe_serial : (s.setServe n v).serial = s.serial := rfl
@[simp] theorem setServe_freeCount : (s.setServe n v).freeCount = s.freeCount := rfl
@[simp] theorem setServe_decisionDue : (s.setServe n v).decisionDue = s.decisionDue := rfl

end

/-! ### What `elapse` and `markDirty` leave -/

section
variable (s : State) (us : Nat) (g : Fin 15)

@[simp] theorem elapse_pending : (s.elapse us).pending = s.pending := rfl
@[simp] theorem elapse_clockSet : (s.elapse us).clockSet = s.clockSet := rfl
@[simp] theorem elapse_nodeState : (s.elapse us).nodeState = s.nodeState := rfl
@[simp] theorem elapse_resetCause : (s.elapse us).resetCause = s.resetCause := rfl
@[simp] theorem elapse_posA : (s.elapse us).posA = s.posA := rfl
@[simp] theorem elapse_posB : (s.elapse us).posB = s.posB := rfl
@[simp] theorem elapse_pins : (s.elapse us).pins = s.pins := rfl
@[simp] theorem elapse_node : (s.elapse us).node = s.node := rfl
@[simp] theorem elapse_channels : (s.elapse us).channels = s.channels := rfl
@[simp] theorem elapse_reportTimer : (s.elapse us).reportTimer = s.reportTimer := rfl
@[simp] theorem elapse_ports : (s.elapse us).ports = s.ports := rfl
@[simp] theorem elapse_tap : (s.elapse us).tap = s.tap := rfl
@[simp] theorem elapse_ageTimer : (s.elapse us).ageTimer = s.ageTimer := rfl
@[simp] theorem elapse_terms : (s.elapse us).terms = s.terms := rfl
@[simp] theorem elapse_kinds : (s.elapse us).kinds = s.kinds := rfl
@[simp] theorem elapse_controlTimer : (s.elapse us).controlTimer = s.controlTimer := rfl
@[simp] theorem elapse_demand : (s.elapse us).demand = s.demand := rfl
@[simp] theorem elapse_dLim : (s.elapse us).dLim = s.dLim := rfl
@[simp] theorem elapse_u : (s.elapse us).u = s.u := rfl
@[simp] theorem elapse_doors : (s.elapse us).doors = s.doors := rfl
@[simp] theorem elapse_lampMode : (s.elapse us).lampMode = s.lampMode := rfl
@[simp] theorem elapse_sources : (s.elapse us).sources = s.sources := rfl
@[simp] theorem elapse_lines : (s.elapse us).lines = s.lines := rfl
@[simp] theorem elapse_latch : (s.elapse us).latch = s.latch := rfl
@[simp] theorem elapse_callPoint : (s.elapse us).callPoint = s.callPoint := rfl
@[simp] theorem elapse_callTimer : (s.elapse us).callTimer = s.callTimer := rfl
@[simp] theorem elapse_plan : (s.elapse us).plan = s.plan := rfl
@[simp] theorem elapse_stack : (s.elapse us).stack = s.stack := rfl
@[simp] theorem elapse_dropped : (s.elapse us).dropped = s.dropped := rfl
@[simp] theorem elapse_mask : (s.elapse us).mask = s.mask := rfl
@[simp] theorem elapse_launchHold : (s.elapse us).launchHold = s.launchHold := rfl
@[simp] theorem elapse_dirty : (s.elapse us).dirty = s.dirty := rfl
@[simp] theorem elapse_rewritten : (s.elapse us).rewritten = s.rewritten := rfl
@[simp] theorem elapse_storing : (s.elapse us).storing = s.storing := rfl
@[simp] theorem elapse_loading : (s.elapse us).loading = s.loading := rfl
@[simp] theorem elapse_lastFailing : (s.elapse us).lastFailing = s.lastFailing := rfl
@[simp] theorem elapse_serial : (s.elapse us).serial = s.serial := rfl
@[simp] theorem elapse_freeCount : (s.elapse us).freeCount = s.freeCount := rfl
@[simp] theorem elapse_decisionDue : (s.elapse us).decisionDue = s.decisionDue := rfl
@[simp] theorem markDirty_pending : (s.markDirty g).pending = s.pending := rfl
@[simp] theorem markDirty_now : (s.markDirty g).now = s.now := rfl
@[simp] theorem markDirty_clock : (s.markDirty g).clock = s.clock := rfl
@[simp] theorem markDirty_clockSet : (s.markDirty g).clockSet = s.clockSet := rfl
@[simp] theorem markDirty_msPhase : (s.markDirty g).msPhase = s.msPhase := rfl
@[simp] theorem markDirty_nodeState : (s.markDirty g).nodeState = s.nodeState := rfl
@[simp] theorem markDirty_resetCause : (s.markDirty g).resetCause = s.resetCause := rfl
@[simp] theorem markDirty_posA : (s.markDirty g).posA = s.posA := rfl
@[simp] theorem markDirty_posB : (s.markDirty g).posB = s.posB := rfl
@[simp] theorem markDirty_pins : (s.markDirty g).pins = s.pins := rfl
@[simp] theorem markDirty_node : (s.markDirty g).node = s.node := rfl
@[simp] theorem markDirty_channels : (s.markDirty g).channels = s.channels := rfl
@[simp] theorem markDirty_reportTimer : (s.markDirty g).reportTimer = s.reportTimer := rfl
@[simp] theorem markDirty_ports : (s.markDirty g).ports = s.ports := rfl
@[simp] theorem markDirty_tap : (s.markDirty g).tap = s.tap := rfl
@[simp] theorem markDirty_ageTimer : (s.markDirty g).ageTimer = s.ageTimer := rfl
@[simp] theorem markDirty_terms : (s.markDirty g).terms = s.terms := rfl
@[simp] theorem markDirty_kinds : (s.markDirty g).kinds = s.kinds := rfl
@[simp] theorem markDirty_controlTimer : (s.markDirty g).controlTimer = s.controlTimer := rfl
@[simp] theorem markDirty_demand : (s.markDirty g).demand = s.demand := rfl
@[simp] theorem markDirty_dLim : (s.markDirty g).dLim = s.dLim := rfl
@[simp] theorem markDirty_u : (s.markDirty g).u = s.u := rfl
@[simp] theorem markDirty_fans : (s.markDirty g).fans = s.fans := rfl
@[simp] theorem markDirty_doors : (s.markDirty g).doors = s.doors := rfl
@[simp] theorem markDirty_lampMode : (s.markDirty g).lampMode = s.lampMode := rfl
@[simp] theorem markDirty_sources : (s.markDirty g).sources = s.sources := rfl
@[simp] theorem markDirty_lines : (s.markDirty g).lines = s.lines := rfl
@[simp] theorem markDirty_latch : (s.markDirty g).latch = s.latch := rfl
@[simp] theorem markDirty_callPoint : (s.markDirty g).callPoint = s.callPoint := rfl
@[simp] theorem markDirty_callTimer : (s.markDirty g).callTimer = s.callTimer := rfl
@[simp] theorem markDirty_plan : (s.markDirty g).plan = s.plan := rfl
@[simp] theorem markDirty_stack : (s.markDirty g).stack = s.stack := rfl
@[simp] theorem markDirty_dropped : (s.markDirty g).dropped = s.dropped := rfl
@[simp] theorem markDirty_mask : (s.markDirty g).mask = s.mask := rfl
@[simp] theorem markDirty_launchHold : (s.markDirty g).launchHold = s.launchHold := rfl
@[simp] theorem markDirty_storing : (s.markDirty g).storing = s.storing := rfl
@[simp] theorem markDirty_loading : (s.markDirty g).loading = s.loading := rfl
@[simp] theorem markDirty_lastFailing : (s.markDirty g).lastFailing = s.lastFailing := rfl
@[simp] theorem markDirty_serial : (s.markDirty g).serial = s.serial := rfl
@[simp] theorem markDirty_freeCount : (s.markDirty g).freeCount = s.freeCount := rfl
@[simp] theorem markDirty_decisionDue : (s.markDirty g).decisionDue = s.decisionDue := rfl

end

end Sys2Proof.Machine
end

