-- ==== Sys2Proof/Laws/Consequence.lean ====
section
/-! SUPPORT. Laws/Consequence.lean: what an event's consequences can do, said once: the frames they send, the occurrences
they make, and the renewals, door policies and launches of the plan unit. `Consequence E s t` bounds the difference
between s and t; each shared operation has one lemma that puts its result under it. -/

namespace Sys2Proof.Machine

/-! ### The duty of a request (R95, R101, R107) -/

/-- The effective bounds are in order (R95). -/
theorem effDmin_le_effDmax (c : FanCfg) : c.effDmin ≤ c.effDmax := le_max_right _ _

/-- The duty a channel starts or goes on with lies between the effective bounds (R101). -/
theorem startDuty_bounds (F : Fan) : F.cfg.effDmin ≤ F.startDuty ∧ F.startDuty ≤ F.cfg.effDmax :=
  ⟨le_max_left _ _, max_le (effDmin_le_effDmax _) (min_le_right _ _)⟩

/-- A duty within the effective bounds is started with as it came (R107). -/
theorem startDuty_of_bounds {F : Fan} (h : F.cfg.effDmin ≤ F.heldDuty) (h' : F.heldDuty ≤ F.cfg.effDmax) :
    F.startDuty = F.heldDuty := by
  unfold Fan.startDuty
  rw [min_eq_left h', max_eq_right h]

/-- The duty of a magnitude from 1 to 1000 lies between the effective bounds (R95). -/
theorem dutyOf_bounds (c : FanCfg) {mag : Nat} (h : mag ≠ 0) (h' : mag ≤ 1000) :
    c.effDmin ≤ c.dutyOf mag ∧ c.dutyOf mag ≤ c.effDmax := by
  have hb := effDmin_le_effDmax c
  have hm : (mag : Int) * (c.effDmax - c.effDmin) ≤ 1000 * (c.effDmax - c.effDmin) :=
    mul_le_mul_of_nonneg_right (by omega) (by omega)
  simp only [FanCfg.dutyOf, h, if_false, roundDiv]
  generalize (mag : Int) * (c.effDmax - c.effDmin) = q at hm ⊢
  omega

/-! ### What an event does to the parts -/

/-- What a hand-off or a re-formation does to a fan channel. -/
inductive FanMove (now : Nat) : Fan → Fan → Prop where
  | request (F : Fan) (c : Cmd) (duty : Nat) : FanMove now F (F.takeRequest now c duty)
  | handed (F : Fan) (c : Cmd) (duty : Nat) : FanMove now F { F with handed := c, handedDuty := duty }

/-- What a change of the stack does to a door. -/
inductive DoorMove (now : Nat) (starting : Bool) : Door → Door → Prop where
  | policy (D : Door) (p : Policy) : DoorMove now starting D ((D.policyChange now starting p).supervise now D)
  | lamp (D : Door) (old new : LampMode) : DoorMove now starting D (D.takeLamp now old new)

/-- What an offer of a frame does to a port: an append, and the grant decision at an idle transmitter. -/
inductive PortMove (now limit : Nat) : LinePort → LinePort → Prop where
  | append (P : LinePort) (q : QueueId) (f : Frame) (l : List Queued)
      (up : P.isUp = true) (hq : q.mayHold f = true)
      (h : assign q ⟨f, now⟩ (P.queue q) = (l, .appended)) :
      PortMove now limit P ((P.setQueue q l).decide now limit)

abbrev FanReach (now : Nat) : Fan → Fan → Prop := Relation.ReflTransGen (FanMove now)
abbrev DoorReach (now : Nat) (starting : Bool) : Door → Door → Prop := Relation.ReflTransGen (DoorMove now starting)
abbrev PortReach (now limit : Nat) : LinePort → LinePort → Prop := Relation.ReflTransGen (PortMove now limit)

theorem SameRecord.refl (e : LatchEntry) : SameRecord e e := ⟨rfl, rfl, rfl, rfl, rfl, rfl⟩

theorem SameRecord.trans {a b c : LatchEntry} (h : SameRecord a b) (g : SameRecord b c) : SameRecord a c :=
  ⟨g.asserted.trans h.asserted, g.count.trans h.count, g.unack.trans h.unack, g.first.trans h.first,
    g.last.trans h.last, g.origin.trans h.origin⟩

/-- t follows from s by consequences that make occurrences of no entry outside E. -/
structure Consequence (E : EntryId → Prop) (s t : State) : Prop where
  still : t.still = s.still
  fans : ∀ f : FanId, FanReach s.now s.fans[f] t.fans[f]
  doors : ∀ d : DoorId, DoorReach s.now s.isStarting s.doors[d] t.doors[d]
  ports : ∀ p, PortReach s.now s.node.sampleAgeLimit (s.port p) (t.port p)
  latch : ∀ n : EntryId, ¬ E n → SameRecord s.latch[n] t.latch[n]
  unack : ∀ n : EntryId, s.latch[n].unack = true → t.latch[n].unack = true

/-- The entry that sending a frame may touch: QUEUE_OVERRUN (R43). -/
def overrunOnly (n : EntryId) : Prop := n = srcOverrun

namespace Consequence

variable {E : EntryId → Prop} {s t r : State}

theorem refl (E : EntryId → Prop) (s : State) : Consequence E s s where
  still := rfl
  fans _ := .refl
  doors _ := .refl
  ports _ := .refl
  latch _ _ := .refl _
  unack _ h := h

theorem now (h : Consequence E s t) : t.now = s.now :=
  (congrArg State.now h.still : t.still.now = s.still.now)
theorem node (h : Consequence E s t) : t.node = s.node :=
  (congrArg State.node h.still : t.still.node = s.still.node)
theorem nodeState (h : Consequence E s t) : t.nodeState = s.nodeState :=
  (congrArg State.nodeState h.still : t.still.nodeState = s.still.nodeState)
theorem serial (h : Consequence E s t) : t.serial = s.serial :=
  (congrArg State.serial h.still : t.still.serial = s.still.serial)
theorem pending (h : Consequence E s t) : t.pending = s.pending :=
  (congrArg State.pending h.still : t.still.pending = s.still.pending)
theorem plan (h : Consequence E s t) : t.plan = s.plan :=
  (congrArg State.plan h.still : t.still.plan = s.still.plan)
theorem sources (h : Consequence E s t) : t.sources = s.sources :=
  (congrArg State.sources h.still : t.still.sources = s.still.sources)
theorem lines (h : Consequence E s t) : t.lines = s.lines :=
  (congrArg State.lines h.still : t.still.lines = s.still.lines)
theorem posA (h : Consequence E s t) : t.posA = s.posA :=
  (congrArg State.posA h.still : t.still.posA = s.still.posA)
theorem tap (h : Consequence E s t) : t.tap = s.tap :=
  (congrArg State.tap h.still : t.still.tap = s.still.tap)
theorem clock (h : Consequence E s t) : t.clock = s.clock :=
  (congrArg State.clock h.still : t.still.clock = s.still.clock)
theorem clockSet (h : Consequence E s t) : t.clockSet = s.clockSet :=
  (congrArg State.clockSet h.still : t.still.clockSet = s.still.clockSet)

theorem isStarting (h : Consequence E s t) : t.isStarting = s.isStarting := by
  simp only [State.isStarting, h.nodeState]

theorem trans (h : Consequence E s t) (g : Consequence E t r) : Consequence E s r where
  still := g.still.trans h.still
  fans f := (h.fans f).trans (h.now ▸ g.fans f)
  doors d := (h.doors d).trans (by have := g.doors d; rwa [h.now, h.isStarting] at this)
  ports p := (h.ports p).trans (by have := g.ports p; rwa [h.now, h.node] at this)
  latch n hn := (h.latch n hn).trans (g.latch n hn)
  unack n hn := g.unack n (h.unack n hn)

theorem mono {E' : EntryId → Prop} (hE : ∀ n, E n → E' n) (h : Consequence E s t) : Consequence E' s t :=
  { h with latch := fun n hn => h.latch n (fun e => hn (hE n e)) }

/-- An update of what is blanked alone, and of no fan, door, port or latch entry. -/
theorem of_untouched (still : t.still = s.still) (fans : t.fans = s.fans) (doors : t.doors = s.doors)
    (ports : t.ports = s.ports) (latch : t.latch = s.latch) : Consequence E s t where
  still := still
  fans f := fans ▸ .refl
  doors d := doors ▸ .refl
  ports p := by
    have : t.port p = s.port p := by cases p <;> simp only [State.port, ports]
    rw [this]
  latch n _ := latch ▸ .refl _
  unack n h := latch ▸ h

end Consequence

/-! ### Offers and reports -/

theorem offer_consequence (E : EntryId → Prop) (s : State) (p : Port) (q : QueueId) (f : Frame)
    (hq : q.mayHold f = true) : Consequence E s (s.offer p q f).1 := by
  unfold State.offer
  by_cases up : (s.port p).isUp = true
  · simp only [up, if_true]
    rcases ha : assign q ⟨f, s.now⟩ ((s.port p).queue q) with ⟨l, k⟩
    cases k
    · exact
        { still := by cases p <;> rfl
          fans := fun g => by simp only [setPort_fans]; exact .refl
          doors := fun d => by simp only [setPort_doors]; exact .refl
          ports := fun r => by
            rw [port_setPort_eq]
            by_cases hr : r = p
            · subst hr; rw [if_pos rfl]; exact .single (.append _ q f l up hq ha)
            · rw [if_neg hr]
          latch := fun n _ => by simp only [setPort_latch]; exact .refl _
          unack := fun n h => by simpa only [setPort_latch] using h }
    · exact .refl _ _
    · exact .refl _ _
  · simp only [up]
    exact .refl _ _

/-- An EVENT frame goes to a queue that may hold it (R38, R41). -/
theorem mayHold_event (f : EventFields) : (localQueue (.event f)).mayHold (.event f) = true := by
  unfold localQueue
  dsimp only
  split
  · simp_all [QueueId.mayHold]
  · simp_all [QueueId.mayHold]

/-- A frame that dispatch relays goes to a queue that may hold it (R38, R40). -/
theorem mayHold_relay (f : Frame) (h : f ≠ .fill) : (relayQueue f).mayHold f = true := by
  cases f with
  | fill => exact absurd rfl h
  | event g =>
    unfold relayQueue
    dsimp only
    split <;> simp_all [QueueId.mayHold]
  | _ => rfl

theorem offerBoth_consequence (E : EntryId → Prop) (s : State) (f : Frame)
    (hf : (localQueue f).mayHold f = true) : Consequence E s (s.offerBoth f).1 :=
  (offer_consequence E s .a _ f hf).trans (offer_consequence E _ .b _ f hf)

theorem countOccurrence_consequence {E : EntryId → Prop} (s : State) (n : EntryId) (o : Nat) (hn : E n) :
    Consequence E s (s.countOccurrence n o) where
  still := rfl
  fans _ := .refl
  doors _ := .refl
  ports p := by cases p <;> exact .refl
  latch m hm := by
    have h : m ≠ n := fun e => hm (e ▸ hn)
    have : (s.countOccurrence n o).latch[m] = s.latch[m] := by
      simp only [State.countOccurrence, latch_setLatch, if_neg h]
    rw [this]
    exact .refl _
  unack m hm := by
    simp only [State.countOccurrence, latch_setLatch]
    by_cases h : m = n
    · subst h; rw [if_pos rfl]; rfl
    · rw [if_neg h]; exact hm

theorem reportOverrun_consequence (E : EntryId → Prop) (s : State) : Consequence E s s.reportOverrun := by
  unfold State.reportOverrun
  split
  · exact offerBoth_consequence E _ _ (mayHold_event _)
  · exact .refl _ _

theorem overrun_consequence {E : EntryId → Prop} (s : State) (hE : E srcOverrun) : Consequence E s s.overrun :=
  (countOccurrence_consequence s srcOverrun s.posA hE).trans (reportOverrun_consequence E _)

theorem overruns_consequence {E : EntryId → Prop} (hE : E srcOverrun) :
    ∀ (k : Nat) (s : State), Consequence E s (State.overruns k s)
  | 0, s => .refl E s
  | k + 1, s => (overrun_consequence s hE).trans (overruns_consequence hE k s.overrun)

theorem sendLocal_consequence {E : EntryId → Prop} (hE : E srcOverrun) (s : State) (f : Frame)
    (hf : (localQueue f).mayHold f = true) : Consequence E s (s.sendLocal f) :=
  (offerBoth_consequence E s f hf).trans (overruns_consequence hE _ _)

theorem relay_consequence {E : EntryId → Prop} (hE : E srcOverrun) (s : State) (p : Port) (f : Frame)
    (hf : f ≠ .fill) : Consequence E s (s.relay p f) := by
  have h := offer_consequence E s p.opposite (relayQueue f) f (mayHold_relay f hf)
  unfold State.relay
  dsimp only
  split
  · exact h.trans (overrun_consequence _ hE)
  · exact h

theorem report_consequence {E : EntryId → Prop} (hE : E srcOverrun) (s : State) (n : EntryId) (t : Transition)
    (i : Option (Fin 64)) : Consequence E s (s.report n t i) :=
  sendLocal_consequence hE s _ (mayHold_event _)

theorem reportOccurred_consequence {E : EntryId → Prop} (hE : E srcOverrun) (s : State) (n : EntryId) :
    Consequence E s (s.reportOccurred n) := by
  unfold State.reportOccurred
  split
  · exact report_consequence hE _ _ _ _
  · exact .refl _ _

theorem occurFrom_consequence {E : EntryId → Prop} (hE : E srcOverrun) (s : State) (n : EntryId) (o : Nat)
    (hn : E n) : Consequence E s (s.occurFrom n o) :=
  (countOccurrence_consequence s n o hn).trans (reportOccurred_consequence hE _ n)

theorem occur_consequence {E : EntryId → Prop} (hE : E srcOverrun) (s : State) (n : EntryId) (hn : E n) :
    Consequence E s (s.occur n) :=
  occurFrom_consequence hE s n s.posA hn

theorem markCleared_consequence {E : EntryId → Prop} (s : State) (n : EntryId) (hn : E n) :
    Consequence E s (s.markCleared n) where
  still := rfl
  fans _ := .refl
  doors _ := .refl
  ports p := by cases p <;> exact .refl
  latch m hm := by
    have h : m ≠ n := fun e => hm (e ▸ hn)
    simp only [State.markCleared, State.setStack, latch_setLatch, if_neg h]
    exact .refl _
  unack m hm := by
    simp only [State.markCleared, State.setStack, latch_setLatch]
    by_cases h : m = n
    · subst h; rw [if_pos rfl]; exact hm
    · rw [if_neg h]; exact hm

theorem reportCleared_consequence {E : EntryId → Prop} (hE : E srcOverrun) (s : State) (n : EntryId) (code : Word) :
    Consequence E s (s.reportCleared n code) := by
  unfold State.reportCleared
  split
  · exact sendLocal_consequence hE _ _ (mayHold_event _)
  · exact .refl _ _

theorem clearWithCode_consequence {E : EntryId → Prop} (hE : E srcOverrun) (s : State) (n : EntryId) (code : Word)
    (hn : E n) : Consequence E s (s.clearWithCode n code) := by
  unfold State.clearWithCode
  split
  · exact (markCleared_consequence s n hn).trans (reportCleared_consequence hE _ n code)
  · exact .refl _ _

theorem clearSource_consequence {E : EntryId → Prop} (hE : E srcOverrun) (s : State) (n : EntryId) (hn : E n) :
    Consequence E s (s.clearSource n) :=
  clearWithCode_consequence hE s n _ hn

theorem follow_consequence {E : EntryId → Prop} (hE : E srcOverrun) (s : State) (n : EntryId) (was is : Bool)
    (hn : E n) : Consequence E s (s.follow n was is) := by
  unfold State.follow
  split
  · exact occur_consequence hE s n hn
  · split
    · exact clearSource_consequence hE s n hn
    · exact .refl _ _

/-! ### Fans and doors -/

theorem setFan_consequence {E : EntryId → Prop} (s : State) (f : FanId) (F : Fan) (h : FanReach s.now s.fans[f] F) :
    Consequence E s (s.setFan f F) where
  still := rfl
  fans g := by
    rw [fans_setFan]
    by_cases e : g = f
    · subst e; rw [if_pos rfl]; exact h
    · rw [if_neg e]
  doors _ := .refl
  ports p := by cases p <;> exact .refl
  latch _ _ := .refl _
  unack _ h := h

theorem setDoor_consequence {E : EntryId → Prop} (s : State) (d : DoorId) (D : Door)
    (h : DoorReach s.now s.isStarting s.doors[d] D) : Consequence E s (s.setDoor d D) where
  still := rfl
  fans _ := .refl
  doors g := by
    rw [doors_setDoor]
    by_cases e : g = d
    · subst e; rw [if_pos rfl]; exact h
    · rw [if_neg e]
  ports p := by cases p <;> exact .refl
  latch _ _ := .refl _
  unack _ h := h

theorem reformPassage_consequence (E : EntryId → Prop) (s : State) : Consequence E s s.reformPassage :=
  setFan_consequence s _ _ (.single (.request _ _ _))

theorem reformJet_consequence (E : EntryId → Prop) (s : State) (f : FanId) : Consequence E s (s.reformJet f) :=
  setFan_consequence s _ _ (.single (.request _ _ _))

theorem handJet_consequence (E : EntryId → Prop) (s : State) (f : FanId) (c : Cmd) :
    Consequence E s (s.handJet f c) :=
  setFan_consequence s _ _ ((Relation.ReflTransGen.single (.handed _ _ _)).tail (.request _ _ _))

theorem handPassage_consequence (E : EntryId → Prop) (s : State) : Consequence E s s.handPassage :=
  (setFan_consequence s _ _ (.single (.handed _ _ _))).trans (reformPassage_consequence E _)

theorem handOff_consequence (E : EntryId → Prop) (s : State) : Consequence E s s.handOff :=
  ((handJet_consequence E s _ _).trans (handJet_consequence E _ _ _)).trans (handPassage_consequence E _)

theorem seeded_consequence (E : EntryId → Prop) (s : State) : Consequence E s s.seeded := by
  unfold State.seeded
  split
  · exact .of_untouched rfl rfl rfl rfl rfl
  all_goals exact .refl E s

theorem renew_consequence (E : EntryId → Prop) (s : State) : Consequence E s s.renew :=
  (seeded_consequence E s).trans (handOff_consequence E _)

theorem passageFollows_consequence (E : EntryId → Prop) (s : State) (was is : Bool) :
    Consequence E s (s.passageFollows was is) := by
  unfold State.passageFollows
  split
  · exact .refl _ _
  · exact reformPassage_consequence E s

/-- A re-evaluation places the door RELEASED or SECURED (R123). -/
theorem reevaluate_state (D : Door) (now : Nat) (starting : Bool) :
    (∃ c, (D.reevaluate now starting).state = .released c) ∨ (D.reevaluate now starting).state = .secured := by
  unfold Door.reevaluate Door.placed
  split
  · exact .inl ⟨_, rfl⟩
  · exact .inr rfl

/-- A change of policy neither enters nor leaves FAULT (R130, R131). -/
theorem takePolicy_fault (D : Door) (now : Nat) (starting : Bool) :
    ((D.takePolicy now starting).state == .fault) = (D.state == .fault) := by
  unfold Door.takePolicy Door.enterHeld
  cases h : D.state with
  | released c =>
    dsimp only
    split
    · rfl
    · rcases reevaluate_state D now starting with ⟨c, e⟩ | e <;> rw [e] <;> rfl
  | _ => dsimp only; (try split) <;> simp_all

theorem policyChange_fault (D : Door) (now : Nat) (starting : Bool) (p : Policy) :
    ((D.policyChange now starting p).state == .fault) = (D.state == .fault) := by
  unfold Door.policyChange
  split
  · rfl
  · exact takePolicy_fault _ now starting

theorem follow_same (s : State) (n : EntryId) (b : Bool) : s.follow n b b = s := by
  cases b <;> rfl

theorem repolicy_consequence {E : EntryId → Prop} (hE : ∀ n, settleSide n → E n) (s : State) (d : DoorId) :
    Consequence E s (s.repolicy d) := by
  have hO : E srcOverrun := hE _ (.inl rfl)
  have hH : E (srcHeld d) := hE _ (by fin_cases d <;> simp [settleSide])
  unfold State.repolicy State.doorTo
  rw [policyChange_fault, follow_same]
  have h1 : Consequence E s
      (s.setDoor d ((s.doors[d].policyChange s.now s.isStarting (s.effectivePolicy d)).supervise s.now s.doors[d])) :=
    setDoor_consequence s d _ (.single (.policy _ _))
  exact (h1.trans (follow_consequence hO _ _ _ _ hH)).trans (passageFollows_consequence E _ _ _)

theorem repolicyBoth_consequence {E : EntryId → Prop} (hE : ∀ n, settleSide n → E n) (s : State) :
    Consequence E s s.repolicyBoth :=
  (repolicy_consequence hE s 0).trans (repolicy_consequence hE _ 1)

theorem retakeLamp_consequence (E : EntryId → Prop) (s : State) : Consequence E s s.retakeLamp where
  still := rfl
  fans _ := .refl
  doors d := by
    have : s.retakeLamp.doors[d] = s.doors[d].takeLamp s.now s.lampMode s.lampDirective := by
      simp [State.retakeLamp]
    rw [this]
    exact .single (.lamp _ _ _)
  ports p := by cases p <;> exact .refl
  latch _ _ := .refl _
  unack _ h := h

theorem afterStackChange_consequence {E : EntryId → Prop} (hE : ∀ n, settleSide n → E n) (s : State) :
    Consequence E s s.afterStackChange :=
  ((renew_consequence E s).trans (repolicyBoth_consequence hE _)).trans (retakeLamp_consequence E _)

/-! ### The plan unit -/

theorem setServe_consequence (E : EntryId → Prop) (s : State) (n : EntryId) (v : Serve) :
    Consequence E s (s.setServe n v) where
  still := rfl
  fans _ := .refl
  doors _ := .refl
  ports p := by cases p <;> exact .refl
  latch m _ := by
    simp only [State.setServe, latch_setLatch]
    by_cases h : m = n
    · subst h; rw [if_pos rfl]; exact ⟨rfl, rfl, rfl, rfl, rfl, rfl⟩
    · rw [if_neg h]; exact .refl _
  unack m hm := by
    simp only [State.setServe, latch_setLatch]
    by_cases h : m = n
    · subst h; simpa using hm
    · rw [if_neg h]; exact hm

theorem setStack_consequence (E : EntryId → Prop) (s : State) (l : List Context) : Consequence E s (s.setStack l) :=
  .of_untouched rfl rfl rfl rfl rfl

theorem oweDecision_consequence (E : EntryId → Prop) (s : State) : Consequence E s s.oweDecision :=
  .of_untouched rfl rfl rfl rfl rfl

theorem spread_consequence {E : EntryId → Prop} (hO : E srcOverrun) (s : State) (p : PlanStep) :
    Consequence E s (s.spread p) := by
  unfold State.spread
  split
  · exact .refl _ _
  · exact sendLocal_consequence hO _ _ rfl

theorem enterStep_consequence {E : EntryId → Prop} (hO : E srcOverrun) (s : State) (i : Fin 64) :
    Consequence E s (s.enterStep i) := by
  unfold State.enterStep
  split
  · exact .refl _ _
  · exact (setStack_consequence E s _).trans (spread_consequence hO _ _)

theorem endContext_consequence {E : EntryId → Prop} (hO : E srcOverrun) (s : State) :
    Consequence E s s.endContext := by
  unfold State.endContext
  split
  · exact .refl _ _
  · exact (((report_consequence hO _ _ _ _).trans (setServe_consequence E _ _ _)).trans
      (setStack_consequence E _ _)).trans (oweDecision_consequence E _)

theorem resume_consequence {E : EntryId → Prop} (hO : E srcOverrun) :
    ∀ (k : Nat) (s : State), Consequence E s (State.resume k s)
  | 0, s => .refl E s
  | k + 1, s => by
    unfold State.resume
    split
    · exact .refl _ _
    · split
      · split
        · exact enterStep_consequence hO s _
        · exact (endContext_consequence hO s).trans (resume_consequence hO k _)
      · exact setStack_consequence E s _

theorem endActive_consequence {E : EntryId → Prop} (hO : E srcOverrun) (s : State) : Consequence E s s.endActive :=
  (endContext_consequence hO s).trans (resume_consequence hO _ _)

theorem endStep_consequence {E : EntryId → Prop} (hO : E srcOverrun) (s : State) : Consequence E s s.endStep := by
  unfold State.endStep
  split
  · exact .refl _ _
  · split
    · exact enterStep_consequence hO s _
    · exact endActive_consequence hO s

theorem endAll_consequence {E : EntryId → Prop} (hO : E srcOverrun) :
    ∀ (k : Nat) (s : State), Consequence E s (State.endAll k s)
  | 0, s => .refl E s
  | k + 1, s => (endContext_consequence hO s).trans (endAll_consequence hO k _)

theorem clearActive_consequence {E : EntryId → Prop} (hE : ∀ n, settleSide n → E n) (s : State) :
    Consequence E s s.clearActive := by
  unfold State.clearActive
  split
  · exact .refl _ _
  · exact (endActive_consequence (hE _ (.inl rfl)) s).trans (afterStackChange_consequence hE _)

theorem clearAll_consequence {E : EntryId → Prop} (hE : ∀ n, settleSide n → E n) (s : State) :
    Consequence E s s.clearAll := by
  unfold State.clearAll
  split
  · exact .refl _ _
  · exact (endAll_consequence (hE _ (.inl rfl)) _ s).trans (afterStackChange_consequence hE _)

theorem saveActive_consequence (E : EntryId → Prop) (s : State) : Consequence E s s.saveActive := by
  unfold State.saveActive
  split
  · exact .refl _ _
  · exact setStack_consequence E s _

theorem recordDrop_consequence (E : EntryId → Prop) (s : State) (c : Context) : Consequence E s (s.recordDrop c) :=
  .of_untouched rfl rfl rfl rfl rfl

theorem dropOldest_consequence {E : EntryId → Prop} (hE : ∀ n, settleSide n → E n) (s : State) :
    Consequence E s s.dropOldest := by
  have hO : E srcOverrun := hE _ (.inl rfl)
  have hD : E srcPlanDropped := hE _ (.inr (.inr (.inr rfl)))
  unfold State.dropOldest
  split
  · exact .refl _ _
  · exact ((((recordDrop_consequence E s _).trans (report_consequence hO _ _ _ _)).trans
      (setServe_consequence E _ _ _)).trans (oweDecision_consequence E _)).trans (occur_consequence hO _ _ hD)

theorem makeRoom_consequence {E : EntryId → Prop} (hE : ∀ n, settleSide n → E n) (s : State) :
    Consequence E s s.makeRoom := by
  unfold State.makeRoom
  split
  · exact dropOldest_consequence hE s
  · exact .refl _ _

theorem pushContext_consequence (E : EntryId → Prop) (s : State) (n : EntryId) (i : Fin 64) :
    Consequence E s (s.pushContext n i) :=
  (setStack_consequence E s _).trans (setServe_consequence E _ n .served)

theorem startHold_consequence (E : EntryId → Prop) (s : State) : Consequence E s s.startHold :=
  .of_untouched rfl rfl rfl rfl rfl

theorem launch_consequence {E : EntryId → Prop} (hE : ∀ n, settleSide n → E n) (s : State) (n : EntryId)
    (i : Fin 64) : Consequence E s (s.launch n i) := by
  have hO : E srcOverrun := hE _ (.inl rfl)
  exact (((((saveActive_consequence E s).trans (makeRoom_consequence hE _)).trans
    (pushContext_consequence E _ n i)).trans (report_consequence hO _ n .launched (some i))).trans
    (enterStep_consequence hO _ i)).trans (startHold_consequence E _)

theorem decideN_consequence {E : EntryId → Prop} (hE : ∀ n, settleSide n → E n) :
    ∀ (k : Nat) (s : State), Consequence E s (State.decideN k s)
  | 0, s => .refl E s
  | k + 1, s => by
    unfold State.decideN
    split
    · exact .refl _ _
    · exact ((launch_consequence hE s _ _).trans (afterStackChange_consequence hE _)).trans
        (decideN_consequence hE k _)

theorem settleStep_consequence {E : EntryId → Prop} (hE : ∀ n, settleSide n → E n) (s : State) :
    Consequence E s s.settleStep := by
  unfold State.settleStep
  split
  · exact .refl _ _
  · split
    · exact (endStep_consequence (hE _ (.inl rfl)) s).trans (afterStackChange_consequence hE _)
    · exact .refl _ _

theorem settledDecision_consequence (E : EntryId → Prop) (s : State) : Consequence E s s.settledDecision :=
  .of_untouched rfl rfl rfl rfl rfl

theorem settleDecisions_consequence {E : EntryId → Prop} (hE : ∀ n, settleSide n → E n) (s : State) :
    Consequence E s s.settleDecisions := by
  unfold State.settleDecisions
  split
  · exact (decideN_consequence hE 8 s).trans (settledDecision_consequence E _)
  · exact .refl _ _

/-- All that `settle` can do. -/
theorem settle_consequence (s : State) : Consequence settleSide s s.settle :=
  (settleStep_consequence (fun _ h => h) s).trans (settleDecisions_consequence (fun _ h => h) _)

theorem stepExpired_consequence (s : State) : Consequence settleSide s s.stepExpired := by
  unfold State.stepExpired
  split
  · exact .refl _ _
  · split
    · exact (endStep_consequence (.inl rfl) s).trans (afterStackChange_consequence (fun _ h => h) _)
    · exact .refl _ _
    · exact .refl _ _

end Sys2Proof.Machine
end

