-- ==== Sys2Proof/Laws/Memory.lean ====
section
/-! SUPPORT. Laws/Memory.lean: the serial memory's canonical form is kept by every store, what a byte or a word reads after
one, and the check word of R19. -/

namespace Sys2Proof.Machine

/-! ### The canonical form -/

theorem wfFrom_mono {lo hi : Nat} (h : lo ≤ hi) : ∀ m : Memory, Memory.wfFrom hi m = true → Memory.wfFrom lo m = true
  | [], _ => rfl
  | (a, v) :: m, hm => by
    simp only [Memory.wfFrom, Bool.and_eq_true, decide_eq_true_eq] at hm ⊢
    exact ⟨⟨⟨by omega, hm.1.1.2⟩, hm.1.2⟩, hm.2⟩

theorem wfFrom_put (a : Nat) (v : Byte) (ha : a < Memory.size) :
    ∀ (m : Memory) (lo : Nat), lo ≤ a → Memory.wfFrom lo m = true → Memory.wfFrom lo (m.put a v) = true
  | [], lo, hlo, _ => by
    unfold Memory.put
    split
    · rfl
    · rename_i hv
      simp [Memory.wfFrom, hlo, ha, hv]
  | (b, w) :: m, lo, hlo, hm => by
    simp only [Memory.wfFrom, Bool.and_eq_true, decide_eq_true_eq, bne_iff_ne, ne_eq] at hm
    obtain ⟨⟨⟨h1, h2⟩, h3⟩, h4⟩ := hm
    unfold Memory.put
    split
    · rename_i hab
      split
      · simp [Memory.wfFrom, h1, h2, h3, h4]
      · rename_i hv
        have hb : a + 1 ≤ b := hab
        simp [Memory.wfFrom, hlo, ha, hv, hb, h2, h3, h4]
    · split
      · rename_i e
        subst e
        split
        · exact wfFrom_mono (by omega) m h4
        · rename_i hv
          simp [Memory.wfFrom, hlo, ha, hv, h4]
      · rename_i hab hne
        have hlt : b + 1 ≤ a := by omega
        have := wfFrom_put a v ha m (b + 1) hlt h4
        simp [Memory.wfFrom, h1, h2, h3, this]

/-- A byte stored keeps the canonical form. -/
theorem wf_putByte (m : Memory) (a : Nat) (v : Byte) (h : m.wf = true) : (m.putByte a v).wf = true := by
  unfold Memory.putByte
  split
  · rename_i ha; exact wfFrom_put a v ha m 0 (Nat.zero_le a) h
  · exact h

theorem wf_putWord (m : Memory) (a : Nat) (w : Word) (h : m.wf = true) : (m.putWord a w).wf = true :=
  wf_putByte _ _ _ (wf_putByte _ _ _ h)

theorem wf_putWords : ∀ (ws : List Word) (m : Memory) (a : Nat), m.wf = true → (m.putWords a ws).wf = true
  | [], _, _, h => h
  | w :: ws, m, a, h => wf_putWords ws _ (a + 1) (wf_putWord m a w h)

theorem wf_serialWrite (s : State) (r : SerialAnswer) (a : Nat) (ws : List Word) (h : s.serial.wf = true) :
    (s.serialWrite r a ws).serial.wf = true := by
  cases r <;> exact wf_putWords _ _ _ h

theorem wf_flipWord (m : Memory) (a : Nat) (h : m.wf = true) : (m.flipWord a).wf = true := wf_putWord _ _ _ h

theorem wf_failPlace (g : Fin 15) (m : Memory) (h : m.wf = true) : (failPlace g m).wf = true := by
  unfold failPlace; split
  · exact wf_flipWord _ _ h
  · exact h

theorem wf_failHeader (m : Memory) (h : m.wf = true) : (failHeader m).wf = true := by
  unfold failHeader; split
  · exact wf_flipWord _ _ h
  · exact h

theorem wf_serialShown (s : State) (r : SerialAnswer) (a n : Nat) (h : s.serial.wf = true) :
    (s.serialShown r a n).wf = true := by
  cases r
  · exact h
  · exact wf_putWords _ _ _ h

theorem wf_serialVerified (s : State) (r : SerialAnswer) (a : Nat) (ws : List Word) (fail : Memory → Memory)
    (hf : ∀ m : Memory, m.wf = true → (fail m).wf = true) (h : s.serial.wf = true) :
    (s.serialVerified r a ws fail).wf = true := by
  unfold State.serialVerified; split
  · exact wf_serialShown _ _ _ _ h
  · exact hf _ (wf_serialShown _ _ _ _ h)

theorem wf_cutShort (s : State) (h : s.serial.wf = true) : s.cutShort.1.wf = true := by
  unfold State.cutShort
  split
  · exact h
  · exact wf_putWords _ _ _ h
  · exact wf_putWords _ _ _ h

theorem reset_serial_wf : State.reset.serial.wf = true := rfl

/-! ### What a byte reads after a store -/

/-- Below the listed addresses every byte is blank. -/
theorem get_below : ∀ (m : Memory) (lo a : Nat), Memory.wfFrom lo m = true → a < lo → m.get a = Memory.blank
  | [], _, _, _, _ => rfl
  | (b, w) :: m, lo, a, h, ha => by
    simp only [Memory.wfFrom, Bool.and_eq_true, decide_eq_true_eq] at h
    have hb : a ≠ b := by omega
    unfold Memory.get
    rw [if_neg hb]
    exact get_below m (b + 1) a h.2 (by omega)

theorem get_put_from (a x : Nat) (v : Byte) :
    ∀ (m : Memory) (lo : Nat), Memory.wfFrom lo m = true → (m.put a v).get x = if x = a then v else m.get x
  | [], _, _ => by
    unfold Memory.put
    split
    · rename_i hv; split
      · rw [hv]; rfl
      · rfl
    · rfl
  | (b, w) :: m, lo, h => by
    simp only [Memory.wfFrom, Bool.and_eq_true, decide_eq_true_eq] at h
    unfold Memory.put
    split
    · rename_i hab
      split
      · rename_i hv
        split
        · rename_i e
          subst e
          have hne : x ≠ b := by omega
          rw [hv]
          show (if x = b then w else Memory.get m x) = _
          rw [if_neg hne]
          exact get_below m (b + 1) x h.2 (by omega)
        · rfl
      · rfl
    · split
      · rename_i e
        subst e
        split
        · rename_i hv
          split
          · rename_i e
            subst e
            rw [hv]
            exact get_below m (x + 1) x h.2 (by omega)
          · rename_i hne
            show _ = if x = a then w else Memory.get m x
            rw [if_neg hne]
        · show (if x = a then v else Memory.get m x) = _
          split
          · rfl
          · rename_i hne
            show _ = if x = a then w else Memory.get m x
            rw [if_neg hne]
      · rename_i hab hne
        show (if x = b then w else Memory.get (Memory.put m a v) x) = _
        rw [get_put_from a x v m (b + 1) h.2]
        show _ = if x = a then v else if x = b then w else Memory.get m x
        by_cases hxb : x = b
        · subst hxb
          rw [if_pos rfl, if_neg (fun e => hne e.symm), if_pos rfl]
        · rw [if_neg hxb, if_neg hxb]

/-- A byte of the memory stored reads back, and no other byte changes. -/
theorem get_putByte (m : Memory) (a x : Nat) (v : Byte) (h : m.wf = true) (ha : a < Memory.size) :
    (m.putByte a v).get x = if x = a then v else m.get x := by
  unfold Memory.putByte
  rw [if_pos ha]
  exact get_put_from a x v m 0 h

/-- A word is its two bytes. -/
theorem word_bytes (w : Word) : w.extractLsb' 8 8 ++ w.extractLsb' 0 8 = w := by
  apply BitVec.eq_of_getLsbD_eq
  intro i hi
  rw [BitVec.getLsbD_append]
  by_cases h : i < 8
  · simp [h]
  · simp [h, show i - 8 < 8 by omega, show 8 + (i - 8) = i by omega]

/-- A word of the memory stored reads back, and no other word changes. -/
theorem word_putWord (m : Memory) (a x : Nat) (w : Word) (h : m.wf = true) (ha : 2 * a + 1 < Memory.size) :
    (m.putWord a w).word x = if x = a then w else m.word x := by
  have h1 := wf_putByte m (2 * a) (w.extractLsb' 8 8) h
  unfold Memory.putWord Memory.word
  rw [get_putByte _ _ _ _ h1 ha, get_putByte _ _ _ _ h1 ha, get_putByte _ _ _ _ h (by omega),
    get_putByte _ _ _ _ h (by omega)]
  by_cases e : x = a
  · subst e
    rw [if_neg (by omega), if_pos rfl, if_pos rfl, if_pos rfl]
    exact word_bytes w
  · rw [if_neg (by omega), if_neg (by omega), if_neg (by omega), if_neg (by omega), if_neg e]

/-- Words stored leave every word below them and above them as it was. -/
theorem word_putWords_out : ∀ (ws : List Word) (m : Memory) (a x : Nat), m.wf = true →
    2 * (a + ws.length) ≤ Memory.size → x < a ∨ a + ws.length ≤ x → (m.putWords a ws).word x = m.word x
  | [], _, _, _, _, _, _ => rfl
  | w :: ws, m, a, x, h, hb, hx => by
    simp only [List.length_cons] at hb hx
    show ((m.putWord a w).putWords (a + 1) ws).word x = _
    rw [word_putWords_out ws _ (a + 1) x (wf_putWord m a w h) (by omega) (by omega),
      word_putWord m a x w h (by omega), if_neg (by omega)]

/-- Words stored inside the memory read back. -/
theorem words_putWords : ∀ (ws : List Word) (m : Memory) (a : Nat), m.wf = true →
    2 * (a + ws.length) ≤ Memory.size → (m.putWords a ws).words a ws.length = ws
  | [], _, _, _, _ => rfl
  | w :: ws, m, a, h, hb => by
    simp only [List.length_cons] at hb
    show ((m.putWord a w).putWords (a + 1) ws).word a :: ((m.putWord a w).putWords (a + 1) ws).words (a + 1) ws.length
      = w :: ws
    rw [words_putWords ws _ (a + 1) (wf_putWord m a w h) (by omega),
      word_putWords_out ws _ (a + 1) a (wf_putWord m a w h) (by omega) (by omega),
      word_putWord m a a w h (by omega), if_pos rfl]

/-- Every place of the image lies inside the memory (R182). -/
theorem placeOf_inside (g : Fin 15) : 2 * (placeOf g + (3 + dataLength g)) ≤ Memory.size := by
  revert g; decide

/-! ### The check word -/

theorem onesAdd_toNat (a b : Word) :
    (onesAdd a b).toNat = if a.toNat + b.toNat < 65536 then a.toNat + b.toNat else a.toNat + b.toNat - 65535 := by
  unfold onesAdd
  have ha := a.isLt
  have hb := b.isLt
  split
  · rename_i h
    rw [BitVec.toNat_add, Nat.mod_eq_of_lt h]
  · rename_i h
    rw [BitVec.toNat_add, BitVec.toNat_add, show (1 : Word).toNat = 1 from rfl]
    omega

/-- Words pass a receiver's test with their own check word (R19). -/
theorem checkPasses_checkWord (ws : List Word) : checkPasses ws (checkWord ws) = true := by
  unfold checkPasses checkWord
  rw [beq_iff_eq]
  apply BitVec.eq_of_toNat_eq
  rw [onesAdd_toNat, BitVec.toNat_not]
  have h := (onesSum ws).isLt
  have e : (65535#16 : Word).toNat = 65535 := rfl
  rw [show ((0xFFFF : Word)).toNat = 65535 from rfl]
  split <;> omega

/-- A spoiled check word does not pass (log entry 7). -/
theorem spoil_fails (ws : List Word) (c : Word) : checkPasses ws (spoil (checkPasses ws c) c) = false := by
  unfold spoil
  split
  · rename_i h
    unfold checkPasses at h ⊢
    rw [beq_iff_eq] at h
    have h' := congrArg BitVec.toNat h
    rw [onesAdd_toNat] at h'
    rw [beq_eq_false_iff_ne]
    intro k
    have k' := congrArg BitVec.toNat k
    rw [onesAdd_toNat] at k'
    have hs := (onesSum ws).isLt
    have hc := c.isLt
    have hx : (c ^^^ 1).toNat = if c.toNat % 2 = 0 then c.toNat + 1 else c.toNat - 1 := by
      rw [BitVec.toNat_xor, show (1 : Word).toNat = 1 from rfl]
      split
      · rename_i he; exact Nat.xor_one_of_even (Nat.even_iff.mpr he)
      · rename_i he; exact Nat.xor_one_of_odd (Nat.odd_iff.mpr (by omega))
    rw [show ((0xFFFF : Word)).toNat = 65535 from rfl] at h' k'
    rw [hx] at k'
    split at h' <;> split at k' <;> split at k' <;> omega
  · rename_i h; exact Bool.eq_false_of_not_eq_true h

/-- A word that passes its check does not pass with its lowest bit inverted. -/
theorem flipped_fails (ws : List Word) (c : Word) (h : checkPasses ws c = true) : checkPasses ws (c ^^^ 1) = false := by
  have := spoil_fails ws c
  rwa [h, spoil, if_pos rfl] at this

/-! ### A failed verify -/

theorem length_words : ∀ (n : Nat) (m : Memory) (a : Nat), (m.words a n).length = n
  | 0, _, _ => rfl
  | n + 1, m, a => congrArg (· + 1) (length_words n m (a + 1))

/-- Words read the same from memories that agree on each of them. -/
theorem words_congr : ∀ (n : Nat) (m m' : Memory) (a : Nat), (∀ x, a ≤ x → x < a + n → m.word x = m'.word x) →
    m.words a n = m'.words a n
  | 0, _, _, _, _ => rfl
  | n + 1, m, m', a, h => by
    show m.word a :: m.words (a + 1) n = m'.word a :: m'.words (a + 1) n
    rw [h a (Nat.le_refl a) (by omega), words_congr n m m' (a + 1) fun x h1 h2 => h x (by omega) (by omega)]

/-- A word inverted in its lowest bit, and every other word as it was. -/
theorem word_flipWord (m : Memory) (a x : Nat) (h : m.wf = true) (ha : 2 * a + 1 < Memory.size) :
    (m.flipWord a).word x = if x = a then m.word a ^^^ 1 else m.word x := word_putWord m a x _ h ha

/-- A place that a verify failed on fails its check at the next load (R184). -/
theorem failPlace_fails (g : Fin 15) (m : Memory) (h : m.wf = true) :
    recordData g ((failPlace g m).words (placeOf g) (3 + dataLength g)) = none := by
  unfold failPlace
  split
  · rename_i hs
    have hin := placeOf_inside g
    have e : ∀ k : Memory, k.words (placeOf g) (3 + dataLength g) =
        k.word (placeOf g) :: k.word (placeOf g + 1) :: k.word (placeOf g + 2) ::
          k.words (placeOf g + 3) (dataLength g) := by
      intro k; rw [Nat.add_comm 3]; rfl
    have hw := fun x => word_flipWord m (placeOf g + 2) x h (by omega)
    rw [e] at hs ⊢
    rw [hw, hw, hw, if_neg (by omega), if_neg (by omega), if_pos rfl,
      words_congr _ _ m (placeOf g + 3) fun x hx _ => (hw x).trans (if_neg (by omega))]
    unfold recordData at hs ⊢
    simp only at hs ⊢
    split at hs
    · rename_i hp
      rw [if_neg]
      rintro ⟨_, _, _, hc⟩
      rw [flipped_fails _ _ hp.2.2.2] at hc
      exact Bool.false_ne_true hc
    · exact absurd hs (by decide)
  · rename_i hs
    exact Option.not_isSome_iff_eq_none.mp hs

/-- The header that a verify failed on fails at the next load (R184). -/
theorem failHeader_fails (m : Memory) (h : m.wf = true) : headerOf ((failHeader m).words 0 5) = none := by
  unfold failHeader
  split
  · rename_i hs
    have hw := fun x => word_flipWord m 4 x h (by decide)
    have e : ∀ k : Memory, k.words 0 5 = [k.word 0, k.word 1, k.word 2, k.word 3, k.word 4] := fun _ => rfl
    rw [e] at hs ⊢
    rw [hw, hw, hw, hw, hw, if_neg (by decide), if_neg (by decide), if_neg (by decide), if_neg (by decide), if_pos rfl]
    unfold headerOf at hs ⊢
    simp only at hs ⊢
    split at hs
    · rename_i hp
      rw [if_neg]
      rintro ⟨_, _, hc⟩
      rw [flipped_fails _ _ hp.2.2] at hc
      exact Bool.false_ne_true hc
    · exact absurd hs (by decide)
  · rename_i hs
    exact Option.not_isSome_iff_eq_none.mp hs

end Sys2Proof.Machine
end

