-- ==== Sys2Proof/Laws/PerInstr.lean ====
section
/-! SUPPORT. Laws/PerInstr.lean: the family Form, said of every command: a well-formed command that is the arrival of a good
frame is what that frame is dispatched as. -/

namespace Sys2Proof.Laws

open Sys2Proof.Machine

/-- The arrival port and the frame of a command that is a good frame of a known kind (2.5, R179); a request's distance is 0. -/
def frameOf : Instr → Option (Port × Frame)
  | .fill p => some (p, .fill)
  | .count p side k => some (p, .count side k)
  | .sample p f => some (p, .sample f)
  | .event p f => some (p, .event f)
  | .trigger p f => some (p, .trigger f)
  | .mgmtReply p f => some (p, .mgmtReply f)
  | .mgmtReqRelay p f => some (p, .mgmtReq f)
  | .time p clock => some (p, .time clock)
  | .read p r => some (p, .mgmtReq ⟨0, 1, r⟩)
  | .write p r => some (p, .mgmtReq ⟨0, 2, r⟩)
  | .tapLoad p r => some (p, .mgmtReq ⟨0, 3, r⟩)
  | .flushTap p r => some (p, .mgmtReq ⟨0, 4, r⟩)
  | .flushPlans p r => some (p, .mgmtReq ⟨0, 5, r⟩)
  | .ack p r => some (p, .mgmtReq ⟨0, 6, r⟩)
  | .clearPlan p r => some (p, .mgmtReq ⟨0, 7, r⟩)
  | .setMask p r => some (p, .mgmtReq ⟨0, 8, r⟩)
  | .fanReset p r => some (p, .mgmtReq ⟨0, 9, r⟩)
  | .doorReset p r => some (p, .mgmtReq ⟨0, 10, r⟩)
  | .openNode p r => some (p, .mgmtReq ⟨0, 11, r⟩)
  | .store p r => some (p, .mgmtReq ⟨0, 12, r⟩)
  | .restart p r => some (p, .mgmtReq ⟨0, 13, r⟩)
  | .badOpRequest p op r => some (p, .mgmtReq ⟨0, op, r⟩)
  | _ => none

/-- A well-formed command with a frame: the frame passes its structure test and is dispatched as the command. -/
def Form.Statement (i : Instr) : Prop :=
  i.wf = true → ∀ p f, frameOf i = some (p, f) → f.wf = true ∧ commandOf p f = i

/-- An op that names none of the thirteen operations is dispatched as BAD_OP_REQUEST (R169). -/
theorem commandOfOp_bad (p : Port) (op : Byte) (r : Request) (h : ¬ (1 ≤ op.toNat ∧ op.toNat ≤ 13)) :
    commandOfOp p op r = .badOpRequest p op r := by
  unfold commandOfOp
  split <;> first | rfl | omega

theorem Form.powerOnReset : Form.Statement .powerOnReset := by
  intro _ q g e
  cases e

theorem Form.pinReset : Form.Statement .pinReset := by
  intro _ q g e
  cases e

theorem Form.badFrame (p : Port) : Form.Statement (.badFrame p) := by
  intro _ q g e
  cases e

theorem Form.fill (p : Port) : Form.Statement (.fill p) := by
  intro _ q g e
  cases e
  exact ⟨rfl, rfl⟩

theorem Form.count (p : Port) (side : Side) (k : Byte) : Form.Statement (.count p side k) := by
  intro _ q g e
  cases e
  exact ⟨rfl, rfl⟩

theorem Form.sample (p : Port) (f : SampleFields) : Form.Statement (.sample p f) := by
  intro hw q g e
  cases e
  exact ⟨hw, rfl⟩

theorem Form.event (p : Port) (f : EventFields) : Form.Statement (.event p f) := by
  intro _ q g e
  cases e
  exact ⟨rfl, rfl⟩

theorem Form.trigger (p : Port) (f : TriggerFields) : Form.Statement (.trigger p f) := by
  intro _ q g e
  cases e
  exact ⟨rfl, rfl⟩

theorem Form.mgmtReply (p : Port) (f : ReplyFields) : Form.Statement (.mgmtReply p f) := by
  intro hw q g e
  cases e
  exact ⟨hw, rfl⟩

theorem Form.mgmtReqRelay (p : Port) (f : RequestFields) : Form.Statement (.mgmtReqRelay p f) := by
  intro hw q g e
  cases e
  simp only [Instr.wf, Bool.and_eq_true, bne_iff_ne, ne_eq] at hw
  exact ⟨hw.1, if_neg hw.2⟩

theorem Form.time (p : Port) (clock : BitVec 32) : Form.Statement (.time p clock) := by
  intro _ q g e
  cases e
  exact ⟨rfl, rfl⟩

theorem Form.unknownFrame (p : Port) : Form.Statement (.unknownFrame p) := by
  intro _ q g e
  cases e

theorem Form.read (p : Port) (r : Request) : Form.Statement (.read p r) := by
  intro hw q g e
  cases e
  exact ⟨hw, rfl⟩

theorem Form.write (p : Port) (r : Request) : Form.Statement (.write p r) := by
  intro hw q g e
  cases e
  exact ⟨hw, rfl⟩

theorem Form.tapLoad (p : Port) (r : Request) : Form.Statement (.tapLoad p r) := by
  intro hw q g e
  cases e
  exact ⟨hw, rfl⟩

theorem Form.flushTap (p : Port) (r : Request) : Form.Statement (.flushTap p r) := by
  intro hw q g e
  cases e
  exact ⟨hw, rfl⟩

theorem Form.flushPlans (p : Port) (r : Request) : Form.Statement (.flushPlans p r) := by
  intro hw q g e
  cases e
  exact ⟨hw, rfl⟩

theorem Form.ack (p : Port) (r : Request) : Form.Statement (.ack p r) := by
  intro hw q g e
  cases e
  exact ⟨hw, rfl⟩

theorem Form.clearPlan (p : Port) (r : Request) : Form.Statement (.clearPlan p r) := by
  intro hw q g e
  cases e
  exact ⟨hw, rfl⟩

theorem Form.setMask (p : Port) (r : Request) : Form.Statement (.setMask p r) := by
  intro hw q g e
  cases e
  exact ⟨hw, rfl⟩

theorem Form.fanReset (p : Port) (r : Request) : Form.Statement (.fanReset p r) := by
  intro hw q g e
  cases e
  exact ⟨hw, rfl⟩

theorem Form.doorReset (p : Port) (r : Request) : Form.Statement (.doorReset p r) := by
  intro hw q g e
  cases e
  exact ⟨hw, rfl⟩

theorem Form.openNode (p : Port) (r : Request) : Form.Statement (.openNode p r) := by
  intro hw q g e
  cases e
  exact ⟨hw, rfl⟩

theorem Form.store (p : Port) (r : Request) : Form.Statement (.store p r) := by
  intro hw q g e
  cases e
  exact ⟨hw, rfl⟩

theorem Form.restart (p : Port) (r : Request) : Form.Statement (.restart p r) := by
  intro hw q g e
  cases e
  exact ⟨hw, rfl⟩

theorem Form.linkTimerExpiry (p : Port) : Form.Statement (.linkTimerExpiry p) := by
  intro _ q g e
  cases e

theorem Form.fillTimerExpiry (p : Port) : Form.Statement (.fillTimerExpiry p) := by
  intro _ q g e
  cases e

theorem Form.transmissionCompletion (p : Port) : Form.Statement (.transmissionCompletion p) := by
  intro _ q g e
  cases e

theorem Form.conversionCompletion (ch : ChannelId) (code : BitVec 12) : Form.Statement (.conversionCompletion ch code) := by
  intro _ q g e
  cases e

theorem Form.reportTimerExpiry : Form.Statement .reportTimerExpiry := by
  intro _ q g e
  cases e

theorem Form.tapAgeingExpiry : Form.Statement .tapAgeingExpiry := by
  intro _ q g e
  cases e

theorem Form.controlTimerExpiry : Form.Statement .controlTimerExpiry := by
  intro _ q g e
  cases e

theorem Form.kindHoldExpiry (k : Kind) : Form.Statement (.kindHoldExpiry k) := by
  intro _ q g e
  cases e

theorem Form.tachEdge (f : FanId) (e : Edge) : Form.Statement (.tachEdge f e) := by
  intro _ q g e
  cases e

theorem Form.tachOverflow (f : FanId) : Form.Statement (.tachOverflow f) := by
  intro _ q g e
  cases e

theorem Form.periodStart (f : FanId) : Form.Statement (.periodStart f) := by
  intro _ q g e
  cases e

theorem Form.startTimerExpiry (f : FanId) : Form.Statement (.startTimerExpiry f) := by
  intro _ q g e
  cases e

theorem Form.stallTimerExpiry (f : FanId) : Form.Statement (.stallTimerExpiry f) := by
  intro _ q g e
  cases e

theorem Form.dwellTimerExpiry (f : FanId) : Form.Statement (.dwellTimerExpiry f) := by
  intro _ q g e
  cases e

theorem Form.isolatorInputChange (f : FanId) (isOpen : Bool) : Form.Statement (.isolatorInputChange f isOpen) := by
  intro _ q g e
  cases e

theorem Form.isolatorAccepted (f : FanId) : Form.Statement (.isolatorAccepted f) := by
  intro _ q g e
  cases e

theorem Form.doorInputChange (d : DoorId) (i : DoorInput) (active : Bool) : Form.Statement (.doorInputChange d i active) := by
  intro _ q g e
  cases e

theorem Form.doorDebounceExpiry (d : DoorId) (i : DoorInput) : Form.Statement (.doorDebounceExpiry d i) := by
  intro _ q g e
  cases e

theorem Form.egressTimerExpiry (d : DoorId) : Form.Statement (.egressTimerExpiry d) := by
  intro _ q g e
  cases e

theorem Form.holdTimerExpiry (d : DoorId) : Form.Statement (.holdTimerExpiry d) := by
  intro _ q g e
  cases e

theorem Form.relockTimerExpiry (d : DoorId) : Form.Statement (.relockTimerExpiry d) := by
  intro _ q g e
  cases e

theorem Form.feedbackTimerExpiry (d : DoorId) : Form.Statement (.feedbackTimerExpiry d) := by
  intro _ q g e
  cases e

theorem Form.lampCompareMatch (d : DoorId) : Form.Statement (.lampCompareMatch d) := by
  intro _ q g e
  cases e

theorem Form.callPointInputChange (active : Bool) : Form.Statement (.callPointInputChange active) := by
  intro _ q g e
  cases e

theorem Form.callPointAccepted : Form.Statement .callPointAccepted := by
  intro _ q g e
  cases e

theorem Form.launchHoldExpiry : Form.Statement .launchHoldExpiry := by
  intro _ q g e
  cases e

theorem Form.stepTimerExpiry : Form.Statement .stepTimerExpiry := by
  intro _ q g e
  cases e

theorem Form.imageHeaderRead (r : SerialAnswer) : Form.Statement (.imageHeaderRead r) := by
  intro _ q g e
  cases e

theorem Form.imageGroupRead (r : SerialAnswer) : Form.Statement (.imageGroupRead r) := by
  intro _ q g e
  cases e

theorem Form.storeWriteComplete (r : SerialAnswer) : Form.Statement (.storeWriteComplete r) := by
  intro _ q g e
  cases e

theorem Form.storeVerifyComplete (r : SerialAnswer) : Form.Statement (.storeVerifyComplete r) := by
  intro _ q g e
  cases e

theorem Form.badOpRequest (p : Port) (op : Byte) (r : Request) : Form.Statement (.badOpRequest p op r) := by
  intro hw q g e
  cases e
  simp only [Instr.wf, Bool.and_eq_true, Bool.not_eq_true', Bool.and_eq_false_iff, decide_eq_false_iff_not] at hw
  exact ⟨hw.1, commandOfOp_bad p op r (by omega)⟩

end Sys2Proof.Laws
end

