-- ==== Sys2Proof/Laws/Settle.lean ====
section
/-! SUPPORT. Laws/Settle.lean: what sending, counting and settling leave exactly as it stood: the stack, the fans, the doors
and the decision owed. A settled state settles to itself, every state settles to a settled one, and the commands of an UP
port reduce to their dispatch. -/

namespace Sys2Proof.Machine

/-! ### Occurrences and reports -/

/-- The state with what a report and its overruns may touch blanked: ports, latch and the decision owed. -/
def State.unreported (s : State) : State :=
  { s with ports := {}, latch := Vector.replicate 51 {}, decisionDue := false }

/-- t follows from s by reports and occurrences of entries in E alone. -/
structure Reported (E : EntryId → Prop) (s t : State) : Prop where
  same : t.unreported = s.unreported
  latch : ∀ n : EntryId, ¬ E n → t.latch[n] = s.latch[n]
  due : (∀ n : EntryId, E n → s.planValid n = false) → t.decisionDue = s.decisionDue

namespace Reported

variable {E : EntryId → Prop} {s t r : State}

theorem refl (E : EntryId → Prop) (s : State) : Reported E s s := ⟨rfl, fun _ _ => rfl, fun _ => rfl⟩

theorem stack (h : Reported E s t) : t.stack = s.stack :=
  (congrArg State.stack h.same : t.unreported.stack = s.unreported.stack)
theorem fans (h : Reported E s t) : t.fans = s.fans :=
  (congrArg State.fans h.same : t.unreported.fans = s.unreported.fans)
theorem doors (h : Reported E s t) : t.doors = s.doors :=
  (congrArg State.doors h.same : t.unreported.doors = s.unreported.doors)
theorem plan (h : Reported E s t) : t.plan = s.plan :=
  (congrArg State.plan h.same : t.unreported.plan = s.unreported.plan)
theorem sources (h : Reported E s t) : t.sources = s.sources :=
  (congrArg State.sources h.same : t.unreported.sources = s.unreported.sources)
theorem lines (h : Reported E s t) : t.lines = s.lines :=
  (congrArg State.lines h.same : t.unreported.lines = s.unreported.lines)
theorem now (h : Reported E s t) : t.now = s.now :=
  (congrArg State.now h.same : t.unreported.now = s.unreported.now)
theorem nodeState (h : Reported E s t) : t.nodeState = s.nodeState :=
  (congrArg State.nodeState h.same : t.unreported.nodeState = s.unreported.nodeState)
theorem posA (h : Reported E s t) : t.posA = s.posA :=
  (congrArg State.posA h.same : t.unreported.posA = s.unreported.posA)

theorem sourceCfg (h : Reported E s t) (n : EntryId) : t.sourceCfg n = s.sourceCfg n := by
  unfold State.sourceCfg; simp only [h.sources, h.lines]

theorem planValid (h : Reported E s t) (n : EntryId) : t.planValid n = s.planValid n := by
  unfold State.planValid; rw [h.sourceCfg n, h.plan]

theorem trans (h : Reported E s t) (g : Reported E t r) : Reported E s r where
  same := g.same.trans h.same
  latch n hn := (g.latch n hn).trans (h.latch n hn)
  due hE := (g.due fun n hn => by rw [h.planValid]; exact hE n hn).trans (h.due hE)

theorem mono {E' : EntryId → Prop} (hE : ∀ n, E n → E' n) (h : Reported E s t) : Reported E' s t :=
  ⟨h.same, fun n hn => h.latch n fun e => hn (hE n e), fun h' => h.due fun n hn => h' n (hE n hn)⟩

end Reported

theorem offer_reported (E : EntryId → Prop) (s : State) (p : Port) (q : QueueId) (f : Frame) :
    Reported E s (s.offer p q f).1 := by
  unfold State.offer
  by_cases up : (s.port p).isUp = true
  · simp only [up, if_true]
    rcases assign q ⟨f, s.now⟩ ((s.port p).queue q) with ⟨l, k⟩
    cases k
    · cases p <;> exact ⟨rfl, fun _ _ => rfl, fun _ => rfl⟩
    · exact .refl _ _
    · exact .refl _ _
  · simp only [up]
    exact .refl _ _

theorem offerBoth_reported (E : EntryId → Prop) (s : State) (f : Frame) : Reported E s (s.offerBoth f).1 :=
  (offer_reported E s .a _ f).trans (offer_reported E _ .b _ f)

theorem countOccurrence_reported {E : EntryId → Prop} (s : State) (n : EntryId) (o : Nat) (hn : E n) :
    Reported E s (s.countOccurrence n o) where
  same := rfl
  latch m hm := by
    have h : m ≠ n := fun e => hm (e ▸ hn)
    simp only [State.countOccurrence, latch_setLatch, if_neg h]
  due h := by simp [State.countOccurrence, h n hn]

theorem reportOverrun_reported (E : EntryId → Prop) (s : State) : Reported E s s.reportOverrun := by
  unfold State.reportOverrun
  split
  · exact offerBoth_reported E _ _
  · exact .refl _ _

theorem overrun_reported {E : EntryId → Prop} (s : State) (hE : E srcOverrun) : Reported E s s.overrun :=
  (countOccurrence_reported s srcOverrun s.posA hE).trans (reportOverrun_reported E _)

theorem overruns_reported {E : EntryId → Prop} (hE : E srcOverrun) :
    ∀ (k : Nat) (s : State), Reported E s (State.overruns k s)
  | 0, s => .refl E s
  | k + 1, s => (overrun_reported s hE).trans (overruns_reported hE k s.overrun)

theorem sendLocal_reported {E : EntryId → Prop} (hE : E srcOverrun) (s : State) (f : Frame) :
    Reported E s (s.sendLocal f) :=
  (offerBoth_reported E s f).trans (overruns_reported hE _ _)

theorem relay_reported {E : EntryId → Prop} (hE : E srcOverrun) (s : State) (p : Port) (f : Frame) :
    Reported E s (s.relay p f) := by
  have h := offer_reported E s p.opposite (relayQueue f) f
  unfold State.relay
  dsimp only
  split
  · exact h.trans (overrun_reported _ hE)
  · exact h

theorem report_reported {E : EntryId → Prop} (hE : E srcOverrun) (s : State) (n : EntryId) (t : Transition)
    (i : Option (Fin 64)) : Reported E s (s.report n t i) :=
  sendLocal_reported hE s _

theorem reportOccurred_reported {E : EntryId → Prop} (hE : E srcOverrun) (s : State) (n : EntryId) :
    Reported E s (s.reportOccurred n) := by
  unfold State.reportOccurred
  split
  · exact report_reported hE _ _ _ _
  · exact .refl _ _

theorem occurFrom_reported {E : EntryId → Prop} (hE : E srcOverrun) (s : State) (n : EntryId) (o : Nat) (hn : E n) :
    Reported E s (s.occurFrom n o) :=
  (countOccurrence_reported s n o hn).trans (reportOccurred_reported hE _ n)

theorem occur_reported {E : EntryId → Prop} (hE : E srcOverrun) (s : State) (n : EntryId) (hn : E n) :
    Reported E s (s.occur n) :=
  occurFrom_reported hE s n s.posA hn

theorem reportCleared_reported {E : EntryId → Prop} (hE : E srcOverrun) (s : State) (n : EntryId) (code : Word) :
    Reported E s (s.reportCleared n code) := by
  unfold State.reportCleared
  split
  · exact sendLocal_reported hE _ _
  · exact .refl _ _

/-- A clearing that no context awaits leaves the stack as it stood. -/
theorem map_sourceCleared (n : EntryId) :
    ∀ l : List Context, (∀ c ∈ l, c.source ≠ n) → l.map (Context.sourceCleared n) = l
  | [], _ => rfl
  | c :: l, h => by
    rw [List.map_cons, map_sourceCleared n l fun d hd => h d (List.mem_cons_of_mem _ hd)]
    simp [Context.sourceCleared, h c List.mem_cons_self]

theorem clearWithCode_reported {E : EntryId → Prop} (hE : E srcOverrun) (s : State) (n : EntryId) (code : Word)
    (hn : E n) (hs : ∀ c ∈ s.stack, c.source ≠ n) : Reported E s (s.clearWithCode n code) := by
  unfold State.clearWithCode
  split
  · refine Reported.trans (t := s.markCleared n) ⟨?_, fun m hm => ?_, fun _ => rfl⟩ (reportCleared_reported hE _ n code)
    · simp only [State.markCleared, State.setStack, State.setLatch, State.unreported, map_sourceCleared n _ hs]
    · have h : m ≠ n := fun e => hm (e ▸ hn)
      simp only [State.markCleared, State.setStack, latch_setLatch, if_neg h]
  · exact .refl _ _

/-- The entry that cleared reads not asserted. -/
theorem clearWithCode_asserted (s : State) (n : EntryId) (code : Word) (hn : n ≠ srcOverrun) :
    (s.clearWithCode n code).latch[n].asserted = false := by
  unfold State.clearWithCode
  split
  · rw [(reportCleared_reported (E := overrunOnly) rfl (s.markCleared n) n code).latch n hn]
    show ((s.setLatch n _).latch[n]).asserted = false
    rw [latch_setLatch_self]
  · rename_i h; exact Bool.eq_false_of_not_eq_true h

/-- What an occurrence leaves in its own entry, the serve state apart (R141). -/
theorem occurFrom_counted (s : State) (n : EntryId) (o : Nat) (hn : n ≠ srcOverrun) :
    LatchEntry.CountedOnce n s.stamp o s.latch[n] (s.occurFrom n o).latch[n] := by
  have h : (s.occurFrom n o).latch[n] = s.latch[n].occurred n s.stamp o (s.planValid n) := by
    show ((s.countOccurrence n o).reportOccurred n).latch[n] = _
    rw [(reportOccurred_reported (E := overrunOnly) rfl (s.countOccurrence n o) n).latch n hn]
    exact latch_setLatch_self s n _
  rw [h]
  refine ⟨rfl, rfl, ?_, rfl, rfl, Bool.or_comm _ _⟩
  unfold LatchEntry.occurred
  cases s.latch[n].first <;> rfl

/-! ### The stack and the decision owed -/

theorem handJet_stack (s : State) (f : FanId) (c : Cmd) : (s.handJet f c).stack = s.stack := rfl

theorem seeded_stack (s : State) : s.seeded.stack = s.stack := by
  unfold State.seeded
  split <;> rfl

theorem renew_stack (s : State) : s.renew.stack = s.stack := by
  show (((s.seeded.handJet jet1 _).handJet jet2 _).handPassage).stack = s.stack
  rw [show ∀ t : State, t.handPassage.stack = t.stack from fun _ => rfl, handJet_stack, handJet_stack, seeded_stack]

theorem policyChange_held (D : Door) (now : Nat) (starting : Bool) (p : Policy) (h : D.state = .held) :
    (D.policyChange now starting p).state = .held := by
  unfold Door.policyChange Door.takePolicy
  split
  · exact h
  · simp [h]

theorem passageFollows_stack (s : State) (a b : Bool) : (s.passageFollows a b).stack = s.stack := by
  unfold State.passageFollows; split <;> rfl

theorem follow_rise_stack (s : State) (n : EntryId) (was is : Bool) (h : was = true → is = true) :
    (s.follow n was is).stack = s.stack := by
  cases was <;> cases is
  · rfl
  · exact (occur_reported (E := fun _ => True) trivial s n trivial).stack
  · exact absurd (h rfl) (by simp)
  · rfl

theorem occurIf_false (s : State) (n : EntryId) : s.occurIf n false = s := rfl

theorem repolicy_stack (s : State) (d : DoorId) : (s.repolicy d).stack = s.stack := by
  have hh : (s.doors[d].state == .held) = true →
      ((s.doors[d].policyChange s.now s.isStarting (s.effectivePolicy d)).state == .held) = true := by
    intro h
    exact beq_iff_eq.mpr (policyChange_held _ _ _ _ (beq_iff_eq.mp h))
  unfold State.repolicy State.doorTo
  rw [passageFollows_stack, policyChange_fault, follow_same, follow_rise_stack _ _ _ _ hh, occurIf_false, setDoor_stack]

theorem retakeLamp_stack (s : State) : s.retakeLamp.stack = s.stack := rfl

theorem afterStackChange_stack (s : State) : s.afterStackChange.stack = s.stack := by
  unfold State.afterStackChange State.repolicyBoth
  rw [retakeLamp_stack, repolicy_stack, repolicy_stack, renew_stack]

/-! ### The lamps -/

/-- The lamp fields of a door, and the field they read. -/
def Door.lampPart (D : Door) : Bool × Timer × Nat := (D.lamp, D.lampTimer, D.cfg.flashHalf)

theorem reevaluate_lampPart (D : Door) (now : Nat) (starting : Bool) : (D.reevaluate now starting).lampPart = D.lampPart := by
  unfold Door.reevaluate Door.placed; split <;> rfl

theorem policyChange_lampPart (D : Door) (now : Nat) (starting : Bool) (p : Policy) :
    (D.policyChange now starting p).lampPart = D.lampPart := by
  unfold Door.policyChange Door.takePolicy Door.enterHeld
  split
  · rfl
  · cases h : D.state <;> dsimp only <;> (try split) <;>
      first | rfl | exact reevaluate_lampPart _ now starting

theorem supervise_lampPart (D old : Door) (now : Nat) : (D.supervise now old).lampPart = D.lampPart := by
  unfold Door.supervise; split
  · rfl
  · split <;> rfl

theorem renew_doors (s : State) : s.renew.doors = s.doors := by
  have hs : s.seeded.doors = s.doors := by unfold State.seeded; split <;> rfl
  have hj : ∀ (t : State) (f : FanId) (c : Cmd), (t.handJet f c).doors = t.doors := fun _ _ _ => rfl
  show (((s.seeded.handJet jet1 _).handJet jet2 _).handPassage).doors = s.doors
  rw [show ∀ t : State, t.handPassage.doors = t.doors from fun _ => rfl, hj, hj, hs]

theorem passageFollows_doors (s : State) (a b : Bool) : (s.passageFollows a b).doors = s.doors := by
  unfold State.passageFollows; split <;> rfl

theorem follow_rise_doors (s : State) (n : EntryId) (was is : Bool) (h : was = true → is = true) :
    (s.follow n was is).doors = s.doors := by
  cases was <;> cases is
  · rfl
  · exact (occur_reported (E := fun _ => True) trivial s n trivial).doors
  · exact absurd (h rfl) (by simp)
  · rfl

/-- Forming a door's policy again leaves every lamp as it stood (R133). -/
theorem repolicy_lampPart (s : State) (d e : DoorId) : ((s.repolicy d).doors[e]).lampPart = s.doors[e].lampPart := by
  have hh : (s.doors[d].state == .held) = true →
      ((s.doors[d].policyChange s.now s.isStarting (s.effectivePolicy d)).state == .held) = true := by
    intro h
    exact beq_iff_eq.mpr (policyChange_held _ _ _ _ (beq_iff_eq.mp h))
  have hd : (s.repolicy d).doors = (s.setDoor d
      ((s.doors[d].policyChange s.now s.isStarting (s.effectivePolicy d)).supervise s.now s.doors[d])).doors := by
    unfold State.repolicy State.doorTo
    rw [passageFollows_doors, policyChange_fault, follow_same, follow_rise_doors _ _ _ _ hh, occurIf_false]
  rw [hd, doors_setDoor]
  split
  · rename_i h
    rw [supervise_lampPart, policyChange_lampPart, h]
  · rfl

/-! ### A decision once owed stays owed through reports, occurrences, clearings and what follows a change of the stack -/

theorem sendLocal_due (s : State) (f : Frame) (h : s.decisionDue = true) : (s.sendLocal f).decisionDue = true := by
  have k : ∀ (n : Nat) (t : State), t.decisionDue = true → (State.overruns n t).decisionDue = true := by
    intro n
    induction n with
    | zero => exact fun _ ht => ht
    | succ n ih =>
      intro t ht
      refine ih _ (((reportOverrun_reported (fun _ => False) _).due fun _ e => e.elim).trans ?_)
      simp [State.countOccurrence, ht]
  exact k _ _ (((offerBoth_reported (fun _ => False) s f).due fun _ e => e.elim).trans h)

theorem occurFrom_due (s : State) (n : EntryId) (o : Nat) (h : s.decisionDue = true) :
    (s.occurFrom n o).decisionDue = true := by
  have hc : (s.countOccurrence n o).decisionDue = true := by simp [State.countOccurrence, h]
  unfold State.occurFrom State.reportOccurred
  split
  · exact sendLocal_due _ _ hc
  · exact hc

theorem clearSource_due (s : State) (n : EntryId) (h : s.decisionDue = true) : (s.clearSource n).decisionDue = true := by
  unfold State.clearSource State.clearWithCode State.reportCleared
  split
  · split
    · exact sendLocal_due _ _ h
    · exact h
  · exact h

theorem follow_due (s : State) (n : EntryId) (was is : Bool) (h : s.decisionDue = true) :
    (s.follow n was is).decisionDue = true := by
  cases was <;> cases is
  · exact h
  · exact occurFrom_due s n _ h
  · exact clearSource_due s n h
  · exact h

theorem doorTo_due (s : State) (d : DoorId) (D : Door) (egress : Bool) (h : s.decisionDue = true) :
    (s.doorTo d D egress).decisionDue = true := by
  have hp : ∀ (t : State) (a b : Bool), t.decisionDue = true → (t.passageFollows a b).decisionDue = true := by
    intro t a b ht; unfold State.passageFollows; split <;> exact ht
  refine hp _ _ _ (follow_due _ _ _ _ (follow_due _ _ _ _ ?_))
  cases egress
  · exact h
  · exact occurFrom_due _ _ _ h

theorem renew_due (s : State) (h : s.decisionDue = true) : s.renew.decisionDue = true := by
  have hs : s.seeded.decisionDue = true := by unfold State.seeded; split <;> exact h
  have hj : ∀ (t : State) (f : FanId) (c : Cmd), (t.handJet f c).decisionDue = t.decisionDue := fun _ _ _ => rfl
  show (((s.seeded.handJet jet1 _).handJet jet2 _).handPassage).decisionDue = true
  rw [show ∀ t : State, t.handPassage.decisionDue = t.decisionDue from fun _ => rfl, hj, hj, hs]

theorem afterStackChange_due (s : State) (h : s.decisionDue = true) : s.afterStackChange.decisionDue = true := by
  unfold State.afterStackChange State.repolicyBoth State.repolicy
  rw [show ∀ t : State, t.retakeLamp.decisionDue = t.decisionDue from fun _ => rfl]
  exact doorTo_due _ _ _ _ (doorTo_due _ _ _ _ (renew_due s h))

theorem enterStep_due (s : State) (i : Fin 64) (h : s.decisionDue = true) : (s.enterStep i).decisionDue = true := by
  unfold State.enterStep
  split
  · exact h
  · unfold State.spread
    split
    · exact h
    · exact sendLocal_due _ _ h

/-- A context's end owes a decision (R154, R163). -/
theorem endContext_due (s : State) (h : s.stack ≠ [] ∨ s.decisionDue = true) : s.endContext.decisionDue = true := by
  unfold State.endContext
  split
  · rename_i e; exact h.resolve_left fun k => k e
  · rfl

theorem resume_due : ∀ (k : Nat) (s : State), s.decisionDue = true → (State.resume k s).decisionDue = true
  | 0, _, h => h
  | k + 1, s, h => by
    unfold State.resume
    split
    · exact h
    · split
      · split
        · exact enterStep_due _ _ h
        · exact resume_due k _ (endContext_due s (.inr h))
      · exact h

theorem endActive_due (s : State) (h : s.stack ≠ []) : s.endActive.decisionDue = true :=
  resume_due _ _ (endContext_due s (.inl h))

/-- The ACTIVE context owes no step end. -/
def State.Calm (s : State) : Prop := ∀ c, s.active = some c → c.clearSeen = false

theorem Calm.of_stack {s t : State} (h : t.stack = s.stack) (hs : s.Calm) : t.Calm := by
  intro c hc; exact hs c (by simpa [State.active, h] using hc)

theorem enterStep_stack (s : State) (i : Fin 64) (c : Context) (rest : List Context) (h : s.stack = c :: rest) :
    (s.enterStep i).stack = s.entered i c :: rest := by
  unfold State.enterStep
  rw [h]
  show ((s.setStack (s.entered i c :: rest)).spread _).stack = _
  unfold State.spread
  split
  · rfl
  · exact (sendLocal_reported (E := fun _ => True) trivial _ _).stack

theorem endContext_stack (s : State) : s.endContext.stack = s.stack.tail := by
  unfold State.endContext
  split <;> simp_all [State.oweDecision, State.setStack]

theorem resume_calm : ∀ (k : Nat) (s : State), s.stack.length < k → (State.resume k s).Calm
  | 0, _, h => absurd h (by omega)
  | k + 1, s, h => by
    unfold State.resume
    split
    · rename_i e; intro c hc; simp [State.active, e] at hc
    · rename_i c rest e
      split
      · split
        · rename_i j _
          intro d hd
          rw [State.active, enterStep_stack s j c rest e] at hd
          simp only [List.head?_cons, Option.some.injEq] at hd
          exact hd ▸ rfl
        · refine resume_calm k _ ?_
          rw [endContext_stack, e]
          simp only [e, List.length_cons] at h
          simpa using h
      · rename_i hp
        intro d hd
        simp only [State.active, State.setStack, List.head?_cons, Option.some.injEq] at hd
        subst hd
        simp only [Context.endPending, Bool.or_eq_true, not_or, Bool.not_eq_true] at hp
        exact hp.2

theorem endStep_calm (s : State) : s.endStep.Calm := by
  unfold State.endStep
  split
  · rename_i e; intro c hc; simp [State.active, e] at hc
  · rename_i c rest e
    split
    · rename_i j _
      intro d hd
      rw [State.active, enterStep_stack s j c rest e] at hd
      simp only [List.head?_cons, Option.some.injEq] at hd
      exact hd ▸ rfl
    · exact resume_calm _ _ (by rw [endContext_stack, e]; simp)

theorem launch_calm (s : State) (n : EntryId) (i : Fin 64) : (s.launch n i).Calm := by
  unfold State.launch State.startHold
  intro d hd
  have h : ((s.saveActive.makeRoom.pushContext n i).report n .launched (some i)).stack =
      s.saveActive.makeRoom.newContext n i :: s.saveActive.makeRoom.stack :=
    (report_reported (E := fun _ => True) trivial _ _ _ _).stack
  simp only [State.active] at hd
  rw [enterStep_stack _ i _ _ h] at hd
  simp only [List.head?_cons, Option.some.injEq] at hd
  exact hd ▸ rfl

theorem decideN_calm : ∀ (k : Nat) (s : State), s.Calm → (State.decideN k s).Calm
  | 0, _, h => h
  | k + 1, s, h => by
    unfold State.decideN
    split
    · exact h
    · exact decideN_calm k _ (Calm.of_stack (afterStackChange_stack _) (launch_calm s _ _))

theorem settleStep_calm (s : State) : s.settleStep.Calm := by
  unfold State.settleStep
  split
  · rename_i e; intro c hc; simp [State.active, e] at hc
  · rename_i c rest e
    split
    · exact Calm.of_stack (afterStackChange_stack _) (endStep_calm s)
    · rename_i hc
      intro d hd
      simp only [State.active, e, List.head?_cons, Option.some.injEq] at hd
      simpa [← hd] using hc

/-- Every state settles to a settled one. -/
theorem settle_settled (s : State) : s.settle.Settled := by
  show s.settleStep.settleDecisions.Settled
  have h := settleStep_calm s
  unfold State.settleDecisions
  split
  · exact ⟨rfl, decideN_calm 8 _ h⟩
  · rename_i hd; exact ⟨by simpa using hd, h⟩

/-- A settled state settles to itself. -/
theorem settle_of_settled (s : State) (h : s.Settled) : s.settle = s := by
  have e : s.settleStep = s := by
    unfold State.settleStep
    split
    · rfl
    · rename_i c rest e
      have := h.2 c (by simp [State.active, e])
      simp [this]
  show s.settleStep.settleDecisions = s
  rw [e]
  unfold State.settleDecisions
  simp [h.1]

theorem settle_settle (s : State) : s.settle.settle = s.settle := settle_of_settled _ (settle_settled s)

/-- Reports keep a settled state settled, where no occurrence among them launches a plan. -/
theorem settled_of_reported {E : EntryId → Prop} {s t : State} (h : s.Settled) (g : Reported E s t)
    (hE : ∀ n : EntryId, E n → s.planValid n = false) : t.Settled :=
  ⟨(g.due hE).trans h.1, Calm.of_stack g.stack h.2⟩

theorem offer_settled {s : State} (h : s.Settled) (p : Port) (q : QueueId) (f : Frame) : (s.offer p q f).1.Settled :=
  settled_of_reported h (offer_reported (fun _ => False) s p q f) fun _ hn => hn.elim

/-! ### The commands of an UP port -/

theorem superviseGood_up {s : State} {p : Port} (h : (s.port p).state = .up) : s.superviseGood p = s.heard p := by
  unfold State.superviseGood State.heard
  simp only [LinePort.afterGood, LinePort.isUp, h]
  cases p <;> rfl

theorem heard_settled {s : State} {p : Port} (h : s.Settled) : (s.heard p).Settled := by
  cases p <;> exact h

theorem heard_up {s : State} {p : Port} (h : (s.port p).state = .up) : ((s.heard p).port p).isUp = true := by
  cases p <;> simp_all [State.heard, State.port, State.setPort, LinePort.isUp]

/-- On an UP port of a settled state a good frame goes to its dispatch. -/
theorem goodUp_hears {s : State} {p : Port} (h : s.Hears p) (dispatch : State → State) :
    s.goodUp p dispatch = (dispatch (s.heard p)).settle := by
  unfold State.goodUp
  rw [superviseGood_up h.2, settle_of_settled _ (heard_settled h.1)]
  dsimp only
  rw [if_pos (heard_up h.2)]

theorem goodAny_hears {s : State} {p : Port} (h : s.Hears p) (dispatch : State → State) :
    s.goodAny p dispatch = (dispatch (s.heard p)).settle := by
  unfold State.goodAny
  rw [superviseGood_up h.2, settle_of_settled _ (heard_settled h.1)]

theorem heard_isStarting (s : State) (p : Port) : (s.heard p).isStarting = s.isStarting := by cases p <;> rfl

/-- A request that the responder executes: its operation, what that owes, and the reply. -/
theorem request_serves {s : State} {p : Port} {r : Request} (h : s.Serves p r) (op : Byte) (free : Bool)
    (run : State → State × Answer) :
    s.request p op r free run = (run (s.heard p)).1.settle.reply p op r (run (s.heard p)).2 := by
  have hs : (s.heard p).isStarting = false := by
    rw [heard_isStarting]; simpa [State.isStarting] using h.2.1
  unfold State.request
  rw [goodUp_hears h.1]
  simp only [h.2.2, if_true, State.respond, hs, Bool.false_and]
  exact settle_of_settled _ (offer_settled (settle_settled _) _ _ _)

end Sys2Proof.Machine
end

