-- ==== Sys2Proof/Laws/Wait.lean ====
section
/-! SUPPORT. Laws/Wait.lean: what sending a local frame does while both transmitters are busy and its queue has room: the
frame waits at each UP port and nothing else changes (R39, R41, R42). -/

namespace Sys2Proof.Machine

@[simp] theorem LinePort.waits_isUp (now : Nat) (f : Frame) (P : LinePort) : (P.waits now f).isUp = P.isUp := by
  unfold LinePort.waits
  split
  · cases localQueue f <;> rfl
  · rfl

@[simp] theorem LinePort.waits_tx (now : Nat) (f : Frame) (P : LinePort) : (P.waits now f).tx = P.tx := by
  unfold LinePort.waits
  split
  · cases localQueue f <;> rfl
  · rfl

/-- A frame that waits makes its own queue one longer, and no other queue. -/
theorem LinePort.waits_length (now : Nat) (f : Frame) (P : LinePort) (q : QueueId) :
    ((P.waits now f).queue q).length ≤ (P.queue q).length + if q = localQueue f then 1 else 0 := by
  unfold LinePort.waits
  split
  · cases q <;> cases localQueue f <;> simp [LinePort.setQueue, LinePort.queue]
  · simp

/-- An offer of a local frame to a port that transmits and whose queue has room: the frame waits (R39, R42). -/
theorem State.offer_waits (s : State) (p : Port) (f : Frame) (busy : (s.port p).tx ≠ none)
    (room : ((s.port p).queue (localQueue f)).length < (localQueue f).capacity) :
    s.offer p (localQueue f) f = (s.setPort p ((s.port p).waits s.now f), false) := by
  unfold State.offer LinePort.waits
  by_cases up : (s.port p).isUp = true
  · have h : ∀ P : LinePort, P.tx ≠ none → P.decide s.now s.node.sampleAgeLimit = P := by
      intro P hP
      unfold LinePort.decide
      rw [if_neg (fun c => hP c.2)]
    have ht : ∀ (P : LinePort) (q : QueueId) (l : List Queued), (P.setQueue q l).tx = P.tx := by
      intro P q l
      cases q <;> rfl
    simp only [up, if_true, assign, room]
    rw [h _ (by rw [ht]; exact busy)]
  · simp only [up, if_false, Bool.false_eq_true]
    cases p <;> rfl

/-- A local frame sent while both ports transmit and have room for it waits at each UP port; no occurrence follows (R41). -/
theorem State.sendLocal_waits (s : State) (f : Frame)
    (h : ∀ p, (s.port p).tx ≠ none ∧ ((s.port p).queue (localQueue f)).length < (localQueue f).capacity) :
    s.sendLocal f = { s with ports := { a := s.ports.a.waits s.now f, b := s.ports.b.waits s.now f } } := by
  have ha := s.offer_waits .a f (h .a).1 (h .a).2
  have hb := State.offer_waits (s.setPort .a ((s.port .a).waits s.now f)) .b f (h .b).1 (h .b).2
  unfold State.sendLocal State.offerBoth
  rw [ha]
  simp only
  rw [hb]
  rfl

/-- The queue of a frame that the node originates is LH or LL (R41). -/
theorem localQueue_local (f : Frame) : localQueue f = .lh ∨ localQueue f = .ll := by
  cases f <;> simp only [localQueue] <;> (try split) <;> simp

/-- Room for four frames is room for one. -/
theorem State.Roomy.sends {s : State} (h : s.Roomy) (f : Frame) :
    s.sendLocal f = { s with ports := { a := s.ports.a.waits s.now f, b := s.ports.b.waits s.now f } } := by
  refine s.sendLocal_waits f fun p => ⟨(h p).1, ?_⟩
  rcases localQueue_local f with e | e <;> rw [e]
  · exact Nat.lt_of_le_of_lt (h p).2.1 (by decide)
  · exact Nat.lt_of_le_of_lt (h p).2.2 (by decide)

end Sys2Proof.Machine
end

