-- ==== Sys2Proof/Tests/Slice0.lean ====
section
/-! SUPPORT. Tests/Slice0.lean: the spec's worked examples, small checks of each command, a refused term for each check of
WellFormed.lean, and for every obligation with hypotheses a concrete state and operands that meet them, at the boundary
values of its clauses. -/

namespace Sys2Proof.Tests

open Sys2Proof.Machine

/-! ### Helpers -/

/-- The state after a command. -/
def after (i : Instr) (s : State) : State :=
  match exec i s with
  | .next t => t
  | .fault _ => s
  | .refused _ => s

/-- A request by its numbers. -/
def rq (table index count : Nat) (data : List Nat) : Request :=
  { tag := 1, table := BitVec.ofNat 8 table, index := BitVec.ofNat 16 index, count := BitVec.ofNat 8 count
    data := data.map (BitVec.ofNat 16) }

/-- A SAMPLE item by its numbers. -/
def item (channel value : Nat) : SampleItem :=
  { channel := BitVec.ofNat 8 channel, kind := .co, flags := 0, value := BitVec.ofNat 16 value }

/-- An EVENT frame's fields, of a class and origin. -/
def ev (cls : EventClass) (origin : Nat) : EventFields :=
  { origin := BitVec.ofNat 8 origin, transition := .occurred, code := 224, count := 1, cls := cls, level := 3, step := 255
    clock := 0, flag := 1 }

/-- A port that is UP and sends a FILL. -/
def upPort : LinePort := { state := .up, probe := 3, linkTimer := some 500000, fillTimer := none, tx := some .fill }

/-- A closed and secured door. -/
def shutDoor : Door := { closed := { level := true }, lockEngaged := { level := true }, state := .secured }

/-- A settled node in OPERATING at position 40, both ports UP and sending, fans stopped, doors secured. -/
def openNode : State :=
  { State.reset with
    nodeState := .operating, loading := .done, posA := 40, posB := 90
    ports := { a := upPort, b := upPort }
    latch := Vector.replicate 51 {}
    fans := Vector.ofFn fun f => { cfg := defaultFanCfg f, state := .stopped }
    doors := Vector.replicate 2 shutDoor }

/-- The node with another port B. -/
def withB (P : LinePort) : State := { openNode with ports := { a := upPort, b := P } }

/-- The node with another port A. -/
def withA (P : LinePort) : State := { openNode with ports := { a := P, b := upPort } }

/-- The node with another DOOR1. -/
def withDoor (D : Door) : State := { openNode with doors := openNode.doors.set 0 D }

/-- The node with another JET1. -/
def withFan (F : Fan) : State := { openNode with fans := openNode.fans.set 0 F }

/-- A queue of n TIME frames. -/
def timesQ (n : Nat) : List Queued := List.replicate n ⟨.time 0, 0⟩

/-- A context of the source at a place, of a level, in step 3. -/
def ctx (source : EntryId) (level : Nat) (timer : StepTimer) : Context :=
  { step := 3, timer := timer, clearSeen := false, waiting := false, source := source, origin := 40, level := level
    cls := .alarm, entry := ⟨0, false⟩, captured := none }

/-- The node with a context stack, its sources SERVED. -/
def withStack (l : List Context) : State :=
  { openNode with
    stack := l
    plan := openNode.plan.set 3 { valid := true }
    latch := Vector.ofFn fun n => if l.any (fun c => c.source == n) then { serve := .served } else {} }

theorem settled_of (s : State) (h0 : s.decisionDue = false) (h1 : s.stack.all (fun c => !c.clearSeen) = true) :
    s.Settled := by
  refine ⟨h0, fun c hc => ?_⟩
  rw [List.all_eq_true] at h1
  simpa using h1 c (List.mem_of_mem_head? hc)

theorem hears_of (s : State) (p : Port) (h0 : s.decisionDue = false)
    (h1 : s.stack.all (fun c => !c.clearSeen) = true) (h2 : (s.port p).state = .up) : s.Hears p :=
  ⟨settled_of s h0 h1, h2⟩

theorem serves_of (s : State) (p : Port) (r : Request) (h0 : s.decisionDue = false)
    (h1 : s.stack.all (fun c => !c.clearSeen) = true) (h2 : (s.port p).state = .up) (h3 : s.nodeState ≠ .starting)
    (h4 : r.wf = true) : s.Serves p r :=
  ⟨hears_of s p h0 h1 h2, h3, h4⟩

/-! ### Well-formedness: one refused term for each check -/

theorem test_wf_sample_of_no_item : (Instr.sample .a ⟨1, 1, []⟩).wf = false := by decide
theorem test_wf_sample_of_five_items : (Instr.sample .a ⟨1, 1, List.replicate 5 (item 0 0)⟩).wf = false := by decide
theorem test_wf_sample_of_four_items : (Instr.sample .a ⟨1, 1, List.replicate 4 (item 0 0)⟩).wf = true := by decide
theorem test_wf_reply_of_17_words : (Instr.mgmtReply .a ⟨1, 1, 1, 0, 0, 0, 0, List.replicate 17 0⟩).wf = false := by decide
theorem test_wf_request_of_17_words : (Instr.write .a (rq 1 0 16 (List.replicate 17 0))).wf = false := by decide
theorem test_wf_request_of_16_words : (Instr.write .a (rq 1 0 16 (List.replicate 16 0))).wf = true := by decide
theorem test_wf_relay_at_distance_0 : (Instr.mgmtReqRelay .a ⟨0, 1, rq 0 0 1 []⟩).wf = false := by decide
theorem test_wf_relay_of_17_words : (Instr.mgmtReqRelay .a ⟨1, 2, rq 0 0 1 (List.replicate 17 0)⟩).wf = false := by decide
theorem test_wf_bad_op_1 : (Instr.badOpRequest .a 1 (rq 0 0 0 [])).wf = false := by decide
theorem test_wf_bad_op_13 : (Instr.badOpRequest .a 13 (rq 0 0 0 [])).wf = false := by decide
theorem test_wf_bad_op_14 : (Instr.badOpRequest .a 14 (rq 0 0 0 [])).wf = true := by decide

/-! ### Worked examples of the spec -/

/-- 2.2's check word example. -/
theorem test_check_word : checkWord [0x1234, 0x5678, 0x9A00] = 0xFD52 := by decide

/-- 1.3's conversion examples. -/
theorem test_scale_co : ([1100, 1105, 682].map (ChannelCfg.scale { kind := some .co, lo := 0, hi := 3000 })) = [459, 465, 0] := by
  decide
theorem test_scale_vel :
    ([2047, 2048, 3412].map (ChannelCfg.scale { kind := some .vel, lo := -2000, hi := 2000 })) = [0, 1, 2000] := by decide
theorem test_scale_reversed : (ChannelCfg.scale { kind := some .vel, lo := 2000, hi := -2000 } 2048) = -1 := by decide
theorem test_classify :
    [613, 614, 681, 682, 3412, 3413, 3583, 3584].map (fun c => (classify c).1) =
      [.low, .clamped, .clamped, .good, .good, .clamped, .clamped, .high] := by decide

/-- R7: the smoothed values of 1.9's timeline. -/
theorem test_smoothed :
    [[459, 447, 452, 440], [0, 459, 447, 452], [465, 0, 459, 447]].map (fun r => ({ ring := r } : Channel).smoothed) =
      [some 450, some 340, some 343] := by decide

/-- R92's staging table for stage offset 500. -/
theorem test_staged : [0, 120, 500, 560, 600, 750, 1000].map (staged · 500) = [0, 0, 0, 120, 200, 500, 1000] := by decide

/-- R103's measured speeds. -/
theorem test_measured_speed :
    [(10500, 10300), (66000, 64000), (208000, 212000)].map
      (fun p => ({ pNew := some p.1, pPrev := some p.2 } : Fan).measure 7) = [961, 153, 47] := by decide

/-- 6.9's duty of 800 pm. -/
theorem test_duty : (defaultFanCfg jet1).dutyOf 800 = 740 := by decide

/-- R101: the speed reference stays high through a period whose duty is the period. -/
theorem test_full_duty : ({ duty := 200, tp := 200, pwmCount := 200 } : Fan).speedRef = true := by decide

/-- R101: after a write of Tp the pending duty is formed again from the request magnitude. -/
theorem test_duty_after_a_write :
    ({ state := .running .forward, request := ⟨800, some .forward⟩, cfg := { tp := 200 } } : Fan).dutyFieldsWritten.pendingDuty =
      180 := by decide

/-- R107: 600 pm handed with 580 starts with 580 after a WRITE of Dmin to 200, and with the bound after one to 590 (log entry
17). -/
theorem test_held_duty :
    [200, 590].map (fun d => (({ request := ⟨600, some .forward⟩, heldDuty := 580, cfg := { dMin := d }, dwellTimer := none } :
      Fan).tryStopped 0).duty) = [580, 590] := by decide

/-- R182: the word addresses of the fifteen places. -/
theorem test_places :
    (List.finRange 15).map placeOf =
      [5, 24, 155, 186, 231, 246, 297, 348, 395, 478, 753, 1028, 1303, 1578, 1598] := by decide

/-- R170's example: the live words of NO2 in KIND begin at word address 21. -/
theorem test_kind_live_word : (after (.read .a (rq 3 21 1 [])) (withA { upPort with tx := none })).ports.a.tx =
    some (.mgmtReply ⟨40, 1, 1, 0, 3, 21, 1, [0]⟩) := by decide

/-- R57: the set of key (39, 0). -/
theorem test_set : (setIndex 39 0).val = 28 := by decide

/-- R141: after a power-on reset both LINK_x_DOWN have one occurrence. -/
theorem test_reset_links : (State.reset.latch[0].count, State.reset.latch[1].asserted, State.reset.latch[2].count) =
    (1, true, 0) := by decide

/-- The bytes of a TIME frame, its check word by hand: 0804 + 0000 + 0005 = 0809, inverted F7F6. -/
theorem test_wire_time : wireBytes (.time 5) = [8, 4, 0, 0, 0, 5, 0xF7, 0xF6] := by decide
theorem test_receive_time : receive .b [8, 4, 0, 0, 0, 5, 0xF7, 0xF6] = .time .b 5 := by decide
theorem test_receive_bad : receive .b [8, 4, 0, 0, 0, 5, 0xF7, 0xF7] = .badFrame .b := by decide

/-! ### One step of each command -/

theorem test_power_on : (after .powerOnReset openNode).posA = 0 := by decide
theorem test_pin_reset : (after .pinReset openNode).resetCause = .pin := by decide
theorem test_bad_frame : (after (.badFrame .b) openNode).latch[3].count = 1 := by decide
theorem test_fill : (after (.fill .a) State.reset).ports.a.state = .probing := by decide
theorem test_count : (after (.count .a .a 99) openNode).posA = 100 := by decide
theorem test_count_past_254 : (after (.count .a .a 254) openNode).posA = 0 := by decide
theorem test_sample_relayed : (after (.sample .a ⟨41, 2, [item 0 7]⟩) openNode).ports.b.rl.length = 1 := by decide
theorem test_sample_learned :
    (after (.sample .a ⟨41, 1, [item 0 7]⟩) openNode).tap[place (setIndex 41 0) 0].map TapEntry.value = some 7 := by decide
theorem test_event : (after (.event .a (ev .alarm 3)) openNode).ports.b.rh.length = 1 := by decide
theorem test_trigger :
    (after (.trigger .a ⟨3, .set, 0x0900, 40, 40⟩)
      { openNode with lines := openNode.lines.set 2 { code := 0x0900 } }).latch[37].asserted = true := by decide
theorem test_mgmt_reply : (after (.mgmtReply .b ⟨1, 1, 1, 0, 0, 0, 0, []⟩) openNode).ports.a.rl.length = 1 := by decide
theorem test_mgmt_req_relay :
    (after (.mgmtReqRelay .a ⟨1, 1, rq 0 0 1 []⟩) openNode).ports.b.rl.map Queued.frame =
      [.mgmtReq ⟨0, 1, rq 0 0 1 []⟩] := by decide
theorem test_time : (after (.time .a 77) openNode).clock = 77 := by decide
theorem test_unknown_frame : (after (.unknownFrame .b) State.reset).ports.b.probe = 1 := by decide
theorem test_read : (after (.read .a (rq 0 2 1 [])) openNode).ports.a.ll.map Queued.frame =
    [.mgmtReply ⟨40, 1, 1, 0, 0, 2, 1, [40]⟩] := by decide
set_option maxRecDepth 8000 in
theorem test_write : (after (.write .a (rq 10 2 1 [50])) openNode).node.linkTimeout = 100 := by decide
theorem test_tap_load_full : (after (.tapLoad .a (rq 0 0 0 [41, 0, 1, 5])) openNode).ports.a.ll.map Queued.frame =
    [.mgmtReply ⟨40, 3, 1, 8, 0, 0, 0, []⟩] := by decide
theorem test_flush_tap : (after (.flushTap .a (rq 0 0 0 [])) openNode).ports.a.ll.length = 1 := by decide
theorem test_flush_plans :
    (after (.flushPlans .a (rq 0 0 0 [])) (withStack [])).plan[3].valid = false := by decide
theorem test_ack : (after (.ack .a (rq 0 6 0 [0])) { openNode with latch := openNode.latch.set 5 { unack := true } }).latch[5].unack =
    false := by decide
theorem test_clear_plan : (after (.clearPlan .a (rq 0 0 0 [])) (withStack [ctx 35 5 .none])).stack = [] := by decide
theorem test_set_mask : (after (.setMask .a (rq 0 9 0 [])) openNode).mask = 7 := by decide
theorem test_fan_reset :
    (after (.fanReset .a (rq 0 0 0 [])) (withFan { state := .fault })).fans[0].state = .stopping none := by decide
theorem test_door_reset :
    (after (.doorReset .a (rq 0 0 0 [])) (withDoor { shutDoor with state := .fault })).doors[0].state = .secured := by decide
theorem test_open : (after (.openNode .a (rq 0 0 0 [])) { openNode with nodeState := .lockout }).nodeState = .operating := by
  decide
theorem test_store :
    (after (.store .a (rq 0 0 0 [])) openNode).storing.inHand = some 0 := by decide
theorem test_restart_reports :
    (after (.restart .b (rq 0 0 0 [])) { withA { upPort with tx := none } with pins := { callPoint := true } }).ports.a.tx =
      some (openNode.resetReport 30) := by decide
theorem test_restart : (after (.restart .a (rq 0 0 0 [])) openNode).posA = 40 := by decide
theorem test_bad_op : (after (.badOpRequest .a 14 (rq 0 0 0 [])) openNode).ports.a.ll.map Queued.frame =
    [.mgmtReply ⟨40, 14, 1, 3, 0, 0, 0, []⟩] := by decide
theorem test_link_timer : (after (.linkTimerExpiry .a) openNode).latch[0].asserted = true := by decide
theorem test_fill_timer : (after (.fillTimerExpiry .a) State.reset).ports.a.tx = some .fill := by decide
theorem test_transmission : (after (.transmissionCompletion .a) openNode).ports.a.fillTimer = some 100000 := by decide
theorem test_conversion :
    (after (.conversionCompletion 0 1100)
      { openNode with channels := openNode.channels.set 0 { cfg := { kind := some .co, hi := 3000 } } }).channels[0].ring =
      [459] := by decide
theorem test_report : (after .reportTimerExpiry openNode).reportTimer = some 2000000 := by decide
theorem test_ageing : (after .tapAgeingExpiry openNode).ageTimer = some 1000000 := by decide
theorem test_control : (after .controlTimerExpiry openNode).controlTimer = some 1000000 := by decide
theorem test_kind_hold :
    (after (.kindHoldExpiry .co) { openNode with kinds := { openNode.kinds with co := { status := .degraded, holdTimer := some 1 } } }).latch[14].asserted =
      true := by decide
theorem test_tach_edge : (after (.tachEdge 0 .rising) openNode).fans[0].lastRise = some 0 := by decide
theorem test_tach_overflow :
    (after (.tachOverflow 0) (withFan { lastRise := some 3, captureTimer := some 5 })).fans[0].lastRise = none := by decide
theorem test_tach_overflow_stopped : (after (.tachOverflow 0) (withFan { lastRise := some 3 })).fans[0].lastRise = some 3 := by
  decide
theorem test_period_start : (after (.periodStart 0) (withFan { pendingDuty := 500, pwmCount := 9 })).fans[0].duty = 500 := by
  decide
theorem test_start_timer :
    (after (.startTimerExpiry 0) (withFan { state := .starting .forward, startTimer := some 1 })).fans[0].state = .fault := by
  decide
theorem test_stall_timer :
    (after (.stallTimerExpiry 0) (withFan { state := .running .forward, stallTimer := some 1 })).latch[18].count = 1 := by decide
theorem test_dwell_timer :
    (after (.dwellTimerExpiry 0) (withFan { dwellTimer := some 1 })).fans[0].state = .stopped := by decide
theorem test_isolator_input : (after (.isolatorInputChange 0 true) openNode).fans[0].isoTimer = some 20000 := by decide
theorem test_isolator_accepted :
    (after (.isolatorAccepted 0) (withFan { isoTimer := some 1 })).fans[0].state = .disabled := by decide
theorem test_door_input : (after (.doorInputChange 0 .pushBar true) openNode).doors[0].pushBar.timer = some 20000 := by decide
theorem test_door_debounce :
    (after (.doorDebounceExpiry 0 .pushBar) (withDoor { shutDoor with pushBar := { timer := some 1 } })).doors[0].state =
      .released .egress := by decide
theorem test_egress_timer :
    (after (.egressTimerExpiry 0)
      (withDoor { shutDoor with state := .released .egress, egressTimer := some 1 })).doors[0].state = .secured := by decide
theorem test_hold_timer :
    (after (.holdTimerExpiry 0) (withDoor { state := .opened .egress, holdTimer := some 1 })).doors[0].state = .held := by decide
theorem test_relock_timer :
    (after (.relockTimerExpiry 0)
      (withDoor { shutDoor with state := .relocking, relockTimer := some 1 })).doors[0].lockDrive = true := by decide
theorem test_feedback_timer :
    (after (.feedbackTimerExpiry 0) (withDoor { shutDoor with feedbackTimer := some 1 })).doors[0].state = .fault := by decide
theorem test_lamp_match :
    (after (.lampCompareMatch 0) (withDoor { shutDoor with lampTimer := some 7 })).doors[0].lampTimer = some 500007 := by decide
theorem test_call_point_input : (after (.callPointInputChange true) openNode).callTimer = some 20000 := by decide
theorem test_call_point_accepted :
    (after .callPointAccepted { openNode with callTimer := some 1 }).latch[30].asserted = true := by decide
theorem test_launch_hold : (after .launchHoldExpiry { openNode with launchHold := some 1 }).launchHold = none := by decide
theorem test_step_timer : (after .stepTimerExpiry (withStack [ctx 35 5 (.running 1)])).stack = [] := by decide
theorem test_image_header : (after (.imageHeaderRead .asStored) State.reset).nodeState = .lockout := by decide
theorem test_image_group :
    (after (.imageGroupRead (.instead [])) { State.reset with loading := .group 0 true 15 }).lastFailing = 1 := by decide
theorem test_store_write :
    (after (.storeWriteComplete .asStored) { openNode with storing := .header .writing [0x7424] }).serial = [(0, 0x74), (1, 0x24)] := by
  decide
/-- The serial memory that holds a good header and nothing else. -/
def headerMemory : Memory := Memory.putWords [] 0 (headerRecord false)
theorem test_store_verify :
    (after (.storeVerifyComplete (.instead [])) { openNode with storing := .header .verifying [0x7424] }).latch[34].count = 1 := by
  decide
/-- A failed verify over a good header: the header fails at the next load, and a later STORE mends it. -/
theorem test_failed_verify_of_a_good_header :
    let s := { openNode with storing := .header .verifying (headerRecord false), serial := headerMemory }
    let t := after (.storeVerifyComplete (.instead [])) s
    headerOf (s.serial.words 0 5) = some (false, 15) ∧ headerOf (t.serial.words 0 5) = none ∧
      (t.serial.putWords 0 (headerRecord false)) = headerMemory := by decide
/-- A verify that reads the record over a place that held other words: the place holds the record. -/
theorem test_verify_shows_what_was_written :
    (after (.storeVerifyComplete (.instead (headerRecord false)))
      { openNode with storing := .header .verifying (headerRecord false) }).serial = headerMemory := by decide
/-- A passage fan coasting FORWARD takes a run request at once (log entry 32). -/
theorem test_passage_restarts_while_coasting :
    ({ state := .stopping (some .forward), dwellTimer := some 9 : Fan }.takeRequest 0 ⟨500, some .forward⟩ 500).state =
      .starting .forward := by decide

/-! ### Witnesses: states and operands that meet the hypotheses of each obligation -/

/-- The bytes of small things the witnesses name. -/
def fault0 : Fan := { state := .fault, lastDir := some .forward }

/-- A door RELEASED by its bar, with its egress timer running. -/
def egressDoor (bar : Bool) : Door :=
  { closed := { level := true }, pushBar := { level := bar }, state := .released .egress, egressTimer := some 10 }

/-- A door that is open, with its hold timer running. -/
def openDoor (policy : Policy) : Door := { state := .opened .egress, holdTimer := some 10, policy := policy }

/-- A door that waits for its relock delay. -/
def relockDoor : Door := { closed := { level := true }, state := .relocking, relockTimer := some 10 }

/-- A door in FAULT. -/
def faultDoor (closed bar : Bool) (policy : Policy) : Door :=
  { closed := { level := closed }, pushBar := { level := bar }, state := .fault, policy := policy }

theorem doors_lawful {s : State} (h0 : s.doors[0].Lawful s.isStarting) (h1 : s.doors[1].Lawful s.isStarting) : s.DoorLaw := by
  intro d
  match d with
  | ⟨0, _⟩ => exact h0
  | ⟨1, _⟩ => exact h1

theorem shutDoor_lawful : shutDoor.Lawful false := by
  constructor <;> simp [shutDoor, Door.requiresRelease, Door.agrees, Door.lockDrive, Policy.isOpen]

theorem egressDoor_lawful (bar : Bool) : (egressDoor bar).Lawful false := by
  constructor <;> simp [egressDoor, Door.requiresRelease, Door.releaseCause, Door.agrees, Door.lockDrive, Policy.isOpen]

theorem openDoor_lawful (policy : Policy) : (openDoor policy).Lawful false := by
  constructor <;> simp [openDoor, Door.requiresRelease, Door.agrees, Door.lockDrive]

theorem relockDoor_lawful : relockDoor.Lawful false := by
  constructor <;> simp [relockDoor, Door.requiresRelease, Door.agrees, Door.lockDrive, Policy.isOpen]

theorem faultDoor_lawful (closed bar : Bool) (policy : Policy) : (faultDoor closed bar policy).Lawful false := by
  constructor <;> simp [faultDoor]

theorem withDoor_lawful {D : Door} (h : D.Lawful false) : (withDoor D).DoorLaw := doors_lawful h shutDoor_lawful

theorem openNode_settled : openNode.Settled := settled_of _ rfl rfl

/-- The node at position 8 with a locked way that holds its own key (8, 0). -/
def ownKey : State :=
  { openNode with
    posA := 8, node := { tapLock := 1 }
    tap := openNode.tap.set 0 (some
      { lockedLoad := true, origin := 8, channel := 0, kind := .co, value := 5, clamped := false, fault := false, age := 0
        loadKind := .co, loadValue := 5 }) }

/-- R79: a TAP term of offset 0 is invalid, whatever the cache holds. -/
theorem test_offset_zero : (tapLookup ownKey.tap 8 0).isSome = true ∧ ownKey.tapTerm .co { source := .tap } = none := by decide

theorem witness_StepRunsTheFrontCommand :
    ({ openNode with pending := [.fill .a, .fill .b] } : State).pending = .fill .a :: [.fill .b] := rfl

theorem witness_AnEmptyQueueLetsAMicrosecondPass :
    (State.reset.pending = [] ∧ State.reset.msPhase < 1000) ∧
      (({ openNode with msPhase := 999 } : State).pending = [] ∧ ({ openNode with msPhase := 999 } : State).msPhase < 1000) := by
  decide

theorem witness_HardResetsReturnEveryBlock :
    ((Instr.pinReset, ResetCause.pin) = (.pinReset, .pin)) ∧ openNode.storing = .idle ∧
      ({ openNode with storing := .group 14 .writing [] } : State).storing = .group 14 .writing [] ∧
      ({ openNode with storing := .header .verifying [] } : State).storing = .header .verifying [] ∧
      openNode.serial.wf = true := by decide

theorem witness_RestartKeepsPositionsClockAndLinks :
    openNode.Serves .a (rq 0 0 0 []) ∧ (openNode.port .a).tx = some .fill :=
  ⟨serves_of _ _ _ rfl rfl rfl (by decide) (by decide), rfl⟩

theorem witness_RestartKeepsPositionsClockAndLinks_reports :
    (withA { upPort with tx := none }).Serves .b (rq 0 0 0 []) ∧
      ((withA { upPort with tx := none }).port .a).tx = none ∧
      ({ openNode with pins := { callPoint := true } } : State).assertedAtReset (fun _ => false) 30 = true :=
  ⟨serves_of _ _ _ rfl rfl rfl (by decide) (by decide), by decide⟩

theorem witness_GoodFramesSuperviseAPort :
    (State.reset.Settled ∧ (State.reset.port .a).state = .down) ∧
      ((withA { state := .probing, probe := 1 }).Settled ∧ ((withA { state := .probing, probe := 1 }).port .a).probe = 1) ∧
      ((withA { state := .probing, probe := 2 }).Settled ∧ ((withA { state := .probing, probe := 2 }).port .a).probe = 2) ∧
      (openNode.Settled ∧ (openNode.port .b).state = .up) :=
  ⟨⟨settled_of _ rfl rfl, rfl⟩, ⟨settled_of _ rfl rfl, rfl⟩, ⟨settled_of _ rfl rfl, rfl⟩, ⟨settled_of _ rfl rfl, rfl⟩⟩

theorem witness_ProbingDiscardsOtherKinds :
    upOnly (.time .a 0) = some .a ∧ (State.reset.port .a).state = .down ∧
      ((withA { state := .probing, probe := 1 }).port .a).state = .probing := ⟨rfl, rfl, rfl⟩

theorem witness_ProbingDiscardsOtherKinds_counts :
    (withA { state := .probing, probe := 1 }).Settled ∧ ((withA { state := .probing, probe := 1 }).port .a).probe < 2 ∧
      (withA { state := .probing, probe := 1 }).posA ≠ nextPosition 254 ∧
      (withA { state := .probing, probe := 1 }).posA = nextPosition 39 ∧ (withB {}).Settled ∧
      ((withB {}).port .b).state = .down :=
  ⟨settled_of _ rfl rfl, by decide, by decide, by decide, settled_of _ rfl rfl, rfl⟩

theorem witness_BadFramesCountAnError :
    ((withA { state := .probing, probe := 2 }).port .a).state = .probing ∧ (openNode.port .a).state ≠ .probing := by decide

theorem witness_LinkTimerExpiryTakesAPortDown :
    ((openNode.port .a).linkTimer.isSome = true ∧ (openNode.port .a).state = .up) ∧
      (((withA { state := .probing, probe := 2, linkTimer := some 1 }).port .a).linkTimer.isSome = true ∧
        ((withA { state := .probing, probe := 2, linkTimer := some 1 }).port .a).state ≠ .up) := by decide

/-- A SAMPLE frame of one item. -/
def sampleFrame : Frame := .sample ⟨41, 2, [item 0 7]⟩

theorem witness_OffersMeetTheQueueRules :
    (State.reset.port .a).isUp = false ∧
      (((withB { upPort with rh := timesQ 7 }).port .b).queue .rh).length < QueueId.rh.capacity ∧
      ((∀ j, ((withB { upPort with tx := none }).port .b).queue j = []) ∧
        ((withB { upPort with tx := none }).port .b).tx = none) ∧
      QueueId.rh.capacity ≤ (((withB { upPort with rh := timesQ 8 }).port .b).queue .rh).length ∧
      (QueueId.rl.capacity ≤ (((withB { upPort with rl := timesQ 16 }).port .b).queue .rl).length ∧
        ∀ x ∈ ((withB { upPort with rl := timesQ 16 }).port .b).queue .rl, isSample x.frame = false) ∧
      (((withB { upPort with rl := timesQ 8 ++ ⟨sampleFrame, 0⟩ :: timesQ 7 }).port .b).queue .rl =
          timesQ 8 ++ ⟨sampleFrame, 0⟩ :: timesQ 7 ∧
        (∀ x ∈ timesQ 8, isSample x.frame = false) ∧ isSample sampleFrame = true) := by
  refine ⟨by decide, by decide, ⟨fun j => ?_, by decide⟩, by decide, by decide, by decide⟩
  cases j <;> rfl

theorem witness_RelayedKindsGoStraightThrough :
    openNode.Hears .a ∧ (ev .advisory 3).cls = .advisory ∧
      ((ev .life 3).cls ≠ .advisory ∧ ((withB { upPort with rh := timesQ 7 }).port .b).rh.length < 8) ∧
      ReplyFields.wf ⟨1, 1, 1, 0, 0, 0, 0, List.replicate 16 0⟩ = true ∧
      ((rq 0 0 1 []).wf = true ∧ (1 : Byte) ≠ 0) :=
  ⟨hears_of _ _ rfl rfl rfl, by decide⟩

theorem witness_AFullHighQueueCountsAnOverrun :
    (withB { upPort with rh := timesQ 8 }).Hears .a ∧
      ((ev .alarm 40).cls ≠ .advisory ∧ ((withB { upPort with rh := timesQ 8 }).port .b).rh.length = 8 ∧
        ((withB { upPort with rh := timesQ 8 }).port .b).tx ≠ none ∧ openNode.planValid srcOverrun = false) ∧
      ownOverrunReport openNode.posA (.event (ev .alarm 40)) = true ∧
      ownOverrunReport openNode.posA (.event (ev .alarm 41)) = false :=
  ⟨hears_of _ _ rfl rfl rfl, by decide⟩

theorem witness_SamplesAreTappedAndRelayed :
    openNode.Hears .a ∧ SampleFields.wf ⟨41, 1, [item 0 7]⟩ = true ∧
      SampleFields.wf ⟨41, 2, List.replicate 4 (item 0 7)⟩ = true ∧ (1 : Byte).toNat ≤ 1 ∧ 1 < (2 : Byte).toNat :=
  ⟨hears_of _ _ rfl rfl rfl, by decide⟩

theorem witness_CountsSetPositions :
    openNode.Hears .a ∧ openNode.Hears .b ∧ openNode.posA ≠ nextPosition 40 ∧ openNode.posA = nextPosition 39 ∧
      openNode.posA ≠ nextPosition 254 ∧ nextPosition 253 = 254 :=
  ⟨hears_of _ _ rfl rfl rfl, hears_of _ _ rfl rfl rfl, by decide⟩

/-- A node at 39 whose ACTIVE context, of origin 40, guards its fans up to 1 position away. -/
def guardedNode : State :=
  { withStack [ctx 35 5 .none] with posA := 39, plan := openNode.plan.set 3 { valid := true, guardSpan := 1 } }

theorem witness_CountsSetPositions_guard :
    guardedNode.Hears .a ∧ guardedNode.posA ≠ nextPosition 41 ∧ guardedNode.guardApplies = true ∧
      State.guardApplies { guardedNode with posA := nextPosition 41 } = false ∧
      guardedNode.posA ≠ nextPosition 40 ∧
      State.guardApplies { guardedNode with posA := nextPosition 40 } = guardedNode.guardApplies :=
  ⟨hears_of _ _ rfl rfl rfl, by decide⟩

/-- The node with line map entries 2 and 5 of one code. -/
def mapped : State := { openNode with lines := (openNode.lines.set 2 { code := 0x0800 }).set 5 { code := 0x0800 } }

theorem witness_TriggersActInsideTheirSpan :
    mapped.Hears .a ∧
      (mapped.posA ≠ 0 ∧ (40 : Byte).toNat ≤ mapped.posA ∧ mapped.posA ≤ (40 : Byte).toNat ∧ (254 : Byte).toNat ≠ mapped.posA ∧
        (254 : Byte).toNat ≤ 254 ∧ mapped.lines[2].code = 0x0800 ∧
        ∀ j : Fin 16, mapped.lines[j].code = 0x0800 → (2 : Fin 16) ≤ j) ∧
      ((∀ i : Fin 16, mapped.lines[i].code ≠ 0x0801) ∧ mapped.posA < (41 : Byte).toNat ∧ (mapped.port .b).rh.length < 8) ∧
      ((∀ i : Fin 16, mapped.lines[i].code ≠ 0x0801) ∧ mapped.posA ≠ 0 ∧ (40 : Byte).toNat ≤ mapped.posA) :=
  ⟨hears_of _ _ rfl rfl rfl, by decide⟩

theorem witness_TriggersActInsideTheirSpan_relay :
    (mapped.posA < (41 : Byte).toNat ∧ (39 : Byte).toNat < mapped.posA ∧ (mapped.port .b).rh.length < 8) ∧
      (mapped.posA = (40 : Byte).toNat) ∧
      ((withB { upPort with rh := timesQ 8 }).Hears .a ∧ ((withB { upPort with rh := timesQ 8 }).port .b).isUp = true ∧
        ((withB { upPort with rh := timesQ 8 }).port .b).tx ≠ none ∧
        8 ≤ ((withB { upPort with rh := timesQ 8 }).port .b).rh.length) :=
  ⟨by decide, by decide, hears_of _ _ rfl rfl rfl, by decide⟩

theorem witness_TransmittersSendFillsAndGrants :
    ((State.reset.port .a).fillTimer.isSome = true ∧ (State.reset.port .a).tx = none) ∧
      (((withA { tx := some .fill }).port .a).tx ≠ none ∧ ((withA { tx := some .fill }).port .a).isUp = false) ∧
      ((openNode.port .a).tx ≠ none ∧ (openNode.port .a).isUp = true ∧ upPort.choice = none) ∧
      ({ upPort with rl := timesQ 1 } : LinePort).choice = some .rl := by decide

theorem witness_HeadsAreGrantedInTurn :
    (∃ grant : LinePort → LinePort,
      ∀ Q, grant Q = match Q.choice with | none => Q | some q => Q.grantFrom q) ∧
      (({ upPort with rh := timesQ 1 } : LinePort).queue .rh ≠ [] ∧ QueueId.rh.isHigh = true) ∧
      ({ upPort with ll := timesQ 1 } : LinePort).queue .ll ≠ [] := by
  refine ⟨⟨_, fun _ => rfl⟩, ?_, ?_⟩ <;> decide

theorem witness_SentBytesAreTheFramesCommand :
    (Frame.sample ⟨41, 2, List.replicate 4 (item 0 7)⟩).wf = true ∧
      (Frame.mgmtReply ⟨1, 1, 1, 0, 0, 0, 0, List.replicate 16 0⟩).wf = true ∧ Frame.fill.wf = true := by decide

/-- A reading of CO. -/
def reading : TapEntry :=
  { lockedLoad := false, origin := 39, channel := 0, kind := .co, value := 5, clamped := false, fault := false, age := 3
    loadKind := .co, loadValue := 5 }

/-- The node with a reading of key (39, 0) in way 0 of its set. -/
def tapped : State := { openNode with tap := openNode.tap.set 112 (some reading) }

theorem tapped_places : ∀ i : Fin 128, tapped.tap[i] = if i = 112 then some reading else none := by decide

theorem tapped_law : tapped.TapLaw where
  fits i e h := by
    rw [tapped_places] at h
    split at h
    · rename_i hi
      cases h
      subst hi
      constructor <;> decide
    · cases h
  unique i j e f hi hj _ _ := by
    rw [tapped_places] at hi hj
    split at hi
    · rename_i a
      split at hj
      · rename_i b; rw [a, b]
      · cases hj
    · cases hi

theorem witness_ItemsHitOrAreLearned :
    tapped.TapLaw ∧ (1 ≤ 254 ∧ 254 ≠ tapped.posA ∧ (item 3 0).channel.toNat ≤ 3 ∧ 3 < (item 4 0).channel.toNat) ∧
      (tapped.tap[(112 : Fin 128)] = some reading ∧ reading.origin = 39 ∧ reading.channel = (item 0 9).channel.toNat) ∧
      (∀ i : Fin 128, ∀ e, tapped.tap[i] = some e → ¬(e.origin = 41 ∧ e.channel = (item 0 9).channel.toNat)) ∧
      tapped.learns 44 .co = true ∧ tapped.learns 45 .co = false := by
  refine ⟨tapped_law, by decide, by decide, fun i e h => ?_, by decide, by decide⟩
  rw [tapped_places] at h
  split at h
  · cases h; decide
  · cases h

theorem witness_TapLoadAndFlush :
    openNode.Serves .a (rq 0 0 0 [41, 0, 1]) ∧ (rq 0 0 0 [41, 0, 1]).data.length < 4 ∧
      ((255 : Word).toNat = 0 ∨ 254 < (255 : Word).toNat) ∧ kindOfCode (4 : Word).toNat = some .vel ∧
      loadTarget openNode.tap openNode.node.effLock 254 3 = none ∧ loadTarget openNode.tap 1 1 0 = some 16 :=
  ⟨serves_of _ _ _ rfl rfl rfl (by decide) (by decide), by decide⟩

/-- The node in STARTING with both ports UP. -/
def startingNode : State := { openNode with nodeState := .starting, loading := .header }

theorem witness_TapLoadAndFlush_rewritten :
    ({ openNode with storing := .group 14 .writing [] } : State).storing.inHand = some 14 ∧
      openNode.storing.inHand ≠ some 14 := by decide

theorem witness_RequestsMeetTheFirstChecks :
    (requestOf (.read .a (rq 1 0 1 [])) = some (.a, 1, rq 1 0 1 []) ∧ (Instr.read .a (rq 1 0 1 [])).wf = true ∧
        startingNode.Hears .a ∧ startingNode.nodeState = .starting ∧ (rq 1 0 1 []).table ≠ 0) ∧
      (openNode.Serves .a (rq 0 0 0 []) ∧ (0 : Byte).toNat = 0 ∧ 13 < (14 : Byte).toNat) :=
  ⟨⟨rfl, rfl, hears_of _ _ rfl rfl rfl, rfl, by decide⟩,
    serves_of _ _ _ rfl rfl rfl (by decide) (by decide), by decide, by decide⟩

theorem witness_ReadsAnswerTheTablesWords :
    (startingNode.Hears .a ∧ (rq 0 0 16 []).table = 0) ∧ (openNode.Hears .a ∧ 12 < (rq 13 0 1 []).table.toNat) ∧
      (tableLengths[(rq 12 83 1 []).table.toNat]? = some 84 ∧ Table.ofNumber (rq 12 83 1 []).table.toNat = some .stack ∧
        (rq 12 83 1 []).index.toNat + (rq 12 83 1 []).count.toNat ≤ 84 ∧
        84 < (rq 12 84 1 []).index.toNat + (rq 12 84 1 []).count.toNat ∧ 16 < (rq 12 0 17 []).count.toNat) :=
  ⟨⟨hears_of _ _ rfl rfl rfl, rfl⟩, ⟨hears_of _ _ rfl rfl rfl, by decide⟩, by decide⟩

/-- The places of STACK (R180): ACTIVE, the lone saved context in the newest's place, an empty one, the dropped record. -/
theorem witness_ReadsAnswerTheTablesWords_places :
    (List.range 4).map (fun e =>
      ((({ withStack [ctx 35 5 .none, ctx 36 4 (.frozen 7)] with dropped := some (ctx 37 3 .none, ⟨9, true⟩) } : State).entryRead
        .stack e)[4]?, (({ withStack [ctx 35 5 .none, ctx 36 4 (.frozen 7)] with
          dropped := some (ctx 37 3 .none, ⟨9, true⟩) } : State).entryRead .stack e)[6]?)) =
      [(some 0, some 36), (some 7, some 37), (some 0, some 0), (some 0, some 38)] := by decide

/-- A configuration word at either end of a table, and a live word. -/
theorem witness_NumericFieldsClampToTheirRanges :
    (34 < Table.source.entries ∧ Table.source.fields[3]?.isSome = true) ∧
      (0 < Table.channel.entries ∧ Table.channel.fields[0]?.isSome = true) ∧
      (Table.kind.fields.length ≤ 7 ∧ 13 < Table.kind.size) ∧ (Table.status.fields.length ≤ 0 ∧ 17 < Table.status.size) ∧
      (fieldAmong [0, 1, 2, 3, 4] 0 5 = (0, true) ∧ fieldSigned (-15) 15 0xFFF0 = (0xFFF1, true) ∧
        fieldLineCode 0x07FF = (0, true) ∧ fieldLineCode 0x0800 = (0x0800, false) ∧
        fieldAmong (255 :: List.range 64) 255 64 = (255, true) ∧ fieldRange 0 1 2 = (1, true)) := by decide

theorem witness_WritesAreRefusedUnchanged :
    (openNode.Serves .a (rq 13 0 1 [0]) ∧ 12 < (rq 13 0 1 [0]).table.toNat) ∧ (rq 12 0 1 [0]).table.toNat ∈ [0, 9, 11, 12] ∧
      (tableLengths[(rq 10 17 1 [0]).table.toNat]? = some 17 ∧ (rq 10 17 1 [0]).table.toNat ∉ [0, 9, 11, 12] ∧
        17 < (rq 10 17 1 [0]).index.toNat + (rq 10 17 1 [0]).data.length) ∧
      ((withStack [ctx 35 5 .none]).Serves .a (rq 8 67 1 [0]) ∧ (rq 8 67 1 [0]).table = 8 ∧
        ∃ c ∈ (withStack [ctx 35 5 .none]).stack, ∃ w, (rq 8 67 1 [0]).index.toNat ≤ w ∧
          w < (rq 8 67 1 [0]).index.toNat + (rq 8 67 1 [0]).data.length ∧ w / 17 = c.step.val) :=
  ⟨⟨serves_of _ _ _ rfl rfl rfl (by decide) (by decide), by decide⟩, by decide, by decide,
    serves_of _ _ _ rfl rfl rfl (by decide) (by decide), rfl, ctx 35 5 .none, List.mem_singleton.mpr rfl, 67, by decide,
    by decide, by decide⟩

theorem witness_WritesStoreTheirWords :
    (withStack [ctx 35 5 .none]).Serves .a (rq 8 68 1 [0]) ∧ Table.ofNumber (rq 8 68 1 [0]).table.toNat = some .plan ∧
      tableLengths[(rq 8 68 1 [0]).table.toNat]? = some 1088 ∧ Table.plan.readOnly = false ∧
      (rq 8 68 1 [0]).count.toNat = (rq 8 68 1 [0]).data.length ∧ (rq 8 68 1 [0]).data ≠ [] ∧
      ∀ c ∈ (withStack [ctx 35 5 .none]).stack, ∀ w, (rq 8 68 1 [0]).index.toNat ≤ w →
        w < (rq 8 68 1 [0]).index.toNat + (rq 8 68 1 [0]).data.length → w / 17 ≠ c.step.val := by
  refine ⟨serves_of _ _ _ rfl rfl rfl (by decide) (by decide), rfl, rfl, rfl, rfl, by decide, fun c hc w h1 h2 => ?_⟩
  rw [List.mem_singleton.mp hc]
  have a : 68 ≤ w := h1
  have b : w < 69 := h2
  show w / 17 ≠ 3
  omega

/-- The node after a WRITE that gives CO a weight. -/
def termed : State := { openNode with terms := openNode.terms.set 0 { weight := 1 } }

/-- The node with the line entry 2 asserted. -/
def linked : State :=
  { openNode with
    lines := openNode.lines.set 2 { code := 0x0800 }
    latch := openNode.latch.set 37 { asserted := true, serve := .pending } }

set_option maxRecDepth 8000 in
theorem witness_WritesStoreTheirWords_effects :
    (termed.terms ≠ openNode.terms ∧ (termed.kind .co).status = .unused ∧
        ((State.changed openNode termed).kind .co).status = .failed) ∧
      ((State.changed termed { openNode with kinds := { openNode.kinds with co := { status := .failed, alarm := true } } }).kind
          .co).status = .unused ∧
      ((State.changed linked { linked with lines := openNode.lines }).latch[srcLine 2].asserted = false) ∧
      (State.changed openNode { openNode with node := { tapLock := 7, reportPeriod := 60 } }).reportTimer =
        some 60000000 := by decide

theorem witness_FlushPlansInvalidatesSteps :
    ((withStack [ctx 35 5 .none]).Serves .a (rq 0 0 0 []) ∧ (withStack [ctx 35 5 .none]).stack ≠ []) ∧
      (openNode.Serves .a (rq 0 0 0 []) ∧ openNode.stack = []) :=
  ⟨⟨serves_of _ _ _ rfl rfl rfl (by decide) (by decide), by decide⟩,
    serves_of _ _ _ rfl rfl rfl (by decide) (by decide), rfl⟩

theorem witness_AcksMatchTheCount :
    openNode.Serves .a (rq 0 51 0 [0]) ∧ ((rq 0 0 0 [0]).index.toNat = 0 ∧ 51 < (rq 0 52 0 [0]).index.toNat) ∧
      ((rq 0 51 0 [0]).index.toNat = (50 : EntryId).val + 1 ∧ (rq 0 51 0 [0]).data = 0 :: [] ∧
        (0 : Word).toNat = openNode.latch[50].count.toNat) ∧
      ((rq 0 1 0 [256]).index.toNat = (0 : EntryId).val + 1 ∧ (256 : Word).toNat ≠ openNode.latch[0].count.toNat) :=
  ⟨serves_of _ _ _ rfl rfl rfl (by decide) (by decide), by decide⟩

theorem witness_ClearPlanEndsContextsAndSetMaskStores :
    ((withStack [ctx 35 5 .none]).Serves .a (rq 0 2 0 []) ∧ 1 < (rq 0 2 0 []).index.toNat) ∧
      (openNode.Serves .a (rq 0 1 0 []) ∧ (rq 0 1 0 []).index.toNat ≤ 1 ∧ openNode.stack = []) ∧
      ((withStack [ctx 35 5 .none, ctx 36 2 (.frozen 1)]).stack = ctx 35 5 .none :: ctx 36 2 (.frozen 1) :: [] ∧
        (ctx 36 2 (.frozen 1)).endPending = false ∧ (ctx 35 5 .none).source ≠ srcOverrun) ∧
      (({ openNode with mask := 7 } : State).mask ≤ min (rq 0 8 0 []).index.toNat 7) :=
  ⟨⟨serves_of _ _ _ rfl rfl rfl (by decide) (by decide), by decide⟩,
    ⟨serves_of _ _ _ rfl rfl rfl (by decide) (by decide), by decide⟩, by decide, by decide⟩

theorem witness_ClearPlanEndsContextsAndSetMaskStores_owed :
    (withStack [ctx 35 5 .none, ctx 36 2 (.frozen 0)]).stack = ctx 35 5 .none :: ctx 36 2 (.frozen 0) :: [] ∧
      (ctx 36 2 (.frozen 0)).timer = .frozen 0 ∧ (withStack [ctx 35 5 .none]).stack ≠ [] ∧
      min (rq 0 8 0 []).index.toNat 7 = 7 ∧
      ∃ s : State, s.Serves .a (rq 0 3 0 []) ∧ min (rq 0 3 0 []).index.toNat 7 < s.mask :=
  ⟨rfl, rfl, by decide, by decide, { openNode with mask := 7 }, serves_of _ _ _ rfl rfl rfl (by decide) (by decide),
    by decide⟩

theorem witness_FanAndDoorResets :
    (openNode.Serves .a (rq 0 3 0 []) ∧ 3 ≤ (rq 0 3 0 []).index.toNat ∧ 2 ≤ (rq 0 2 0 []).index.toNat) ∧
      ((rq 0 2 0 []).index.toNat = passage.val ∧ openNode.fans[passage].state ≠ .fault) ∧
      ((withFan fault0).fans[jet1].state = .fault ∧ (∀ c ∈ (withFan fault0).stack, c.source ≠ srcFanFault jet1) ∧
        (withFan fault0).planValid srcOverrun = false ∧ fault0.lastDir = some .forward ∧ fault0.wants .forward = false ∧
        ({ fault0 with request := ⟨500, some .forward⟩ } : Fan).wants .forward = true) ∧
      ((withDoor shutDoor).DoorLaw ∧ (withDoor shutDoor).doors[0].state ≠ .fault) ∧
      (∀ closed bar policy, (withDoor (faultDoor closed bar policy)).DoorLaw ∧
        (withDoor (faultDoor closed bar policy)).doors[0].state = .fault ∧
        (withDoor (faultDoor closed bar policy)).Serves .a (rq 0 0 0 [])) :=
  ⟨⟨serves_of _ _ _ rfl rfl rfl (by decide) (by decide), by decide⟩, by decide, by decide,
    ⟨withDoor_lawful shutDoor_lawful, by decide⟩,
    fun closed bar policy => ⟨withDoor_lawful (faultDoor_lawful closed bar policy), rfl,
      serves_of _ _ _ rfl rfl rfl (show NodeState.operating ≠ .starting by decide) (by decide)⟩⟩

theorem witness_OpenAndStore :
    (openNode.Serves .a (rq 0 0 0 []) ∧ openNode.nodeState = .operating ∧ openNode.storing = .idle ∧
        openNode.dirty[(0 : Fin 15)] = true) ∧
      (({ openNode with nodeState := .lockout } : State).Serves .a (rq 0 0 0 [])) ∧
      ({ openNode with storing := .header .writing [] } : State).storing ≠ .idle ∧
      (∀ g : Fin 15, ({ openNode with dirty := Vector.replicate 15 false } : State).dirty[g] = false) :=
  ⟨⟨serves_of _ _ _ rfl rfl rfl (by decide) (by decide), by decide⟩,
    serves_of _ _ _ rfl rfl rfl (by decide) (by decide), by decide, by decide⟩

theorem witness_ScaledValuesFollowTheLoop : 682 ≤ 682 ∧ 682 ≤ 3412 ∧ 682 ≤ 3412 ∧ 3412 ≤ 3412 := by decide

/-- A used channel. -/
def coChannel : Channel := { cfg := { kind := some .co, hi := 3000 } }

/-- The node with channel 0 measuring CO. -/
def sensing (C : Channel) : State := { openNode with channels := openNode.channels.set 0 C }

theorem witness_ConversionsFillTheRing :
    openNode.Settled ∧ openNode.channels[(0 : ChannelId)].cfg.kind = none ∧
      ((sensing coChannel).channels[(0 : ChannelId)] = coChannel ∧ coChannel.cfg.kind ≠ none ∧ coChannel.fault = false) ∧
      (614 ≤ (614#12).toNat ∧ (3583#12).toNat ≤ 3583 ∧ (613#12).toNat < 614 ∧ 3583 < (3584#12).toNat) ∧
      (({ coChannel with fault := true, goodRun := 2 } : Channel).goodRun < 3 ∧
        ({ coChannel with fault := true, goodRun := 3 } : Channel).goodRun = 3) :=
  ⟨openNode_settled, by decide⟩

theorem witness_ReportsSendTheReadings :
    openNode.Settled ∧ (sensing coChannel).Settled ∧ openNode.sampleItems = [] ∧ (sensing coChannel).sampleItems ≠ [] ∧
      openNode.node.sampleReach ≠ 0 :=
  ⟨openNode_settled, settled_of _ rfl rfl, by decide⟩

theorem witness_ReportsSendTheReadings_smoothed :
    ({ coChannel with cfg := { window := 7 }, ring := List.replicate 16 1 } : Channel).ring ≠ [] ∧
      16 = min (2 ^ min 7 4) (List.replicate 16 (1 : Int)).length ∧ coChannel.ring = [] := by decide

/-- The node with one LOCAL term of CO, and its kind's unit. -/
def weighing (C : Channel) (K : KindUnit) : State :=
  { sensing C with
    terms := openNode.terms.set 0 { weight := 2 }
    kinds := { openNode.kinds with co := K } }

/-- CO's default record. -/
def coCfg : KindCfg := { tLo := 300, tHi := 700, alarm := 1000, clear := 800 }

theorem witness_EvaluationsSettleTheKinds :
    ((weighing { coChannel with ring := [450] } { cfg := coCfg, status := .failed }).weigh .co = (2, 900) ∧
        max coCfg.quorum 1 ≤ 2) ∧
      ((weighing coChannel { cfg := coCfg, status := .ok }).weigh .co).1 < max coCfg.quorum 1 ∧
      (((after .controlTimerExpiry (weighing coChannel { cfg := coCfg, status := .ok, level := some 300 })).kind .co).status =
          .degraded ∧
        ((after .controlTimerExpiry (weighing coChannel { cfg := coCfg, status := .ok, level := some 300 })).kind .co).level =
          some 300) ∧
      ((after .controlTimerExpiry (weighing coChannel { cfg := coCfg, status := .failed })).kind .co).status = .failed := by decide

/-- A LOCAL term and a TAP term that count, in a cache that keeps its law. -/
theorem witness_EvaluationsSettleTheKinds_terms :
    tapped.TapLaw ∧ (weighing { coChannel with ring := [450] } {}).termValue .co { weight := 2 } = some 450 ∧
      ({ tapped with posA := 38 } : State).termValue .co { source := .tap, offset := 1, weight := 1 } = some reading.value :=
  ⟨tapped_law, by decide, by decide⟩

theorem witness_DemandFollowsTheKindsAndHoldTimersFailThem :
    (openNode.jetDirective = .auto ∧ startingNode.jetDirective ≠ .auto) ∧
      ({ weighing coChannel { cfg := coCfg, status := .failed } with dLim := 999 } : State).dLim <
        (after .controlTimerExpiry { weighing coChannel { cfg := coCfg, status := .failed } with dLim := 999 }).demand ∧
      (after .controlTimerExpiry { openNode with dLim := 1 }).demand < ({ openNode with dLim := 1 } : State).dLim ∧
      (((weighing coChannel { status := .degraded, holdTimer := some 1 }).kind .co).holdTimer.isSome = true ∧
        ((weighing coChannel { status := .degraded, holdTimer := some 1 }).kind .co).status ≠ .failed) := by decide

/-- The node with a context that directs VELOCITY to 300. -/
def windNode : State :=
  { withStack [ctx 35 5 .none] with
    plan := openNode.plan.set 3 { valid := true, jet := .velocity, vt := 300 }
    kinds := { openNode.kinds with vel := { status := .degraded, level := some 10 } } }

theorem witness_DemandFollowsTheKindsAndHoldTimersFailThem_velocity :
    windNode.jetDirective = .velocity 300 ∧ windNode.evaluate.kinds.vel.status = .degraded ∧
      windNode.evaluate.kinds.vel.level = some 10 ∧ windNode.evaluate.u = 50 ∧
      ({ windNode with kinds := openNode.kinds } : State).evaluate.kinds.vel.status = .unused ∧
      (∀ vt, openNode.jetDirective ≠ .velocity vt) := by
  refine ⟨by decide, by decide, by decide, by decide, by decide, fun vt h => ?_⟩
  have : openNode.jetDirective = .auto := by decide
  rw [this] at h
  cases h

theorem witness_DemandFollowsTheKindsAndHoldTimersFailThem_requests :
    (openNode.fans[jet1].available = true ∧ (withFan fault0).fans[jet1].available = false) ∧
      (({ state := .stopped, request := ⟨1, some .reverse⟩ } : Fan).wants .reverse = true) ∧
      (({ state := .stopping (some .forward), request := ⟨1000, some .forward⟩ } : Fan).wants .forward = true) ∧
      (({ state := .running .forward } : Fan).runDir = some .forward ∧
        ({ state := .running .forward, request := ⟨1000, some .reverse⟩ } : Fan).wants .forward = false) ∧
      (({ state := .stopped } : Fan).wants .forward = false ∧ ({ state := .stopped } : Fan).wants .reverse = false) := by decide

theorem witness_TachsAreMeasured_changes :
    ((withFan { captureTimer := some 1 }).fans[jet1].captureTimer.isSome = true ∧ openNode.fans[jet1].captureTimer = none) ∧
      ((withFan { captureTimer := some 1, speed := 5 }).fans[jet1].speed ≠ 0) ∧
      ((after (.tachEdge 0 .rising) (withFan { lastRise := some 0, pNew := some 20000 })).fans[jet1].speed ≠
        (withFan { lastRise := some 0, pNew := some 20000 }).fans[jet1].speed) ∧
      ((after (.tachOverflow 0)
          (withFan { dwellTimer := none, captureTimer := some 1, speed := 5 })).fans[jet1].state = .stopped) ∧
      (after (.tachOverflow 0) (withFan
        { state := .running .forward, captureTimer := some 1, speed := 1000
          request := ⟨500, some .forward⟩ })).fans[jet1].stallTimer = some 10000000 := by decide

theorem witness_TachsAreMeasured :
    (openNode.fans[jet1].lastRise = none ∧ (withFan { lastRise := some 0, pNew := some 1 }).fans[jet1].lastRise = some 0) ∧
      ((after (.tachEdge 0 .rising) (withFan { lastRise := some 0, pNew := some 2 })).fans[jet1].pNew = some 0 ∧
        (after (.tachEdge 0 .rising) (withFan { lastRise := some 0, pNew := some 2 })).fans[jet1].pPrev = some 2 ∧ 2 ≤ 0 + 2) ∧
      (withFan { state := .starting .forward, lastRise := some 0, pNew := some 2 }).fans[jet1].state = .starting .forward := by
  decide

theorem witness_FanTimersAct :
    (withFan { state := .starting .forward, startTimer := some 1 }).fans[jet1].startTimer.isSome = true ∧
      (withFan { state := .running .reverse, stallTimer := some 1 }).fans[jet1].stallTimer.isSome = true ∧
      ((withFan { dwellTimer := some 1, speed := 51 }).fans[jet1].dwellTimer.isSome = true ∧
        (withFan { dwellTimer := some 1, speed := 51 }).fans[jet1].cfg.stillThreshold <
          (withFan { dwellTimer := some 1, speed := 51 }).fans[jet1].speed) ∧
      ((withFan { dwellTimer := some 1, speed := 50 }).fans[jet1].speed ≤
          (withFan { dwellTimer := some 1, speed := 50 }).fans[jet1].cfg.stillThreshold ∧
        (withFan { dwellTimer := some 1, speed := 50 }).fans[jet1].request.mag = 0) ∧
      ((withFan { dwellTimer := some 1, speed := 50, request := ⟨1, some .reverse⟩ }).fans[jet1].wants .reverse = true ∧
        (withFan { dwellTimer := some 1, speed := 50, request := ⟨1, some .reverse⟩ }).fans[jet1].speed <
          (withFan { dwellTimer := some 1, speed := 50, request := ⟨1, some .reverse⟩ }).fans[jet1].cfg.confirmSpeed) := by decide

/-- A fan still turning at its confirm speed when its dwell ends goes to RUNNING at once. -/
theorem witness_FanTimersAct_confirmed :
    (after (.dwellTimerExpiry 0)
      (withFan { cfg := { defaultFanCfg 0 with confirmSpeed := 50 }, dwellTimer := some 1, speed := 50
                 request := ⟨1, some .reverse⟩ })).fans[jet1].state = .running .reverse := by decide

theorem witness_IsolatorsDisableAChannel :
    ((withFan { isoTimer := some 1 }).fans[jet1].isoTimer.isSome = true ∧
        (withFan { isoTimer := some 1 }).fans[jet1].isoOpen = false) ∧
      ((withFan { state := .disabled, isoOpen := true, isoTimer := some 1 }).Settled ∧
        (withFan { state := .disabled, isoOpen := true, isoTimer := some 1 }).fans[jet1].isoOpen = true ∧
        (∀ c ∈ (withFan { state := .disabled, isoOpen := true, isoTimer := some 1 }).stack, c.source ≠ srcIsolated jet1) ∧
        openNode.planValid srcOverrun = false ∧
        ∀ d, (withFan { state := .disabled, isoOpen := true, isoTimer := some 1 }).fans[jet1].lastDir = some d →
          (withFan { state := .disabled, isoOpen := true, isoTimer := some 1 }).fans[jet1].wants d = false) :=
  ⟨by decide, settled_of _ rfl rfl, by decide, by decide, by decide, by intro d h; cases h⟩

/-- A jet isolated while its held request waits in its last direction. -/
def isolatedFan : Fan :=
  { state := .disabled, isoOpen := true, isoTimer := some 1, lastDir := some .reverse, request := ⟨500, some .reverse⟩ }

theorem witness_IsolatorsDisableAChannel_held :
    (withFan isolatedFan).Settled ∧ (withFan isolatedFan).fans[jet1].isoTimer.isSome = true ∧
      (withFan isolatedFan).fans[jet1].lastDir = some .reverse ∧ (withFan isolatedFan).fans[jet1].wants .reverse = true ∧
      (∀ c ∈ (withFan isolatedFan).stack, c.source ≠ srcIsolated jet1) :=
  ⟨settled_of _ rfl rfl, by decide⟩

theorem witness_DoorInputsAreDebounced :
    ((openNode.doors[(0 : DoorId)].input .closed).level = true ∧ (openNode.doors[(0 : DoorId)].input .closed).timer = none) ∧
      ((withDoor { shutDoor with pushBar := { timer := some 1 } }).Settled ∧
        (withDoor { shutDoor with pushBar := { timer := some 1 } }).doors[(0 : DoorId)].state = .secured ∧
        (withDoor { shutDoor with pushBar := { timer := some 1 } }).doors[(0 : DoorId)].pushBar.timer.isSome = true ∧
        (withDoor { shutDoor with pushBar := { timer := some 1 } }).planValid (srcEgress 0) = false ∧
        (withDoor { shutDoor with pushBar := { timer := some 1 } }).planValid srcOverrun = false) ∧
      ((withDoor { shutDoor with closed := { level := true, timer := some 1 } }).Settled ∧
        (withDoor { shutDoor with closed := { level := true, timer := some 1 } }).doors[(0 : DoorId)].closed.timer.isSome =
          true) :=
  ⟨by decide, ⟨settled_of _ rfl rfl, by decide⟩, settled_of _ rfl rfl, by decide⟩

/-- The pressed bar of a door, and a change of its position or bar, being debounced. -/
def debouncing (level : Bool) : DebouncedInput := { level := level, timer := some 1 }

theorem witness_DoorInputsAreDebounced_openings :
    ((withDoor { egressDoor false with closed := debouncing true }).Settled ∧
        (withDoor { egressDoor false with closed := debouncing true }).DoorLaw ∧
        (withDoor { egressDoor false with closed := debouncing true }).doors[(0 : DoorId)].state = .released .egress) ∧
      ((withDoor { relockDoor with closed := debouncing true }).Settled ∧
        (withDoor { relockDoor with closed := debouncing true }).DoorLaw) ∧
      ((withDoor { egressDoor false with pushBar := debouncing false }).Settled ∧
        (withDoor { egressDoor false with pushBar := debouncing false }).DoorLaw) ∧
      ((withDoor { relockDoor with pushBar := debouncing false }).Settled ∧
        (withDoor { relockDoor with pushBar := debouncing false }).DoorLaw) := by
  refine ⟨⟨settled_of _ rfl rfl, withDoor_lawful ?_, rfl⟩, ⟨settled_of _ rfl rfl, withDoor_lawful ?_⟩,
    ⟨settled_of _ rfl rfl, withDoor_lawful ?_⟩, settled_of _ rfl rfl, withDoor_lawful ?_⟩ <;>
  · constructor <;>
      simp [egressDoor, relockDoor, debouncing, Door.requiresRelease, Door.releaseCause, Door.agrees, Door.lockDrive,
        Policy.isOpen]

theorem witness_DoorInputsAreDebounced_closings (bar : Bool) (policy : Policy) :
    ((withDoor { openDoor policy with closed := debouncing false, pushBar := { level := bar } }).Settled ∧
        (withDoor { openDoor policy with closed := debouncing false, pushBar := { level := bar } }).DoorLaw) ∧
      ((withDoor { state := .held, closed := debouncing false, policy := policy, pushBar := { level := bar } }).Settled ∧
        (withDoor { state := .held, closed := debouncing false, policy := policy, pushBar := { level := bar } }).DoorLaw) ∧
      openNode.planValid srcOverrun = false := by
  refine ⟨⟨settled_of _ rfl rfl, withDoor_lawful ?_⟩, ⟨settled_of _ rfl rfl, withDoor_lawful ?_⟩, by decide⟩ <;>
  · constructor <;>
      simp [openDoor, debouncing, Door.requiresRelease, Door.releaseCause, Door.agrees, Door.lockDrive, Policy.isOpen]

theorem witness_DoorTimersAct :
    (∀ bar, (withDoor (egressDoor bar)).Settled ∧ (withDoor (egressDoor bar)).DoorLaw ∧
        (withDoor (egressDoor bar)).doors[(0 : DoorId)].egressTimer.isSome = true ∧
        (withDoor (egressDoor bar)).doors[(0 : DoorId)].pushBar.level = bar) ∧
      (∀ policy, (withDoor (openDoor policy)).Settled ∧ (withDoor (openDoor policy)).DoorLaw ∧
        (withDoor (openDoor policy)).doors[(0 : DoorId)].holdTimer.isSome = true ∧
        (withDoor (openDoor policy)).doors[(0 : DoorId)].policy = policy) ∧
      ((withDoor relockDoor).Settled ∧ (withDoor relockDoor).DoorLaw ∧
        (withDoor relockDoor).doors[(0 : DoorId)].relockTimer.isSome = true) ∧
      ((withDoor { shutDoor with feedbackTimer := some 1 }).doors[(0 : DoorId)].feedbackTimer.isSome = true ∧
        (withDoor { shutDoor with lampTimer := some 1 }).doors[(0 : DoorId)].lampTimer = some 1) :=
  ⟨fun bar => ⟨settled_of _ rfl rfl, withDoor_lawful (egressDoor_lawful bar), rfl, rfl⟩,
    fun policy => ⟨settled_of _ rfl rfl, withDoor_lawful (openDoor_lawful policy), rfl, rfl⟩,
    ⟨settled_of _ rfl rfl, withDoor_lawful relockDoor_lawful, rfl⟩, by decide⟩

/-- A node whose ACTIVE context flashes the lamps, which the node has not taken yet. -/
def flashNode (old : LampMode) : State :=
  { withStack [ctx 35 5 .none] with lampMode := old, plan := openNode.plan.set 3 { valid := true, lamp := .flash } }

theorem witness_DoorTimersAct_lamps :
    openNode.stack = [] ∧ (flashNode .off).active = some (ctx 35 5 .none) ∧ (flashNode .off).lampDirective = .flash ∧
      (flashNode .off).lampMode ≠ .flash ∧ (flashNode .flash).lampMode = .flash ∧
      (flashNode .off).afterStackChange.doors[0].lampTimer = some 500000 ∧
      (flashNode .flash).afterStackChange.doors[0].lampTimer = none ∧
      ({ openNode with lampMode := .flash } : State).afterStackChange.lampMode = .off := by decide +kernel

theorem witness_TheCallPointIsDebounced :
    ({ openNode with callTimer := some 1 } : State).callTimer.isSome = true ∧ openNode.callPoint = false ∧
      ({ openNode with callTimer := some 1, callPoint := true } : State).callPoint = true := by decide

theorem openNode_roomy : openNode.Roomy := by
  intro p
  cases p <;> decide

theorem witness_TheCallPointIsDebounced_frames :
    openNode.Roomy ∧ (openNode.sourceCfg srcCallPoint).level ≤ 7 ∧ openNode.latch[srcCallPoint].asserted = false ∧
      (linked.Roomy ∧ linked.latch[srcLine 2].asserted = true) :=
  ⟨openNode_roomy, by decide, by decide, by intro p; cases p <;> decide, by decide⟩

/-- The node with the call point's entry waiting for step 3. -/
def waitingNode (s : State) : State :=
  { s with
    latch := s.latch.set 30 { serve := .pending }
    sources := s.sources.set 30 { cls := .life, level := 7, step := some 3 }
    plan := s.plan.set 3 { valid := true } }

/-- The node with three contexts. -/
def fullStack : State := withStack [ctx 37 4 (.running 9), ctx 36 2 (.frozen 1), ctx 35 1 (.frozen 1)]

theorem stackLaw_of (s : State) (h0 : s.stack.length ≤ 3) (h1 : s.stack.Pairwise fun c d => d.level < c.level)
    (h2 : s.stack.Pairwise fun c d => c.source ≠ d.source)
    (h3 : ∀ n : EntryId, s.latch[n].serve = .served ↔ ∃ c ∈ s.stack, c.source = n)
    (h4 : (s.stack.take 1).all (fun c => !c.timer.isFrozen) = true) (h5 : ∀ c ∈ s.stack.tail, c.timer.isRunning = false) :
    s.StackLaw := by
  refine ⟨h0, h1, h2, h3, fun c hc => ?_, h5⟩
  cases hs : s.stack with
  | nil => simp [State.active, hs] at hc
  | cons d l =>
    simp only [State.active, hs, List.head?_cons, Option.some.injEq] at hc
    simpa [hs, hc] using h4

theorem witness_AcceptanceLaunchesTheHighest :
    (waitingNode openNode).accepted = some (30, 3) ∧ (waitingNode openNode).StackLaw ∧
      (waitingNode openNode).latch[(30 : EntryId)].serve = .pending ∧ (30 : EntryId) ≠ srcOverrun ∧
      (30 : EntryId) ≠ srcPlanDropped ∧
      ((waitingNode fullStack).StackLaw ∧ (waitingNode fullStack).stack.length = 3) :=
  ⟨by decide, stackLaw_of _ (by decide) (by decide) (by decide) (by decide) (by decide) (by decide), by decide, by decide,
    by decide, stackLaw_of _ (by decide) (by decide) (by decide) (by decide) (by decide) (by decide), rfl⟩

theorem configLaw_of (s : State) (hn : s.node = {}) (hc : s.channels = State.reset.channels) (ht : s.terms = State.reset.terms)
    (hk : s.kinds = {}) (hf : ∀ f : FanId, s.fans[f].cfg.InRange) (hd : ∀ d : DoorId, s.doors[d].cfg.InRange)
    (hs : ∀ n : Fin 35, s.sources[n].InRange) (hl : s.lines = State.reset.lines) (hp : ∀ i : Fin 64, s.plan[i].InRange) :
    s.ConfigLaw where
  node := by rw [hn]; unfold NodeCfg.InRange; decide
  channels := by rw [hc]; unfold ChannelCfg.InRange; decide
  terms := by rw [ht]; unfold Term.InRange; decide
  kinds := by intro k; cases k <;> (simp only [State.kind, hk]; unfold KindCfg.InRange; decide)
  fans := hf
  doors := hd
  sources := hs
  lines := by rw [hl]; unfold LineMapEntry.InRange SourceCfg.InRange; decide
  plan := hp

set_option maxRecDepth 8000 in
theorem witness_AcceptanceLaunchesTheHighest_decisions :
    ((waitingNode openNode).LoadLaw ∧ (waitingNode openNode).currentLevel < (waitingNode openNode).effLevel 30 ∧
        (waitingNode openNode).effClass 30 = .life) ∧
      ((waitingNode openNode).Roomy ∧ (waitingNode openNode).stack.length < 3) ∧
      ((waitingNode fullStack).Roomy ∧ (waitingNode fullStack).stack.getLast? = some (ctx 35 1 (.frozen 1))) ∧
      ((({ waitingNode openNode with decisionDue := true } : State)).ConfigLaw ∧
        (({ waitingNode openNode with decisionDue := true } : State)).accepted = some (30, 3) ∧
        (({ openNode with decisionDue := true } : State)).accepted = none) :=
  ⟨⟨⟨by decide, by decide, fun i _ => trivial, fun c hc => absurd hc List.not_mem_nil⟩, by decide, by decide⟩,
    ⟨by intro p; cases p <;> decide, by decide⟩, ⟨by intro p; cases p <;> decide, by decide⟩,
    configLaw_of _ rfl rfl rfl rfl (by unfold FanCfg.InRange; decide) (by unfold DoorCfg.InRange; decide)
      (by unfold SourceCfg.InRange; decide) rfl (by unfold PlanStep.InRange; decide), by decide, by decide⟩

/-- Under HOLD_LAST the entered context holds the jets' last commands. -/
theorem witness_AcceptanceLaunchesTheHighest_captured :
    let s := { waitingNode fullStack with plan := openNode.plan.set 3 { valid := true, jet := .holdLast } }
    s.plan[3].jet = .holdLast ∧ s.stack ≠ [] ∧
      (s.launch 30 3).active.map (·.captured) = some (some (s.fans[jet1].handed, s.fans[jet2].handed)) := by decide

theorem witness_AcceptanceLaunchesTheHighest_drop :
    (ctx 35 1 (.frozen 1)).source ≠ srcOverrun ∧ (waitingNode fullStack).stack.getLast? = some (ctx 35 1 (.frozen 1)) ∧
      (waitingNode fullStack).latch[(30 : EntryId)].serve = .pending ∧ isLevel (ctx 35 1 (.frozen 1)).source = true := by
  decide

theorem witness_HoldAndStepTimersExpire_resumption :
    ({ openNode with launchHold := some 1 } : State).launchHold.isSome = true ∧
      (ctx 36 2 (.frozen 1)).timer ≠ .frozen 0 ∧ (ctx 36 2 (.frozen 1)).clearSeen = false ∧
      (withStack [ctx 37 4 (.running 9), ctx 36 2 (.frozen 0)]).stack = ctx 37 4 (.running 9) :: [ctx 36 2 (.frozen 0)] ∧
      (withStack [ctx 37 4 (.running 9), ctx 36 2 (.frozen 0)]).plan[(ctx 37 4 (.running 9)).step].next = none := by
  decide

theorem witness_HoldAndStepTimersExpire_frames :
    fullStack.Roomy ∧ fullStack.plan[(ctx 37 4 (.running 9)).step].next = none ∧
      [ctx 36 2 (.frozen 1), ctx 35 1 (.frozen 1)].head? = some (ctx 36 2 (.frozen 1)) ∧
      (ctx 36 2 (.frozen 1)).endPending = false :=
  ⟨by intro p; cases p <;> decide, by decide⟩

theorem witness_HoldAndStepTimersExpire :
    (({ openNode with launchHold := some 1 } : State).Settled ∧
        ({ openNode with launchHold := some 1 } : State).launchHold.isSome = true ∧
        ∀ n : EntryId, ({ openNode with launchHold := some 1 } : State).latch[n].serve ≠ .pending) ∧
      (fullStack.stack = ctx 37 4 (.running 9) :: [ctx 36 2 (.frozen 1), ctx 35 1 (.frozen 1)] ∧
        (ctx 37 4 (.running 9)).timer = .running 9) ∧
      (({ fullStack with plan := (fullStack.plan.set 3 { next := some 63 }).set 63 { valid := true } } : State).plan[3].next =
          some 63 ∧
        ({ fullStack with plan := (fullStack.plan.set 3 { next := some 63 }).set 63 { valid := true } } : State).plan[63].valid =
          true) ∧
      ((withStack [ctx 37 4 (.running 9)]).plan[3].next = none ∧
        (withStack [ctx 37 4 (.running 9)]).stack = ctx 37 4 (.running 9) :: []) :=
  ⟨⟨settled_of _ rfl rfl, by decide⟩, by decide⟩

set_option maxRecDepth 8000 in
theorem witness_TheImageLoadTakesItsGroups :
    (State.reset.Settled ∧ State.reset.loading = .header ∧ headerOf (State.reset.serialRead .asStored 0 5) = none) ∧
      headerOf (State.reset.serialRead (.instead (headerRecord true)) 0 5) = some (true, 15) ∧
      ({ State.reset with loading := .group 4 true 5 } : State).loading = .group 4 true 5 ∧
      recordData 4 (State.reset.serialRead (.instead (groupRecord 4 (List.replicate 12 0))) (placeOf 4) 15) =
        some (List.replicate 12 0) ∧
      recordData 14 (State.reset.serialRead (.instead []) (placeOf 14) 579) = none :=
  ⟨⟨settled_of _ rfl rfl, by decide⟩, by decide⟩

/-- A TAPLOCK record's data with key (8, 0) in the ways 0 and 1 of set 0. -/
def taplockData : List Word := [1, 8, 0, 1, 5, 1] ++ [1, 8, 0, 1, 6, 0] ++ List.replicate 564 0

set_option maxRecDepth 8000 in
theorem witness_TheImageLoadTakesItsGroups_taplock :
    headerOf (State.reset.serialRead (.instead [0x7424, 1, 2, 0, 0x8BD8]) 0 5) = some (true, 0) ∧
      recordData 14 (State.reset.serialRead (.instead (groupRecord 14 taplockData)) (placeOf 14) 579) = some taplockData ∧
      (loadableWay taplockData 0 0 ∧ loadableWay taplockData 0 1 ∧ ¬ loadableWay taplockData 31 2) ∧
      storedKey taplockData 0 0 = storedKey taplockData 0 1 ∧
      (after (.imageGroupRead (.instead (groupRecord 14 taplockData)))
        { State.reset with loading := .group 14 false 15, node := { tapLock := 2 } }).dirty[groupTaplock] = true :=
  ⟨by decide, by decide +kernel, by unfold loadableWay; decide, by decide, by decide +kernel⟩

theorem witness_StoresWriteAndVerify :
    (({ openNode with storing := .group 0 .writing [1] } : State).storing = .group 0 .writing [1] ∧
        ({ openNode with storing := .header .writing [1] } : State).storing = .header .writing [1]) ∧
      (({ openNode with storing := .group 0 .verifying [1] } : State).serialRead (.instead [1]) (placeOf 0) 1 = [1] ∧
        openNode.rewritten[(0 : Fin 15)] = false ∧ openNode.dirty[(1 : Fin 15)] = true ∧
        ({ openNode with storing := .group 0 .verifying [1] } : State).serialRead .asStored (placeOf 0) 1 ≠ [1]) ∧
      (∀ h : Fin 15, (14 : Fin 15) < h → openNode.dirty[h] = false) ∧
      (List.replicate 12 (0 : Word)).length = dataLength 4 := by decide

/-- NODE's record of no words but zeros, in its place. -/
def nodeMemory : Memory := Memory.putWords [] (placeOf 13) (groupRecord 13 (List.replicate (dataLength 13) 0))

set_option maxRecDepth 8000 in
/-- A verify that does not match, over a place that passes its check and over one that does not; and one that matches. -/
theorem witness_StoresWriteAndVerify_places :
    let s : State := { openNode with serial := nodeMemory }
    (s.serialRead (.instead []) (placeOf 13) 3 ≠ [1, 2, 3] ∧ s.serial.wf = true ∧
        recordData 13 (s.serial.words (placeOf 13) (3 + dataLength 13)) ≠ none ∧
        recordData 12 (s.serial.words (placeOf 12) (3 + dataLength 12)) = none) ∧
      recordData 13 ((failPlace 13 s.serial).words (placeOf 13) (3 + dataLength 13)) = none ∧
      (s.serialRead .asStored (placeOf 13) (3 + dataLength 13)).length = 3 + dataLength 13 ∧
      (headerOf (headerMemory.words 0 5) ≠ none ∧ headerOf (s.serial.words 0 5) = none ∧ headerMemory.wf = true ∧
        s.serialRead (.instead (headerRecord true)) 0 5 = headerRecord true ∧ (headerRecord true).length = 5) := by
  decide +kernel

/-! #### Laws: State.reset has each of them and a step from it answers a next state -/

theorem reset_steps : step State.reset = .next (State.reset.elapse 1) := rfl

theorem witness_StepsKeepTheModelsForm :
    State.reset.Settled ∧ State.reset.serial.wf = true ∧ State.reset.msPhase < 1000 :=
  ⟨settled_of _ rfl rfl, rfl, by decide⟩

theorem witness_StepsKeepTheLineLaw : State.reset.LineLaw := by
  have h : ({} : LinePort).Lawful :=
    { probe := rfl, link := rfl, fill := rfl, quiet := fun _ q => by cases q <;> rfl, idle := fun _ q => by cases q <;> rfl
      bounded := fun q => by cases q <;> decide
      kinds := fun q x hx => by cases q <;> exact absurd hx List.not_mem_nil }
  intro p
  cases p
  · exact ⟨h, by decide⟩
  · exact ⟨h, by decide⟩

theorem witness_StepsKeepTheTapLaw : tapped.TapLaw := tapped_law

theorem openNode_fanLaw (F : Fan) (h : F.Lawful) : (withFan F).FanLaw := by
  have g : ∀ f : FanId, ({ cfg := defaultFanCfg f, state := .stopped } : Fan).Lawful := by
    intro f
    constructor <;> first | (simp [Fan.runDir]; done) | (revert f; decide)
  intro f
  match f with
  | ⟨0, _⟩ => exact h
  | ⟨1, _⟩ => exact g 1
  | ⟨2, _⟩ => exact g 2

/-- A JET1 that runs FORWARD. -/
def runningFan : Fan :=
  { state := .running .forward, lastDir := some .forward, duty := 500, pendingDuty := 500, request := ⟨500, some .forward⟩ }

theorem witness_StepsKeepTheFanLaw : (withFan runningFan).FanLaw := by
  refine openNode_fanLaw _ ?_
  constructor <;> first | (simp [runningFan, Fan.runDir]; done) | decide

theorem witness_NoStepReversesARunningFan :
    (withFan runningFan).FanLaw ∧ step (withFan runningFan) = .next ((withFan runningFan).elapse 1) ∧
      (withFan runningFan).fans[jet1].runDir = some .forward ∧
      ((withFan runningFan).elapse 1).fans[jet1].runDir = some .forward :=
  ⟨witness_StepsKeepTheFanLaw, rfl, by decide, by decide⟩

/-- A JET1 that coasts, its dwell at its end, with a request in the other direction. -/
def coastingFan : Fan :=
  { state := .stopping (some .forward), lastDir := some .forward, request := ⟨500, some .reverse⟩, dwellTimer := some 1 }

theorem witness_NoStepReversesARunningFan_after_the_dwell :
    (withFan coastingFan).FanLaw ∧ ({ withFan coastingFan with pending := [.dwellTimerExpiry 0] } : State).FanLaw ∧
      (after (.dwellTimerExpiry 0) (withFan coastingFan)).fans[jet1].state = .starting .reverse := by
  have h : (withFan coastingFan).FanLaw := by
    refine openNode_fanLaw _ ?_
    constructor <;> simp [coastingFan, Fan.runDir]
  exact ⟨h, h, by decide⟩

/-- A JET1 that has not run since the reset: it is kept off until its dwell is over. -/
theorem witness_NoStepReversesARunningFan_after_reset :
    (withFan { state := .stopping none, request := ⟨500, some .reverse⟩, dwellTimer := some 1 }).fans[jet1].runDir = none ∧
      (withFan { state := .stopping none, request := ⟨500, some .reverse⟩, dwellTimer := some 1 }).fans[jet1].lastDir ≠
        some .reverse ∧
      (after (.dwellTimerExpiry 0) (withFan { state := .stopping none, request := ⟨500, some .reverse⟩
                                              dwellTimer := some 1 })).fans[jet1].runDir = some .reverse := by decide

theorem witness_StepsKeepTheOverrideLaws :
    State.reset.LoadLaw ∧ State.reset.GuardLaw ∧ State.reset.PassageLaw := by
  have h : ∀ i : Fin 64, State.reset.plan[i].valid = false := by decide
  refine ⟨⟨by decide, by decide, fun i hi => ?_, fun c hc => absurd hc List.not_mem_nil⟩, by unfold State.GuardLaw; decide,
    ⟨by decide, by decide, by decide⟩⟩
  rw [h i] at hi
  cases hi

theorem witness_StepsKeepTheDoorLaw : (withDoor relockDoor).DoorLaw := withDoor_lawful relockDoor_lawful

theorem reset_lampLaw : State.reset.LampLaw := ⟨rfl, fun _ => by decide, fun h => (by cases h), by decide⟩

theorem witness_StepsKeepTheDoorLaw_lamps : State.reset.LoadLaw ∧ State.reset.LampLaw :=
  ⟨witness_StepsKeepTheOverrideLaws.1, reset_lampLaw⟩

theorem witness_OpenPoliciesNeverSecure :
    State.reset.LoadLaw ∧ State.reset.PolicyLaw ∧
      ((withDoor shutDoor).DoorLaw ∧ (withDoor shutDoor).PolicyLaw ∧ (withDoor shutDoor).doors[(0 : DoorId)].state = .secured) :=
  ⟨witness_StepsKeepTheOverrideLaws.1, by unfold State.PolicyLaw; decide, withDoor_lawful shutDoor_lawful,
    by unfold State.PolicyLaw; decide, rfl⟩

theorem witness_StepsKeepTheStackLaw : fullStack.StackLaw :=
  stackLaw_of _ (by decide) (by decide) (by decide) (by decide) (by decide) (by decide)

theorem witness_StepsKeepTheLoadLaw : State.reset.LoadLaw := witness_StepsKeepTheOverrideLaws.1

theorem witness_OnlyAMatchingAckClearsUnacknowledged :
    keepsRunning (.ack .a (rq 0 6 0 [0])) = true ∧
      ({ openNode with latch := openNode.latch.set 5 { unack := true } } : State).latch[(5 : EntryId)].unack = true ∧
      (after (.ack .a (rq 0 6 0 [0]))
        { openNode with latch := openNode.latch.set 5 { unack := true } }).latch[(5 : EntryId)].unack = false := by decide

theorem witness_OnlyAMatchingAckClearsUnacknowledged_hears :
    ({ openNode with latch := openNode.latch.set 5 { unack := true } } : State).Hears .a := hears_of _ _ rfl rfl rfl

theorem witness_StepsKeepFieldsInRange : State.reset.ConfigLaw where
  node := by unfold NodeCfg.InRange; decide
  channels := by unfold ChannelCfg.InRange; decide
  terms := by unfold Term.InRange; decide
  kinds := by intro k; cases k <;> (unfold KindCfg.InRange; decide)
  fans := by unfold FanCfg.InRange; decide
  doors := by unfold DoorCfg.InRange; decide
  sources := by unfold SourceCfg.InRange; decide
  lines := by unfold LineMapEntry.InRange SourceCfg.InRange; decide
  plan := by unfold PlanStep.InRange; decide

end Sys2Proof.Tests
end

