-- ==== Sys2Proof/Proofs/Records.lean ====
section
/-! PROOFS. Proofs/Records.lean: the configuration of a state as one value, and for each operation of the node that stores
no configuration word, that it leaves this value as it stood. -/

namespace Sys2Proof.Machine

/-! ### The configuration as one value -/

/-- The configuration records of a state, the live fields beside them left out. -/
structure Records where
  node : NodeCfg
  channels : ChannelId → ChannelCfg
  terms : Vector Term 32
  kinds : Kind → KindCfg
  fans : FanId → FanCfg
  doors : DoorId → DoorCfg
  sources : Vector SourceCfg 35
  lines : Vector LineMapEntry 16
  plan : Vector PlanStep 64

def State.records (s : State) : Records where
  node := s.node
  channels := fun c => s.channels[c].cfg
  terms := s.terms
  kinds := fun k => (s.kind k).cfg
  fans := fun f => s.fans[f].cfg
  doors := fun d => s.doors[d].cfg
  sources := s.sources
  lines := s.lines
  plan := s.plan

/-- Equal records are the equal configuration fields that the statements speak of. -/
theorem records_eq_iff (s t : State) : t.records = s.records ↔ SameConfig s t := by
  constructor
  · intro h
    exact
      { node := congrArg Records.node h
        channels := congrFun (congrArg Records.channels h)
        terms := congrArg Records.terms h
        kinds := congrFun (congrArg Records.kinds h)
        fans := congrFun (congrArg Records.fans h)
        doors := congrFun (congrArg Records.doors h)
        sources := congrArg Records.sources h
        lines := congrArg Records.lines h
        plan := congrArg Records.plan h }
  · intro h
    simp only [State.records, Records.mk.injEq]
    exact ⟨h.node, funext h.channels, h.terms, funext h.kinds, funext h.fans, funext h.doors, h.sources, h.lines,
      h.plan⟩

/-- The ranges are a matter of the configuration alone. -/
theorem State.ConfigLaw.of_records {s t : State} (hs : s.ConfigLaw) (h : t.records = s.records) : t.ConfigLaw := by
  have e := (records_eq_iff s t).mp h
  exact
    { node := e.node ▸ hs.node
      channels := fun c => e.channels c ▸ hs.channels c
      terms := fun i => e.terms ▸ hs.terms i
      kinds := fun k => e.kinds k ▸ hs.kinds k
      fans := fun f => e.fans f ▸ hs.fans f
      doors := fun d => e.doors d ▸ hs.doors d
      sources := fun n => e.sources ▸ hs.sources n
      lines := fun i => e.lines ▸ hs.lines i
      plan := fun i => e.plan ▸ hs.plan i }

/-! ### Rules of a fan channel -/

section
variable (F : Fan) (now : Nat) (d : Direction)

@[simp] theorem Fan.cfg_quiet : F.quiet.cfg = F.cfg := rfl

@[simp] theorem Fan.cfg_enterStopping (x : Option Direction) : (F.enterStopping now x).cfg = F.cfg := rfl

@[simp] theorem Fan.cfg_stallTest : (F.stallTest now).cfg = F.cfg := by
  unfold Fan.stallTest; split <;> rfl

@[simp] theorem Fan.cfg_confirm : (F.confirm now d).cfg = F.cfg := by
  unfold Fan.confirm; split <;> simp

@[simp] theorem Fan.cfg_enterStarting : (F.enterStarting now d).cfg = F.cfg := by
  simp [Fan.enterStarting]

@[simp] theorem Fan.cfg_serveStopped : (F.serveStopped now).cfg = F.cfg := by
  unfold Fan.serveStopped
  split
  · split <;> simp
  · rfl

@[simp] theorem Fan.cfg_serve : (F.serve now).cfg = F.cfg := by
  unfold Fan.serve
  split <;> (try split) <;> simp

@[simp] theorem Fan.cfg_tryStopped : (F.tryStopped now).cfg = F.cfg := by
  unfold Fan.tryStopped
  split <;> (try split) <;> simp

@[simp] theorem Fan.cfg_speedChanged : (F.speedChanged now).cfg = F.cfg := by
  unfold Fan.speedChanged; split <;> simp

@[simp] theorem Fan.cfg_takeRequest (c : Cmd) (duty : Nat) : (F.takeRequest now c duty).cfg = F.cfg := by
  simp [Fan.takeRequest]

@[simp] theorem Fan.cfg_periodStart : F.periodStart.cfg = F.cfg := rfl

@[simp] theorem Fan.cfg_dutyFieldsWritten : F.dutyFieldsWritten.cfg = F.cfg := rfl

@[simp] theorem Fan.cfg_capture (e : Edge) : (F.capture now e).cfg = F.cfg := by
  unfold Fan.capture
  cases e <;> dsimp only <;> split <;> rfl

@[simp] theorem Fan.cfg_setSpeed (v : Nat) : (F.setSpeed now v).cfg = F.cfg := by
  unfold Fan.setSpeed; split <;> simp

@[simp] theorem Fan.cfg_overflow : (F.overflow now).cfg = F.cfg := by
  unfold Fan.overflow; split <;> simp

/-- Hand-offs and re-formations keep the record. -/
theorem FanMove.cfg {now : Nat} {F G : Fan} (h : FanMove now F G) : G.cfg = F.cfg := by
  cases h with
  | request => simp
  | handed => rfl

theorem FanReach.cfg {now : Nat} {F G : Fan} (h : FanReach now F G) : G.cfg = F.cfg := by
  induction h with
  | refl => rfl
  | tail _ move ih => exact move.cfg.trans ih

end

/-! ### Rules of a door -/

section
variable (D : Door) (now : Nat) (starting : Bool)

@[simp] theorem Door.cfg_setInput (i : DoorInput) (x : DebouncedInput) : (D.setInput i x).cfg = D.cfg := by
  cases i <;> rfl

@[simp] theorem Door.cfg_placed : (D.placed starting).cfg = D.cfg := by
  unfold Door.placed; split <;> rfl

@[simp] theorem Door.cfg_reevaluate : (D.reevaluate now starting).cfg = D.cfg := by
  simp [Door.reevaluate]

@[simp] theorem Door.cfg_pressed : (D.pressed now starting).1.cfg = D.cfg := by
  unfold Door.pressed; dsimp only; split <;> rfl

@[simp] theorem Door.cfg_enterOpen (c : OpenCause) : (D.enterOpen now c).cfg = D.cfg := rfl

@[simp] theorem Door.cfg_opens : (D.opens now).1.cfg = D.cfg := by
  unfold Door.opens; split <;> rfl

@[simp] theorem Door.cfg_shut : (D.shut now starting).cfg = D.cfg := by
  unfold Door.shut; dsimp only; split <;> simp

@[simp] theorem Door.cfg_closes : (D.closes now starting).cfg = D.cfg := by
  unfold Door.closes; split <;> simp

@[simp] theorem Door.cfg_edgeEvent (i : DoorInput) (level : Bool) :
    (D.edgeEvent now starting i level).1.cfg = D.cfg := by
  cases i <;> cases level <;> simp [Door.edgeEvent]

@[simp] theorem Door.cfg_accept (i : DoorInput) : (D.accept i).cfg = D.cfg := by
  simp [Door.accept]

@[simp] theorem Door.cfg_rawChange (t : Stamp) (i : DoorInput) (level : Bool) :
    (D.rawChange now t i level).cfg = D.cfg := by
  unfold Door.rawChange; dsimp only; split
  · simp
  · split <;> simp

@[simp] theorem Door.cfg_egressExpired : (D.egressExpired now starting).cfg = D.cfg := by
  unfold Door.egressExpired; split
  · rfl
  · split <;> simp

@[simp] theorem Door.cfg_enterHeld : D.enterHeld.cfg = D.cfg := rfl

@[simp] theorem Door.cfg_holdExpires : D.holdExpires.cfg = D.cfg := by
  unfold Door.holdExpires; split
  · rfl
  · split <;> rfl

@[simp] theorem Door.cfg_relockExpired : (D.relockExpired now starting).cfg = D.cfg := by
  unfold Door.relockExpired; split <;> simp

@[simp] theorem Door.cfg_feedbackExpired : D.feedbackExpired.cfg = D.cfg := by
  unfold Door.feedbackExpired; split <;> rfl

@[simp] theorem Door.cfg_reset : (D.reset now starting).cfg = D.cfg := by
  unfold Door.reset; split
  · split <;> simp
  · rfl

@[simp] theorem Door.cfg_takePolicy : (D.takePolicy now starting).cfg = D.cfg := by
  unfold Door.takePolicy
  split <;> (try split) <;> simp

@[simp] theorem Door.cfg_policyChange (p : Policy) : (D.policyChange now starting p).cfg = D.cfg := by
  unfold Door.policyChange; split <;> simp

@[simp] theorem Door.cfg_leaveStarting : (D.leaveStarting now).cfg = D.cfg := by
  unfold Door.leaveStarting; split <;> simp

@[simp] theorem Door.cfg_supervise (old : Door) : (D.supervise now old).cfg = D.cfg := by
  unfold Door.supervise; split
  · rfl
  · split <;> rfl

@[simp] theorem Door.cfg_takeLamp (old new : LampMode) : (D.takeLamp now old new).cfg = D.cfg := by
  unfold Door.takeLamp
  split <;> (try split) <;> rfl

@[simp] theorem Door.cfg_lampMatch : D.lampMatch.cfg = D.cfg := by
  unfold Door.lampMatch; split <;> rfl

theorem DoorMove.cfg {now : Nat} {starting : Bool} {D E : Door} (h : DoorMove now starting D E) : E.cfg = D.cfg := by
  cases h <;> simp

theorem DoorReach.cfg {now : Nat} {starting : Bool} {D E : Door} (h : DoorReach now starting D E) : E.cfg = D.cfg := by
  induction h with
  | refl => rfl
  | tail _ move ih => exact move.cfg.trans ih

end

/-! ### Rules of a sensor channel and of a kind -/

@[simp] theorem Channel.cfg_convert (C : Channel) (c : Nat) : (C.convert c).cfg = C.cfg := by
  unfold Channel.convert
  split
  · unfold Channel.countGood
    dsimp only
    split
    · split <;> rfl
    · rfl
  · rfl

@[simp] theorem Channel.cfg_recordChanged (old : ChannelCfg) (C : Channel) : (C.recordChanged old).cfg = C.cfg := by
  unfold Channel.recordChanged; split
  · rfl
  · split <;> rfl

@[simp] theorem KindUnit.cfg_settle (K : KindUnit) (now w : Nat) (sum : Int) : (K.settle now w sum).cfg = K.cfg := by
  unfold KindUnit.settle
  dsimp only
  split
  · rfl
  · split <;> (try split) <;> rfl

@[simp] theorem KindUnit.cfg_usedChange (K : KindUnit) (used : Bool) : (K.usedChange used).cfg = K.cfg := by
  unfold KindUnit.usedChange
  split
  · split <;> rfl
  · split <;> rfl

@[simp] theorem cfg_evaluated (s : State) (k : Kind) : (s.evaluated k).cfg = (s.kind k).cfg := by
  unfold State.evaluated
  dsimp only
  split
  · rfl
  · split <;> simp

/-! ### Updates of one block -/

section
variable (s : State)

@[simp] theorem records_setPort (p : Port) (P : LinePort) : (s.setPort p P).records = s.records := by
  cases p <;> rfl

@[simp] theorem records_setLatch (n : EntryId) (e : LatchEntry) : (s.setLatch n e).records = s.records := rfl

@[simp] theorem records_setStack (l : List Context) : (s.setStack l).records = s.records := rfl

@[simp] theorem records_setServe (n : EntryId) (v : Serve) : (s.setServe n v).records = s.records := rfl

@[simp] theorem records_markDirty (g : Fin 15) : (s.markDirty g).records = s.records := rfl

theorem records_withTap (tap : TapCache) : State.records { s with tap := tap } = s.records := rfl

theorem records_withTaplock (tap : TapCache) (dirty : Vector Bool 15) :
    State.records { s with tap := tap, dirty := dirty } = s.records := rfl

theorem records_withPins (pins : Pins) : State.records { s with pins := pins } = s.records := rfl

theorem records_withFreeCount (n : Nat) : State.records { s with freeCount := n } = s.records := rfl

theorem records_withLatch (latch : Vector LatchEntry 51) (due : Bool) :
    State.records { s with latch := latch, decisionDue := due } = s.records := rfl

theorem records_withDirty (dirty : Vector Bool 15) : State.records { s with dirty := dirty } = s.records := rfl

theorem records_withFailing (dirty : Vector Bool 15) (n : Nat) :
    State.records { s with dirty := dirty, lastFailing := n } = s.records := rfl

theorem records_withDecision (due : Bool) : State.records { s with decisionDue := due } = s.records := rfl

theorem records_setChannel {c : ChannelId} {C : Channel} (h : C.cfg = s.channels[c].cfg) :
    (s.setChannel c C).records = s.records := by
  rw [records_eq_iff]
  refine ⟨rfl, fun d => ?_, rfl, fun _ => rfl, fun _ => rfl, fun _ => rfl, rfl, rfl, rfl⟩
  rw [channels_setChannel]
  split
  · rename_i e; rw [e, h]
  · rfl

theorem records_setFan {f : FanId} {F : Fan} (h : F.cfg = s.fans[f].cfg) : (s.setFan f F).records = s.records := by
  rw [records_eq_iff]
  refine ⟨rfl, fun _ => rfl, rfl, fun _ => rfl, fun g => ?_, fun _ => rfl, rfl, rfl, rfl⟩
  rw [fans_setFan]
  split
  · rename_i e; rw [e, h]
  · rfl

theorem records_setDoor {d : DoorId} {D : Door} (h : D.cfg = s.doors[d].cfg) : (s.setDoor d D).records = s.records := by
  rw [records_eq_iff]
  refine ⟨rfl, fun _ => rfl, rfl, fun _ => rfl, fun _ => rfl, fun e => ?_, rfl, rfl, rfl⟩
  rw [doors_setDoor]
  split
  · rename_i q; rw [q, h]
  · rfl

theorem records_setKind {k : Kind} {K : KindUnit} (h : K.cfg = (s.kind k).cfg) : (s.setKind k K).records = s.records := by
  rw [records_eq_iff]
  refine ⟨by simp, fun _ => by simp, by simp, fun j => ?_, fun _ => by simp, fun _ => by simp, by simp, by simp,
    by simp⟩
  rw [kind_setKind_eq]
  split
  · rename_i e; rw [e, h]
  · rfl

/-- A new set of kinds with the same four records. -/
theorem records_kinds {K : Kinds} (co : K.co.cfg = s.kinds.co.cfg) (no2 : K.no2.cfg = s.kinds.no2.cfg)
    (opac : K.opac.cfg = s.kinds.opac.cfg) (vel : K.vel.cfg = s.kinds.vel.cfg) :
    State.records { s with kinds := K } = s.records := by
  rw [records_eq_iff]
  refine ⟨rfl, fun _ => rfl, rfl, fun k => ?_, fun _ => rfl, fun _ => rfl, rfl, rfl, rfl⟩
  cases k
  · exact co
  · exact no2
  · exact opac
  · exact vel

/-! ### What an event's consequences leave -/

/-- The frames, occurrences, hand-offs, door policies and launches of an event store no configuration word. -/
theorem Consequence.records {E : EntryId → Prop} {s t : State} (h : Consequence E s t) : t.records = s.records := by
  have part : ∀ {α : Type} (f : State → α), f t.still = f s.still := fun f => congrArg f h.still
  rw [records_eq_iff]
  exact
    { node := part State.node
      channels := fun c => congrArg (fun v : Vector Channel 4 => v[c].cfg) (part State.channels)
      terms := part State.terms
      kinds := fun k => part fun x => (x.kind k).cfg
      fans := fun f => (h.fans f).cfg
      doors := fun d => (h.doors d).cfg
      sources := part State.sources
      lines := part State.lines
      plan := part State.plan }

/-- Every entry: the set under which a consequence bounds no latch entry. -/
def anyEntry (_ : EntryId) : Prop := True

@[simp] theorem records_settle : s.settle.records = s.records := (settle_consequence s).records

@[simp] theorem records_occurFrom (n : EntryId) (o : Nat) : (s.occurFrom n o).records = s.records :=
  (occurFrom_consequence (E := anyEntry) trivial s n o trivial).records

@[simp] theorem records_occur (n : EntryId) : (s.occur n).records = s.records := records_occurFrom s n _

@[simp] theorem records_clearWithCode (n : EntryId) (code : Word) : (s.clearWithCode n code).records = s.records :=
  (clearWithCode_consequence (E := anyEntry) trivial s n code trivial).records

@[simp] theorem records_clearSource (n : EntryId) : (s.clearSource n).records = s.records := records_clearWithCode s n _

@[simp] theorem records_follow (n : EntryId) (was is : Bool) : (s.follow n was is).records = s.records :=
  (follow_consequence (E := anyEntry) trivial s n was is trivial).records

@[simp] theorem records_occurIf (n : EntryId) (b : Bool) : (s.occurIf n b).records = s.records := by
  cases b
  · rfl
  · exact records_occur s n

@[simp] theorem records_offer (p : Port) (q : QueueId) (f : Frame) : (s.offer p q f).1.records = s.records := by
  unfold State.offer
  dsimp only
  split
  · split <;> simp
  · rfl

@[simp] theorem records_overrun : s.overrun.records = s.records :=
  (overrun_consequence (E := anyEntry) s trivial).records

@[simp] theorem records_overruns (k : Nat) : (State.overruns k s).records = s.records :=
  (overruns_consequence (E := anyEntry) trivial k s).records

@[simp] theorem records_sendLocal (f : Frame) : (s.sendLocal f).records = s.records := by
  simp [State.sendLocal, State.offerBoth]

@[simp] theorem records_relay (p : Port) (f : Frame) : (s.relay p f).records = s.records := by
  unfold State.relay
  dsimp only
  split <;> simp

@[simp] theorem records_renew : s.renew.records = s.records := (renew_consequence anyEntry s).records

@[simp] theorem records_handOff : s.handOff.records = s.records := (handOff_consequence anyEntry s).records

@[simp] theorem records_reformJet (f : FanId) : (s.reformJet f).records = s.records :=
  (reformJet_consequence anyEntry s f).records

@[simp] theorem records_reformPassage : s.reformPassage.records = s.records :=
  (reformPassage_consequence anyEntry s).records

@[simp] theorem records_passageFollows (was is : Bool) : (s.passageFollows was is).records = s.records :=
  (passageFollows_consequence anyEntry s was is).records

@[simp] theorem records_clearActive : s.clearActive.records = s.records :=
  (clearActive_consequence (E := anyEntry) (fun _ _ => trivial) s).records

@[simp] theorem records_clearAll : s.clearAll.records = s.records :=
  (clearAll_consequence (E := anyEntry) (fun _ _ => trivial) s).records

@[simp] theorem records_stepExpired : s.stepExpired.records = s.records := (stepExpired_consequence s).records

/-! ### The line -/

@[simp] theorem records_superviseGood (p : Port) : (s.superviseGood p).records = s.records := by
  unfold State.superviseGood
  dsimp only
  split <;> simp

/-- A frame that UP alone dispatches leaves the records as its dispatch does. -/
theorem records_goodUp (p : Port) (dispatch : State → State) (h : ∀ s : State, (dispatch s).records = s.records) :
    (s.goodUp p dispatch).records = s.records := by
  unfold State.goodUp
  dsimp only
  split <;> simp [h]

theorem records_goodAny (p : Port) (dispatch : State → State) (h : ∀ s : State, (dispatch s).records = s.records) :
    (s.goodAny p dispatch).records = s.records := by
  simp [State.goodAny, h]

@[simp] theorem records_reply (p : Port) (op : Byte) (r : Request) (a : Answer) :
    (s.reply p op r a).records = s.records := by
  simp [State.reply]

theorem records_respond (p : Port) (op : Byte) (r : Request) (free : Bool) (run : State → State × Answer)
    (h : ∀ s : State, (run s).1.records = s.records) : (s.respond p op r free run).records = s.records := by
  unfold State.respond
  split <;> simp [h]

theorem records_request (p : Port) (op : Byte) (r : Request) (free : Bool) (run : State → State × Answer)
    (h : ∀ s : State, (run s).1.records = s.records) : (s.request p op r free run).records = s.records := by
  refine records_goodUp s p _ fun s => ?_
  split
  · exact records_respond s p op r free run h
  · rfl

@[simp] theorem records_badFrame (p : Port) : (s.badFrame p).records = s.records := by
  unfold State.badFrame
  dsimp only
  split <;> simp

@[simp] theorem records_linkExpired (p : Port) : (s.linkExpired p).records = s.records := by
  unfold State.linkExpired
  dsimp only
  split
  · rfl
  · split <;> simp

@[simp] theorem records_fillExpired (p : Port) : (s.fillExpired p).records = s.records := by
  unfold State.fillExpired
  dsimp only
  split <;> simp

@[simp] theorem records_sent (p : Port) : (s.sent p).records = s.records := by
  unfold State.sent
  dsimp only
  split <;> simp

@[simp] theorem records_guardRetest (was : Bool) : (s.guardRetest was).records = s.records := by
  unfold State.guardRetest
  split <;> simp

@[simp] theorem records_flushUnlocked : s.flushUnlocked.records = s.records := records_withTap s _

@[simp] theorem records_setPosA (k : Nat) : (s.setPosA k).records = s.records := by
  unfold State.setPosA
  split
  · rfl
  · rw [records_guardRetest, records_flushUnlocked, records_occur]; rfl

@[simp] theorem records_relayCount (p : Port) (side : Side) (k : Byte) : (s.relayCount p side k).records = s.records := by
  unfold State.relayCount
  split <;> simp

@[simp] theorem records_takeCount (p : Port) (side : Side) (k : Byte) : (s.takeCount p side k).records = s.records := by
  cases side <;> cases p <;> simp [State.takeCount]
  rfl

@[simp] theorem records_tapItem (origin : Nat) (it : SampleItem) : (State.tapItem origin s it).records = s.records := by
  unfold State.tapItem
  split
  · rfl
  · split
    · rfl
    · split
      · split <;> rfl
      · rfl

@[simp] theorem records_tapItems (f : SampleFields) : (s.tapItems f).records = s.records := by
  unfold State.tapItems
  induction f.items generalizing s with
  | nil => rfl
  | cons it items ih => rw [List.foldl_cons, ih, records_tapItem]

@[simp] theorem records_takeSample (p : Port) (f : SampleFields) : (s.takeSample p f).records = s.records := by
  unfold State.takeSample
  dsimp only
  split <;> simp

@[simp] theorem records_actTrigger (f : TriggerFields) : (s.actTrigger f).records = s.records := by
  unfold State.actTrigger
  split
  · split
    · rfl
    · split <;> simp
  · rfl

@[simp] theorem records_takeTrigger (p : Port) (f : TriggerFields) : (s.takeTrigger p f).records = s.records := by
  unfold State.takeTrigger
  dsimp only
  split <;> simp

@[simp] theorem records_takeTime (p : Port) (clock : BitVec 32) : (s.takeTime p clock).records = s.records := by
  simp [State.takeTime]
  rfl

/-! ### Sensors and demand -/

@[simp] theorem records_loopFaultChange (c : ChannelId) (was is : Bool) :
    (s.loopFaultChange c was is).records = s.records := by
  unfold State.loopFaultChange
  split
  · simp
  · split <;> simp

@[simp] theorem records_conversion (c : ChannelId) (code : BitVec 12) : (s.conversion c code).records = s.records := by
  unfold State.conversion
  dsimp only
  split
  · exact records_setChannel s rfl
  · rw [records_loopFaultChange, records_setChannel]
    simp

@[simp] theorem records_channelChanged (old : State) (c : ChannelId) :
    (State.channelChanged old s c).records = s.records := by
  unfold State.channelChanged
  rw [records_loopFaultChange, records_setChannel]
  simp

@[simp] theorem records_reportExpiry : s.reportExpiry.records = s.records := by
  unfold State.reportExpiry
  dsimp only
  split
  · rfl
  · rw [records_sendLocal]; rfl

@[simp] theorem records_failedChange (k : Kind) (was is : KindStatus) : (s.failedChange k was is).records = s.records := by
  unfold State.failedChange
  split
  · simp
  · split <;> simp

@[simp] theorem records_alarmChange (k : Kind) (was is : Bool) : (s.alarmChange k was is).records = s.records := by
  unfold State.alarmChange
  split
  · rfl
  · split
    · simp
    · split <;> simp

@[simp] theorem records_kindSources (old : Kinds) : (State.kindSources old s).records = s.records := by
  simp [State.kindSources]

@[simp] theorem records_kindHoldExpired (k : Kind) : (s.kindHoldExpired k).records = s.records := by
  unfold State.kindHoldExpired
  dsimp only
  split
  · rfl
  · rw [records_failedChange, records_setKind]
    rfl

@[simp] theorem records_termsChanged : s.termsChanged.records = s.records := by
  unfold State.termsChanged
  rw [records_kindSources, records_kinds] <;> simp

@[simp] theorem records_evaluate : s.evaluate.records = s.records := by
  unfold State.evaluate
  exact records_kinds s (cfg_evaluated s .co) (cfg_evaluated s .no2) (cfg_evaluated s .opac) (cfg_evaluated s .vel)

@[simp] theorem records_controlExpired : s.controlExpired.records = s.records := by
  simp [State.controlExpired]
  rfl

/-! ### Fans and doors -/

@[simp] theorem records_fanFault (f : FanId) : (s.fanFault f).records = s.records := by
  unfold State.fanFault
  rw [records_occur, records_setFan]
  rfl

@[simp] theorem records_startExpired (f : FanId) : (s.startExpired f).records = s.records := by
  unfold State.startExpired
  split <;> simp

@[simp] theorem records_stallExpired (f : FanId) : (s.stallExpired f).records = s.records := by
  unfold State.stallExpired
  split <;> simp

@[simp] theorem records_dwellExpired (f : FanId) : (s.dwellExpired f).records = s.records := by
  unfold State.dwellExpired
  split
  · rfl
  · exact records_setFan s (by simp)

@[simp] theorem records_tachEdge (f : FanId) (e : Edge) : (s.tachEdge f e).records = s.records :=
  (records_withFreeCount _ _).trans (records_setFan s (by simp))

@[simp] theorem records_fanReset (f : FanId) : (s.fanReset f).records = s.records := by
  unfold State.fanReset
  dsimp only
  split
  · rw [records_clearSource, records_setFan]
    simp
  · rfl

@[simp] theorem records_isolatorState (f : FanId) (isOpen : Bool) : (s.isolatorState f isOpen).records = s.records := by
  unfold State.isolatorState
  dsimp only
  split
  · rw [records_occur, records_clearSource, records_setFan]
    rfl
  · rw [records_clearSource, records_setFan]
    simp

@[simp] theorem records_isolatorInput (f : FanId) (isOpen : Bool) : (s.isolatorInput f isOpen).records = s.records :=
  (records_withPins _ _).trans (records_setFan s rfl)

@[simp] theorem records_isolatorAccepted (f : FanId) : (s.isolatorAccepted f).records = s.records := by
  unfold State.isolatorAccepted
  split <;> simp

/-- A door's change and what follows from it keep the records when the door keeps its own. -/
theorem records_doorTo {d : DoorId} {D : Door} (h : D.cfg = s.doors[d].cfg) (egress : Bool) :
    (s.doorTo d D egress).records = s.records := by
  simp only [State.doorTo, records_passageFollows, records_follow, records_occurIf]
  exact records_setDoor s (by simpa using h)

@[simp] theorem records_doorDebounced (d : DoorId) (i : DoorInput) : (s.doorDebounced d i).records = s.records := by
  unfold State.doorDebounced
  dsimp only
  split
  · rfl
  · exact records_doorTo s (by simp) _

@[simp] theorem records_doorInput (d : DoorId) (i : DoorInput) (level : Bool) :
    (s.doorInput d i level).records = s.records :=
  (records_withPins _ _).trans (records_setDoor s (by simp))

@[simp] theorem records_doorsLeaveStarting : s.doorsLeaveStarting.records = s.records := by
  unfold State.doorsLeaveStarting State.doorLeavesStarting
  rw [records_doorTo _ (by simp), records_doorTo _ (by simp)]

@[simp] theorem records_callPointAccepted : s.callPointAccepted.records = s.records := by
  unfold State.callPointAccepted
  split
  · rfl
  · rw [records_follow]; rfl

@[simp] theorem records_launchHoldExpired : s.launchHoldExpired.records = s.records := by
  unfold State.launchHoldExpired
  split <;> rfl

/-! ### The tap cache and the effects of a change -/

@[simp] theorem records_emptyLocked : s.emptyLocked.records = s.records := records_withTap s _

@[simp] theorem records_flushTap : s.flushTap.records = s.records := by
  unfold State.flushTap
  dsimp only
  split
  · rw [records_markDirty]; exact records_withTap s _
  · exact records_withTap s _

theorem records_tapLoad {t : State} {origin channel : Nat} {k : Kind} {v : Int}
    (h : s.tapLoad origin channel k v = some t) :
    t.records = s.records := by
  obtain ⟨i, -, rfl⟩ := Option.map_eq_some_iff.mp h
  rw [records_markDirty]
  exact records_withTap s _

@[simp] theorem records_lockChanged (l0 l1 : Nat) : (s.lockChanged l0 l1).records = s.records := by
  unfold State.lockChanged
  dsimp only
  split
  · rw [records_markDirty]; exact records_withTap s _
  · exact records_withTap s _

@[simp] theorem records_nodeChanged (old : State) : (s.nodeChanged old).records = s.records := by
  unfold State.nodeChanged
  dsimp only
  split
  · split
    · split
      · rfl
      · rw [records_lockChanged]
    · split
      · rfl
      · rw [records_lockChanged]; rfl
  · split
    · split
      · rfl
      · rw [records_lockChanged]; rfl
    · split
      · rfl
      · rw [records_lockChanged]; rfl

@[simp] theorem records_lineChanged (old : State) (i : Fin 16) : (State.lineChanged old s i).records = s.records := by
  unfold State.lineChanged
  split <;> simp

@[simp] theorem records_revalidate (old : State) : (State.revalidate old s).records = s.records :=
  records_withLatch s _ _

/-- A fold of updates that each keep the records keeps them. -/
theorem records_foldl {α : Type} (update : State → α → State) (h : ∀ s a, (update s a).records = s.records)
    (l : List α) : (l.foldl update s).records = s.records := by
  induction l generalizing s with
  | nil => rfl
  | cons a l ih => rw [List.foldl_cons, ih, h]

/-- The effects of a change store no configuration word. -/
@[simp] theorem records_changed (old : State) : (State.changed old s).records = s.records := by
  have lines : ∀ t : State, ((List.finRange 16).foldl (State.lineChanged old) t).records = t.records :=
    fun t => records_foldl t _ (fun t i => records_lineChanged t old i) _
  have channels : ((List.finRange 4).foldl (State.channelChanged old) s).records = s.records :=
    records_foldl s _ (fun t c => records_channelChanged t old c) _
  unfold State.changed
  dsimp only
  rw [records_revalidate]
  refine (records_withDecision _ _).trans ((lines _).trans ?_)
  rw [records_nodeChanged]
  split
  · exact channels
  · rw [records_termsChanged]; exact channels

/-! ### The image store -/

@[simp] theorem records_endLoad (locked : Bool) : (s.endLoad locked).records = s.records := by
  refine (records_withDecision _ _).trans ?_
  rw [records_renew, records_doorsLeaveStarting, records_reformPassage, records_reformJet, records_reformJet]
  rfl

@[simp] theorem records_nextGroup (i : Nat) (locked : Bool) (count : Nat) :
    (s.nextGroup i locked count).records = s.records := by
  unfold State.nextGroup
  split
  · split
    · rfl
    · rw [records_endLoad]; exact records_emptyLocked s
  · simp

@[simp] theorem records_headerRead (r : SerialAnswer) : (s.headerRead r).records = s.records := by
  unfold State.headerRead
  split
  · split
    · rw [records_endLoad, records_occur]; rfl
    · simp
  · rfl
  · rfl

@[simp] theorem records_serialWrite (r : SerialAnswer) (a : Nat) (ws : List Word) :
    (s.serialWrite r a ws).records = s.records := by
  cases r <;> rfl

@[simp] theorem records_writeComplete (r : SerialAnswer) : (s.writeComplete r).records = s.records := by
  unfold State.writeComplete
  split <;> first | rfl | exact records_serialWrite s r _ _

@[simp] theorem records_storeFrom (i : Nat) : (s.storeFrom i).records = s.records := by
  unfold State.storeFrom
  split <;> rfl

@[simp] theorem records_verified (g : Fin 15) (good : Bool) : (s.verified g good).records = s.records := by
  unfold State.verified
  split
  · split <;> rfl
  · simp

@[simp] theorem records_verifyComplete (r : SerialAnswer) : (s.verifyComplete r).records = s.records := by
  unfold State.verifyComplete
  split
  · dsimp only
    rw [records_storeFrom, records_verified]; rfl
  · dsimp only
    split
    · rfl
    · rw [records_occur]; rfl
  all_goals rfl

@[simp] theorem records_failGroup (g : Fin 15) : (s.failGroup g).records = s.records := by
  unfold State.failGroup
  dsimp only
  rw [records_occur, records_withFailing]
  split
  · exact records_emptyLocked s
  · rfl

/-! ### The operations of the responder, and time -/

theorem runRead_state (r : Request) : (s.runRead r).1 = s := by
  unfold State.runRead
  split
  · rfl
  · split <;> rfl

theorem records_runTapLoad (r : Request) : (s.runTapLoad r).1.records = s.records := by
  unfold State.runTapLoad
  split
  · split
    · rfl
    · split
      · rfl
      · split
        · rfl
        · rename_i h; exact records_tapLoad s h
  all_goals rfl

theorem records_runAck (r : Request) : (s.runAck r).1.records = s.records := by
  unfold State.runAck
  split
  · dsimp only
    split <;> rfl
  all_goals rfl

theorem records_runClearPlan (r : Request) : (s.runClearPlan r).1.records = s.records := by
  unfold State.runClearPlan
  split
  · simp
  · split <;> simp

theorem records_runFanReset (r : Request) : (s.runFanReset r).1.records = s.records := by
  unfold State.runFanReset
  split <;> simp

theorem records_runDoorReset (r : Request) : (s.runDoorReset r).1.records = s.records := by
  unfold State.runDoorReset
  split
  · exact records_doorTo s (by simp) false
  · rfl

theorem records_runOpen : s.runOpen.1.records = s.records := by
  unfold State.runOpen
  split
  · exact (records_withDecision _ _).trans (records_renew _)
  · rfl

theorem records_runStore : s.runStore.1.records = s.records := by
  unfold State.runStore
  split <;> simp

theorem records_withAgeing (timer : Timer) (tap : TapCache) :
    State.records { s with ageTimer := timer, tap := tap } = s.records := rfl

theorem records_tapAge : s.tapAge.records = s.records := records_withAgeing s _ _

theorem records_elapse (us : Nat) : (s.elapse us).records = s.records := by
  rw [records_eq_iff]
  refine ⟨rfl, fun _ => rfl, rfl, fun _ => rfl, fun f => ?_, fun _ => rfl, rfl, rfl, rfl⟩
  simp [State.elapse, Fan.elapse]

end

end Sys2Proof.Machine
end

