-- ==== Sys2Proof/Proofs/Ranges.lean ====
section
/-! PROOFS. Proofs/Ranges.lean: every step keeps every configuration field in the range of its rule. A stored word lands in
its field's range by its clamp; the other commands store no configuration word. -/

namespace Sys2Proof.Machine

/-! ### The clamps of a WRITE (R172) -/

/-- An unsigned field is stored with the nearest value of its range, marked exactly when the word lies outside it. -/
theorem putNat_eq {lo hi : Nat} (h : lo ≤ hi) (w : Word) :
    putNat lo hi w = (max lo (min w.toNat hi), decide (w.toNat < lo ∨ hi < w.toNat)) := by
  have value : clampNat lo hi w.toNat = max lo (min w.toNat hi) := by
    unfold clampNat
    split
    · omega
    · split <;> omega
  refine Prod.ext value (Bool.eq_iff_iff.mpr ?_)
  dsimp only [putNat]
  rw [value, bne_iff_ne, decide_eq_true_iff]
  omega

/-- A signed field, likewise. -/
theorem putInt_eq {lo hi : Int} (h : lo ≤ hi) (w : Word) :
    putInt lo hi w = (max lo (min w.toInt hi), decide (w.toInt < lo ∨ hi < w.toInt)) := by
  have value : clampInt lo hi w.toInt = max lo (min w.toInt hi) := by
    unfold clampInt
    split
    · omega
    · split <;> omega
  refine Prod.ext value (Bool.eq_iff_iff.mpr ?_)
  dsimp only [putInt]
  rw [value, bne_iff_ne, decide_eq_true_iff]
  omega

/-- A line or spread code is stored as 0 or as a code from 0x0800 on (R139, R150). -/
theorem putCode_range (w : Word) : (putCode w).1 = 0 ∨ 0x0800 ≤ (putCode w).1.toNat := by
  unfold putCode
  split
  · assumption
  · exact .inl rfl

/-- The values of a signed word. -/
theorem toInt_bounds (w : Word) : -32768 ≤ w.toInt ∧ w.toInt ≤ 32767 := by
  have hlo := BitVec.le_toInt w
  have hhi := BitVec.toInt_lt (x := w)
  omega

/-! ### One word stored in a record: its own field lands in the range, the others stand -/

theorem ChannelCfg.InRange.put {c : ChannelCfg} (h : c.InRange) (w : Nat) (v : Word) : (c.put w v).1.InRange := by
  have hv := toInt_bounds v
  unfold ChannelCfg.InRange at *
  unfold ChannelCfg.put
  split <;> simp only [putBack, putAnyInt, putNat_eq (Nat.zero_le _)] <;> omega

theorem Term.InRange.put {x : Term} (h : x.InRange) (w : Nat) (v : Word) : (x.put w v).1.InRange := by
  unfold Term.InRange at *
  unfold Term.put
  split <;> simp only [putBack, putNat_eq (Nat.zero_le _), putInt_eq (by decide : (-15 : Int) ≤ 15)] <;> omega

theorem KindCfg.InRange.put {c : KindCfg} (h : c.InRange) (w : Nat) (v : Word) : (c.put w v).1.InRange := by
  have hv := toInt_bounds v
  simp only [KindCfg.InRange, List.forall_mem_cons, List.not_mem_nil, false_imp_iff, implies_true, and_true] at *
  unfold KindCfg.put
  split <;> simp only [putBack, putAnyInt, putNat_eq (Nat.zero_le _)] <;> omega

theorem FanCfg.InRange.put {c : FanCfg} (h : c.InRange) (w : Nat) (v : Word) : (c.put w v).1.InRange := by
  unfold FanCfg.InRange at *
  unfold FanCfg.put
  split <;> simp (disch := decide) only [putBack, putNat_eq] <;> omega

theorem DoorCfg.InRange.put {c : DoorCfg} (h : c.InRange) (w : Nat) (v : Word) : (c.put w v).1.InRange := by
  unfold DoorCfg.InRange at *
  unfold DoorCfg.put
  split <;> simp (disch := decide) only [putBack, putNat_eq] <;> omega

theorem SourceCfg.InRange.put {c : SourceCfg} (h : c.InRange) (w : Nat) (v : Word) : (c.put w v).1.InRange := by
  unfold SourceCfg.InRange at *
  unfold SourceCfg.put
  split <;> simp only [putBack, putNat_eq (Nat.zero_le _)] <;> omega

theorem LineMapEntry.InRange.put {e : LineMapEntry} (h : e.InRange) (w : Nat) (v : Word) : (e.put w v).1.InRange := by
  cases w with
  | zero => exact ⟨putCode_range v, h.2⟩
  | succ w => exact ⟨h.1, h.2.put w v⟩

theorem PlanStep.InRange.put {p : PlanStep} (h : p.InRange) (w : Nat) (v : Word) : (p.put w v).1.InRange := by
  have hv := toInt_bounds v
  have hn := v.isLt
  have hc := putCode_range v
  unfold PlanStep.InRange at *
  unfold PlanStep.put
  split <;> simp only [putBack, putAnyInt, putAnyNat, putNat_eq (Nat.zero_le _)] <;> grind

theorem NodeCfg.InRange.put {n : NodeCfg} (h : n.InRange) (w : Nat) (v : Word) : (n.put w v).1.InRange := by
  unfold NodeCfg.InRange at *
  unfold NodeCfg.put
  split <;> simp (disch := decide) only [putBack, putNat_eq] <;> omega

/-! ### Stored words and the law -/

theorem Fan.cfg_putCfg (F : Fan) (w : Nat) (v : Word) : (F.putCfg w v).1.cfg = (F.cfg.put w v).1 := by
  unfold Fan.putCfg
  dsimp only
  split <;> rfl

/-- One place of a vector stored: what holds of the old elements and of the new one holds of all. -/
theorem forall_set {α : Type} {n e : Nat} {P : α → Prop} {l : Vector α n} (h : ∀ i : Fin n, P l[i])
    (he : e < n) {x : α} (hx : P x) (i : Fin n) : P (l.set e x he)[i] := by
  simp only [Fin.getElem_fin, Vector.getElem_set]
  split
  · exact hx
  · exact h i

theorem State.ConfigLaw.setKind {s : State} (h : s.ConfigLaw) (k : Kind) {K : KindUnit} (hK : K.cfg.InRange) :
    (s.setKind k K).ConfigLaw where
  node := by simpa using h.node
  channels := by simpa using h.channels
  terms := by simpa using h.terms
  kinds j := by
    rw [kind_setKind_eq]
    split
    · exact hK
    · exact h.kinds j
  fans := by simpa using h.fans
  doors := by simpa using h.doors
  sources := by simpa using h.sources
  lines := by simpa using h.lines
  plan := by simpa using h.plan

/-- A word stored in a record of a table keeps the ranges: the record by its own `put`, every other as it stood. -/
theorem State.ConfigLaw.putWord {s : State} (h : s.ConfigLaw) (T : Table) (e w : Nat) (v : Word) :
    (s.putWord T e w v).1.ConfigLaw := by
  unfold State.putWord
  cases T with
  | channel =>
    dsimp only
    split
    · rename_i he
      have hC := (h.channels ⟨e, he⟩).put w v
      exact { h with channels := forall_set (P := fun C : Channel => C.cfg.InRange) h.channels he hC }
    · exact h
  | terms =>
    dsimp only
    split
    · rename_i he
      exact { h with terms := forall_set h.terms he ((h.terms ⟨e, he⟩).put w v) }
    · exact h
  | kind => exact h.setKind (kindAt e) ((h.kinds (kindAt e)).put w v)
  | fan =>
    dsimp only
    split
    · rename_i he
      have hF : (s.fans[e].putCfg w v).1.cfg.InRange := Fan.cfg_putCfg s.fans[e] w v ▸ (h.fans ⟨e, he⟩).put w v
      exact { h with fans := forall_set (P := fun F : Fan => F.cfg.InRange) h.fans he hF }
    · exact h
  | door =>
    dsimp only
    split
    · rename_i he
      have hD := (h.doors ⟨e, he⟩).put w v
      exact { h with doors := forall_set (P := fun D : Door => D.cfg.InRange) h.doors he hD }
    · exact h
  | source =>
    dsimp only
    split
    · rename_i he
      exact { h with sources := forall_set h.sources he ((h.sources ⟨e, he⟩).put w v) }
    · exact h
  | linemap =>
    dsimp only
    split
    · rename_i he
      exact { h with lines := forall_set h.lines he ((h.lines ⟨e, he⟩).put w v) }
    · exact h
  | plan =>
    dsimp only
    split
    · rename_i he
      exact { h with plan := forall_set h.plan he ((h.plan ⟨e, he⟩).put w v) }
    · exact h
  | node => exact { h with node := h.node.put w v }
  | status => exact h
  | tap => exact h
  | latch => exact h
  | stack => exact h

theorem State.ConfigLaw.putTableWord {s : State} (h : s.ConfigLaw) (T : Table) (a : Nat) (v : Word) :
    (s.putTableWord T a v).1.ConfigLaw := by
  unfold State.putTableWord
  split
  · exact h.putWord T _ _ v
  · exact h

theorem State.ConfigLaw.putTableWords {s : State} (h : s.ConfigLaw) (T : Table) (a : Nat) (vs : List Word) :
    (s.putTableWords T a vs).1.ConfigLaw := by
  induction vs generalizing s a with
  | nil => exact h
  | cons v vs ih => exact ih (h.putTableWord T a v) (a + 1)

theorem State.ConfigLaw.loadEntries {s : State} (h : s.ConfigLaw) (T : Table) (e n : Nat) (ws : List Word) :
    (s.loadEntries T e n ws).ConfigLaw := by
  induction n generalizing s e ws with
  | zero => exact h
  | succ n ih => exact ih (h.putTableWords T _ _) (e + 1) _

@[simp] theorem records_markWord (s : State) (T : Table) (a : Nat) : (s.markWord T a).records = s.records := by
  unfold State.markWord
  split
  · split <;> rfl
  · rfl

@[simp] theorem records_markWords (s : State) (T : Table) (a n : Nat) : (s.markWords T a n).records = s.records := by
  induction n generalizing s a with
  | zero => rfl
  | succ n ih => exact (ih _ _).trans (records_markWord s T a)

theorem State.ConfigLaw.writeTable {s : State} (h : s.ConfigLaw) (T : Table) (a : Nat) (ws : List Word) :
    (s.writeTable T a ws).1.ConfigLaw :=
  (h.putTableWords T a ws).of_records (by simp [State.writeTable])

/-! ### The operations that store configuration words -/

theorem State.ConfigLaw.runWrite {s : State} (h : s.ConfigLaw) (r : Request) : (s.runWrite r).1.ConfigLaw := by
  unfold State.runWrite
  split
  · exact h
  · dsimp only
    split
    · exact h
    · split
      · exact h
      · split
        · exact h
        · exact h.writeTable _ _ _

@[simp] theorem records_markFlushed (old : Vector PlanStep 64) (s : State) : (s.markFlushed old).records = s.records := by
  unfold State.markFlushed
  refine records_foldl s _ (fun s i => ?_) _
  split <;> rfl

/-- FLUSH_PLANS touches no field of a step but its valid flag (R175). -/
theorem PlanStep.InRange.flushed {p : PlanStep} (h : p.InRange) (spare : Bool) : (p.flushed spare).InRange := by
  unfold PlanStep.flushed
  split <;> exact h

theorem State.ConfigLaw.withPlan {s : State} (h : s.ConfigLaw) {plan : Vector PlanStep 64}
    (hp : ∀ i : Fin 64, plan[i].InRange) : State.ConfigLaw { s with plan := plan } :=
  { h with plan := hp }

theorem State.ConfigLaw.runFlushPlans {s : State} (h : s.ConfigLaw) : s.runFlushPlans.1.ConfigLaw := by
  unfold State.runFlushPlans
  split
  · exact h
  · refine State.ConfigLaw.of_records (h.withPlan fun i => ?_)
      ((records_revalidate _ _).trans (records_markFlushed _ _))
    simpa using (h.plan i).flushed s.node.planProtect

theorem State.ConfigLaw.groupRead {s : State} (h : s.ConfigLaw) (r : SerialAnswer) : (s.groupRead r).ConfigLaw := by
  unfold State.groupRead
  split
  · rename_i g locked count _
    dsimp only
    split
    · rename_i data _
      refine State.ConfigLaw.of_records (s := s.loadGroup g data) ?_ (records_nextGroup _ _ _ _)
      unfold State.loadGroup
      split
      · rename_i T e n _
        exact (h.loadEntries T e n data).of_records ((records_withDirty _ _).trans (records_changed _ _))
      · exact h.of_records (records_withTaplock s _ _)
    · exact h.of_records (by simp)
  · exact h
  · exact h

/-! ### Resets -/

/-- The default configuration lies in its ranges. -/
theorem reset_configLaw : State.reset.ConfigLaw where
  node := by unfold NodeCfg.InRange; decide
  channels := by unfold ChannelCfg.InRange; decide
  terms := by unfold Term.InRange; decide
  kinds := by intro k; cases k <;> (unfold KindCfg.InRange; decide)
  fans := by unfold FanCfg.InRange; decide
  doors := by unfold DoorCfg.InRange; decide
  sources := by unfold SourceCfg.InRange; decide
  lines := by unfold LineMapEntry.InRange SourceCfg.InRange; decide
  plan := by unfold PlanStep.InRange; decide

theorem cfg_resetFan (pins : Pins) (now : Nat) (f : FanId) : (resetFan pins now f).cfg = defaultFanCfg f := by
  unfold resetFan
  split <;> rfl

/-- A reset brings the configuration to its defaults. -/
theorem records_fresh (s : State) (now : Nat) (cause : ResetCause) : (s.fresh now cause).records = State.reset.records := by
  rw [records_eq_iff]
  refine ⟨rfl, fun c => ?_, rfl, fun k => by cases k <;> rfl, fun f => ?_, fun d => ?_, rfl, rfl, rfl⟩
  · simp [State.fresh, State.reset]
  · simp [State.fresh, State.reset, cfg_resetFan]
  · simp [State.fresh, State.reset, resetDoor]

@[simp] theorem records_firstFound (n : EntryId) (b : Bool) (s : State) : (s.firstFound n b).records = s.records := by
  cases b
  · rfl
  · exact records_occur s n

@[simp] theorem records_firstEvaluation (s : State) : s.firstEvaluation.records = s.records := by
  simp [State.firstEvaluation]

theorem records_hardReset (s : State) (cause : ResetCause) : (s.hardReset cause).records = State.reset.records := by
  rw [State.hardReset, records_firstEvaluation, records_fresh]

theorem records_restarted (s : State) : s.restarted.records = State.reset.records := by
  rw [State.restarted, records_firstEvaluation]
  exact records_fresh s s.now .restart

/-! ### Commands -/

/-- A frame that UP alone dispatches keeps the ranges where its dispatch does. -/
theorem State.ConfigLaw.goodUp {s : State} (h : s.ConfigLaw) (p : Port) (dispatch : State → State)
    (hd : ∀ s : State, s.ConfigLaw → (dispatch s).ConfigLaw) : (s.goodUp p dispatch).ConfigLaw := by
  have hs : (s.superviseGood p).settle.ConfigLaw := h.of_records (by simp)
  unfold State.goodUp
  dsimp only
  split
  · exact (hd _ hs).of_records (records_settle _)
  · exact hs

/-- A request keeps the ranges where its operation does. -/
theorem State.ConfigLaw.request {s : State} (h : s.ConfigLaw) (p : Port) (op : Byte) (r : Request) (free : Bool)
    (run : State → State × Answer) (hr : ∀ s : State, s.ConfigLaw → (run s).1.ConfigLaw) :
    (s.request p op r free run).ConfigLaw := by
  refine h.goodUp p _ fun s hs => ?_
  split
  · unfold State.respond
    split
    · exact hs.of_records (records_reply _ _ _ _ _)
    · exact (hr s hs).of_records (by simp)
  · exact hs

/-- The commands that may store configuration words: a WRITE, FLUSH_PLANS, a group of the image load, and the resets. -/
def storesRecords : Instr → Bool
  | .powerOnReset => true
  | .pinReset => true
  | .write _ _ => true
  | .flushPlans _ _ => true
  | .restart _ _ => true
  | .imageGroupRead _ => true
  | _ => false

/-- Every other command leaves the configuration as it stood. -/
theorem exec_records (c : Instr) (s : State) (h : storesRecords c = false) :
    ∃ t, exec c s = .next t ∧ t.records = s.records := by
  cases c with
  | powerOnReset => cases h
  | pinReset => cases h
  | write => cases h
  | flushPlans => cases h
  | restart => cases h
  | imageGroupRead => cases h
  | badFrame p => exact ⟨_, rfl, by simp⟩
  | fill p => exact ⟨_, rfl, records_goodAny s p _ fun _ => rfl⟩
  | count p side k => exact ⟨_, rfl, records_goodAny s p _ fun s => records_takeCount s p side k⟩
  | sample p f => exact ⟨_, rfl, records_goodUp s p _ fun s => by split <;> simp⟩
  | event p f => exact ⟨_, rfl, records_goodUp s p _ fun s => records_relay s p _⟩
  | trigger p f => exact ⟨_, rfl, records_goodUp s p _ fun s => records_takeTrigger s p f⟩
  | mgmtReply p f => exact ⟨_, rfl, records_goodUp s p _ fun s => by split <;> simp⟩
  | mgmtReqRelay p f => exact ⟨_, rfl, records_goodUp s p _ fun s => by split <;> simp⟩
  | time p clock => exact ⟨_, rfl, records_goodUp s p _ fun s => records_takeTime s p clock⟩
  | unknownFrame p => exact ⟨_, rfl, records_goodUp s p _ fun _ => rfl⟩
  | read p r => exact ⟨_, rfl, records_request s p 1 r _ _ fun s => by rw [runRead_state]⟩
  | tapLoad p r => exact ⟨_, rfl, records_request s p 3 r _ _ fun s => records_runTapLoad s r⟩
  | flushTap p r => exact ⟨_, rfl, records_request s p 4 r _ _ records_flushTap⟩
  | ack p r => exact ⟨_, rfl, records_request s p 6 r _ _ fun s => records_runAck s r⟩
  | clearPlan p r => exact ⟨_, rfl, records_request s p 7 r _ _ fun s => records_runClearPlan s r⟩
  | setMask p r => exact ⟨_, rfl, records_request s p 8 r _ _ fun _ => rfl⟩
  | fanReset p r => exact ⟨_, rfl, records_request s p 9 r _ _ fun s => records_runFanReset s r⟩
  | doorReset p r => exact ⟨_, rfl, records_request s p 10 r _ _ fun s => records_runDoorReset s r⟩
  | openNode p r => exact ⟨_, rfl, records_request s p 11 r _ _ records_runOpen⟩
  | store p r => exact ⟨_, rfl, records_request s p 12 r _ _ records_runStore⟩
  | badOpRequest p op r =>
    refine ⟨_, rfl, records_goodUp s p _ fun s => ?_⟩
    split
    · exact records_respond s p op r false _ fun _ => rfl
    · rfl
  | linkTimerExpiry p => exact ⟨_, rfl, by simp⟩
  | fillTimerExpiry p => exact ⟨_, rfl, by simp⟩
  | transmissionCompletion p => exact ⟨_, rfl, by simp⟩
  | conversionCompletion ch code => exact ⟨_, rfl, by simp⟩
  | reportTimerExpiry => exact ⟨_, rfl, by simp⟩
  | tapAgeingExpiry => exact ⟨_, rfl, records_tapAge s⟩
  | controlTimerExpiry => exact ⟨_, rfl, by simp⟩
  | kindHoldExpiry k => exact ⟨_, rfl, by simp⟩
  | tachEdge f e => exact ⟨_, rfl, by simp⟩
  | tachOverflow f => exact ⟨_, rfl, records_setFan s (by simp)⟩
  | periodStart f => exact ⟨_, rfl, records_setFan s rfl⟩
  | startTimerExpiry f => exact ⟨_, rfl, by simp⟩
  | stallTimerExpiry f => exact ⟨_, rfl, by simp⟩
  | dwellTimerExpiry f => exact ⟨_, rfl, by simp⟩
  | isolatorInputChange f isOpen => exact ⟨_, rfl, by simp⟩
  | isolatorAccepted f => exact ⟨_, rfl, by simp⟩
  | doorInputChange d i active => exact ⟨_, rfl, by simp⟩
  | doorDebounceExpiry d i => exact ⟨_, rfl, by simp⟩
  | egressTimerExpiry d => exact ⟨_, rfl, (records_settle _).trans (records_doorTo s (by simp) false)⟩
  | holdTimerExpiry d => exact ⟨_, rfl, (records_settle _).trans (records_doorTo s (by simp) false)⟩
  | relockTimerExpiry d => exact ⟨_, rfl, (records_settle _).trans (records_doorTo s (by simp) false)⟩
  | feedbackTimerExpiry d => exact ⟨_, rfl, (records_settle _).trans (records_doorTo s (by simp) false)⟩
  | lampCompareMatch d => exact ⟨_, rfl, records_setDoor s (by simp)⟩
  | callPointInputChange active => exact ⟨_, rfl, rfl⟩
  | callPointAccepted => exact ⟨_, rfl, by simp⟩
  | launchHoldExpiry => exact ⟨_, rfl, by simp⟩
  | stepTimerExpiry => exact ⟨_, rfl, by simp⟩
  | imageHeaderRead r => exact ⟨_, rfl, by simp⟩
  | storeWriteComplete r => exact ⟨_, rfl, by simp⟩
  | storeVerifyComplete r => exact ⟨_, rfl, by simp⟩

/-- Every command keeps every configuration field in its range. -/
theorem exec_configLaw (c : Instr) {s : State} (h : s.ConfigLaw) : ∃ t, exec c s = .next t ∧ t.ConfigLaw := by
  by_cases hc : storesRecords c = true
  · cases c with
    | powerOnReset => exact ⟨_, rfl, reset_configLaw.of_records (records_hardReset s .powerOn)⟩
    | pinReset => exact ⟨_, rfl, reset_configLaw.of_records (records_hardReset s .pin)⟩
    | write p r => exact ⟨_, rfl, h.request p 2 r _ _ fun s hs => hs.runWrite r⟩
    | flushPlans p r => exact ⟨_, rfl, h.request p 5 r _ _ fun s hs => hs.runFlushPlans⟩
    | restart p r =>
      refine ⟨_, rfl, h.goodUp p _ fun s hs => ?_⟩
      split
      · split
        · exact hs.of_records (records_reply _ _ _ _ _)
        · exact reset_configLaw.of_records (records_restarted s)
      · exact hs
    | imageGroupRead r => exact ⟨_, rfl, (h.groupRead r).of_records (records_settle _)⟩
    | _ => cases hc
  · obtain ⟨t, ht, e⟩ := exec_records c s (Bool.eq_false_of_not_eq_true hc)
    exact ⟨t, ht, h.of_records e⟩

/-- Settles O59: a step is a tick, which touches no record, or a command. -/
theorem stepsKeepFieldsInRange : Obligations.StepsKeepFieldsInRange := by
  intro s t h e
  unfold step at e
  split at e
  · cases e
    exact h.of_records (records_elapse s 1)
  · rename_i c rest _
    have hq : State.ConfigLaw { s with pending := rest } := h.of_records rfl
    obtain ⟨u, hu, law⟩ := exec_configLaw c hq
    rw [hu] at e
    cases e
    exact law

end Sys2Proof.Machine
end

