-- ==== Sys2Proof/Proofs/Sensors.lean ====
section
/-! PROOFS. Proofs/Sensors.lean: chapter 1. The rounding of R5 and R7, the scaled and the smoothed value, conversions with
their loop faults, and the SAMPLE of a report expiry. -/

namespace Sys2Proof.Machine

/-! ### Rounding (Conventions) -/

/-- `round` is the one integer whose distance below the exact quotient plus one half is less than 1. -/
theorem roundDiv_bounds (n : Int) {d : Nat} (hd : 0 < d) :
    2 * (d : Int) * roundDiv n d ≤ 2 * n + d ∧ 2 * n + d < 2 * (d : Int) * (roundDiv n d + 1) := by
  have hpos : (0 : Int) < 2 * d := by omega
  exact ⟨Int.mul_ediv_self_le hpos.ne', Int.lt_mul_ediv_self_add hpos |>.trans_eq (by rw [roundDiv]; ring)⟩

/-- A quotient between two integers rounds to a value between them. -/
theorem roundDiv_between {n lo hi : Int} {d : Nat} (hd : 0 < d) (h : lo * d ≤ n) (h' : n ≤ hi * d) :
    lo ≤ roundDiv n d ∧ roundDiv n d ≤ hi := by
  have hpos : (0 : Int) < 2 * d := by omega
  unfold roundDiv
  constructor
  · rw [Int.le_ediv_iff_mul_le hpos]; linarith
  · rw [← Int.lt_add_one_iff, Int.ediv_lt_iff_lt_mul hpos]; linarith

/-- An exact quotient stands. -/
theorem roundDiv_mul (q : Int) {d : Nat} (hd : 0 < d) : roundDiv (q * d) d = q := by
  have h := roundDiv_between hd (le_refl (q * d)) (le_refl (q * d))
  omega

/-! ### The scaled value (R5) -/

/-- The scaled value lies between the ends of the loop: the code's share of the span is from 0 to 2730 of 2730 parts. -/
theorem scale_between (cfg : ChannelCfg) {c : Nat} (h : 682 ≤ c) (h' : c ≤ 3412) :
    min cfg.lo cfg.hi ≤ cfg.scale c ∧ cfg.scale c ≤ max cfg.lo cfg.hi := by
  have hp : (0 : Int) ≤ c - 682 := by omega
  have hq : (0 : Int) ≤ 2730 - (c - 682) := by omega
  unfold ChannelCfg.scale
  rcases le_total cfg.lo cfg.hi with hle | hle
  · have b := roundDiv_between (n := ((c : Int) - 682) * (cfg.hi - cfg.lo)) (lo := 0) (hi := cfg.hi - cfg.lo) (d := 2730)
      (by decide) (by push_cast; nlinarith) (by push_cast; nlinarith)
    omega
  · have b := roundDiv_between (n := ((c : Int) - 682) * (cfg.hi - cfg.lo)) (lo := cfg.hi - cfg.lo) (hi := 0) (d := 2730)
      (by decide) (by push_cast; nlinarith) (by push_cast; nlinarith)
    omega

theorem scale_low (cfg : ChannelCfg) : cfg.scale 682 = cfg.lo := by
  simp [ChannelCfg.scale, roundDiv]

theorem scale_high (cfg : ChannelCfg) : cfg.scale 3412 = cfg.hi := by
  have h := roundDiv_mul (cfg.hi - cfg.lo) (d := 2730) (by decide)
  unfold ChannelCfg.scale
  rw [show ((3412 : Nat) : Int) - 682 = ((2730 : Nat) : Int) by norm_num, mul_comm, h]
  ring

/-- Settles O33: the rounding's own bounds, and the code's share of the span. -/
theorem scaledValuesFollowTheLoop : Obligations.ScaledValuesFollowTheLoop := by
  intro cfg c hlo hhi
  have share : cfg.scale c - cfg.lo = roundDiv (((c : Int) - 682) * (cfg.hi - cfg.lo)) 2730 := by
    unfold ChannelCfg.scale; ring
  obtain ⟨least, most⟩ := scale_between cfg hlo hhi
  refine ⟨?_, least, most, ?_, ?_⟩
  · rw [share]
    exact roundDiv_bounds _ (by decide : 0 < 2730)
  · rintro rfl; exact scale_low cfg
  · rintro rfl; exact scale_high cfg

/-! ### A conversion's code (R4) -/

theorem classify_low {c : Nat} (h : c < 614) : classify c = (.low, none) := if_pos h

theorem classify_high {c : Nat} (h : 3583 < c) : classify c = (.high, none) := by
  unfold classify
  rw [if_neg (by omega), if_neg (by omega), if_neg (by omega), if_neg (by omega)]

/-- A code of the loop is used at the nearest end of the span, and marked when that is another code. -/
theorem classify_loop {c : Nat} (h : 614 ≤ c) (h' : c ≤ 3583) :
    classify c =
      (if 682 ≤ c ∧ c ≤ 3412 then ConvOutcome.good else .clamped, some (max 682 (min c 3412))) := by
  unfold classify
  rw [if_neg (by omega)]
  by_cases below : c < 682
  · rw [if_pos below, if_neg (by omega), show max 682 (min c 3412) = 682 by omega]
  · rw [if_neg below]
    by_cases above : c ≤ 3412
    · rw [if_pos above, if_pos ⟨by omega, above⟩, show max 682 (min c 3412) = c by omega]
    · rw [if_neg above, if_pos h', if_neg (by omega), show max 682 (min c 3412) = 3412 by omega]

/-! ### A used channel after a conversion (R6, R9, R10) -/

theorem convert_fault (C : Channel) {c : Nat} (h : c < 614 ∨ 3583 < c) :
    C.convert c = { C with last := if c < 614 then .low else .high, goodRun := 0, fault := true } := by
  unfold Channel.convert
  rcases h with h | h
  · rw [classify_low h, if_pos h]
  · rw [classify_high h, if_neg (by omega)]

/-- A code of the loop enters the ring as its engineering value and counts toward clearing a fault. -/
theorem convert_loop (C : Channel) {c : Nat} (h : 614 ≤ c) (h' : c ≤ 3583) :
    C.convert c =
      { (C.enter (C.cfg.scale (max 682 (min c 3412)))).countGood with
        last := if 682 ≤ c ∧ c ≤ 3412 then ConvOutcome.good else .clamped } := by
  unfold Channel.convert
  rw [classify_loop h h']

theorem countGood_sound {C : Channel} (h : C.fault = false) : C.countGood = { C with goodRun := 0 } := by
  simp [Channel.countGood, h]

theorem countGood_counts {C : Channel} (h : C.fault = true) (run : C.goodRun < 3) :
    C.countGood = { C with goodRun := C.goodRun + 1 } := by
  unfold Channel.countGood
  rw [if_pos h, if_pos (by omega)]

/-- The fourth good conversion running clears the fault (R10). -/
theorem countGood_clears {C : Channel} (h : C.fault = true) (run : C.goodRun = 3) :
    C.countGood = { C with fault := false, goodRun := 0 } := by
  unfold Channel.countGood
  rw [if_pos h, if_neg (by omega)]

/-! ### The loop fault source (R11) -/

theorem loopFaultChange_same (s : State) (c : ChannelId) (b : Bool) : s.loopFaultChange c b b = s := by
  cases b <;> rfl

/-- The loop fault sources are none of those that an event's consequences may count. -/
theorem srcLoopFault_not_side (c : ChannelId) : ¬ settleSide (srcLoopFault c) := by
  revert c; unfold settleSide; decide

/-- An occurrence counted once stays so through consequences that touch another field of the entry only. -/
theorem LatchEntry.CountedOnce.trans_same {n : EntryId} {t : Stamp} {o : Nat} {e e' e'' : LatchEntry}
    (h : LatchEntry.CountedOnce n t o e e') (g : SameRecord e' e'') : LatchEntry.CountedOnce n t o e e'' :=
  ⟨g.count.trans h.count, g.unack.trans h.unack, g.first.trans h.first, g.last.trans h.last, g.origin.trans h.origin,
    g.asserted.trans h.asserted⟩

/-- What an occurrence and the settling of its event leave (R141). -/
theorem occur_settle (s : State) {n : EntryId} (hn : ¬ settleSide n) :
    (s.occur n).settle.still = s.still ∧
      LatchEntry.CountedOnce n s.stamp s.posA s.latch[n] (s.occur n).settle.latch[n] :=
  ⟨(settle_consequence _).still.trans (occur_consequence (E := anyEntry) trivial s n trivial).still,
    (occurFrom_counted s n s.posA fun e => hn (.inl e)).trans_same ((settle_consequence _).latch n hn)⟩

/-- What a clearing and the settling of its event leave (R143). -/
theorem clearSource_settle (s : State) {n : EntryId} (hn : ¬ settleSide n) :
    (s.clearSource n).settle.still = s.still ∧ (s.clearSource n).settle.latch[n].asserted = false :=
  ⟨(settle_consequence _).still.trans (clearSource_consequence (E := anyEntry) trivial s n trivial).still,
    ((settle_consequence _).latch n hn).asserted.trans (clearWithCode_asserted s n _ fun e => hn (.inl e))⟩

/-! ### A conversion completion -/

theorem conversion_unused {s : State} {ch : ChannelId} {C : Channel} (hC : s.channels[ch] = C) (code : BitVec 12)
    (h : C.cfg.kind = none) : s.conversion ch code = s.setChannel ch { C with convTimer := some (s.now + 250000) } := by
  subst hC
  exact if_pos h

theorem conversion_used {s : State} {ch : ChannelId} {C : Channel} (hC : s.channels[ch] = C) (code : BitVec 12)
    (h : C.cfg.kind ≠ none) {D : Channel} (hD : { C with convTimer := some (s.now + 250000) }.convert code.toNat = D) :
    s.conversion ch code = (s.setChannel ch D).loopFaultChange ch C.fault D.fault := by
  subst hC hD
  exact if_neg h

/-- A conversion that leaves the channel's fault state changes the channel alone. -/
theorem conversion_quiet {s : State} {ch : ChannelId} {C D : Channel} (hs : s.Settled) (hC : s.channels[ch] = C)
    (code : BitVec 12) (h : C.cfg.kind ≠ none)
    (hD : { C with convTimer := some (s.now + 250000) }.convert code.toNat = D) (same : D.fault = C.fault) :
    exec (.conversionCompletion ch code) s = .next (s.setChannel ch D) := by
  show Host.Outcome.next (s.conversion ch code).settle = _
  rw [conversion_used hC code h hD, same, loopFaultChange_same, settle_of_settled]
  exact hs

/-- Settles O34: the code decides the channel after the conversion, and the change of its fault state decides the source. -/
theorem conversionsFillTheRing : Obligations.ConversionsFillTheRing := by
  intro ch code s C hs hC
  refine ⟨fun unused => ?_, fun used low high v o hv ho => ?_, fun used bad => ?_⟩
  · show Host.Outcome.next (s.conversion ch code).settle = _
    rw [conversion_unused hC code unused, settle_of_settled]
    exact hs
  · subst hv ho
    have good := convert_loop { C with convTimer := some (s.now + 250000) } low high
    refine ⟨fun sound => ?_, fun fault run => ?_, fun fault run => ?_⟩
    · rw [countGood_sound (by exact sound)] at good
      exact conversion_quiet hs hC code used good rfl
    · rw [countGood_counts (by exact fault) (by exact run)] at good
      exact conversion_quiet hs hC code used good rfl
    · rw [countGood_clears (by exact fault) (by exact run)] at good
      refine ⟨_, rfl, ?_⟩
      rw [conversion_used hC code used good, fault]
      exact clearSource_settle _ (srcLoopFault_not_side ch)
  · have faulty := convert_fault { C with convTimer := some (s.now + 250000) } bad
    refine ⟨_, rfl, ?_⟩
    rw [conversion_used hC code used faulty]
    cases hf : C.fault with
    | false =>
      obtain ⟨still, counted⟩ := occur_settle (s.setChannel ch _) (srcLoopFault_not_side ch)
      exact ⟨still, fun _ => counted, fun e => absurd e (by decide)⟩
    | true =>
      refine ⟨(settle_consequence _).still, fun e => absurd e (by decide), fun _ => ?_⟩
      exact (settle_consequence (s.setChannel ch _)).latch _ (srcLoopFault_not_side ch)

/-! ### The smoothed value (R7) -/

theorem windowSize_eq (w : Nat) : windowSize w = 2 ^ min w 4 := by
  match w with
  | 0 => rfl
  | 1 => rfl
  | 2 => rfl
  | 3 => rfl
  | w + 4 => rw [show min (w + 4) 4 = 4 by omega]; rfl

theorem smoothed_empty {C : Channel} (h : C.ring = []) : C.smoothed = none := if_pos h

theorem smoothed_ring {C : Channel} (h : C.ring ≠ []) {n : Nat} (hn : n = min (2 ^ min C.cfg.window 4) C.ring.length) :
    C.smoothed = some (roundDiv (C.ring.take n).sum n) := by
  unfold Channel.smoothed
  rw [if_neg h, windowSize_eq, hn, ← List.take_eq_take_min]

theorem smoothed_isSome (C : Channel) : C.smoothed.isSome = decide (C.ring ≠ []) := by
  by_cases h : C.ring = []
  · simp [smoothed_empty h, h]
  · simp [smoothed_ring h rfl, h]

/-! ### The SAMPLE of a report expiry (R13 to R15) -/

/-- The item of a used channel, its flags read from the last outcome, the fault state and the ring (R12, R14). -/
theorem item_eq (C : Channel) (c : ChannelId) :
    C.item c = C.cfg.kind.map fun k =>
      { channel := BitVec.ofNat 8 c.val, kind := k
        flags := BitVec.ofNat 8
          ((if C.last = .clamped then 1 else 0) + (if C.fault = true ∨ C.ring = [] then 2 else 0))
        value := BitVec.ofInt 16 (C.smoothed.getD 0) } := by
  have faulty : C.reading.fault = true ↔ C.fault = true ∨ C.ring = [] := by
    simp [Channel.reading, smoothed_isSome]
  have clamped : C.reading.clamped = true ↔ C.last = .clamped := beq_iff_eq
  simp only [Channel.item, flagsCode, faulty, clamped]
  rfl

/-- An offer to a low queue is no occurrence of QUEUE_OVERRUN (R43). -/
theorem offer_low (s : State) (p : Port) {q : QueueId} (hq : q.isHigh = false) (f : Frame) : (s.offer p q f).2 = false := by
  have taken : ∀ x l, (assign q x l).2 ≠ .overrun := by
    intro x l
    unfold assign
    split
    · simp
    · rw [if_neg (by simp [hq])]
      split <;> simp
  unfold State.offer
  dsimp only
  split
  · split
    · rfl
    · rfl
    · rename_i h; exact absurd (congrArg Prod.snd h) (taken _ _)
  · rfl

/-- A frame for LL is offered to port A, then to port B, and nothing follows (R41). -/
theorem sendLocal_low (s : State) (f : Frame) (hf : (localQueue f).isHigh = false) :
    s.sendLocal f = ((s.offer .a (localQueue f) f).1.offer .b (localQueue f) f).1 := by
  simp [State.sendLocal, State.offerBoth, offer_low, hf, State.overruns]

/-- Settles O35: the report's frame goes to low queues, so nothing but its offers happens; the mean is a rounded
quotient. -/
theorem reportsSendTheReadings : Obligations.ReportsSendTheReadings := by
  refine ⟨fun s u items hs hu hitems => ?_, fun C n hn => ⟨smoothed_empty, fun ring => ?_⟩⟩
  · have sent : s.sampleItems = items := by
      rw [hitems, State.sampleItems]
      exact congrArg (fun g => (List.finRange 4).filterMap g) (funext fun c => item_eq s.channels[c] c)
    have expiry : s.reportExpiry = if items = [] ∨ s.node.sampleReach = 0 then u else u.sendLocal (.sample
        { origin := BitVec.ofNat 8 s.posA, reach := BitVec.ofNat 8 s.node.sampleReach, items := items }) := by
      subst hu
      rw [← sent]
      rfl
    have settled : u.Settled := by rw [hu]; exact hs
    refine ⟨fun unsent => ?_, fun used reach f hf => ?_⟩
    · show Host.Outcome.next s.reportExpiry.settle = _
      rw [expiry, if_pos unsent, settle_of_settled u settled]
    · show Host.Outcome.next s.reportExpiry.settle = _
      rw [expiry, if_neg (not_or.mpr ⟨used, reach⟩), ← hf, sendLocal_low u f (by rw [hf]; rfl),
        show localQueue f = .ll by rw [hf]; rfl,
        settle_of_settled _ (offer_settled (offer_settled settled _ _ _) _ _ _)]
  · refine ⟨_, smoothed_ring ring hn, ?_⟩
    have pos : 0 < n := by
      have := List.length_pos_iff.mpr ring
      have := Nat.two_pow_pos (min C.cfg.window 4)
      omega
    exact roundDiv_bounds _ pos

end Sys2Proof.Machine
end

