-- ==== Sys2Proof/Proofs/HardReset.lean ====
section
/-! PROOFS. Proofs/HardReset.lean: a power-on or pin reset. Its first evaluation sends no frame, since both ports are DOWN,
and launches no plan, since no source has a step; a STORE cut short leaves a place that fails its check. -/

namespace Sys2Proof.Machine

/-! ### Occurrences that send nothing and launch nothing -/

/-- No port is UP. -/
def State.Silent (s : State) : Prop := ∀ p, (s.port p).isUp = false

theorem offer_silent {s : State} (h : s.Silent) (p : Port) (q : QueueId) (f : Frame) : s.offer p q f = (s, false) := by
  simp [State.offer, h p]

/-- A frame sent while no port is UP is lost at both (R39). -/
theorem sendLocal_silent {s : State} (h : s.Silent) (f : Frame) : s.sendLocal f = s := by
  simp [State.sendLocal, State.offerBoth, offer_silent h, State.overruns]

theorem reportOccurred_silent {s : State} (h : s.Silent) (n : EntryId) : s.reportOccurred n = s := by
  unfold State.reportOccurred State.report
  split
  · exact sendLocal_silent h _
  · rfl

/-- The entries after an entry found asserted counts an occurrence that launches nothing. -/
def foundIn (t : Stamp) (origin : Nat) (latch : Vector LatchEntry 51) (found : EntryId × Bool) : Vector LatchEntry 51 :=
  if found.2 then latch.set found.1 (latch[found.1].occurred found.1 t origin false) else latch

theorem getElem_foundIn (t : Stamp) (o : Nat) (latch : Vector LatchEntry 51) (n m : EntryId) (b : Bool) :
    (foundIn t o latch (n, b))[m] = if m = n ∧ b = true then latch[m].occurred m t o false else latch[m] := by
  cases b with
  | false => simp [foundIn]
  | true =>
    by_cases h : m = n
    · subst h; simp [foundIn]
    · have h' : n.val ≠ m.val := fun e => h (Fin.ext e.symm)
      simp [foundIn, h, Vector.getElem_set_ne _ _ h']

/-- Different entries found in turn: each found asserted has counted once, every other stands. -/
theorem getElem_foldl_foundIn (t : Stamp) (o : Nat) (l : List (EntryId × Bool)) (hl : (l.map Prod.fst).Nodup)
    (latch : Vector LatchEntry 51) (m : EntryId) :
    (l.foldl (foundIn t o) latch)[m] = if (m, true) ∈ l then latch[m].occurred m t o false else latch[m] := by
  induction l generalizing latch with
  | nil => simp
  | cons x l ih =>
    obtain ⟨n, b⟩ := x
    rw [List.map_cons, List.nodup_cons] at hl
    rw [List.foldl_cons, ih hl.2, getElem_foundIn]
    by_cases h : m = n
    · subst h
      have later : (m, true) ∉ l := fun e => hl.1 (List.mem_map.mpr ⟨_, e, rfl⟩)
      cases b <;> simp [later]
    · simp [h]

/-- An entry found asserted in a silent state, its source without a valid step (R141). -/
theorem firstFound_silent {s : State} (h : s.Silent) {n : EntryId} (hn : s.planValid n = false) (b : Bool) :
    s.firstFound n b = { s with latch := foundIn s.stamp s.posA s.latch (n, b) } := by
  cases b with
  | false => rfl
  | true =>
    have counted : s.countOccurrence n s.posA = { s with latch := foundIn s.stamp s.posA s.latch (n, true) } := by
      simp [State.countOccurrence, hn, State.setLatch, foundIn]
    show (s.countOccurrence n s.posA).reportOccurred n = _
    rw [counted]
    exact reportOccurred_silent (fun p => by cases p; exacts [h .a, h .b]) n

/-- The level sources that the first evaluation tests, with what it finds (R141). -/
def State.firstSources (s : State) : List (EntryId × Bool) :=
  [(srcLinkDown .a, !s.ports.a.isUp), (srcLinkDown .b, !s.ports.b.isUp), (srcIsolated jet1, s.fans[jet1].isoOpen),
    (srcIsolated jet2, s.fans[jet2].isoOpen), (srcIsolated passage, s.fans[passage].isoOpen), (srcCallPoint, s.callPoint)]

/-- The first evaluation of a silent state whose sources have no valid step changes the latch alone. -/
theorem firstEvaluation_silent {s : State} (h : s.Silent) (hp : ∀ n, s.planValid n = false) :
    s.firstEvaluation = { s with latch := s.firstSources.foldl (foundIn s.stamp s.posA) s.latch } := by
  have found : ∀ (latch : Vector LatchEntry 51) (n : EntryId) (b : Bool),
      State.firstFound n b { s with latch := latch } = { s with latch := foundIn s.stamp s.posA latch (n, b) } :=
    fun latch n b => firstFound_silent (s := { s with latch := latch }) (fun p => by cases p; exacts [h .a, h .b]) (hp n) b
  unfold State.firstEvaluation
  have first := found s.latch (srcLinkDown .a) (!s.ports.a.isUp)
  dsimp only at first ⊢
  rw [first, found, found, found, found, found]
  rfl

/-! ### The state after a hard reset -/

theorem fresh_silent (s : State) (now : Nat) (cause : ResetCause) : (s.fresh now cause).Silent := fun p => by
  cases p <;> rfl

/-- No default source configuration names a step (R138). -/
theorem defaultSource_step (n : Fin 35) : (defaultSource n).step = none := by
  unfold defaultSource
  split
  · rfl
  · split <;> rfl

theorem fresh_planValid (s : State) (now : Nat) (cause : ResetCause) (n : EntryId) :
    (s.fresh now cause).planValid n = false := by
  have step : ((s.fresh now cause).sourceCfg n).step = none := by
    unfold State.sourceCfg
    split
    · simp [State.fresh, defaultSource_step]
    · simp [State.fresh]
  unfold State.planValid
  rw [step]

theorem resetFan_isoOpen (pins : Pins) (now : Nat) (f : FanId) : (resetFan pins now f).isoOpen = pins.isolatorOpen[f] := by
  unfold resetFan
  split
  · rename_i h; exact h.symm
  · rename_i h; exact (Bool.eq_false_of_not_eq_true h).symm

/-- The sources tested at the end of a hard reset: both links are down, the rest is as the pins are. -/
theorem firstSources_fresh (s : State) (now : Nat) (cause : ResetCause) :
    (s.fresh now cause).firstSources =
      [(srcLinkDown .a, true), (srcLinkDown .b, true), (srcIsolated jet1, s.pins.isolatorOpen[jet1]),
        (srcIsolated jet2, s.pins.isolatorOpen[jet2]), (srcIsolated passage, s.pins.isolatorOpen[passage]),
        (srcCallPoint, s.pins.callPoint)] := by
  have iso : ∀ f : FanId, (s.fresh now cause).fans[f].isoOpen = s.pins.isolatorOpen[f] := fun f => by
    simp [State.fresh, resetFan_isoOpen]
  unfold State.firstSources
  rw [iso, iso, iso]
  rfl

/-- The sources found asserted are those that the statement lists, and each is a level source. -/
theorem mem_firstSources_iff (s : State) (now : Nat) (cause : ResetCause) (n : EntryId) :
    (n, true) ∈ (s.fresh now cause).firstSources ↔ s.assertedAtReset (fun _ => true) n = true := by
  rw [firstSources_fresh]
  simp only [State.assertedAtReset, List.mem_cons, Prod.mk.injEq, List.not_mem_nil, or_false, Bool.or_eq_true,
    Bool.and_eq_true, beq_iff_eq, Fin.ext_iff, and_true, eq_comm (a := true)]
  tauto

theorem assertedAtReset_level {s : State} {down : Port → Bool} {n : EntryId} (h : s.assertedAtReset down n = true) :
    isLevel n = true := by
  simp only [State.assertedAtReset, Bool.or_eq_true, Bool.and_eq_true, beq_iff_eq] at h
  simp only [isLevel, Bool.or_eq_true, Bool.and_eq_true, decide_eq_true_eq]
  omega

/-- The latch after a hard reset: one occurrence for each level source found asserted, at clock 0 and position 0. -/
theorem fresh_latch (s : State) (cause : ResetCause) :
    (s.fresh 0 cause).firstSources.foldl (foundIn ⟨0, false⟩ 0) (Vector.replicate 51 {}) =
      (s.blocksReset 0 (fun _ => true) ⟨0, false⟩ 0).latch := by
  refine Vector.ext fun i hi => ?_
  have found := getElem_foldl_foundIn ⟨0, false⟩ 0 (s.fresh 0 cause).firstSources 
    (by rw [firstSources_fresh]; simp only [List.map_cons, List.map_nil]; decide)
    (Vector.replicate 51 {}) ⟨i, hi⟩
  simp only [mem_firstSources_iff, Fin.getElem_fin, Vector.getElem_replicate] at found
  simp only [found, State.blocksReset, Vector.getElem_ofFn]
  split
  · rename_i h
    simp [LatchEntry.occurred, assertedAtReset_level h]
  · rfl

/-- A hard reset: every block at its reset value, and the memory and the free counter as a STORE cut short leaves them. -/
theorem hardReset_eq (s : State) (cause : ResetCause) :
    s.hardReset cause =
      { s.blocksReset 0 (fun _ => true) ⟨0, false⟩ 0 with
        resetCause := cause, serial := s.cutShort.1, freeCount := s.cutShort.2 } := by
  have evaluated := firstEvaluation_silent (fresh_silent s 0 cause) (fresh_planValid s 0 cause)
  have latch := fresh_latch s cause
  unfold State.hardReset
  rw [evaluated]
  refine (congrArg (fun l => ({ s.fresh 0 cause with latch := l } : State)) latch).trans ?_
  rfl

/-! ### A STORE cut short (R186) -/

theorem length_partialGroup (k n : Nat) : (partialGroup k n).length = 3 + n := by
  simp [partialGroup]; omega

theorem recordData_partialGroup (g : Fin 15) (k : Nat) : recordData g (partialGroup k (dataLength g)) = none := by
  unfold recordData partialGroup
  dsimp only
  rw [if_neg]
  rintro ⟨-, -, -, passes⟩
  rw [spoil_fails] at passes
  cases passes

theorem headerOf_partialHeader (k : Nat) : headerOf (partialHeader k) = none := by
  unfold headerOf partialHeader
  dsimp only
  rw [if_neg]
  rintro ⟨-, -, passes⟩
  rw [spoil_fails] at passes
  cases passes

/-- What a reset leaves of the serial memory (R186). -/
theorem cutShort_of_serial {s t : State} (h : t.serial = s.cutShort.1) : CutShort s t where
  kept idle := by rw [h, State.cutShort, idle]
  group g ph r writing wf := by
    have length := length_partialGroup s.freeCount (dataLength g)
    have place := placeOf_inside g
    have e : t.serial = s.serial.putWords (placeOf g) (partialGroup s.freeCount (dataLength g)) := by
      rw [h, State.cutShort, writing]
    refine ⟨?_, fun a ha => ?_⟩
    · have back := words_putWords (partialGroup s.freeCount (dataLength g)) s.serial (placeOf g) wf (by omega)
      rw [length] at back
      rw [e, back]
      exact recordData_partialGroup g _
    · rw [e]
      exact word_putWords_out _ _ _ _ wf (by omega) (by omega)
  header ph r writing wf := by
    have e : t.serial = s.serial.putWords 0 (partialHeader s.freeCount) := by
      rw [h, State.cutShort, writing]
    have inside : 2 * (0 + (partialHeader s.freeCount).length) ≤ Memory.size := show 2 * (0 + 5) ≤ 8192 by decide
    refine ⟨?_, fun a ha => ?_⟩
    · have back := words_putWords (partialHeader s.freeCount) s.serial 0 wf inside
      rw [e]
      exact (congrArg headerOf back).trans (headerOf_partialHeader _)
    · rw [e]
      exact word_putWords_out _ _ _ _ wf inside (.inr ha)

/-- Settles O4: the state after the first evaluation, block by block, and the serial memory apart. -/
theorem hardResetsReturnEveryBlock : Obligations.HardResetsReturnEveryBlock := by
  refine ⟨fun s c cause hc => ⟨s.hardReset cause, ?_, ?_, ?_⟩, rfl⟩
  · rcases hc with hc | hc <;> (cases hc; rfl)
  · exact cutShort_of_serial (by rw [hardReset_eq])
  · rw [hardReset_eq]

end Sys2Proof.Machine
end

