-- ==== Sys2Proof/Proofs/Clamps.lean ====
section
/-! PROOFS. Proofs/Clamps.lean: the stored configuration words (R172). Each field's encoding turns the value that a `put`
stores into what the statement's field makes of the word; so each record's words change in the one word stored, and the
tables with them. -/

namespace Sys2Proof.Machine

/-! ### What each clamp stores, read back as a word, and its mark (R172, R179) -/

theorem natW_toNat (v : Word) : natW v.toNat = v := by simp [natW]

theorem stored_putNat {lo hi : Nat} (h : lo ≤ hi) (v : Word) : putBack natW (putNat lo hi v) = fieldRange lo hi v := by
  rw [putNat_eq h]
  rfl

theorem stored_putInt {lo hi : Int} (h : lo ≤ hi) (v : Word) : putBack intW (putInt lo hi v) = fieldSigned lo hi v := by
  rw [putInt_eq h]
  rfl

theorem stored_putAnyInt (v : Word) : putBack intW (putAnyInt v) = fieldAny v :=
  Prod.ext (BitVec.ofInt_toInt (x := v)) rfl

theorem stored_putAnyNat (v : Word) : putBack natW (putAnyNat v) = fieldAny v :=
  Prod.ext (natW_toNat v) rfl

theorem stored_putFlag (v : Word) : putBack boolW (putFlag v) = fieldRange 0 1 v := by
  have mark : decide (1 < v.toNat) = decide (v.toNat < 0 ∨ 1 < v.toNat) := by simp
  refine Prod.ext ?_ mark
  by_cases h : v = 0
  · subst h; rfl
  · have pos : v.toNat ≠ 0 := fun e => h (BitVec.eq_of_toNat_eq e)
    simp only [putBack, putFlag, boolW, fieldRange, bne_iff_ne, ne_eq, h, not_false_eq_true, if_true]
    rw [show max 0 (min v.toNat 1) = 1 by omega]
    rfl

/-- An enumerated field: a code of the list is stored as it is, any other as the default. -/
theorem stored_putEnum {α : Type} {ofCode : Nat → Option α} {code : α → Nat} {codes : List Nat}
    (named : ∀ n ∈ codes, (ofCode n).map code = some n) (unnamed : ∀ n, n ∉ codes → ofCode n = none) (dflt : α)
    (v : Word) :
    putBack (fun x => natW (code x)) (putEnum dflt (ofCode v.toNat)) = fieldAmong codes (natW (code dflt)) v := by
  unfold fieldAmong
  split
  · rename_i h
    obtain ⟨x, hx, e⟩ := Option.map_eq_some_iff.mp (named _ h)
    rw [hx]
    exact Prod.ext ((congrArg natW e).trans (natW_toNat v)) rfl
  · rename_i h
    rw [unnamed _ h]
    rfl

theorem stored_class (v : Word) :
    putBack (fun x => natW (classCode x)) (putEnum .advisory (classOfCode v.toNat)) = fieldAmong [0, 1, 2] 0 v :=
  stored_putEnum (by decide) (fun n h => by unfold classOfCode; split <;> simp_all) _ v

theorem stored_termSource (v : Word) :
    putBack (fun x => natW (termSourceCode x)) (putEnum .loc (termSourceOfCode v.toNat)) = fieldAmong [0, 1] 0 v :=
  stored_putEnum (by decide) (fun n h => by unfold termSourceOfCode; split <;> simp_all) _ v

theorem stored_endCond (v : Word) :
    putBack (fun x => natW (endCondCode x)) (putEnum .timer (endCondOfCode v.toNat)) = fieldAmong [0, 1, 2] 0 v :=
  stored_putEnum (by decide) (fun n h => by unfold endCondOfCode; split <;> simp_all) _ v

theorem stored_jet (v : Word) :
    putBack (fun x => natW (jetCode x)) (putEnum .auto (jetOfCode v.toNat)) = fieldAmong [0, 1, 2, 3, 4] 0 v :=
  stored_putEnum (by decide) (fun n h => by unfold jetOfCode; split <;> simp_all) _ v

theorem stored_direction (v : Word) :
    putBack (fun x => natW (directionCode x)) (putEnum .forward (directionOfCode v.toNat)) = fieldAmong [1, 2] 1 v :=
  stored_putEnum (by decide) (fun n h => by unfold directionOfCode; split <;> simp_all) _ v

theorem stored_passage (v : Word) :
    putBack (fun x => natW (passageCode x)) (putEnum .autoDoor (passageOfCode v.toNat)) = fieldAmong [0, 1, 2] 0 v :=
  stored_putEnum (by decide) (fun n h => by unfold passageOfCode; split <;> simp_all) _ v

theorem stored_policy (v : Word) :
    putBack (fun x => natW (policyCode x)) (putEnum .normal (policyOfCode v.toNat)) = fieldAmong [0, 1, 2] 0 v :=
  stored_putEnum (by decide) (fun n h => by unfold policyOfCode; split <;> simp_all) _ v

theorem stored_lamp (v : Word) :
    putBack (fun x => natW (lampCode x)) (putEnum .off (lampOfCode v.toNat)) = fieldAmong [0, 1, 2] 0 v :=
  stored_putEnum (by decide) (fun n h => by unfold lampOfCode; split <;> simp_all) _ v

theorem stored_mode (v : Word) :
    putBack (fun x => natW (modeCode x)) (putEnum .set (modeOfCode v.toNat)) = fieldAmong [0, 1] 0 v :=
  stored_putEnum (by decide) (fun n h => by unfold modeOfCode; split <;> simp_all) _ v

theorem stored_putKind (v : Word) :
    putBack (fun x => natW (optKindCode x)) (putKind v) = fieldAmong [0, 1, 2, 3, 4] 0 v := by
  unfold fieldAmong
  split
  · rename_i h
    have named : ∀ n ∈ [0, 1, 2, 3, 4], optKindCode (kindOfCode n) = n ∧ ¬ 4 < n := by decide
    obtain ⟨code, small⟩ := named _ h
    exact Prod.ext ((congrArg natW code).trans (natW_toNat v)) (decide_eq_false small)
  · rename_i h
    have large : 4 < v.toNat := by simp at h; omega
    have unnamed : kindOfCode v.toNat = none := by unfold kindOfCode; split <;> simp_all
    refine Prod.ext ?_ (decide_eq_true large)
    rw [putBack, putKind, unnamed]
    rfl

theorem stored_putStep (v : Word) :
    putBack (fun x => natW (stepCode x)) (putStep v) = fieldAmong (255 :: List.range 64) 255 v := by
  unfold putStep fieldAmong
  by_cases step : v.toNat < 64
  · rw [dif_pos step, if_pos (by simp [step])]
    exact Prod.ext (natW_toNat v) rfl
  · rw [dif_neg step]
    by_cases h : v.toNat = 255
    · rw [if_pos (by simp [h]), h]
      exact Prod.ext (BitVec.eq_of_toNat_eq h.symm) rfl
    · rw [if_neg (by simp [h]; omega)]
      exact Prod.ext rfl (bne_iff_ne.mpr h)

theorem stored_putCode (v : Word) : putCode v = fieldLineCode v := by
  have zero : v = 0 ↔ v.toNat = 0 := ⟨fun e => e ▸ rfl, fun e => BitVec.eq_of_toNat_eq e⟩
  unfold putCode fieldLineCode
  by_cases h : v = 0 ∨ 0x0800 ≤ v.toNat
  · rw [if_pos h, if_neg (by rw [zero] at h; omega)]
  · rw [if_neg h, if_pos (by rw [zero] at h; omega)]

theorem stored_putLearnMask (v : Word) :
    putBack (fun m => natW (learnMaskCode m)) (putLearnMask v) = fieldRange 0 15 v := by
  have bits : ∀ n : Fin 16, learnMaskCode (learnMaskOf (natW n)) = n := by decide
  unfold putLearnMask
  by_cases large : 15 < v.toNat
  · rw [if_pos large, fieldRange, show max 0 (min v.toNat 15) = 15 by omega]
    exact Prod.ext rfl (decide_eq_true (Or.inr large)).symm
  · have code := bits ⟨v.toNat, by omega⟩
    rw [natW_toNat] at code
    rw [if_neg large, fieldRange, show max 0 (min v.toNat 15) = v.toNat by omega]
    exact Prod.ext (congrArg natW code) (decide_eq_false (by omega)).symm

theorem stored_putChannel (v : Word) : putBack (fun c => natW c.val) (putChannel v) = fieldRange 0 3 v := by
  unfold putChannel
  by_cases small : v.toNat < 4
  · rw [dif_pos small, fieldRange, show max 0 (min v.toNat 3) = v.toNat by omega]
    exact Prod.ext rfl (decide_eq_false (by omega)).symm
  · rw [dif_neg small, fieldRange, show max 0 (min v.toNat 3) = 3 by omega]
    exact Prod.ext rfl (decide_eq_true (by omega)).symm

/-! ### One word stored in a record -/

/-- A field stored: the word of its place becomes the field's, with the field's mark, and the other words stand. -/
theorem stored_field {α β : Type} {words : α → List Word} {put : β → α} {code : β → Word} {r : β × Bool}
    {x : Word × Bool} {old : List Word} {w : Nat} (stored : putBack code r = x) (place : ∀ b, words (put b) = old.set w (code b)) :
    putBack words (putBack put r) = (old.set w x.1, x.2) := by
  subst stored
  exact Prod.ext (place r.1) rfl

/-- The configuration words of a channel and of a kind, which stand before the live ones (R180). -/
def ChannelCfg.words (c : ChannelCfg) : List Word := [natW (optKindCode c.kind), intW c.lo, intW c.hi, natW c.window]

def KindCfg.words (c : KindCfg) : List Word :=
  [natW c.quorum, natW c.hold, intW c.tLo, intW c.tHi, intW c.alarm, intW c.clear, natW c.failed]

section
variable {w : Nat} {field : Word → Word × Bool} (v : Word)

theorem ChannelCfg.stored (c : ChannelCfg) (h : Table.channel.fields[w]? = some field) :
    putBack ChannelCfg.words (c.put w v) = (c.words.set w (field v).1, (field v).2) := by
  match w, h with
  | 0, h => cases h; exact stored_field (stored_putKind v) fun _ => rfl
  | 1, h => cases h; exact stored_field (stored_putAnyInt v) fun _ => rfl
  | 2, h => cases h; exact stored_field (stored_putAnyInt v) fun _ => rfl
  | 3, h => cases h; exact stored_field (stored_putNat (by decide) v) fun _ => rfl
  | _ + 4, h => cases h

theorem Term.stored (x : Term) (h : Table.terms.fields[w]? = some field) :
    putBack Term.words (x.put w v) = (x.words.set w (field v).1, (field v).2) := by
  match w, h with
  | 0, h => cases h; exact stored_field (stored_termSource v) fun _ => rfl
  | 1, h => cases h; exact stored_field (stored_putInt (by decide) v) fun _ => rfl
  | 2, h => cases h; exact stored_field (stored_putChannel v) fun _ => rfl
  | 3, h => cases h; exact stored_field (stored_putNat (by decide) v) fun _ => rfl
  | _ + 4, h => cases h

theorem KindCfg.stored (c : KindCfg) (h : Table.kind.fields[w]? = some field) :
    putBack KindCfg.words (c.put w v) = (c.words.set w (field v).1, (field v).2) := by
  match w, h with
  | 0, h => cases h; exact stored_field (stored_putNat (by decide) v) fun _ => rfl
  | 1, h => cases h; exact stored_field (stored_putNat (by decide) v) fun _ => rfl
  | 2, h => cases h; exact stored_field (stored_putAnyInt v) fun _ => rfl
  | 3, h => cases h; exact stored_field (stored_putAnyInt v) fun _ => rfl
  | 4, h => cases h; exact stored_field (stored_putAnyInt v) fun _ => rfl
  | 5, h => cases h; exact stored_field (stored_putAnyInt v) fun _ => rfl
  | 6, h => cases h; exact stored_field (stored_putNat (by decide) v) fun _ => rfl
  | _ + 7, h => cases h

theorem FanCfg.stored (c : FanCfg) (h : Table.fan.fields[w]? = some field) :
    putBack FanCfg.words (c.put w v) = (c.words.set w (field v).1, (field v).2) := by
  match w, h with
  | 0, h => cases h; exact stored_field (stored_putNat (by decide) v) fun _ => rfl
  | 1, h => cases h; exact stored_field (stored_putNat (by decide) v) fun _ => rfl
  | 2, h => cases h; exact stored_field (stored_putNat (by decide) v) fun _ => rfl
  | 3, h => cases h; exact stored_field (stored_putNat (by decide) v) fun _ => rfl
  | 4, h => cases h; exact stored_field (stored_putNat (by decide) v) fun _ => rfl
  | 5, h => cases h; exact stored_field (stored_putNat (by decide) v) fun _ => rfl
  | 6, h => cases h; exact stored_field (stored_putNat (by decide) v) fun _ => rfl
  | 7, h => cases h; exact stored_field (stored_putNat (by decide) v) fun _ => rfl
  | 8, h => cases h; exact stored_field (stored_putNat (by decide) v) fun _ => rfl
  | 9, h => cases h; exact stored_field (stored_putNat (by decide) v) fun _ => rfl
  | 10, h => cases h; exact stored_field (stored_putNat (by decide) v) fun _ => rfl
  | 11, h => cases h; exact stored_field (stored_putNat (by decide) v) fun _ => rfl
  | 12, h => cases h; exact stored_field (stored_putNat (by decide) v) fun _ => rfl
  | 13, h => cases h; exact stored_field (stored_putNat (by decide) v) fun _ => rfl
  | _ + 14, h => cases h

theorem DoorCfg.stored (c : DoorCfg) (h : Table.door.fields[w]? = some field) :
    putBack DoorCfg.words (c.put w v) = (c.words.set w (field v).1, (field v).2) := by
  match w, h with
  | 0, h => cases h; exact stored_field (stored_putNat (by decide) v) fun _ => rfl
  | 1, h => cases h; exact stored_field (stored_putNat (by decide) v) fun _ => rfl
  | 2, h => cases h; exact stored_field (stored_putNat (by decide) v) fun _ => rfl
  | 3, h => cases h; exact stored_field (stored_putNat (by decide) v) fun _ => rfl
  | 4, h => cases h; exact stored_field (stored_putNat (by decide) v) fun _ => rfl
  | 5, h => cases h; exact stored_field (stored_putNat (by decide) v) fun _ => rfl
  | _ + 6, h => cases h

theorem SourceCfg.stored (c : SourceCfg) (h : sourceFields[w]? = some field) :
    putBack SourceCfg.words (c.put w v) = (c.words.set w (field v).1, (field v).2) := by
  match w, h with
  | 0, h => cases h; exact stored_field (stored_class v) fun _ => rfl
  | 1, h => cases h; exact stored_field (stored_putNat (by decide) v) fun _ => rfl
  | 2, h => cases h; exact stored_field (stored_putStep v) fun _ => rfl
  | 3, h => cases h; exact stored_field (stored_putFlag v) fun _ => rfl
  | _ + 4, h => cases h

theorem LineMapEntry.stored (e : LineMapEntry) (h : Table.linemap.fields[w]? = some field) :
    putBack LineMapEntry.words (e.put w v) = (e.words.set w (field v).1, (field v).2) := by
  match w, h with
  | 0, h => cases h; exact stored_field (code := fun x => x) (stored_putCode v) fun _ => rfl
  | w + 1, h =>
    have stored := e.cfg.stored v h
    exact Prod.ext (congrArg (e.code :: ·) (congrArg Prod.fst stored) :) (congrArg Prod.snd stored :)

theorem PlanStep.stored (p : PlanStep) (h : Table.plan.fields[w]? = some field) :
    putBack PlanStep.words (p.put w v) = (p.words.set w (field v).1, (field v).2) := by
  match w, h with
  | 0, h => cases h; exact stored_field (stored_putFlag v) fun _ => rfl
  | 1, h => cases h; exact stored_field (stored_putFlag v) fun _ => rfl
  | 2, h => cases h; exact stored_field (stored_putStep v) fun _ => rfl
  | 3, h => cases h; exact stored_field (stored_putAnyNat v) fun _ => rfl
  | 4, h => cases h; exact stored_field (stored_endCond v) fun _ => rfl
  | 5, h => cases h; exact stored_field (stored_jet v) fun _ => rfl
  | 6, h => cases h; exact stored_field (stored_direction v) fun _ => rfl
  | 7, h => cases h; exact stored_field (stored_putNat (by decide) v) fun _ => rfl
  | 8, h => cases h; exact stored_field (stored_putAnyInt v) fun _ => rfl
  | 9, h => cases h; exact stored_field (stored_passage v) fun _ => rfl
  | 10, h => cases h; exact stored_field (stored_policy v) fun _ => rfl
  | 11, h => cases h; exact stored_field (stored_policy v) fun _ => rfl
  | 12, h => cases h; exact stored_field (stored_putNat (by decide) v) fun _ => rfl
  | 13, h => cases h; exact stored_field (stored_lamp v) fun _ => rfl
  | 14, h => cases h; exact stored_field (code := fun x => x) (stored_putCode v) fun _ => rfl
  | 15, h => cases h; exact stored_field (stored_putNat (by decide) v) fun _ => rfl
  | 16, h => cases h; exact stored_field (stored_mode v) fun _ => rfl
  | _ + 17, h => cases h

theorem NodeCfg.stored (n : NodeCfg) (h : Table.node.fields[w]? = some field) :
    putBack NodeCfg.words (n.put w v) = (n.words.set w (field v).1, (field v).2) := by
  match w, h with
  | 0, h => cases h; exact stored_field (stored_putNat (by decide) v) fun _ => rfl
  | 1, h => cases h; exact stored_field (stored_putNat (by decide) v) fun _ => rfl
  | 2, h => cases h; exact stored_field (stored_putNat (by decide) v) fun _ => rfl
  | 3, h => cases h; exact stored_field (stored_putNat (by decide) v) fun _ => rfl
  | 4, h => cases h; exact stored_field (stored_putNat (by decide) v) fun _ => rfl
  | 5, h => cases h; exact stored_field (stored_putNat (by decide) v) fun _ => rfl
  | 6, h => cases h; exact stored_field (stored_putFlag v) fun _ => rfl
  | 7, h => cases h; exact stored_field (stored_putNat (by decide) v) fun _ => rfl
  | 8, h => cases h; exact stored_field (stored_putLearnMask v) fun _ => rfl
  | 9, h => cases h; exact stored_field (stored_putNat (by decide) v) fun _ => rfl
  | 10, h => cases h; exact stored_field (stored_putNat (by decide) v) fun _ => rfl
  | 11, h => cases h; exact stored_field (stored_putNat (by decide) v) fun _ => rfl
  | 12, h => cases h; exact stored_field (stored_putNat (by decide) v) fun _ => rfl
  | 13, h => cases h; exact stored_field (stored_putNat (by decide) v) fun _ => rfl
  | 14, h => cases h; exact stored_field (stored_direction v) fun _ => rfl
  | 15, h => cases h; exact stored_field (stored_putNat (by decide) v) fun _ => rfl
  | 16, h => cases h; exact stored_field (stored_putFlag v) fun _ => rfl
  | _ + 17, h => cases h

end

/-! ### The configuration words of a table's entry -/

/-- The configuration words of entry `e` of a table, read from the records. -/
def Records.row (r : Records) (T : Table) (e : Nat) : List Word :=
  match T with
  | .channel => if h : e < 4 then (r.channels ⟨e, h⟩).words else []
  | .terms => if h : e < 32 then r.terms[e].words else []
  | .kind => (r.kinds (kindAt e)).words
  | .fan => if h : e < 3 then (r.fans ⟨e, h⟩).words else []
  | .door => if h : e < 2 then (r.doors ⟨e, h⟩).words else []
  | .source => if h : e < 35 then r.sources[e].words else []
  | .linemap => if h : e < 16 then r.lines[e].words else []
  | .plan => if h : e < 64 then r.plan[e].words else []
  | .node => r.node.words
  | .status => []
  | .tap => []
  | .latch => []
  | .stack => []

theorem fields_length (T : Table) : T.fields.length = T.cfgWords := by
  cases T <;> rfl

theorem cfgWords_le_size (T : Table) : T.cfgWords ≤ T.size := by
  cases T <;> decide

/-- The configuration words stand first in an entry's words (R180). -/
theorem take_entryWords (s : State) (T : Table) {e : Nat} (he : e < T.entries) :
    (s.entryWords T e).take T.cfgWords = s.records.row T e := by
  cases T with
  | channel => simp only [State.entryWords, Records.row, dif_pos (show e < 4 from he)]; rfl
  | terms => simp only [State.entryWords, Records.row, dif_pos (show e < 32 from he)]; rfl
  | fan => simp only [State.entryWords, Records.row, dif_pos (show e < 3 from he)]; rfl
  | door => simp only [State.entryWords, Records.row, dif_pos (show e < 2 from he)]; rfl
  | source => simp only [State.entryWords, Records.row, dif_pos (show e < 35 from he)]; rfl
  | linemap => simp only [State.entryWords, Records.row, dif_pos (show e < 16 from he)]; rfl
  | plan => simp only [State.entryWords, Records.row, dif_pos (show e < 64 from he)]; rfl
  | _ => rfl

theorem length_row (r : Records) (T : Table) {e : Nat} (he : e < T.entries) : (r.row T e).length = T.cfgWords := by
  cases T with
  | channel => simp only [Records.row, dif_pos (show e < 4 from he)]; rfl
  | terms => simp only [Records.row, dif_pos (show e < 32 from he)]; rfl
  | fan => simp only [Records.row, dif_pos (show e < 3 from he)]; rfl
  | door => simp only [Records.row, dif_pos (show e < 2 from he)]; rfl
  | source => simp only [Records.row, dif_pos (show e < 35 from he)]; rfl
  | linemap => simp only [Records.row, dif_pos (show e < 16 from he)]; rfl
  | plan => simp only [Records.row, dif_pos (show e < 64 from he)]; rfl
  | _ => rfl

/-! ### One word stored in a table -/

/-- A record's words stored back where a table shows them: at one entry the new words, elsewhere those kept. -/
theorem stored_row {α β : Type} {words : α → List Word} {back : α → β} {shown : β → List Word} {r : α × Bool}
    {x : List Word × Bool} {old : List Word} {here : Prop} [Decidable here] (stored : putBack words r = x)
    (place : ∀ a, shown (back a) = if here then words a else old) :
    putBack shown (putBack back r) = (if here then x.1 else old, x.2) := by
  subst stored
  exact Prod.ext (place r.1) rfl

/-- The words of an element of a vector with one place stored. -/
theorem words_set {α : Type} {n e e' : Nat} (words : α → List Word) (l : Vector α n) (he : e < n) (he' : e' < n)
    (x : α) : words (l.set e x he)[e'] = if e' = e then words x else words l[e'] := by
  rw [Vector.getElem_set]
  by_cases h : e' = e
  · rw [if_pos h.symm, if_pos h]
  · rw [if_neg (fun q => h q.symm), if_neg h]

theorem kindAt_injective : ∀ e e' : Fin 4, kindAt e' = kindAt e → e' = e := by decide

/-- Within its table a stored word changes its own entry's words, in its place, by its field's clamp. -/
theorem row_putWord (s : State) {T : Table} {e e' w : Nat} {field : Word → Word × Bool} (v : Word) (he : e < T.entries)
    (he' : e' < T.entries) (h : T.fields[w]? = some field) :
    putBack (fun t : State => t.records.row T e') (s.putWord T e w v) =
      (if e' = e then (s.records.row T e).set w (field v).1 else s.records.row T e', (field v).2) := by
  cases T with
  | channel =>
    have stored := (s.channels[e]'he).cfg.stored v h
    simp only [State.putWord, Records.row, dif_pos (show e < 4 from he), dif_pos (show e' < 4 from he')]
    exact stored_row stored fun c =>
      words_set (fun C : Channel => C.cfg.words) s.channels he he' { s.channels[e] with cfg := c }
  | terms =>
    have stored := (s.terms[e]'he).stored v h
    simp only [State.putWord, Records.row, dif_pos (show e < 32 from he), dif_pos (show e' < 32 from he')]
    exact stored_row stored fun x => words_set Term.words s.terms he he' x
  | kind =>
    have stored := (s.kind (kindAt e)).cfg.stored v h
    refine stored_row (shown := fun t : State => (t.kind (kindAt e')).cfg.words) (here := e' = e) stored fun c => ?_
    show ((s.setKind (kindAt e) { s.kind (kindAt e) with cfg := c }).kind (kindAt e')).cfg.words = _
    rw [kind_setKind_eq]
    by_cases same : e' = e
    · rw [if_pos same, if_pos (by rw [same])]
    · have other : kindAt e' ≠ kindAt e := fun q => same (congrArg Fin.val (kindAt_injective ⟨e, he⟩ ⟨e', he'⟩ q))
      rw [if_neg same, if_neg other]
      rfl
  | fan =>
    have record : putBack (fun F : Fan => F.cfg.words) ((s.fans[e]'he).putCfg w v) =
        putBack FanCfg.words ((s.fans[e]'he).cfg.put w v) :=
      Prod.ext (congrArg FanCfg.words (Fan.cfg_putCfg (s.fans[e]'he) w v) :) rfl
    have stored := record.trans ((s.fans[e]'he).cfg.stored v h)
    simp only [State.putWord, Records.row, dif_pos (show e < 3 from he), dif_pos (show e' < 3 from he')]
    exact stored_row stored fun F => words_set (fun F : Fan => F.cfg.words) s.fans he he' F
  | door =>
    have stored := (s.doors[e]'he).cfg.stored v h
    simp only [State.putWord, Records.row, dif_pos (show e < 2 from he), dif_pos (show e' < 2 from he')]
    exact stored_row stored fun c => words_set (fun D : Door => D.cfg.words) s.doors he he' { s.doors[e] with cfg := c }
  | source =>
    have stored := (s.sources[e]'he).stored v h
    simp only [State.putWord, Records.row, dif_pos (show e < 35 from he), dif_pos (show e' < 35 from he')]
    exact stored_row stored fun c => words_set SourceCfg.words s.sources he he' c
  | linemap =>
    have stored := (s.lines[e]'he).stored v h
    simp only [State.putWord, Records.row, dif_pos (show e < 16 from he), dif_pos (show e' < 16 from he')]
    exact stored_row stored fun x => words_set LineMapEntry.words s.lines he he' x
  | plan =>
    have stored := (s.plan[e]'he).stored v h
    simp only [State.putWord, Records.row, dif_pos (show e < 64 from he), dif_pos (show e' < 64 from he')]
    exact stored_row stored fun p => words_set PlanStep.words s.plan he he' p
  | node =>
    have one : e' = e := by
      have a : e < 1 := he
      have b : e' < 1 := he'
      omega
    refine stored_row (back := fun n : NodeCfg => { s with node := n }) (shown := fun t : State => t.node.words)
      (here := e' = e) (s.node.stored v h) fun n => ?_
    rw [if_pos one]
  | _ => cases h

/-- A stored word changes no word of another table. -/
theorem row_putWord_other (s : State) {T T' : Table} (ne : T' ≠ T) (e w : Nat) (v : Word) (e' : Nat) :
    (s.putWord T e w v).1.records.row T' e' = s.records.row T' e' := by
  have kinds : ∀ k K, T' ≠ .kind → (s.setKind k K).records.row T' e' = s.records.row T' e' := by
    intro k K ne
    cases k <;> cases T' <;> first | rfl | exact absurd rfl ne
  cases T with
  | kind => exact kinds _ _ ne
  | node => cases T' <;> first | rfl | exact absurd rfl ne
  | status | tap | latch | stack => rfl
  | _ =>
    unfold State.putWord
    dsimp only
    split
    · cases T' <;> first | rfl | exact absurd rfl ne
    · rfl

/-! ### Word addresses (R170) -/

theorem address_entry {T : Table} {e w : Nat} (hw : w < T.size) : (T.size * e + w) / T.size = e := by
  rw [Nat.mul_add_div (by omega), Nat.div_eq_of_lt hw, Nat.add_zero]

theorem address_word {T : Table} {e w : Nat} (hw : w < T.size) : (T.size * e + w) % T.size = w := by
  rw [Nat.mul_add_mod, Nat.mod_eq_of_lt hw]

theorem putTableWord_cfg (s : State) {T : Table} (e : Nat) {w : Nat} (hw : w < T.cfgWords) (v : Word) :
    s.putTableWord T (T.size * e + w) v = s.putWord T e w v := by
  have size := Nat.lt_of_lt_of_le hw (cfgWords_le_size T)
  unfold State.putTableWord
  rw [address_word size, address_entry size, if_pos hw]

/-- A live word, or one of a read-only table, is left unchanged (R172). -/
theorem putTableWord_live (s : State) {T : Table} (e : Nat) {w : Nat} (live : T.cfgWords ≤ w) (hw : w < T.size)
    (v : Word) : s.putTableWord T (T.size * e + w) v = (s, false) := by
  unfold State.putTableWord
  rw [address_word hw, if_neg (by omega)]

theorem tableWord_row (s : State) {T : Table} {e w : Nat} (he : e < T.entries) (hw : w < T.cfgWords) :
    s.tableWord T (T.size * e + w) = (s.records.row T e).getD w 0 := by
  have size := Nat.lt_of_lt_of_le hw (cfgWords_le_size T)
  unfold State.tableWord
  rw [address_word size, address_entry size, ← take_entryWords s T he, List.getD_eq_getElem?_getD,
    List.getD_eq_getElem?_getD, List.getElem?_take_of_lt hw]

/-- Settles O27: one word stored changes one word of one row, and the words of a WRITE are stored in turn. -/
theorem numericFieldsClampToTheirRanges : Obligations.NumericFieldsClampToTheirRanges := by
  refine ⟨fun s T e w field v he h => ?_, fun s T e w v live hw => ?_, fun s T a => ⟨rfl, fun v vs => rfl⟩⟩
  · have hw : w < T.cfgWords := fields_length T ▸ (List.getElem?_eq_some_iff.mp h).1
    rw [putTableWord_cfg s e hw v]
    have row : ∀ e' < T.entries, (s.putWord T e w v).1.records.row T e' =
        if e' = e then (s.records.row T e).set w (field v).1 else s.records.row T e' :=
      fun e' he' => congrArg Prod.fst (row_putWord s v he he' h)
    refine ⟨congrArg Prod.snd (row_putWord s v he he h), ?_, fun T' e' w' he' hw' elsewhere => ?_⟩
    · rw [tableWord_row _ he hw, row e he, if_pos rfl, List.getD_eq_getElem?_getD,
        List.getElem?_set_self (by rwa [length_row _ T he]), Option.getD_some]
    · rw [fields_length] at hw'
      rw [tableWord_row _ he' hw', tableWord_row _ he' hw']
      by_cases table : T' = T
      · subst table
        rw [row e' he']
        by_cases entry : e' = e
        · subst entry
          have word : w ≠ w' := fun q => elsewhere ⟨rfl, rfl, q.symm⟩
          rw [if_pos rfl, List.getD_eq_getElem?_getD, List.getD_eq_getElem?_getD, List.getElem?_set_ne word]
        · rw [if_neg entry]
      · rw [row_putWord_other s table]
  · exact putTableWord_live s e (fields_length T ▸ live) hw v

end Sys2Proof.Machine
end

