-- ==== Sys2Proof/Proofs/PortLaw.lean ====
section
/-! PROOFS. Proofs/PortLaw.lean: what an offer and a grant decision do to one port: they leave its supervision alone, their
queues come from the old ones, and they keep the laws of the port. -/

namespace Sys2Proof.Machine

/-! ### One queue of a port set -/

theorem LinePort.queue_setQueue (P : LinePort) (q r : QueueId) (l : List Queued) :
    (P.setQueue q l).queue r = if r = q then l else P.queue r := by
  cases q <;> cases r <;> rfl

section
variable (P : LinePort) (q : QueueId) (l : List Queued)

@[simp] theorem LinePort.setQueue_state : (P.setQueue q l).state = P.state := by cases q <;> rfl
@[simp] theorem LinePort.setQueue_isUp : (P.setQueue q l).isUp = P.isUp := by cases q <;> rfl
@[simp] theorem LinePort.setQueue_probe : (P.setQueue q l).probe = P.probe := by cases q <;> rfl
@[simp] theorem LinePort.setQueue_linkTimer : (P.setQueue q l).linkTimer = P.linkTimer := by cases q <;> rfl
@[simp] theorem LinePort.setQueue_fillTimer : (P.setQueue q l).fillTimer = P.fillTimer := by cases q <;> rfl
@[simp] theorem LinePort.setQueue_tx : (P.setQueue q l).tx = P.tx := by cases q <;> rfl

end

/-! ### The search and the grant (R50 to R52) -/

theorem LinePort.eligible_iff (P : LinePort) (q : QueueId) : P.eligible q = true ↔ P.queue q ≠ [] := by
  simp [LinePort.eligible]

theorem LinePort.lowChoice_none {P : LinePort} (h : P.lowChoice = none) : P.rl = [] ∧ P.ll = [] := by
  unfold LinePort.lowChoice at h
  cases hl : P.low with
  | rl => simpa [hl, LinePort.eligible, LinePort.queue, ite_eq_iff] using h
  | ll => simpa [hl, LinePort.eligible, LinePort.queue, ite_eq_iff, and_comm] using h

theorem LinePort.memberChoice_none {P : LinePort} {m : HighMember} (h : P.memberChoice m = none) :
    match m with
    | .rh => P.rh = []
    | .lh => P.lh = []
    | .lowGroup => P.rl = [] ∧ P.ll = [] := by
  cases m with
  | lowGroup => exact LinePort.lowChoice_none h
  | _ => simpa [LinePort.memberChoice, LinePort.eligible, LinePort.queue] using h

/-- A search that finds no head finds every queue empty. -/
theorem LinePort.choice_none {P : LinePort} (h : P.choice = none) (q : QueueId) : P.queue q = [] := by
  unfold LinePort.choice at h
  rw [Option.or_eq_none_iff, Option.or_eq_none_iff] at h
  obtain ⟨first, second, third⟩ := h
  have each : ∀ m, P.memberChoice m = none := by
    intro m
    cases hm : P.high <;> rw [hm] at first second third <;> cases m <;> assumption
  cases q with
  | rh => exact LinePort.memberChoice_none (each .rh)
  | lh => exact LinePort.memberChoice_none (each .lh)
  | rl => exact (LinePort.memberChoice_none (each .lowGroup)).1
  | ll => exact (LinePort.memberChoice_none (each .lowGroup)).2

theorem LinePort.lowChoice_some {P : LinePort} {q : QueueId} (h : P.lowChoice = some q) : P.queue q ≠ [] := by
  unfold LinePort.lowChoice at h
  rw [← LinePort.eligible_iff]
  split at h <;> split at h
  · cases h; assumption
  · split at h <;> cases h; assumption
  · cases h; assumption
  · split at h <;> cases h; assumption

theorem LinePort.memberChoice_some {P : LinePort} {m : HighMember} {q : QueueId} (h : P.memberChoice m = some q) :
    P.queue q ≠ [] := by
  cases m with
  | lowGroup => exact LinePort.lowChoice_some h
  | _ =>
    rw [← LinePort.eligible_iff]
    unfold LinePort.memberChoice at h
    dsimp only at h
    split at h <;> cases h
    assumption

/-- A search grants a queue that holds a frame. -/
theorem LinePort.choice_some {P : LinePort} {q : QueueId} (h : P.choice = some q) : P.queue q ≠ [] := by
  unfold LinePort.choice at h
  rw [Option.or_eq_some_iff, Option.or_eq_some_iff] at h
  rcases h with h | ⟨-, h | ⟨-, h⟩⟩ <;> exact LinePort.memberChoice_some h

theorem LinePort.grantFrom_cons {P : LinePort} {q : QueueId} {x : Queued} {rest : List Queued}
    (h : P.queue q = x :: rest) : P.grantFrom q =
      { P.setQueue q rest with
        tx := some x.frame, fillTimer := none, high := highAfter q, low := lowAfter P.low q } := by
  unfold LinePort.grantFrom
  rw [h]

/-- The three outcomes of a grant decision (R48, R50): none is made, no head is left, or a head is granted. -/
theorem LinePort.decide_cases (P : LinePort) (now limit : Nat) :
    (¬ (P.isUp = true ∧ P.tx = none) ∧ P.decide now limit = P) ∨
    (P.tx = none ∧ (P.ageHeads now limit).choice = none ∧ P.decide now limit = P.ageHeads now limit) ∨
    ∃ q x rest, (P.ageHeads now limit).queue q = x :: rest ∧
      P.decide now limit =
        { (P.ageHeads now limit).setQueue q rest with
          tx := some x.frame, fillTimer := none, high := highAfter q, low := lowAfter P.low q } := by
  unfold LinePort.decide
  split
  · rename_i idle
    cases hc : (P.ageHeads now limit).choice with
    | none => exact .inr (.inl ⟨idle.2, rfl, by simp only [hc]⟩)
    | some q =>
      obtain ⟨x, rest, hq⟩ := List.exists_cons_of_ne_nil (LinePort.choice_some hc)
      exact .inr (.inr ⟨q, x, rest, hq, by simp only [hc]; exact LinePort.grantFrom_cons hq⟩)
  · rename_i busy; exact .inl ⟨busy, rfl⟩

theorem LinePort.ageHeads_queue (P : LinePort) (now limit : Nat) (q : QueueId) :
    ((P.ageHeads now limit).queue q).Sublist (P.queue q) := by
  cases q with
  | rh => exact .refl _
  | lh => exact .refl _
  | rl => exact List.dropWhile_sublist _
  | ll => exact List.dropWhile_sublist _

/-- A grant decision takes frames out of queues and puts none in. -/
theorem LinePort.decide_queue (P : LinePort) (now limit : Nat) (q : QueueId) :
    ((P.decide now limit).queue q).Sublist (P.queue q) := by
  rcases P.decide_cases now limit with ⟨-, e⟩ | ⟨-, -, e⟩ | ⟨r, x, rest, hr, e⟩
  · rw [e]
  · rw [e]; exact P.ageHeads_queue now limit q
  · have granted : (P.decide now limit).queue q = ((P.ageHeads now limit).setQueue r rest).queue q := by
      rw [e]; cases q <;> rfl
    rw [granted, LinePort.queue_setQueue]
    split
    · rename_i same
      subst same
      exact (hr ▸ List.sublist_cons_self x rest).trans (P.ageHeads_queue now limit q)
    · exact P.ageHeads_queue now limit q

theorem SameLink.refl (P : LinePort) : SameLink P P := ⟨rfl, rfl, rfl⟩

theorem SameLink.trans {P Q R : LinePort} (h : SameLink P Q) (g : SameLink Q R) : SameLink P R :=
  ⟨g.state.trans h.state, g.probe.trans h.probe, g.linkTimer.trans h.linkTimer⟩

theorem SameLink.isUp {P Q : LinePort} (h : SameLink P Q) : Q.isUp = P.isUp := by
  unfold LinePort.isUp; rw [h.state]

theorem LinePort.setQueue_sameLink (P : LinePort) (q : QueueId) (l : List Queued) : SameLink P (P.setQueue q l) :=
  ⟨by simp, by simp, by simp⟩

/-- A grant decision leaves the supervision of its port alone. -/
theorem LinePort.decide_sameLink (P : LinePort) (now limit : Nat) : SameLink P (P.decide now limit) := by
  rcases P.decide_cases now limit with ⟨-, e⟩ | ⟨-, -, e⟩ | ⟨q, x, rest, -, e⟩
  · rw [e]; exact .refl P
  · rw [e]; exact ⟨rfl, rfl, rfl⟩
  · rw [e]
    obtain ⟨state, probe, timer⟩ := (P.ageHeads now limit).setQueue_sameLink q rest
    exact ⟨state, probe, timer⟩

/-! ### An assigned frame (R42, R45) -/

theorem dropOldestSample_sublist : ∀ l : List Queued, (dropOldestSample l).Sublist l
  | [] => .slnil
  | x :: xs => by
    unfold dropOldestSample
    split
    · exact List.sublist_cons_self x xs
    · exact (dropOldestSample_sublist xs).cons_cons x

theorem length_dropOldestSample : ∀ l : List Queued, l.any (fun y => isSample y.frame) = true →
    (dropOldestSample l).length + 1 = l.length
  | [], h => by simp at h
  | x :: xs, h => by
    unfold dropOldestSample
    split
    · rfl
    · rename_i hx
      rw [List.any_cons, Bool.or_eq_true] at h
      rw [List.length_cons, List.length_cons, length_dropOldestSample xs (h.resolve_left hx)]

/-- The queue after an append holds old frames and the new one, and keeps its capacity (R38). -/
theorem assign_appended {q : QueueId} {x : Queued} {l l' : List Queued} (h : assign q x l = (l', .appended))
    (bounded : l.length ≤ q.capacity) : l'.length ≤ q.capacity ∧ ∀ y ∈ l', y ∈ l ∨ y = x := by
  unfold assign at h
  split at h
  · rename_i room
    obtain rfl := (Prod.mk.inj h).1
    exact ⟨by simpa using room, by simp⟩
  · split at h
    · cases h
    · split at h
      · rename_i displaced
        obtain rfl := (Prod.mk.inj h).1
        have shorter := length_dropOldestSample l (Bool.and_eq_true_iff.mp displaced).2
        refine ⟨by simp; omega, fun y hy => ?_⟩
        rcases List.mem_append.mp hy with old | new
        · exact .inl ((dropOldestSample_sublist l).subset old)
        · exact .inr (List.mem_singleton.mp new)
      · cases h

/-! ### The laws of a port -/

/-- The laws of a port but for the arbiter's, which a grant decision restores. -/
structure LinePort.Orderly (P : LinePort) : Prop where
  probe : P.state.probes P.probe = true
  link : P.linkTimer.isSome = (P.state != .down)
  fill : P.fillTimer.isSome = P.tx.isNone
  bounded : ∀ q, (P.queue q).length ≤ q.capacity
  kinds : ∀ q x, x ∈ P.queue q → q.mayHold x.frame = true
  quiet : P.isUp = false → ∀ q, P.queue q = []

theorem LinePort.Lawful.orderly {P : LinePort} (h : P.Lawful) : P.Orderly :=
  ⟨h.probe, h.link, h.fill, h.bounded, h.kinds, h.quiet⟩

theorem LinePort.Orderly.lawful {P : LinePort} (h : P.Orderly) (idle : P.tx = none → ∀ q, P.queue q = []) : P.Lawful :=
  ⟨h.probe, h.link, h.fill, h.bounded, h.kinds, h.quiet, idle⟩

/-- After a grant decision the fill timer still runs exactly while the transmitter is idle (R24). -/
theorem LinePort.decide_fill {P : LinePort} (h : P.fillTimer.isSome = P.tx.isNone) (now limit : Nat) :
    (P.decide now limit).fillTimer.isSome = (P.decide now limit).tx.isNone := by
  rcases P.decide_cases now limit with ⟨-, e⟩ | ⟨-, -, e⟩ | ⟨q, x, rest, -, e⟩
  · rw [e]; exact h
  · rw [e]; exact h
  · rw [e]; rfl

/-- A grant decision leaves no frame waiting behind an idle transmitter (R42, R50). -/
theorem LinePort.decide_idle {P : LinePort} (quiet : P.isUp = false → ∀ q, P.queue q = []) (now limit : Nat)
    (h : (P.decide now limit).tx = none) (q : QueueId) : (P.decide now limit).queue q = [] := by
  rcases P.decide_cases now limit with ⟨notIdle, e⟩ | ⟨-, empty, e⟩ | ⟨r, x, rest, -, e⟩
  · rw [e] at h ⊢
    exact quiet (Bool.eq_false_of_not_eq_true fun up => notIdle ⟨up, h⟩) q
  · rw [e]; exact LinePort.choice_none empty q
  · rw [e] at h; cases h

/-- A grant decision makes an orderly port lawful. -/
theorem LinePort.Orderly.decide {P : LinePort} (h : P.Orderly) (now limit : Nat) : (P.decide now limit).Lawful where
  probe := by
    have link := P.decide_sameLink now limit
    rw [link.state, link.probe]; exact h.probe
  link := by
    have link := P.decide_sameLink now limit
    rw [link.state, link.linkTimer]; exact h.link
  fill := LinePort.decide_fill h.fill now limit
  bounded q := (P.decide_queue now limit q).length_le.trans (h.bounded q)
  kinds q x hx := h.kinds q x ((P.decide_queue now limit q).subset hx)
  quiet down q := List.sublist_nil.mp (h.quiet ((P.decide_sameLink now limit).isUp ▸ down) q ▸ P.decide_queue now limit q)
  idle := LinePort.decide_idle h.quiet now limit

/-- A queue of an UP port replaced by one of its capacity and kinds. -/
theorem LinePort.Orderly.setQueue {P : LinePort} (h : P.Orderly) (up : P.isUp = true) {q : QueueId} {l : List Queued}
    (bounded : l.length ≤ q.capacity) (kinds : ∀ x ∈ l, q.mayHold x.frame = true) : (P.setQueue q l).Orderly where
  probe := by simpa using h.probe
  link := by simpa using h.link
  fill := by simpa using h.fill
  bounded r := by
    rw [LinePort.queue_setQueue]
    split
    · rename_i e; exact e ▸ bounded
    · exact h.bounded r
  kinds r x hx := by
    rw [LinePort.queue_setQueue] at hx
    split at hx
    · rename_i e; exact e ▸ kinds x hx
    · exact h.kinds r x hx
  quiet down := by rw [LinePort.setQueue_isUp, up] at down; cases down

/-! ### Offers -/

theorem PortMove.sameLink {now limit : Nat} {P Q : LinePort} (h : PortMove now limit P Q) : SameLink P Q := by
  cases h with
  | append q f l up hq ha => exact (P.setQueue_sameLink q l).trans (LinePort.decide_sameLink _ now limit)

theorem PortMove.lawful {now limit : Nat} {P Q : LinePort} (h : PortMove now limit P Q) (hP : P.Lawful) : Q.Lawful := by
  cases h with
  | append q f l up hq ha =>
    obtain ⟨bounded, origin⟩ := assign_appended ha (hP.bounded q)
    refine (hP.orderly.setQueue up bounded fun x hx => ?_).decide now limit
    rcases origin x hx with old | rfl
    · exact hP.kinds q x old
    · exact hq

theorem PortReach.sameLink {now limit : Nat} {P Q : LinePort} (h : PortReach now limit P Q) : SameLink P Q := by
  induction h with
  | refl => exact .refl P
  | tail _ move ih => exact ih.trans move.sameLink

theorem PortReach.lawful {now limit : Nat} {P Q : LinePort} (h : PortReach now limit P Q) (hP : P.Lawful) : Q.Lawful := by
  induction h with
  | refl => exact hP
  | tail _ move ih => exact move.lawful ih

/-- A port that is not UP takes no frame (R39). -/
theorem PortReach.eq_of_down {now limit : Nat} {P Q : LinePort} (h : PortReach now limit P Q) (down : P.isUp = false) :
    Q = P := by
  induction h with
  | refl => rfl
  | tail _ move ih =>
    subst ih
    cases move with
    | append q f l up => rw [down] at up; cases up

end Sys2Proof.Machine
end

