-- ==== Sys2Proof/Proofs/StepForm.lean ====
section
/-! PROOFS. Proofs/StepForm.lean: every command keeps the serial memory's canonical form, the phase of the node clock and the
laws of the line. The line's laws are a matter of the ports and of the two LINK_x_DOWN entries, which supervision and the
resets alone touch; every other operation reaches the ports by offers. -/

namespace Sys2Proof.Machine

/-! ### What a part of a step keeps -/

/-- The laws that this file is about go from s to t. -/
structure State.KeepsForm (s t : State) : Prop where
  serial : s.serial.wf = true → t.serial.wf = true
  msPhase : s.msPhase < 1000 → t.msPhase < 1000
  line : s.LineLaw → t.LineLaw

/-- Every entry but LINK_A_DOWN and LINK_B_DOWN. -/
abbrev notLinkDown (n : EntryId) : Prop := 2 ≤ n.val

theorem srcLinkDown_excluded (p : Port) : ¬ notLinkDown (srcLinkDown p) := by cases p <;> decide

theorem settleSide_notLinkDown {n : EntryId} (h : settleSide n) : notLinkDown n := by
  rcases h with rfl | rfl | rfl | rfl <;> decide

theorem srcOverrun_notLinkDown : notLinkDown srcOverrun := by decide

theorem State.port_congr {s t : State} (h : t.ports = s.ports) (p : Port) : t.port p = s.port p := by
  cases p <;> simp only [State.port, h]

/-- Consequences that touch no LINK_x_DOWN entry keep the laws of the line. -/
theorem State.LineLaw.of_consequence {E : EntryId → Prop} {s t : State} (h : s.LineLaw) (g : Consequence E s t)
    (hE : ∀ p, ¬ E (srcLinkDown p)) : t.LineLaw := fun p =>
  ⟨(g.ports p).lawful (h p).1, by rw [(g.latch _ (hE p)).asserted, (h p).2, (g.ports p).sameLink.isUp]⟩

/-- A port set to a lawful value, and consequences after it that leave its LINK_x_DOWN entry as it should stand. -/
theorem State.LineLaw.of_setPort {E : EntryId → Prop} {s t : State} {p : Port} {P : LinePort} (h : s.LineLaw)
    (hP : P.Lawful) (g : Consequence E (s.setPort p P) t) (hE : ∀ r, r ≠ p → ¬ E (srcLinkDown r))
    (asserted : t.latch[srcLinkDown p].asserted = !P.isUp) : t.LineLaw := fun r => by
  have reach := g.ports r
  rw [port_setPort_eq] at reach
  by_cases e : r = p
  · subst e
    rw [if_pos rfl] at reach
    exact ⟨reach.lawful hP, by rw [asserted, reach.sameLink.isUp]⟩
  · rw [if_neg e] at reach
    refine ⟨reach.lawful (h r).1, ?_⟩
    rw [(g.latch _ (hE r e)).asserted, setPort_latch, (h r).2, reach.sameLink.isUp]

theorem Consequence.msPhase {E : EntryId → Prop} {s t : State} (h : Consequence E s t) : t.msPhase = s.msPhase :=
  (congrArg State.msPhase h.still : t.still.msPhase = s.still.msPhase)

namespace State.KeepsForm

variable {s t r : State}

theorem refl (s : State) : s.KeepsForm s := ⟨id, id, id⟩

theorem trans (h : s.KeepsForm t) (g : t.KeepsForm r) : s.KeepsForm r :=
  ⟨g.serial ∘ h.serial, g.msPhase ∘ h.msPhase, g.line ∘ h.line⟩

theorem of_asserted (serial : t.serial = s.serial) (msPhase : t.msPhase = s.msPhase) (ports : t.ports = s.ports)
    (asserted : ∀ p, t.latch[srcLinkDown p].asserted = s.latch[srcLinkDown p].asserted) : s.KeepsForm t where
  serial := serial ▸ id
  msPhase := msPhase ▸ id
  line law p := by
    rw [State.port_congr ports p]
    exact ⟨(law p).1, (asserted p).trans (law p).2⟩

/-- An update of nothing that those laws read. -/
theorem of_untouched (serial : t.serial = s.serial) (msPhase : t.msPhase = s.msPhase) (ports : t.ports = s.ports)
    (latch : t.latch = s.latch) : s.KeepsForm t :=
  of_asserted serial msPhase ports fun p => by rw [latch]

/-- Such an update, and what comes after it. -/
theorem after (h : t.KeepsForm r) (serial : t.serial = s.serial) (msPhase : t.msPhase = s.msPhase)
    (ports : t.ports = s.ports) (latch : t.latch = s.latch) : s.KeepsForm r :=
  (of_untouched serial msPhase ports latch).trans h

theorem of_consequence (h : Consequence notLinkDown s t) : s.KeepsForm t where
  serial := h.serial ▸ id
  msPhase := h.msPhase ▸ id
  line law := law.of_consequence h srcLinkDown_excluded

/-- A change of one port with what follows it keeps the form when it keeps the laws of the line. -/
theorem of_setPort {E : EntryId → Prop} {p : Port} {P : LinePort} (h : Consequence E (s.setPort p P) t)
    (line : s.LineLaw → t.LineLaw) : s.KeepsForm t where
  serial := by rw [h.serial, setPort_serial]; exact id
  msPhase := by
    have phase : t.msPhase = (s.setPort p P).msPhase := h.msPhase
    rw [phase, setPort_msPhase]; exact id
  line := line

theorem foldl {α : Type} (update : State → α → State) (h : ∀ (s : State) (a : α), s.KeepsForm (update s a)) :
    ∀ (l : List α) (s : State), s.KeepsForm (l.foldl update s)
  | [], s => refl s
  | a :: l, s => (h s a).trans (foldl update h l (update s a))

/-- A change that a condition holds off. -/
theorem heldOff (h : s.KeepsForm t) (b : Prop) [Decidable b] : s.KeepsForm (if b then s else t) := by
  split
  · exact refl s
  · exact h

/-- A change that a condition calls for. -/
theorem calledFor (h : s.KeepsForm t) (b : Prop) [Decidable b] : s.KeepsForm (if b then t else s) := by
  split
  · exact h
  · exact refl s

end State.KeepsForm

open State.KeepsForm (of_untouched of_consequence)

/-! ### Occurrences, frames and the plan unit -/

section
variable (s : State)

theorem occur_keepsForm {n : EntryId} (hn : notLinkDown n) : s.KeepsForm (s.occur n) :=
  of_consequence (occur_consequence srcOverrun_notLinkDown s n hn)

theorem occurFrom_keepsForm {n : EntryId} (o : Nat) (hn : notLinkDown n) : s.KeepsForm (s.occurFrom n o) :=
  of_consequence (occurFrom_consequence srcOverrun_notLinkDown s n o hn)

theorem clearWithCode_keepsForm {n : EntryId} (code : Word) (hn : notLinkDown n) : s.KeepsForm (s.clearWithCode n code) :=
  of_consequence (clearWithCode_consequence srcOverrun_notLinkDown s n code hn)

theorem clearSource_keepsForm {n : EntryId} (hn : notLinkDown n) : s.KeepsForm (s.clearSource n) :=
  clearWithCode_keepsForm s _ hn

theorem follow_keepsForm {n : EntryId} (was is : Bool) (hn : notLinkDown n) : s.KeepsForm (s.follow n was is) :=
  of_consequence (follow_consequence srcOverrun_notLinkDown s n was is hn)

theorem occurIf_keepsForm {n : EntryId} (b : Bool) (hn : notLinkDown n) : s.KeepsForm (s.occurIf n b) := by
  cases b
  · exact .refl s
  · exact occur_keepsForm s hn

theorem offer_keepsForm (p : Port) {q : QueueId} {f : Frame} (hq : q.mayHold f = true) :
    s.KeepsForm (s.offer p q f).1 :=
  of_consequence (offer_consequence _ s p q f hq)

theorem relay_keepsForm (p : Port) {f : Frame} (hf : f ≠ .fill) : s.KeepsForm (s.relay p f) :=
  of_consequence (relay_consequence srcOverrun_notLinkDown s p f hf)

theorem settle_keepsForm : s.KeepsForm s.settle :=
  of_consequence ((settle_consequence s).mono fun _ => settleSide_notLinkDown)

theorem renew_keepsForm : s.KeepsForm s.renew := of_consequence (renew_consequence _ s)

theorem handOff_keepsForm : s.KeepsForm s.handOff := of_consequence (handOff_consequence _ s)

theorem reformJet_keepsForm (f : FanId) : s.KeepsForm (s.reformJet f) := of_consequence (reformJet_consequence _ s f)

theorem reformPassage_keepsForm : s.KeepsForm s.reformPassage := of_consequence (reformPassage_consequence _ s)

theorem passageFollows_keepsForm (was is : Bool) : s.KeepsForm (s.passageFollows was is) :=
  of_consequence (passageFollows_consequence _ s was is)

theorem setChannel_keepsForm (c : ChannelId) (C : Channel) : s.KeepsForm (s.setChannel c C) := of_untouched rfl rfl rfl rfl

theorem setFan_keepsForm (f : FanId) (F : Fan) : s.KeepsForm (s.setFan f F) := of_untouched rfl rfl rfl rfl

theorem setDoor_keepsForm (d : DoorId) (D : Door) : s.KeepsForm (s.setDoor d D) := of_untouched rfl rfl rfl rfl

theorem setKind_keepsForm (k : Kind) (K : KindUnit) : s.KeepsForm (s.setKind k K) := by
  cases k <;> exact of_untouched rfl rfl rfl rfl

theorem markDirty_keepsForm (g : Fin 15) : s.KeepsForm (s.markDirty g) := of_untouched rfl rfl rfl rfl

theorem withTap_keepsForm (tap : TapCache) : s.KeepsForm { s with tap := tap } := of_untouched rfl rfl rfl rfl

theorem withAgeing_keepsForm (timer : Timer) (tap : TapCache) : s.KeepsForm { s with ageTimer := timer, tap := tap } :=
  of_untouched rfl rfl rfl rfl

theorem withTaplock_keepsForm (tap : TapCache) (dirty : Vector Bool 15) :
    s.KeepsForm { s with tap := tap, dirty := dirty } := of_untouched rfl rfl rfl rfl

theorem withLatch_keepsForm (latch : Vector LatchEntry 51) (due : Bool)
    (h : ∀ p, latch[srcLinkDown p].asserted = s.latch[srcLinkDown p].asserted) :
    s.KeepsForm { s with latch := latch, decisionDue := due } := .of_asserted rfl rfl rfl h

theorem withPlan_keepsForm (plan : Vector PlanStep 64) : s.KeepsForm { s with plan := plan } :=
  of_untouched rfl rfl rfl rfl

theorem withDecision_keepsForm (due : Bool) : s.KeepsForm { s with decisionDue := due } := of_untouched rfl rfl rfl rfl

theorem withDirty_keepsForm (dirty : Vector Bool 15) : s.KeepsForm { s with dirty := dirty } :=
  of_untouched rfl rfl rfl rfl

theorem withFailing_keepsForm (dirty : Vector Bool 15) (g : Nat) :
    s.KeepsForm { s with dirty := dirty, lastFailing := g } := of_untouched rfl rfl rfl rfl

theorem withLoad_keepsForm (l : LoadState) (n : NodeState) : s.KeepsForm { s with loading := l, nodeState := n } :=
  of_untouched rfl rfl rfl rfl

/-! ### Supervision -/

theorem LinePort.Lawful.afterGood {P : LinePort} (h : P.Lawful) (timer : Nat) :
    LinePort.Lawful
      { P with state := P.afterGood.1, probe := P.afterGood.2, linkTimer := some timer } where
  probe := by
    have probes := h.probe
    unfold LinePort.afterGood
    cases hs : P.state <;> rw [hs] at probes
    · rfl
    · dsimp only
      split
      · rfl
      · simp only [PortState.probes, Bool.or_eq_true, beq_iff_eq] at probes ⊢; omega
    · exact probes
  link := by
    unfold LinePort.afterGood
    cases P.state
    · rfl
    · dsimp only; split <;> rfl
    · rfl
  fill := h.fill
  bounded := h.bounded
  kinds := h.kinds
  quiet down := h.quiet (by
    cases hs : P.state <;> simp_all [LinePort.isUp, LinePort.afterGood])
  idle := h.idle

theorem LinePort.Lawful.toDown {P : LinePort} (h : P.Lawful) (quiet : P.isUp = false) : P.toDown.Lawful where
  probe := rfl
  link := rfl
  fill := h.fill
  bounded := h.bounded
  kinds := h.kinds
  quiet _ := h.quiet quiet
  idle := h.idle

theorem LinePort.emptied_queue (P : LinePort) (q : QueueId) : P.emptied.queue q = [] := by cases q <;> rfl

theorem LinePort.Lawful.lost {P : LinePort} (h : P.Lawful) : P.toDown.emptied.Lawful where
  probe := rfl
  link := rfl
  fill := h.fill
  bounded q := by rw [LinePort.emptied_queue]; exact Nat.zero_le _
  kinds q x hx := by rw [LinePort.emptied_queue] at hx; cases hx
  quiet _ := LinePort.emptied_queue _
  idle _ := LinePort.emptied_queue _

/-- A port that leaves UP or enters it with its LINK_x_DOWN entry, and no other entry but QUEUE_OVERRUN. -/
def linkOf (p : Port) (n : EntryId) : Prop := n = srcLinkDown p ∨ n = srcOverrun

theorem linkOf_other {p r : Port} (h : r ≠ p) : ¬ linkOf p (srcLinkDown r) := by
  unfold linkOf
  match p, r with
  | .a, .a | .b, .b => exact absurd rfl h
  | .a, .b | .b, .a => decide

/-- What a good frame does to a port: its new supervision, and the clearing of LINK_x_DOWN at entry to UP (R21, R23). -/
theorem superviseGood_consequence (p : Port) :
    Consequence (linkOf p)
      (s.setPort p { s.port p with
        state := (s.port p).afterGood.1, probe := (s.port p).afterGood.2, linkTimer := s.startMs s.node.linkTimeout })
      (s.superviseGood p) := by
  unfold State.superviseGood
  dsimp only
  split
  · exact clearSource_consequence (.inr rfl) _ _ (.inl rfl)
  · exact .refl _ _

theorem superviseGood_keepsForm (p : Port) : s.KeepsForm (s.superviseGood p) := by
  refine .of_setPort (superviseGood_consequence s p) fun h =>
    h.of_setPort ((h p).1.afterGood _) (superviseGood_consequence s p) (fun r => linkOf_other) ?_
  unfold State.superviseGood
  dsimp only
  split
  · rename_i entered
    rw [State.clearSource, clearWithCode_asserted _ _ _ (by cases p <;> decide)]
    simp [LinePort.isUp, entered.2]
  · rename_i stays
    simp only [setPort_latch, (h p).2]
    cases hs : (s.port p).state <;> simp_all [LinePort.isUp, LinePort.afterGood]

theorem linkExpired_keepsForm (p : Port) : s.KeepsForm (s.linkExpired p) := by
  unfold State.linkExpired
  dsimp only
  split
  · exact .refl s
  · split
    · have lost := occur_consequence (E := linkOf p) (.inr rfl) (s.setPort p (s.port p).toDown.emptied) _ (.inl rfl)
      refine .of_setPort lost fun h => h.of_setPort (h p).1.lost lost (fun r => linkOf_other) ?_
      rw [State.occur, (occurFrom_counted _ _ _ (by cases p <;> decide)).asserted]
      cases p <;> rfl
    · rename_i down
      have down := Bool.eq_false_of_not_eq_true down
      refine .of_setPort (.refl (linkOf p) _) fun h =>
        h.of_setPort ((h p).1.toDown down) (.refl (linkOf p) _) (fun r => linkOf_other) ?_
      rw [setPort_latch, (h p).2, down]
      rfl

theorem badFrame_keepsForm (p : Port) : s.KeepsForm (s.badFrame p) := by
  have error : notLinkDown (srcLinkError p) := by cases p <;> decide
  unfold State.badFrame
  dsimp only
  refine .trans ?_ (occur_keepsForm _ error)
  split
  · rename_i probing
    have down : (s.port p).isUp = false := by simp [LinePort.isUp, probing]
    refine .of_setPort (.refl (linkOf p) _) fun h =>
      h.of_setPort ((h p).1.toDown down) (.refl (linkOf p) _) (fun r => linkOf_other) ?_
    rw [setPort_latch, (h p).2, down]
    rfl
  · exact .refl s

theorem goodUp_keepsForm (p : Port) (dispatch : State → State) (h : ∀ s : State, s.KeepsForm (dispatch s)) :
    s.KeepsForm (s.goodUp p dispatch) := by
  have supervised := (superviseGood_keepsForm s p).trans (settle_keepsForm _)
  unfold State.goodUp
  dsimp only
  split
  · exact supervised.trans ((h _).trans (settle_keepsForm _))
  · exact supervised

theorem goodAny_keepsForm (p : Port) (dispatch : State → State) (h : ∀ s : State, s.KeepsForm (dispatch s)) :
    s.KeepsForm (s.goodAny p dispatch) :=
  ((superviseGood_keepsForm s p).trans (settle_keepsForm _)).trans ((h _).trans (settle_keepsForm _))

/-! ### The transmitter -/

/-- A port whose supervision and LINK_x_DOWN stand, set to a lawful value. -/
theorem setPort_keepsForm {p : Port} {P : LinePort} (link : P.isUp = (s.port p).isUp)
    (lawful : (s.port p).Lawful → P.Lawful) : s.KeepsForm (s.setPort p P) :=
  .of_setPort (.refl (linkOf p) _) fun h =>
    h.of_setPort (lawful (h p).1) (.refl (linkOf p) _) (fun r => linkOf_other) (by rw [setPort_latch, (h p).2, link])

theorem fillExpired_keepsForm (p : Port) : s.KeepsForm (s.fillExpired p) := by
  unfold State.fillExpired
  dsimp only
  split
  · exact .refl s
  · exact setPort_keepsForm s rfl fun h => { h with fill := rfl, idle := nofun }

theorem sent_keepsForm (p : Port) : s.KeepsForm (s.sent p) := by
  unfold State.sent
  dsimp only
  split
  · exact .refl s
  · refine setPort_keepsForm s (LinePort.decide_sameLink _ _ _).isUp fun h => LinePort.Orderly.decide ?_ _ _
    exact { h.orderly with fill := rfl }

/-! ### Received frames -/

theorem tapItem_keepsForm (origin : Nat) (it : SampleItem) : s.KeepsForm (State.tapItem origin s it) := by
  unfold State.tapItem
  split
  · exact .refl s
  · split
    · exact withTap_keepsForm s _
    · split
      · split
        · exact withTap_keepsForm s _
        · exact .refl s
      · exact .refl s

theorem takeSample_keepsForm (p : Port) (f : SampleFields) : s.KeepsForm (s.takeSample p f) := by
  have tapped : s.KeepsForm (s.tapItems f) := .foldl _ (fun s it => tapItem_keepsForm s _ it) _ s
  unfold State.takeSample
  dsimp only
  split
  · exact tapped.trans (relay_keepsForm _ p nofun)
  · exact tapped

theorem guardRetest_keepsForm (was : Bool) : s.KeepsForm (s.guardRetest was) :=
  .heldOff ((reformJet_keepsForm s _).trans (reformJet_keepsForm _ _)) _

theorem setPosA_keepsForm (k : Nat) : s.KeepsForm (s.setPosA k) := by
  have moved : s.KeepsForm (State.occur { s with posA := k } srcPosition) :=
    .after (t := { s with posA := k }) (occur_keepsForm _ (by decide)) rfl rfl rfl rfl
  exact .heldOff (moved.trans ((withTap_keepsForm _ _).trans (guardRetest_keepsForm _ _))) _

theorem relayCount_keepsForm (p : Port) (side : Side) (k : Byte) : s.KeepsForm (s.relayCount p side k) := by
  unfold State.relayCount
  exact .calledFor (relay_keepsForm s p (f := .count side (k + 1)) nofun) _

theorem takeCount_keepsForm (p : Port) (side : Side) (k : Byte) : s.KeepsForm (s.takeCount p side k) := by
  unfold State.takeCount
  split
  · exact (setPosA_keepsForm s _).trans (relayCount_keepsForm _ _ _ k)
  · exact .after (relayCount_keepsForm _ _ _ k) rfl rfl rfl rfl
  · exact occur_keepsForm s (by decide)
  · exact occur_keepsForm s (by decide)

theorem srcLine_notLinkDown (i : Fin 16) : notLinkDown (srcLine i) := by show 2 ≤ 35 + i.val; omega

theorem actTrigger_keepsForm (f : TriggerFields) : s.KeepsForm (s.actTrigger f) := by
  unfold State.actTrigger
  split
  · split
    · exact .refl s
    · split
      · exact occurFrom_keepsForm s _ (srcLine_notLinkDown _)
      · exact clearSource_keepsForm s (srcLine_notLinkDown _)
  · exact .refl s

theorem takeTrigger_keepsForm (p : Port) (f : TriggerFields) : s.KeepsForm (s.takeTrigger p f) := by
  unfold State.takeTrigger
  dsimp only
  split
  · exact (actTrigger_keepsForm s f).trans (relay_keepsForm _ p nofun)
  · exact actTrigger_keepsForm s f

theorem takeTime_keepsForm (p : Port) (clock : BitVec 32) : s.KeepsForm (s.takeTime p clock) :=
  .after (relay_keepsForm _ p nofun) rfl rfl rfl rfl

theorem reply_keepsForm (p : Port) (op : Byte) (r : Request) (a : Answer) : s.KeepsForm (s.reply p op r a) :=
  offer_keepsForm s p rfl

theorem respond_keepsForm (p : Port) (op : Byte) (r : Request) (free : Bool) (run : State → State × Answer)
    (h : ∀ s : State, s.KeepsForm (run s).1) : s.KeepsForm (s.respond p op r free run) := by
  unfold State.respond
  split
  · exact reply_keepsForm s p op r _
  · exact (h s).trans ((settle_keepsForm _).trans (reply_keepsForm _ p op r _))

theorem request_keepsForm (p : Port) (op : Byte) (r : Request) (free : Bool) (run : State → State × Answer)
    (h : ∀ s : State, s.KeepsForm (run s).1) : s.KeepsForm (s.request p op r free run) := by
  refine goodUp_keepsForm s p _ fun s => ?_
  split
  · exact respond_keepsForm s p op r free run h
  · exact .refl s

/-! ### Sensors and demand -/

theorem loopFaultChange_keepsForm (c : ChannelId) (was is : Bool) : s.KeepsForm (s.loopFaultChange c was is) :=
  follow_keepsForm s was is (show 2 ≤ 7 + c.val by omega)

theorem conversion_keepsForm (c : ChannelId) (code : BitVec 12) : s.KeepsForm (s.conversion c code) := by
  unfold State.conversion
  dsimp only
  split
  · exact setChannel_keepsForm s c _
  · exact (setChannel_keepsForm s c _).trans (loopFaultChange_keepsForm _ c _ _)

theorem channelChanged_keepsForm (old : State) (c : ChannelId) : s.KeepsForm (State.channelChanged old s c) :=
  (setChannel_keepsForm s c _).trans (loopFaultChange_keepsForm _ c _ _)

theorem reportExpiry_keepsForm : s.KeepsForm s.reportExpiry := by
  unfold State.reportExpiry
  dsimp only
  split
  · exact of_untouched rfl rfl rfl rfl
  · exact .after (of_consequence (sendLocal_consequence srcOverrun_notLinkDown _ _ rfl)) rfl rfl rfl rfl

theorem failedChange_keepsForm (k : Kind) (was is : KindStatus) : s.KeepsForm (s.failedChange k was is) := by
  have failed : notLinkDown (srcKindFailed k) := by cases k <;> decide
  unfold State.failedChange
  split
  · exact occur_keepsForm s failed
  · split
    · exact clearSource_keepsForm s failed
    · exact .refl s

theorem alarmChange_keepsForm (k : Kind) (was is : Bool) : s.KeepsForm (s.alarmChange k was is) := by
  unfold State.alarmChange
  split
  · exact .refl s
  · rename_i n hn
    have alarm : notLinkDown n := by cases k <;> cases hn <;> decide
    exact follow_keepsForm s was is alarm

theorem kindSources_keepsForm (old : Kinds) : s.KeepsForm (s.kindSources old) :=
  by
  unfold State.kindSources
  exact (failedChange_keepsForm s _ _ _).trans <| (failedChange_keepsForm _ _ _ _).trans <|
    (failedChange_keepsForm _ _ _ _).trans <| (failedChange_keepsForm _ _ _ _).trans <|
    (alarmChange_keepsForm _ _ _ _).trans <| (alarmChange_keepsForm _ _ _ _).trans (alarmChange_keepsForm _ _ _ _)

theorem kindHoldExpired_keepsForm (k : Kind) : s.KeepsForm (s.kindHoldExpired k) := by
  unfold State.kindHoldExpired
  dsimp only
  split
  · exact .refl s
  · exact (setKind_keepsForm s k _).trans (failedChange_keepsForm _ k _ _)

theorem termsChanged_keepsForm : s.KeepsForm s.termsChanged :=
  .after (kindSources_keepsForm _ _) rfl rfl rfl rfl

theorem controlExpired_keepsForm : s.KeepsForm s.controlExpired :=
  .after ((kindSources_keepsForm _ _).trans (handOff_keepsForm _)) rfl rfl rfl rfl

/-! ### Fans and doors -/

theorem srcFanFault_notLinkDown (f : FanId) : notLinkDown (srcFanFault f) := by show 2 ≤ 18 + f.val; omega

theorem srcIsolated_notLinkDown (f : FanId) : notLinkDown (srcIsolated f) := by show 2 ≤ 21 + f.val; omega

theorem fanFault_keepsForm (f : FanId) : s.KeepsForm (s.fanFault f) :=
  (setFan_keepsForm s f _).trans (occur_keepsForm _ (srcFanFault_notLinkDown f))

theorem startExpired_keepsForm (f : FanId) : s.KeepsForm (s.startExpired f) := by
  unfold State.startExpired
  split
  · exact .refl s
  · exact fanFault_keepsForm s f

theorem stallExpired_keepsForm (f : FanId) : s.KeepsForm (s.stallExpired f) := by
  unfold State.stallExpired
  split
  · exact .refl s
  · exact fanFault_keepsForm s f

theorem dwellExpired_keepsForm (f : FanId) : s.KeepsForm (s.dwellExpired f) := by
  unfold State.dwellExpired
  split
  · exact .refl s
  · exact setFan_keepsForm s f _

theorem fanReset_keepsForm (f : FanId) : s.KeepsForm (s.fanReset f) := by
  unfold State.fanReset
  dsimp only
  split
  · exact (setFan_keepsForm s f _).trans (clearSource_keepsForm _ (srcFanFault_notLinkDown f))
  · exact .refl s

theorem isolatorAccepted_keepsForm (f : FanId) : s.KeepsForm (s.isolatorAccepted f) := by
  unfold State.isolatorAccepted State.isolatorState
  dsimp only
  split
  · exact .refl s
  · split
    · exact (setFan_keepsForm s f _).trans <| (clearSource_keepsForm _ (srcFanFault_notLinkDown f)).trans
        (occur_keepsForm _ (srcIsolated_notLinkDown f))
    · exact (setFan_keepsForm s f _).trans (clearSource_keepsForm _ (srcIsolated_notLinkDown f))

theorem doorTo_keepsForm (d : DoorId) (D : Door) (egress : Bool) : s.KeepsForm (s.doorTo d D egress) :=
  (setDoor_keepsForm s d _).trans <| (occurIf_keepsForm _ egress (show 2 ≤ 24 + d.val by omega)).trans <|
    (follow_keepsForm _ _ _ (show 2 ≤ 28 + d.val by omega)).trans <|
    (follow_keepsForm _ _ _ (show 2 ≤ 26 + d.val by omega)).trans (passageFollows_keepsForm _ _ _)

theorem doorDebounced_keepsForm (d : DoorId) (i : DoorInput) : s.KeepsForm (s.doorDebounced d i) := by
  unfold State.doorDebounced
  dsimp only
  split
  · exact .refl s
  · exact doorTo_keepsForm s d _ _

theorem doorsLeaveStarting_keepsForm : s.KeepsForm s.doorsLeaveStarting :=
  (doorTo_keepsForm s 0 _ false).trans (doorTo_keepsForm _ 1 _ false)

theorem callPointAccepted_keepsForm : s.KeepsForm s.callPointAccepted := by
  unfold State.callPointAccepted
  split
  · exact .refl s
  · exact .after (follow_keepsForm _ _ _ (by decide)) rfl rfl rfl rfl

theorem launchHoldExpired_keepsForm : s.KeepsForm s.launchHoldExpired := by
  unfold State.launchHoldExpired
  split
  · exact .refl s
  · exact of_untouched rfl rfl rfl rfl

theorem stepExpired_keepsForm : s.KeepsForm s.stepExpired :=
  of_consequence ((stepExpired_consequence s).mono fun _ => settleSide_notLinkDown)

/-! ### Tables and their effects -/

theorem lockChanged_keepsForm (l0 l1 : Nat) : s.KeepsForm (s.lockChanged l0 l1) := by
  unfold State.lockChanged
  dsimp only
  split
  · exact (withTap_keepsForm s _).trans (markDirty_keepsForm _ _)
  · exact withTap_keepsForm s _

theorem flushTap_keepsForm : s.KeepsForm s.flushTap := by
  unfold State.flushTap
  dsimp only
  split
  · exact (withTap_keepsForm s _).trans (markDirty_keepsForm _ _)
  · exact withTap_keepsForm s _

theorem nodeChanged_keepsForm (old : State) : s.KeepsForm (s.nodeChanged old) := by
  have report : ∀ (t : State) (timer : Timer), t.KeepsForm { t with reportTimer := timer } :=
    fun _ _ => of_untouched rfl rfl rfl rfl
  have control : ∀ (t : State) (timer : Timer), t.KeepsForm { t with controlTimer := timer } :=
    fun _ _ => of_untouched rfl rfl rfl rfl
  unfold State.nodeChanged
  exact (State.KeepsForm.heldOff (report s _) _).trans <| (State.KeepsForm.heldOff (control _ _) _).trans
    (.heldOff (lockChanged_keepsForm _ _ _) _)

theorem lineChanged_keepsForm (old : State) (i : Fin 16) : s.KeepsForm (State.lineChanged old s i) := by
  unfold State.lineChanged
  split
  · exact .refl s
  · exact clearWithCode_keepsForm s _ (srcLine_notLinkDown i)

theorem LatchEntry.revalidate_asserted (n : EntryId) (was is : Bool) (e : LatchEntry) :
    (e.revalidate n was is).asserted = e.asserted := by
  unfold LatchEntry.revalidate
  split
  · rfl
  · split <;> rfl

theorem revalidate_keepsForm (old : State) : s.KeepsForm (State.revalidate old s) := by
  refine withLatch_keepsForm s _ _ fun p => ?_
  simp only [Fin.getElem_fin, Vector.getElem_ofFn, LatchEntry.revalidate_asserted]

theorem changed_keepsForm (old : State) : s.KeepsForm (State.changed old s) := by
  unfold State.changed
  exact (State.KeepsForm.foldl _ (fun s c => channelChanged_keepsForm s old c) _ s).trans <|
    (State.KeepsForm.heldOff (termsChanged_keepsForm _) _).trans <|
    (nodeChanged_keepsForm _ old).trans <| (State.KeepsForm.foldl _ (fun s i => lineChanged_keepsForm s old i) _ _).trans <|
    (withDecision_keepsForm _ _).trans (revalidate_keepsForm _ old)

theorem putWord_keepsForm (T : Table) (e w : Nat) (v : Word) : s.KeepsForm (s.putWord T e w v).1 := by
  unfold State.putWord
  cases T with
  | kind => exact setKind_keepsForm s _ _
  | node => exact of_untouched rfl rfl rfl rfl
  | status | tap | latch | stack => exact .refl s
  | _ =>
    dsimp only
    split
    · exact of_untouched rfl rfl rfl rfl
    · exact .refl s

theorem putTableWords_keepsForm (T : Table) (a : Nat) (vs : List Word) : s.KeepsForm (s.putTableWords T a vs).1 := by
  induction vs generalizing s a with
  | nil => exact .refl s
  | cons v vs ih =>
    refine .trans ?_ (ih _ (a + 1))
    unfold State.putTableWord
    split
    · exact putWord_keepsForm s T _ _ v
    · exact .refl s

theorem loadEntries_keepsForm (T : Table) (e n : Nat) (ws : List Word) : s.KeepsForm (s.loadEntries T e n ws) := by
  induction n generalizing s e ws with
  | zero => exact .refl s
  | succ n ih => exact (putTableWords_keepsForm s T _ _).trans (ih _ (e + 1) _)

theorem markWord_keepsForm (T : Table) (a : Nat) : s.KeepsForm (s.markWord T a) := by
  unfold State.markWord
  split
  · split
    · exact .refl s
    · exact markDirty_keepsForm s _
  · exact .refl s

theorem markWords_keepsForm (T : Table) (a n : Nat) : s.KeepsForm (s.markWords T a n) := by
  induction n generalizing s a with
  | zero => exact .refl s
  | succ n ih => exact (markWord_keepsForm s T a).trans (ih _ _)

theorem writeTable_keepsForm (T : Table) (a : Nat) (ws : List Word) : s.KeepsForm (s.writeTable T a ws).1 :=
  (putTableWords_keepsForm s T a ws).trans ((markWords_keepsForm _ T a _).trans (changed_keepsForm _ s))

/-! ### The image store -/

theorem endLoad_keepsForm (locked : Bool) : s.KeepsForm (s.endLoad locked) := by
  unfold State.endLoad
  exact (withLoad_keepsForm s _ _).trans <| (reformJet_keepsForm _ _).trans <| (reformJet_keepsForm _ _).trans <|
    (reformPassage_keepsForm _).trans <| (doorsLeaveStarting_keepsForm _).trans <| (renew_keepsForm _).trans
    (withDecision_keepsForm _ _)

theorem nextGroup_keepsForm (i : Nat) (locked : Bool) (count : Nat) : s.KeepsForm (s.nextGroup i locked count) := by
  unfold State.nextGroup
  split
  · split
    · exact of_untouched rfl rfl rfl rfl
    · exact (withTap_keepsForm s _).trans (endLoad_keepsForm _ locked)
  · exact endLoad_keepsForm s locked

theorem headerRead_keepsForm (r : SerialAnswer) : s.KeepsForm (s.headerRead r) := by
  unfold State.headerRead
  split
  · split
    · exact .after (t := { s with loading := .done })
        ((occur_keepsForm _ (by decide)).trans (endLoad_keepsForm _ _)) rfl rfl rfl rfl
    · exact nextGroup_keepsForm s _ _ _
  · exact .refl s
  · exact .refl s

theorem loadGroup_keepsForm (g : Fin 15) (data : List Word) : s.KeepsForm (s.loadGroup g data) := by
  unfold State.loadGroup
  split
  · exact (loadEntries_keepsForm s _ _ _ _).trans ((changed_keepsForm _ s).trans (withDirty_keepsForm _ _))
  · exact withTaplock_keepsForm s _ _

theorem failGroup_keepsForm (g : Fin 15) : s.KeepsForm (s.failGroup g) := by
  have emptied : s.KeepsForm s.emptyLocked := withTap_keepsForm s _
  unfold State.failGroup
  exact (emptied.calledFor _).trans ((withFailing_keepsForm _ _ _).trans (occur_keepsForm _ (by decide)))

theorem groupRead_keepsForm (r : SerialAnswer) : s.KeepsForm (s.groupRead r) := by
  unfold State.groupRead
  split
  · dsimp only
    refine .trans ?_ (nextGroup_keepsForm _ _ _ _)
    split
    · exact loadGroup_keepsForm s _ _
    · exact failGroup_keepsForm s _
  · exact .refl s
  · exact .refl s

/-- The serial memory stored anew in its canonical form. -/
theorem State.KeepsForm.of_store {s t : State} (phase : t.msPhase = s.msPhase) (ports : t.ports = s.ports)
    (latch : t.latch = s.latch) (serial : s.serial.wf = true → t.serial.wf = true) : s.KeepsForm t where
  serial := serial
  msPhase := phase ▸ id
  line law p := by rw [State.port_congr ports p, latch]; exact law p

theorem writeComplete_keepsForm (r : SerialAnswer) : s.KeepsForm (s.writeComplete r) := by
  have write : ∀ (a : Nat) (ws : List Word) (x : StoreState),
      s.KeepsForm { s.serialWrite r a ws with storing := x } := fun a ws x =>
    .of_store (by cases r <;> rfl) (by cases r <;> rfl) (by cases r <;> rfl) (wf_serialWrite s r a ws)
  unfold State.writeComplete
  split
  · exact write _ _ _
  · exact write _ _ _
  all_goals exact .refl s

theorem storeFrom_keepsForm (i : Nat) : s.KeepsForm (s.storeFrom i) := by
  unfold State.storeFrom
  split <;> exact of_untouched rfl rfl rfl rfl

theorem verified_keepsForm (g : Fin 15) (good : Bool) : s.KeepsForm (s.verified g good) := by
  unfold State.verified
  split
  · split
    · exact .refl s
    · exact of_untouched rfl rfl rfl rfl
  · exact occur_keepsForm s (by decide)

theorem verifyComplete_keepsForm (r : SerialAnswer) : s.KeepsForm (s.verifyComplete r) := by
  unfold State.verifyComplete
  split
  · rename_i g rec _
    dsimp only
    have stored : s.KeepsForm { s with serial := s.serialVerified r (placeOf g) rec (failPlace g) } :=
      .of_store rfl rfl rfl (wf_serialVerified s r _ _ _ (wf_failPlace g))
    exact stored.trans ((verified_keepsForm _ g _).trans (storeFrom_keepsForm _ _))
  · rename_i rec _
    dsimp only
    have stored : s.KeepsForm { s with serial := s.serialVerified r 0 rec failHeader, storing := .idle } :=
      .of_store rfl rfl rfl (wf_serialVerified s r _ _ _ wf_failHeader)
    split
    · exact stored
    · exact stored.trans (occur_keepsForm _ (by decide))
  all_goals exact .refl s

/-! ### The operations of the responder -/

theorem runWrite_keepsForm (r : Request) : s.KeepsForm (s.runWrite r).1 := by
  unfold State.runWrite
  split
  · exact .refl s
  · dsimp only
    split
    · exact .refl s
    · split
      · exact .refl s
      · split
        · exact .refl s
        · exact writeTable_keepsForm s _ _ _

theorem runTapLoad_keepsForm (r : Request) : s.KeepsForm (s.runTapLoad r).1 := by
  unfold State.runTapLoad
  split
  · split
    · exact .refl s
    · split
      · exact .refl s
      · split
        · exact .refl s
        · rename_i h
          obtain ⟨i, -, rfl⟩ := Option.map_eq_some_iff.mp h
          exact (withTap_keepsForm s _).trans (markDirty_keepsForm _ _)
  all_goals exact .refl s

theorem markFlushed_keepsForm (old : Vector PlanStep 64) : s.KeepsForm (s.markFlushed old) := by
  unfold State.markFlushed
  exact .foldl _ (fun s i => .calledFor (markDirty_keepsForm s _) _) _ s

theorem runFlushPlans_keepsForm : s.KeepsForm s.runFlushPlans.1 := by
  unfold State.runFlushPlans
  split
  · exact .refl s
  · exact (withPlan_keepsForm s _).trans ((markFlushed_keepsForm _ _).trans (revalidate_keepsForm _ s))

/-- An ACK changes no asserted mark (R146). -/
theorem runAck_keepsForm (r : Request) : s.KeepsForm (s.runAck r).1 := by
  unfold State.runAck
  split
  · rename_i n c rest _ _
    dsimp only
    split
    · have asserted : ∀ m : EntryId,
          (s.setLatch n { s.latch[n] with unack := false }).latch[m].asserted = s.latch[m].asserted := by
        intro m
        rw [latch_setLatch]
        split
        · rename_i e; rw [e]
        · rfl
      exact .of_asserted rfl rfl rfl fun p => asserted _
    · exact .refl s
  all_goals exact .refl s

theorem runClearPlan_keepsForm (r : Request) : s.KeepsForm (s.runClearPlan r).1 := by
  unfold State.runClearPlan
  split
  · exact of_consequence (clearActive_consequence (fun _ => settleSide_notLinkDown) s)
  · split
    · exact of_consequence (clearAll_consequence (fun _ => settleSide_notLinkDown) s)
    · exact .refl s

theorem runFanReset_keepsForm (r : Request) : s.KeepsForm (s.runFanReset r).1 := by
  unfold State.runFanReset
  split
  · exact fanReset_keepsForm s _
  · exact .refl s

theorem runDoorReset_keepsForm (r : Request) : s.KeepsForm (s.runDoorReset r).1 := by
  unfold State.runDoorReset
  split
  · exact doorTo_keepsForm s _ _ false
  · exact .refl s

theorem runOpen_keepsForm : s.KeepsForm s.runOpen.1 := by
  unfold State.runOpen
  split
  · exact .after (t := { s with nodeState := .operating }) ((renew_keepsForm _).trans (withDecision_keepsForm _ _))
      rfl rfl rfl rfl
  · exact .refl s

theorem runStore_keepsForm : s.KeepsForm s.runStore.1 := by
  unfold State.runStore
  split
  · exact storeFrom_keepsForm s 0
  · exact .refl s

/-! ### Resets -/

theorem firstFound_consequence {E : EntryId → Prop} (hO : E srcOverrun) {n : EntryId} (hn : E n) (b : Bool) :
    Consequence E s (s.firstFound n b) := by
  cases b
  · exact .refl E s
  · exact occur_consequence hO s n hn

/-- A level source's first evaluation leaves its entry asserted as it was found (R141). -/
theorem firstFound_asserted {n : EntryId} (level : isLevel n = true) (hn : n ≠ srcOverrun)
    (clear : s.latch[n].asserted = false) (b : Bool) : (s.firstFound n b).latch[n].asserted = b := by
  cases b
  · exact clear
  · show (s.occurFrom n s.posA).latch[n].asserted = true
    rw [(occurFrom_counted s n _ hn).asserted, level]
    rfl

/-- The first evaluation raises nothing but level sources' entries and QUEUE_OVERRUN, and no serial word or clock. -/
theorem firstEvaluation_consequence : Consequence anyEntry s s.firstEvaluation :=
  (firstFound_consequence s trivial trivial _).trans <| (firstFound_consequence _ trivial trivial _).trans <|
    (firstFound_consequence _ trivial trivial _).trans <| (firstFound_consequence _ trivial trivial _).trans <|
    (firstFound_consequence _ trivial trivial _).trans (firstFound_consequence _ trivial trivial _)

/-- The first evaluation of lawful ports and a blank latch establishes the laws of the line (R23, R141). -/
theorem firstEvaluation_lineLaw (lawful : ∀ p, (s.port p).Lawful)
    (clear : ∀ p, s.latch[srcLinkDown p].asserted = false) : s.firstEvaluation.LineLaw := by
  let u := s.firstFound (srcLinkDown .a) (!s.ports.a.isUp)
  have first : Consequence (linkOf .a) s u := firstFound_consequence s (.inr rfl) (.inl rfl) _
  let v := u.firstFound (srcLinkDown .b) (!u.ports.b.isUp)
  have second : Consequence (linkOf .b) u v := firstFound_consequence u (.inr rfl) (.inl rfl) _
  have links : v.LineLaw := by
    intro p
    refine ⟨(second.ports p).lawful ((first.ports p).lawful (lawful p)), ?_⟩
    rw [(second.ports p).sameLink.isUp]
    cases p with
    | a =>
      rw [(second.latch _ (linkOf_other (by decide))).asserted, (first.ports .a).sameLink.isUp]
      exact firstFound_asserted s rfl (by decide) (clear .a) _
    | b =>
      refine firstFound_asserted u rfl (by decide) ?_ _
      rw [(first.latch _ (linkOf_other (by decide))).asserted]
      exact clear .b
  have others : Consequence notLinkDown v s.firstEvaluation :=
    (firstFound_consequence v srcOverrun_notLinkDown (by decide) _).trans <|
      (firstFound_consequence _ srcOverrun_notLinkDown (by decide) _).trans <|
      (firstFound_consequence _ srcOverrun_notLinkDown (by decide) _).trans
      (firstFound_consequence _ srcOverrun_notLinkDown (by decide) _)
  exact links.of_consequence others srcLinkDown_excluded

/-- A port right after a power-on or pin reset is lawful (R23, R24, R54). -/
theorem LinePort.default_lawful : LinePort.Lawful {} where
  probe := rfl
  link := rfl
  fill := rfl
  bounded q := by cases q <;> exact Nat.zero_le _
  kinds q x hx := by cases q <;> cases hx
  quiet _ q := by cases q <;> rfl
  idle _ q := by cases q <;> rfl

/-- A RESTART empties the queues and leaves supervision and transmitter (R23, R24, R54). -/
theorem LinePort.Lawful.restarted {P : LinePort} (h : P.Lawful) : P.restarted.Lawful where
  probe := h.probe
  link := h.link
  fill := h.fill
  bounded q := by cases q <;> exact Nat.zero_le _
  kinds q x hx := by cases q <;> cases hx
  quiet _ q := by cases q <;> rfl
  idle _ q := by cases q <;> rfl

theorem hardReset_keepsForm (cause : ResetCause) : s.KeepsForm (s.hardReset cause) where
  serial h := by
    rw [State.hardReset, (firstEvaluation_consequence _).serial]
    exact wf_cutShort s h
  msPhase _ := by
    rw [State.hardReset, (firstEvaluation_consequence _).msPhase]
    exact Nat.zero_lt_succ _
  line _ := firstEvaluation_lineLaw _ (fun p => by cases p <;> exact LinePort.default_lawful)
    (fun p => by simp [State.fresh])

theorem restarted_keepsForm : s.KeepsForm s.restarted where
  serial h := by
    rw [State.restarted, (firstEvaluation_consequence _).serial]
    exact wf_cutShort s h
  msPhase h := by
    rw [State.restarted, (firstEvaluation_consequence _).msPhase]
    exact h
  line h := firstEvaluation_lineLaw _
    (fun p => by
      cases p with
      | a => exact (h .a).1.restarted
      | b => exact (h .b).1.restarted)
    (fun p => by simp [State.fresh])

theorem elapse_keepsForm (us : Nat) : s.KeepsForm (s.elapse us) where
  serial := id
  msPhase _ := Nat.mod_lt _ (by decide)
  line := id

end

/-! ### Every command -/

/-- Every command keeps the form. -/
theorem exec_keepsForm (c : Instr) (s : State) : ∃ t, exec c s = .next t ∧ s.KeepsForm t := by
  have settled : ∀ {t : State}, s.KeepsForm t → s.KeepsForm t.settle := fun h => h.trans (settle_keepsForm _)
  have relayed : ∀ (p : Port) (f : Frame) (b : Bool), f ≠ .fill →
      ∀ s : State, s.KeepsForm (if b then s.relay p f else s) := by
    intro p f b hf s
    cases b
    · exact .refl s
    · exact relay_keepsForm s p hf
  cases c with
  | powerOnReset => exact ⟨_, rfl, hardReset_keepsForm s .powerOn⟩
  | pinReset => exact ⟨_, rfl, hardReset_keepsForm s .pin⟩
  | badFrame p => exact ⟨_, rfl, settled (badFrame_keepsForm s p)⟩
  | fill p => exact ⟨_, rfl, goodAny_keepsForm s p _ .refl⟩
  | count p side k => exact ⟨_, rfl, goodAny_keepsForm s p _ fun s => takeCount_keepsForm s p side k⟩
  | sample p f =>
    refine ⟨_, rfl, goodUp_keepsForm s p _ fun s => ?_⟩
    split
    · exact takeSample_keepsForm s p f
    · exact .refl s
  | event p f => exact ⟨_, rfl, goodUp_keepsForm s p _ fun s => relay_keepsForm s p nofun⟩
  | trigger p f => exact ⟨_, rfl, goodUp_keepsForm s p _ fun s => takeTrigger_keepsForm s p f⟩
  | mgmtReply p f => exact ⟨_, rfl, goodUp_keepsForm s p _ (relayed p _ _ nofun)⟩
  | mgmtReqRelay p f => exact ⟨_, rfl, goodUp_keepsForm s p _ (relayed p _ _ nofun)⟩
  | time p clock => exact ⟨_, rfl, goodUp_keepsForm s p _ fun s => takeTime_keepsForm s p clock⟩
  | unknownFrame p => exact ⟨_, rfl, goodUp_keepsForm s p _ .refl⟩
  | read p r => exact ⟨_, rfl, request_keepsForm s p 1 r _ _ fun s => by rw [runRead_state]; exact .refl s⟩
  | write p r => exact ⟨_, rfl, request_keepsForm s p 2 r _ _ fun s => runWrite_keepsForm s r⟩
  | tapLoad p r => exact ⟨_, rfl, request_keepsForm s p 3 r _ _ fun s => runTapLoad_keepsForm s r⟩
  | flushTap p r => exact ⟨_, rfl, request_keepsForm s p 4 r _ _ flushTap_keepsForm⟩
  | flushPlans p r => exact ⟨_, rfl, request_keepsForm s p 5 r _ _ runFlushPlans_keepsForm⟩
  | ack p r => exact ⟨_, rfl, request_keepsForm s p 6 r _ _ fun s => runAck_keepsForm s r⟩
  | clearPlan p r => exact ⟨_, rfl, request_keepsForm s p 7 r _ _ fun s => runClearPlan_keepsForm s r⟩
  | setMask p r => exact ⟨_, rfl, request_keepsForm s p 8 r _ _ fun s => of_untouched rfl rfl rfl rfl⟩
  | fanReset p r => exact ⟨_, rfl, request_keepsForm s p 9 r _ _ fun s => runFanReset_keepsForm s r⟩
  | doorReset p r => exact ⟨_, rfl, request_keepsForm s p 10 r _ _ fun s => runDoorReset_keepsForm s r⟩
  | openNode p r => exact ⟨_, rfl, request_keepsForm s p 11 r _ _ runOpen_keepsForm⟩
  | store p r => exact ⟨_, rfl, request_keepsForm s p 12 r _ _ runStore_keepsForm⟩
  | restart p r =>
    refine ⟨_, rfl, goodUp_keepsForm s p _ fun s => ?_⟩
    split
    · split
      · exact reply_keepsForm s p 13 r _
      · exact restarted_keepsForm s
    · exact .refl s
  | badOpRequest p op r =>
    refine ⟨_, rfl, goodUp_keepsForm s p _ fun s => ?_⟩
    split
    · exact respond_keepsForm s p op r false _ .refl
    · exact .refl s
  | linkTimerExpiry p => exact ⟨_, rfl, settled (linkExpired_keepsForm s p)⟩
  | fillTimerExpiry p => exact ⟨_, rfl, fillExpired_keepsForm s p⟩
  | transmissionCompletion p => exact ⟨_, rfl, sent_keepsForm s p⟩
  | conversionCompletion ch code => exact ⟨_, rfl, settled (conversion_keepsForm s ch code)⟩
  | reportTimerExpiry => exact ⟨_, rfl, settled (reportExpiry_keepsForm s)⟩
  | tapAgeingExpiry => exact ⟨_, rfl, withAgeing_keepsForm s _ _⟩
  | controlTimerExpiry => exact ⟨_, rfl, settled (controlExpired_keepsForm s)⟩
  | kindHoldExpiry k => exact ⟨_, rfl, settled (kindHoldExpired_keepsForm s k)⟩
  | tachEdge f e => exact ⟨_, rfl, of_untouched rfl rfl rfl rfl⟩
  | tachOverflow f => exact ⟨_, rfl, setFan_keepsForm s f _⟩
  | periodStart f => exact ⟨_, rfl, setFan_keepsForm s f _⟩
  | startTimerExpiry f => exact ⟨_, rfl, settled (startExpired_keepsForm s f)⟩
  | stallTimerExpiry f => exact ⟨_, rfl, settled (stallExpired_keepsForm s f)⟩
  | dwellTimerExpiry f => exact ⟨_, rfl, dwellExpired_keepsForm s f⟩
  | isolatorInputChange f isOpen => exact ⟨_, rfl, of_untouched rfl rfl rfl rfl⟩
  | isolatorAccepted f => exact ⟨_, rfl, settled (isolatorAccepted_keepsForm s f)⟩
  | doorInputChange d i active => exact ⟨_, rfl, of_untouched rfl rfl rfl rfl⟩
  | doorDebounceExpiry d i => exact ⟨_, rfl, settled (doorDebounced_keepsForm s d i)⟩
  | egressTimerExpiry d => exact ⟨_, rfl, settled (doorTo_keepsForm s d _ false)⟩
  | holdTimerExpiry d => exact ⟨_, rfl, settled (doorTo_keepsForm s d _ false)⟩
  | relockTimerExpiry d => exact ⟨_, rfl, settled (doorTo_keepsForm s d _ false)⟩
  | feedbackTimerExpiry d => exact ⟨_, rfl, settled (doorTo_keepsForm s d _ false)⟩
  | lampCompareMatch d => exact ⟨_, rfl, setDoor_keepsForm s d _⟩
  | callPointInputChange active => exact ⟨_, rfl, of_untouched rfl rfl rfl rfl⟩
  | callPointAccepted => exact ⟨_, rfl, settled (callPointAccepted_keepsForm s)⟩
  | launchHoldExpiry => exact ⟨_, rfl, settled (launchHoldExpired_keepsForm s)⟩
  | stepTimerExpiry => exact ⟨_, rfl, settled (stepExpired_keepsForm s)⟩
  | imageHeaderRead r => exact ⟨_, rfl, settled (headerRead_keepsForm s r)⟩
  | imageGroupRead r => exact ⟨_, rfl, settled (groupRead_keepsForm s r)⟩
  | storeWriteComplete r => exact ⟨_, rfl, writeComplete_keepsForm s r⟩
  | storeVerifyComplete r => exact ⟨_, rfl, settled (verifyComplete_keepsForm s r)⟩

/-- Every step keeps the form: a tick, or the front command. -/
theorem step_keepsForm {s t : State} (h : step s = .next t) : s.KeepsForm t := by
  unfold step at h
  split at h
  · cases h
    exact elapse_keepsForm s 1
  · rename_i c rest _
    obtain ⟨u, hu, keeps⟩ := exec_keepsForm c { s with pending := rest }
    rw [hu] at h
    cases h
    exact .after keeps rfl rfl rfl rfl

/-- Settles O49: supervision and the resets set LINK_x_DOWN with the port's state, and all other frames are offers. -/
theorem stepsKeepTheLineLaw : Obligations.StepsKeepTheLineLaw := fun _ _ law h => (step_keepsForm h).line law

/-! ### Nothing is owed after a step -/

theorem settled_of_same {s t : State} (h : s.Settled) (stack : t.stack = s.stack) (due : t.decisionDue = s.decisionDue) :
    t.Settled :=
  ⟨due.trans h.1, Calm.of_stack stack h.2⟩

theorem goodUp_settled (s : State) (p : Port) (dispatch : State → State) : (s.goodUp p dispatch).Settled := by
  unfold State.goodUp
  dsimp only
  split
  · exact settle_settled _
  · exact settle_settled _

theorem goodAny_settled (s : State) (p : Port) (dispatch : State → State) : (s.goodAny p dispatch).Settled :=
  settle_settled _

/-- A hard reset counts occurrences of sources without a plan step, so none is owed a decision. -/
theorem hardReset_settled (s : State) (cause : ResetCause) : (s.hardReset cause).Settled := by
  rw [State.hardReset, firstEvaluation_silent (fresh_silent s 0 cause) (fresh_planValid s 0 cause)]
  exact ⟨rfl, nofun⟩

theorem fillExpired_settled {s : State} (h : s.Settled) (p : Port) : (s.fillExpired p).Settled := by
  unfold State.fillExpired
  dsimp only
  split
  · exact h
  · exact settled_of_same h (by simp) (by simp)

theorem sent_settled {s : State} (h : s.Settled) (p : Port) : (s.sent p).Settled := by
  unfold State.sent
  dsimp only
  split
  · exact h
  · exact settled_of_same h (by simp) (by simp)

theorem dwellExpired_settled {s : State} (h : s.Settled) (f : FanId) : (s.dwellExpired f).Settled := by
  unfold State.dwellExpired
  split
  · exact h
  · exact settled_of_same h rfl rfl

theorem writeComplete_settled {s : State} (h : s.Settled) (r : SerialAnswer) : (s.writeComplete r).Settled := by
  unfold State.writeComplete
  split <;> cases r <;> exact settled_of_same h rfl rfl

theorem withAgeing_settled {s : State} (h : s.Settled) (timer : Timer) (tap : TapCache) :
    State.Settled { s with ageTimer := timer, tap := tap } := settled_of_same h rfl rfl

/-- Every command settles its event: it ends with `settle`, or it leaves the stack and the decision owed alone. -/
theorem exec_settled (c : Instr) {s : State} (h : s.Settled) : ∃ t, exec c s = .next t ∧ t.Settled := by
  cases c with
  | powerOnReset => exact ⟨_, rfl, hardReset_settled s .powerOn⟩
  | pinReset => exact ⟨_, rfl, hardReset_settled s .pin⟩
  | fill p => exact ⟨_, rfl, goodAny_settled s p _⟩
  | count p side k => exact ⟨_, rfl, goodAny_settled s p _⟩
  | sample p _ | event p _ | trigger p _ | mgmtReply p _ | mgmtReqRelay p _ | time p _ | unknownFrame p | read p _
  | write p _ | tapLoad p _ | flushTap p _ | flushPlans p _ | ack p _ | clearPlan p _ | setMask p _ | fanReset p _
  | doorReset p _ | openNode p _ | store p _ | restart p _ | badOpRequest p _ _ => exact ⟨_, rfl, goodUp_settled s p _⟩
  | fillTimerExpiry p => exact ⟨_, rfl, fillExpired_settled h p⟩
  | transmissionCompletion p => exact ⟨_, rfl, sent_settled h p⟩
  | dwellTimerExpiry f => exact ⟨_, rfl, dwellExpired_settled h f⟩
  | storeWriteComplete r => exact ⟨_, rfl, writeComplete_settled h r⟩
  | tapAgeingExpiry => exact ⟨_, rfl, withAgeing_settled h _ _⟩
  | tachEdge _ _ | tachOverflow _ | periodStart _ | isolatorInputChange _ _ | doorInputChange _ _ _
  | lampCompareMatch _ | callPointInputChange _ => exact ⟨_, rfl, settled_of_same h rfl rfl⟩
  | _ => exact ⟨_, rfl, settle_settled _⟩

theorem step_settled {s t : State} (hs : s.Settled) (h : step s = .next t) : t.Settled := by
  unfold step at h
  split at h
  · cases h
    exact settled_of_same hs rfl rfl
  · rename_i c rest _
    obtain ⟨u, hu, settled⟩ := exec_settled c (s := { s with pending := rest }) hs
    rw [hu] at h
    cases h
    exact settled

/-- Settles O48: every command ends its event, and stores, resets and ticks keep the memory's and the clock's form. -/
theorem stepsKeepTheModelsForm : Obligations.StepsKeepTheModelsForm :=
  ⟨fun _ _ hs h => step_settled hs h, fun _ _ wf h => (step_keepsForm h).serial wf,
    fun _ _ phase h => (step_keepsForm h).msPhase phase⟩

end Sys2Proof.Machine
end

