-- ==== Sys2Proof/Proofs/Supervision.lean ====
section
/-! PROOFS. Proofs/Supervision.lean: what good frames, bad frames and the timers of a port do (R20 to R24, R27, R49, R50),
and the tick of an empty queue (R34, R101). -/

namespace Sys2Proof.Machine

/-! ### The tick -/

/-- Settles O2: the phase of the millisecond wraps at its thousandth µs. -/
theorem anEmptyQueueLetsAMicrosecondPass : Obligations.AnEmptyQueueLetsAMicrosecondPass := by
  intro s waits phase
  have tick : step s = .next (s.elapse 1) := by unfold step; rw [waits]
  rw [tick]
  unfold State.elapse
  by_cases wraps : s.msPhase = 999
  · rw [wraps]
    rfl
  · have carry : (s.msPhase + 1) / 1000 = 0 := by omega
    have next : (s.msPhase + 1) % 1000 = s.msPhase + 1 := by omega
    rw [carry, next, if_neg wraps, if_neg wraps]
    simp [Fan.elapse]

/-! ### Good frames -/

theorem exec_fill (p : Port) (s : State) : exec (.fill p) s = .next (s.superviseGood p).settle :=
  congrArg Host.Outcome.next (settle_settle _)

/-- A frame that dispatch passes over has been counted toward supervision, and no more. -/
theorem goodUp_id (s : State) (p : Port) : s.goodUp p id = (s.superviseGood p).settle := by
  unfold State.goodUp
  dsimp only [id]
  split
  · exact settle_settle _
  · rfl

/-- Settles O7: neither has a dispatch of its own. -/
theorem fillsAndUnknownFramesOnlyCount : Obligations.FillsAndUnknownFramesOnlyCount := fun p s =>
  ⟨exec_fill p s, (congrArg Host.Outcome.next (goodUp_id s p)).trans (exec_fill p s).symm⟩

theorem setPort_settled {s : State} (h : s.Settled) (p : Port) (P : LinePort) : (s.setPort p P).Settled :=
  settled_of_same h (by simp) (by simp)

@[simp] theorem setPort_still (s : State) (p : Port) (P : LinePort) : (s.setPort p P).still = s.still := by
  cases p <;> rfl

/-- A good frame that does not bring its port to UP sets its supervision alone (R21). -/
theorem superviseGood_stays {s : State} {p : Port} (h : (s.port p).isUp = false → (s.port p).afterGood.1 ≠ .up) :
    s.superviseGood p = s.setPort p
      { s.port p with
        state := (s.port p).afterGood.1, probe := (s.port p).afterGood.2
        linkTimer := some (s.now + s.node.linkTimeout * 1000) } :=
  if_neg fun entered => h entered.1 entered.2

/-- A good frame that brings its port to UP clears LINK_x_DOWN (R21, R23). -/
theorem superviseGood_enters {s : State} {p : Port} (down : (s.port p).isUp = false)
    (up : (s.port p).afterGood.1 = .up) :
    s.superviseGood p = (s.setPort p
      { s.port p with
        state := (s.port p).afterGood.1, probe := (s.port p).afterGood.2
        linkTimer := some (s.now + s.node.linkTimeout * 1000) }).clearSource (srcLinkDown p) :=
  if_pos ⟨down, up⟩

theorem srcLinkDown_not_side (p : Port) : ¬ settleSide (srcLinkDown p) := fun h =>
  srcLinkDown_excluded p (settleSide_notLinkDown h)

/-- Supervision and what it owes leave the port supervised as the good frame set it. -/
theorem superviseGood_settle_sameLink (s : State) (p : Port) :
    SameLink { s.port p with
        state := (s.port p).afterGood.1, probe := (s.port p).afterGood.2, linkTimer := s.startMs s.node.linkTimeout }
      ((s.superviseGood p).settle.port p) := by
  have link := ((superviseGood_consequence s p).ports p).sameLink
  rw [port_setPort] at link
  exact link.trans ((settle_consequence _).ports p).sameLink

/-- Settles O6: by the port's state, and in PROBING by the probe count. -/
theorem goodFramesSuperviseAPort : Obligations.GoodFramesSuperviseAPort := by
  intro p s hs
  rw [exec_fill]
  refine ⟨fun down => ?_, fun probing one => ?_, fun probing two => ?_, fun up => ?_⟩
  · have after : (s.port p).afterGood = (.probing, 1) := by simp [LinePort.afterGood, down]
    rw [superviseGood_stays (by simp [after]), settle_of_settled _ (setPort_settled hs _ _), after]
  · have after : (s.port p).afterGood = (.probing, 2) := by simp [LinePort.afterGood, probing, one]
    rw [superviseGood_stays (by simp [after]), settle_of_settled _ (setPort_settled hs _ _), after, ← probing]
  · have after : (s.port p).afterGood = (.up, 3) := by simp [LinePort.afterGood, probing, two]
    have link := superviseGood_settle_sameLink s p
    have entered := superviseGood_enters (s := s) (p := p) (by simp [LinePort.isUp, probing]) (by rw [after])
    obtain ⟨still, asserted⟩ := clearSource_settle (s.setPort p _) (srcLinkDown_not_side p)
    refine ⟨_, rfl, link.state.trans (by rw [after]), link.probe.trans (by rw [after]), link.linkTimer, ?_, ?_⟩
    · rw [entered]; exact asserted
    · rw [entered]; exact still.trans (setPort_still s p _)
  · rw [superviseGood_up up, settle_of_settled _ (heard_settled hs)]

/-! ### Bad frames and the link timer -/

/-- An occurrence and the settling of its event (R141): the entries touched, and what they can do. -/
theorem occur_settle_consequence (s : State) (n : EntryId) :
    Consequence (fun m => m = n ∨ settleSide m) s (s.occur n).settle :=
  (occur_consequence (.inr (.inl rfl)) s n (.inl rfl)).trans ((settle_consequence _).mono fun _ => .inr)

/-- A port after a bad frame (R21). -/
def LinePort.afterBad (P : LinePort) : LinePort := if P.state = .probing then P.toDown else P

theorem badFrame_eq (s : State) (p : Port) :
    s.badFrame p = (s.setPort p (s.port p).afterBad).occur (srcLinkError p) := by
  unfold State.badFrame LinePort.afterBad
  dsimp only
  split
  · rfl
  · rw [setPort_port_self]

/-- Settles O9: a PROBING port goes DOWN first; the rest is the occurrence. -/
theorem badFramesCountAnError : Obligations.BadFramesCountAnError := by
  intro p s
  have error : ¬ settleSide (srcLinkError p) := by unfold settleSide; cases p <;> decide
  have after := occur_settle_consequence (s.setPort p (s.port p).afterBad) (srcLinkError p)
  obtain ⟨still, counted⟩ := occur_settle (s.setPort p (s.port p).afterBad) error
  have own := (after.ports p).sameLink
  have other := (after.ports p.opposite).sameLink
  rw [port_setPort] at own
  rw [port_setPort_ne s p _ _ (by cases p <;> decide)] at other
  refine ⟨_, rfl, ?_⟩
  rw [badFrame_eq]
  refine ⟨by simpa [State.stamp] using counted, fun probing => ?_, fun standing => ?_, other, by simpa using still,
    fun n notError notSide => by simpa using after.latch n (not_or.mpr ⟨notError, notSide⟩)⟩
  · have down : (s.port p).afterBad = (s.port p).toDown := if_pos probing
    rw [down] at own ⊢
    exact ⟨own.state, own.probe, own.linkTimer⟩
  · have same : (s.port p).afterBad = s.port p := if_neg standing
    rw [same] at own ⊢
    exact own

/-- Settles O10: a port that leaves UP loses its queues before its report is offered, so it takes no frame. -/
theorem linkTimerExpiryTakesAPortDown : Obligations.LinkTimerExpiryTakesAPortDown := by
  intro p s runs
  have expired : (s.port p).linkTimer ≠ none := Option.isSome_iff_ne_none.mp runs
  refine ⟨fun up => ?_, fun notUp hs => ?_⟩
  · have lost : s.linkExpired p = (s.setPort p (s.port p).toDown.emptied).occur (srcLinkDown p) := by
      unfold State.linkExpired
      dsimp only
      rw [if_neg expired, if_pos (by simp [LinePort.isUp, up])]
    have after := occur_settle_consequence (s.setPort p (s.port p).toDown.emptied) (srcLinkDown p)
    obtain ⟨still, counted⟩ := occur_settle (s.setPort p (s.port p).toDown.emptied) (srcLinkDown_not_side p)
    have port := after.ports p
    rw [port_setPort] at port
    refine ⟨_, rfl, ?_⟩
    rw [lost]
    exact ⟨port.eq_of_down rfl, by simpa [State.stamp] using counted, by simpa using still,
      fun n notDown notSide => by simpa using after.latch n (not_or.mpr ⟨notDown, notSide⟩)⟩
  · have down : s.linkExpired p = s.setPort p (s.port p).toDown := by
      unfold State.linkExpired
      dsimp only
      rw [if_neg expired, if_neg (by simp [LinePort.isUp, notUp])]
    show Host.Outcome.next (s.linkExpired p).settle = _
    rw [down, settle_of_settled _ (setPort_settled hs _ _)]
    rfl

/-! ### The transmitter -/

theorem LinePort.decide_down {P : LinePort} (h : P.isUp = false) (now limit : Nat) : P.decide now limit = P :=
  if_neg fun idle => by rw [h] at idle; exact Bool.false_ne_true idle.1

/-- An idle UP port whose aged heads are gone and that holds no other frame (R48, R50). -/
theorem LinePort.decide_none {P : LinePort} {now limit : Nat} (up : P.isUp = true) (idle : P.tx = none)
    (h : (P.ageHeads now limit).choice = none) : P.decide now limit = P.ageHeads now limit := by
  unfold LinePort.decide
  rw [if_pos ⟨up, idle⟩]
  dsimp only
  rw [h]

/-- An idle UP port whose search grants a head (R48, R50). -/
theorem LinePort.decide_some {P : LinePort} {now limit : Nat} {q : QueueId} {x : Queued} {rest : List Queued}
    (up : P.isUp = true) (idle : P.tx = none) (h : (P.ageHeads now limit).choice = some q)
    (head : (P.ageHeads now limit).queue q = x :: rest) :
    P.decide now limit = { (P.ageHeads now limit).setQueue q rest with
      tx := some x.frame, fillTimer := none, high := highAfter q, low := lowAfter P.low q } := by
  unfold LinePort.decide
  rw [if_pos ⟨up, idle⟩]
  dsimp only
  rw [h]
  exact LinePort.grantFrom_cons head

/-- A port whose transmission has completed, its fill timer started (R24). -/
def LinePort.completed (timer : Nat) (P : LinePort) : LinePort := { P with tx := none, fillTimer := some timer }

/-- The time of the next FILL of a transmitter that becomes idle now (R24). -/
def State.fillDue (s : State) : Nat := s.now + min s.node.fillPeriod (s.node.linkTimeout / 2) * 1000

theorem sent_eq {s : State} {p : Port} (busy : (s.port p).tx ≠ none) :
    s.sent p = s.setPort p (((s.port p).completed s.fillDue).decide s.now s.node.sampleAgeLimit) :=
  if_neg busy

/-- Settles O17: a completion is a grant decision on the port with its transmitter idle. -/
theorem transmittersSendFillsAndGrants : Obligations.TransmittersSendFillsAndGrants := by
  intro p s
  refine ⟨fun runs idle => ?_, fun busy down => ?_, fun busy up => ?_⟩
  · have timer : (s.port p).fillTimer ≠ none := Option.isSome_iff_ne_none.mp runs
    exact congrArg Host.Outcome.next (if_neg (not_or.mpr ⟨timer, not_not.mpr idle⟩))
  · show Host.Outcome.next (s.sent p) = _
    rw [sent_eq busy, LinePort.decide_down (P := (s.port p).completed s.fillDue) down]
    rfl
  · intro old P
    refine ⟨fun empty => ?_, fun q x rest found head => ?_⟩
    · show Host.Outcome.next (s.sent p) = _
      rw [sent_eq busy, LinePort.decide_none (P := (s.port p).completed s.fillDue) up rfl empty]
      rfl
    · show Host.Outcome.next (s.sent p) = _
      rw [sent_eq busy, LinePort.decide_some (P := (s.port p).completed s.fillDue) (x := x) (rest := rest) up rfl found
        (by cases q <;> exact head)]
      cases q <;> rfl

end Sys2Proof.Machine
end

