-- ==== Sys2Proof/Proofs/Relay.lean ====
section
/-! PROOFS. Proofs/Relay.lean: the frames that an UP port passes on (2.6): the kinds that go straight through, SAMPLE, COUNT
on an UP and on a PROBING port, and TRIGGER. -/

namespace Sys2Proof.Machine

/-! ### A relayed frame whose offer is no overrun (R40, R42) -/

theorem relay_eq_offer {s : State} {p : Port} {f : Frame} (h : (s.offer p.opposite (relayQueue f) f).2 = false) :
    s.relay p f = (s.offer p.opposite (relayQueue f) f).1 := by
  unfold State.relay
  dsimp only
  rw [h]
  rfl

/-- An offer to a queue with a free place is no occurrence of QUEUE_OVERRUN (R43). -/
theorem offer_room {s : State} {p : Port} {q : QueueId} (room : ((s.port p).queue q).length < q.capacity) (f : Frame) :
    (s.offer p q f).2 = false := by
  unfold State.offer
  dsimp only
  split
  · rw [assign, if_pos room]
  · rfl

theorem relay_low {s : State} {p : Port} {f : Frame} (low : (relayQueue f).isHigh = false) :
    s.relay p f = (s.offer p.opposite (relayQueue f) f).1 :=
  relay_eq_offer (offer_low s _ low f)

theorem relay_low_settle {s : State} (hs : s.Settled) (p : Port) {f : Frame} (low : (relayQueue f).isHigh = false) :
    (s.relay p f).settle = (s.offer p.opposite (relayQueue f) f).1 := by
  rw [relay_low low, settle_of_settled _ (offer_settled hs _ _ _)]

theorem opposite_ne (p : Port) : p.opposite ≠ p := by cases p <;> decide

theorem heard_port_opposite (s : State) (p : Port) : (s.heard p).port p.opposite = s.port p.opposite :=
  port_setPort_ne s p _ _ (opposite_ne p)

/-- A relayed frame of RH whose queue has a free place. -/
theorem relay_room_settle {s : State} (hs : s.Settled) (p : Port) {f : Frame} (high : relayQueue f = .rh)
    (room : (s.port p.opposite).rh.length < 8) : (s.relay p f).settle = (s.offer p.opposite .rh f).1 := by
  have offered : (s.offer p.opposite (relayQueue f) f).2 = false := by
    rw [high]; exact offer_room (q := .rh) room f
  rw [relay_eq_offer offered, settle_of_settled _ (offer_settled hs _ _ _), high]

/-- Settles O12: every dispatch is one relay from the port that has been heard. -/
theorem relayedKindsGoStraightThrough : Obligations.RelayedKindsGoStraightThrough := by
  intro p s h
  have hs : (s.heard p).Settled := heard_settled h.1
  have exec : ∀ dispatch : State → State, Host.Outcome.next (σ := State) (φ := Fault) (ρ := Refusal)
      (s.goodUp p dispatch) = .next (dispatch (s.heard p)).settle :=
    fun dispatch => congrArg _ (goodUp_hears h dispatch)
  refine ⟨fun f advisory => ?_, fun f high room => ?_, fun f wf => ?_, fun f wf away => ?_, fun k => ?_⟩
  · have queue : relayQueue (.event f) = .rl := if_pos advisory
    refine (exec _).trans (congrArg _ ?_)
    rw [relay_low_settle hs p (by rw [queue]; rfl), queue]
  · have queue : relayQueue (.event f) = .rh := if_neg high
    refine (exec _).trans (congrArg _ ?_)
    rw [relay_room_settle hs p queue (by rwa [heard_port_opposite])]
  · refine (exec _).trans (congrArg _ ?_)
    rw [if_pos wf, relay_low_settle hs p rfl]
    rfl
  · refine (exec _).trans (congrArg _ ?_)
    rw [if_pos (by rw [wf, bne_iff_ne.mpr away]; rfl), relay_low_settle hs p rfl]
    rfl
  · have set : State.Settled { s.heard p with clock := k, clockSet := true } := hs
    exact (exec _).trans (congrArg _ (relay_low_settle set p rfl))

/-! ### SAMPLE (R28) -/

/-- An item offered to the cache changes the cache alone. -/
theorem tapItem_tap (origin : Nat) (s : State) (it : SampleItem) :
    State.tapItem origin s it = { s with tap := (State.tapItem origin s it).tap } := by
  unfold State.tapItem
  split
  · rfl
  · split
    · rfl
    · split
      · split <;> rfl
      · rfl

/-- What an item does to the cache does not depend on the ports. -/
theorem tapItem_setPort (origin : Nat) (s : State) (p : Port) (P : LinePort) (it : SampleItem) :
    State.tapItem origin (s.setPort p P) it = (State.tapItem origin s it).setPort p P := by
  have learns : (s.setPort p P).learns origin it.kind = s.learns origin it.kind := by cases p <;> rfl
  unfold State.tapItem
  rw [learns, setPort_posA, setPort_tap, setPort_node]
  split
  · rfl
  · split
    · cases p <;> rfl
    · split
      · split <;> cases p <;> rfl
      · rfl

theorem tapItems_tap (s : State) (f : SampleFields) : s.tapItems f = { s with tap := (s.tapItems f).tap } := by
  unfold State.tapItems
  induction f.items generalizing s with
  | nil => rfl
  | cons it items ih =>
    rw [List.foldl_cons, ih, tapItem_tap]

theorem tapItems_setPort (s : State) (p : Port) (P : LinePort) (f : SampleFields) :
    (s.setPort p P).tapItems f = (s.tapItems f).setPort p P := by
  unfold State.tapItems
  induction f.items generalizing s with
  | nil => rfl
  | cons it items ih => rw [List.foldl_cons, List.foldl_cons, tapItem_setPort, ih]

theorem tapItems_heard (s : State) (p : Port) (f : SampleFields) :
    (s.heard p).tapItems f = { s.heard p with tap := (s.tapItems f).tap } := by
  unfold State.heard
  rw [tapItems_setPort, tapItems_tap]
  cases p <;> rfl

/-- Settles O14: the items touch the cache alone, and the relayed frame goes to RL. -/
theorem samplesAreTappedAndRelayed : Obligations.SamplesAreTappedAndRelayed := by
  intro p f s h wf
  have tapped : State.Settled { s.heard p with tap := (s.tapItems f).tap } := heard_settled h.1
  have exec : exec (.sample p f) s = .next ((s.heard p).takeSample p f).settle := by
    refine (congrArg Host.Outcome.next (goodUp_hears h _)).trans ?_
    rw [if_pos wf]
  rw [exec, State.takeSample, tapItems_heard]
  refine ⟨fun near => ?_, fun far => ?_⟩
  · rw [if_neg (by omega), settle_of_settled _ tapped]
  · rw [if_pos far, relay_low_settle tapped p rfl]
    rfl

/-! ### Jets' requests formed again (R104 to R106) -/

/-- A request of magnitude 0 is no request (R105). -/
theorem takeRequest_zero (F : Fan) (now duty : Nat) {c : Cmd} (h : c.mag = 0) :
    F.takeRequest now c duty = F.takeRequest now {} duty := by
  simp [Fan.takeRequest, h]

/-- The minimum-run test says when a command is dropped (R94). -/
theorem minRun_eq (F : Fan) (c : Cmd) :
    F.minRun c = if F.available = false ∨ c.mag = 0 ∨ c.mag < F.leastRun c.dir then {} else c := by
  cases hs : F.state <;>
    simp [Fan.minRun, Fan.available, Fan.leastRun, Fan.runDir, hs, FanCfg.effStop, eq_comm (a := c.dir)]

/-- The request that a re-formation makes of the handed command. -/
theorem takeRequest_minRun (F : Fan) (now : Nat) (jetsHeld : Bool) :
    F.takeRequest now (if jetsHeld then {} else F.minRun F.handed) F.handedDuty =
      F.takeRequest now
        (if jetsHeld = true ∨ F.available = false ∨ F.handed.mag < F.leastRun F.handed.dir then {} else F.handed)
        F.handedDuty := by
  cases jetsHeld
  · rw [minRun_eq]
    by_cases zero : F.handed.mag = 0
    · have none : ∀ b : Prop, [Decidable b] →
          F.takeRequest now (if b then {} else F.handed) F.handedDuty = F.takeRequest now {} F.handedDuty := by
        intro b _
        split
        · rfl
        · exact takeRequest_zero F now _ zero
      rw [if_neg Bool.false_ne_true, none, none]
    · simp [zero]
  · simp

theorem guardApplies_congr {s t : State} (stack : t.stack = s.stack) (plan : t.plan = s.plan) (posA : t.posA = s.posA) :
    t.guardApplies = s.guardApplies := by
  unfold State.guardApplies State.stepOf
  rw [stack, plan, posA]

theorem jetsHeld_congr {s t : State} (stack : t.stack = s.stack) (plan : t.plan = s.plan) (posA : t.posA = s.posA)
    (node : t.nodeState = s.nodeState) : t.jetsHeld = s.jetsHeld := by
  unfold State.jetsHeld
  rw [node, guardApplies_congr stack plan posA]

theorem reformJets_eq (s : State) :
    (s.reformJet jet1).reformJet jet2 = { s with fans := ((s.reformJet jet1).reformJet jet2).fans } := rfl

/-- Both jets' requests formed again, and the passage channel's not. -/
theorem reformJets_fans (s : State) (f : FanId) :
    ((s.reformJet jet1).reformJet jet2).fans[f] =
      if f = passage then s.fans[f]
      else s.fans[f].takeRequest s.now (if s.jetsHeld then {} else s.fans[f].minRun s.fans[f].handed)
        s.fans[f].handedDuty := by
  have second : ((s.reformJet jet1).reformJet jet2).fans[f] = if f = jet2 then
      (s.reformJet jet1).fans[jet2].takeRequest s.now
        (if s.jetsHeld then {} else (s.reformJet jet1).fans[jet2].minRun (s.reformJet jet1).fans[jet2].handed)
        (s.reformJet jet1).fans[jet2].handedDuty else (s.reformJet jet1).fans[f] := fans_setFan _ jet2 f _
  have first : ∀ g : FanId, (s.reformJet jet1).fans[g] = if g = jet1 then
      s.fans[jet1].takeRequest s.now (if s.jetsHeld then {} else s.fans[jet1].minRun s.fans[jet1].handed)
        s.fans[jet1].handedDuty else s.fans[g] := fun g => fans_setFan s jet1 g _
  rw [second, first, first]
  fin_cases f <;> rfl

/-! ### COUNT (R31 to R33) -/

/-- The guard and the overrides of the jets do not read the cache. -/
theorem withTap_guardApplies (s : State) (tap : TapCache) : State.guardApplies { s with tap := tap } = s.guardApplies := rfl

theorem withTap_jetsHeld (s : State) (tap : TapCache) : State.jetsHeld { s with tap := tap } = s.jetsHeld := rfl

theorem withTap_fans (s : State) (tap : TapCache) : State.fans { s with tap := tap } = s.fans := rfl

theorem withTap_now (s : State) (tap : TapCache) : State.now { s with tap := tap } = s.now := rfl

theorem flushUnlocked_tap (s : State) (i : Fin 128) :
    s.flushUnlocked.tap[i] = if wayOf i < s.node.effLock then s.tap[i] else none := by
  show (flushPlaces s.tap s.node.effLock false)[i] = _
  by_cases locked : wayOf i < s.node.effLock <;> simp [flushPlaces, wayLocked, locked]

/-- A state that differs in the cache and the fans alone. -/
theorem eq_withTapFans {s u t : State} {tap : TapCache} {fans : Vector Fan 3} (cache : u = { s with tap := tap })
    (channels : t = { u with fans := fans }) : t = { s with tap := t.tap, fans := t.fans } := by
  subst cache
  subst channels
  rfl

theorem eq_withTap {s t : State} {tap : TapCache} (cache : t = { s with tap := tap }) :
    t = { s with tap := t.tap, fans := t.fans } := by
  subst cache
  rfl

theorem flushUnlocked_eq (s : State) : s.flushUnlocked = { s with tap := s.flushUnlocked.tap } := rfl

/-- What follows the occurrence of a change of posA (R33): the flush, and the guard re-tested. -/
theorem positionSet_of_occur {s w : State} {k : Byte}
    (occurred : State.occur { s with posA := nextPosition k } srcPosition = w) :
    PositionSet s k (State.guardRetest s.guardApplies w.flushUnlocked) := by
  have reported : Reported anyEntry { s with posA := nextPosition k } w :=
    occurred ▸ occur_reported trivial _ srcPosition trivial
  have after : Consequence anyEntry { s with posA := nextPosition k } w :=
    occurred ▸ occur_consequence trivial _ srcPosition trivial
  have guard : w.flushUnlocked.guardApplies = State.guardApplies { s with posA := nextPosition k } :=
    (withTap_guardApplies w _).trans <| guardApplies_congr reported.stack reported.plan reported.posA
  have held : w.flushUnlocked.jetsHeld = State.jetsHeld { s with posA := nextPosition k } :=
    (withTap_jetsHeld w _).trans <| jetsHeld_congr reported.stack reported.plan reported.posA reported.nodeState
  have fans : w.flushUnlocked.fans = s.fans := (withTap_fans w _).trans reported.fans
  have now : w.flushUnlocked.now = s.now := (withTap_now w _).trans reported.now
  have flushed : ∀ i : Fin 128, w.flushUnlocked.tap[i] = if wayOf i < s.node.effLock then s.tap[i] else none := by
    intro i
    rw [flushUnlocked_tap, after.tap, after.node]
  rw [State.guardRetest, guard]
  by_cases same : State.guardApplies { s with posA := nextPosition k } = s.guardApplies
  · rw [if_pos same]
    exact
      { same := by rw [occurred]; exact eq_withTap (flushUnlocked_eq w)
        tap := flushed
        kept := fun _ => fans
        passageKept := by rw [fans]
        reformed := fun change => absurd same change }
  · rw [if_neg same]
    refine
      { same := by rw [occurred]; exact eq_withTapFans (flushUnlocked_eq w) (reformJets_eq _)
        tap := flushed
        kept := fun h => absurd h same
        passageKept := ?_
        reformed := fun _ f jet => ?_ }
    · rw [reformJets_fans, if_pos rfl, fans]
    · rw [reformJets_fans, if_neg jet, takeRequest_minRun, held, now, fans]

theorem setPosA_positionSet {s : State} {k : Byte} (ne : s.posA ≠ nextPosition k) :
    PositionSet s k (s.setPosA (nextPosition k)) := by
  have changed : s.setPosA (nextPosition k) = State.guardRetest s.guardApplies
      (State.occur { s with posA := nextPosition k } srcPosition).flushUnlocked := if_neg ne
  rw [changed]
  exact positionSet_of_occur rfl

theorem relayCount_eq (s : State) (p : Port) (side : Side) (k : Byte) :
    s.relayCount p side k =
      if k.toNat + 1 ≤ 254 then (s.offer p.opposite .rl (.count side (k + 1))).1 else s := by
  unfold State.relayCount
  rw [relay_low rfl]
  rfl

theorem relayCount_settled {s : State} (hs : s.Settled) (p : Port) (side : Side) (k : Byte) :
    (s.relayCount p side k).settle = s.relayCount p side k := by
  rw [relayCount_eq]
  split
  · exact settle_of_settled _ (offer_settled hs _ _ _)
  · exact settle_of_settled _ hs

/-- A COUNT of tag A on port A that changes posA: its relay and what it owes come after the change (R31, R33, R70). -/
theorem takeCount_moves {s : State} {k : Byte} (ne : s.posA ≠ nextPosition k) :
    ∃ v, PositionSet s k v ∧ (s.takeCount .a .a k).settle.tap = v.tap ∧
      (s.takeCount .a .a k).settle =
        State.settle (if k.toNat + 1 ≤ 254 then (v.offer .b .rl (.count .a (k + 1))).1 else v) ∧
      (s.takeCount .a .a k).settle.still =
        { s.still with posA := nextPosition k, tap := (s.takeCount .a .a k).settle.tap } ∧
      LatchEntry.CountedOnce srcPosition s.stamp (nextPosition k) s.latch[srcPosition]
        (s.takeCount .a .a k).settle.latch[srcPosition] := by
  let m : State := { s with posA := nextPosition k }
  let v := s.setPosA (nextPosition k)
  have set : PositionSet s k v := setPosA_positionSet ne
  have relayed : s.takeCount .a .a k = v.relayCount .a .a k := rfl
  have after : Consequence settleSide v (v.relayCount .a .a k).settle := by
    refine .trans ?_ (settle_consequence _)
    rw [relayCount_eq]
    split
    · exact offer_consequence _ v .b .rl _ rfl
    · exact .refl _ v
  have occurred : (m.occur srcPosition).still = m.still :=
    (occur_consequence (E := anyEntry) trivial m srcPosition trivial).still
  have still : v.still = { (m.occur srcPosition).still with tap := v.tap } := by
    have same := congrArg State.still set.same
    exact same
  have latch : v.latch = (m.occur srcPosition).latch := by
    have same := congrArg State.latch set.same
    exact same
  have counted := occurFrom_counted m srcPosition m.posA (by decide)
  have side : ¬ settleSide srcPosition := by unfold settleSide; decide
  rw [relayed]
  refine ⟨v, set, after.tap, ?_, ?_, ?_⟩
  · rw [relayCount_eq]; rfl
  · rw [after.still, still, occurred, after.tap]; rfl
  · refine counted.trans_same ?_
    have := after.latch _ side
    rwa [latch] at this

/-- Every COUNT on a settled state, by its tag and port (R31, R32). -/
theorem takeCount_settled {s : State} (hs : s.Settled) (p : Port) (side : Side) (k : Byte) :
    (side = .a → p = .a → s.posA = nextPosition k → (s.takeCount p side k).settle =
      if k.toNat + 1 ≤ 254 then (s.offer .b .rl (.count .a (k + 1))).1 else s) ∧
    (side = .b → p = .b → (s.takeCount p side k).settle =
      if k.toNat + 1 ≤ 254 then (State.offer { s with posB := nextPosition k } .a .rl (.count .b (k + 1))).1
      else { s with posB := nextPosition k }) ∧
    ((side = .a ∧ p = .b ∨ side = .b ∧ p = .a) → (s.takeCount p side k).settle.still = s.still ∧
      LatchEntry.CountedOnce srcWiring s.stamp s.posA s.latch[srcWiring] (s.takeCount p side k).settle.latch[srcWiring]) := by
  refine ⟨?_, ?_, ?_⟩
  · rintro rfl rfl same
    have kept : s.setPosA (nextPosition k) = s := if_pos same
    show ((s.setPosA (nextPosition k)).relayCount .a .a k).settle = _
    rw [kept, relayCount_settled hs, relayCount_eq]
    rfl
  · rintro rfl rfl
    have set : State.Settled { s with posB := nextPosition k } := hs
    show (State.relayCount { s with posB := nextPosition k } .b .b k).settle = _
    rw [relayCount_settled set, relayCount_eq]
    rfl
  · have side : ¬ settleSide srcWiring := by unfold settleSide; decide
    rintro (⟨rfl, rfl⟩ | ⟨rfl, rfl⟩) <;> exact occur_settle s side

theorem guardApplies_iff (s : State) : s.guardApplies = true ↔ ∃ c, s.active = some c ∧ 0 < s.plan[c.step].guardSpan ∧
    s.posA ≤ c.origin + s.plan[c.step].guardSpan ∧ c.origin ≤ s.posA + s.plan[c.step].guardSpan := by
  unfold State.guardApplies State.active
  cases s.stack with
  | nil => simp
  | cons c rest =>
    rw [Bool.and_eq_true, decide_eq_true_iff, decide_eq_true_iff]
    simp only [List.head?_cons, Option.some.injEq, exists_eq_left', State.stepOf]
    unfold distance
    split <;> omega

theorem exec_count {s : State} {p : Port} {u : State} (h : (s.superviseGood p).settle = u) (side : Side) (k : Byte) :
    exec (.count p side k) s = .next (u.takeCount p side k).settle :=
  h ▸ rfl

/-- Settles O15: the COUNT acts on the port that has been heard. -/
theorem countsSetPositions : Obligations.CountsSetPositions := by
  refine ⟨guardApplies_iff, fun p side k s h => ?_⟩
  have supervised : (s.superviseGood p).settle = s.heard p := by
    rw [superviseGood_up h.2, settle_of_settled _ (heard_settled h.1)]
  obtain ⟨unmoved, portB, wiring⟩ := takeCount_settled (heard_settled (p := p) h.1) p side k
  have posA : (s.heard p).posA = s.posA := setPort_posA s p _
  have latch : (s.heard p).latch = s.latch := setPort_latch s p _
  have stamp : (s.heard p).stamp = s.stamp := by cases p <;> rfl
  rw [exec_count supervised]
  rw [posA] at unmoved wiring
  rw [latch, stamp] at wiring
  refine ⟨?_, fun sideA portA same => congrArg _ (unmoved sideA portA same),
    fun sideB isB => congrArg _ (portB sideB isB), fun differ => ⟨_, rfl, wiring differ⟩⟩
  rintro rfl rfl ne
  obtain ⟨v, set, tap, settled, still, counted⟩ := takeCount_moves (s := s.heard .a) (k := k) ne
  exact ⟨_, rfl, still, counted, fun i => by rw [tap]; exact set.tap i, v, set, settled⟩

/-! ### A port that the frame leaves in PROBING (R25) -/

/-- A port that one good frame does not bring to UP (R21). -/
def LinePort.StaysDown (P : LinePort) : Prop := P.state = .down ∨ (P.state = .probing ∧ P.probe < 2)

theorem LinePort.StaysDown.afterGood {P : LinePort} (h : P.StaysDown) :
    P.afterGood = (.probing, if P.state = .down then 1 else P.probe + 1) := by
  rcases h with down | ⟨probing, few⟩
  · simp [LinePort.afterGood, down]
  · simp [LinePort.afterGood, probing, Nat.not_le.mpr few]

/-- There a frame that UP alone dispatches does what a FILL does. -/
theorem goodUp_staysDown {s : State} {p : Port} (h : (s.port p).StaysDown) (dispatch : State → State) :
    Host.Outcome.next (s.goodUp p dispatch) = exec (.fill p) s := by
  have link := superviseGood_settle_sameLink s p
  have down : ((s.superviseGood p).settle.port p).isUp = false := by
    rw [link.isUp]
    simp [LinePort.isUp, h.afterGood]
  rw [exec_fill]
  unfold State.goodUp
  simp only [down, Bool.false_eq_true, if_false]

/-- Settles O8: a PROBING port dispatches FILL and COUNT alone, a COUNT from the port that supervision has left. -/
theorem probingDiscardsOtherKinds : Obligations.ProbingDiscardsOtherKinds := by
  refine ⟨fun c p s upOnly h => ?_, fun p side k s u hs h hu => ?_⟩
  · have other := goodUp_staysDown (s := s) (p := p) h
    cases c <;> cases upOnly <;> exact other _
  · have stays : LinePort.StaysDown (s.port p) := h
    have supervised : (s.superviseGood p).settle = u := by
      rw [superviseGood_stays (by simp [stays.afterGood]), settle_of_settled _ (setPort_settled hs _ _), hu,
        stays.afterGood]
    have settled : u.Settled := supervised ▸ settle_settled _
    obtain ⟨unmoved, portB, wiring⟩ := takeCount_settled settled p side k
    have posA : u.posA = s.posA := hu ▸ setPort_posA s p _
    have latch : u.latch = s.latch := hu ▸ setPort_latch s p _
    have stamp : u.stamp = s.stamp := by rw [hu]; cases p <;> rfl
    rw [exec_count supervised]
    rw [posA] at unmoved wiring
    rw [latch, stamp] at wiring
    refine ⟨?_, fun sideA portA same => congrArg _ (unmoved sideA portA same),
      fun sideB isB => congrArg _ (portB sideB isB), fun differ => ⟨_, rfl, wiring differ⟩⟩
    rintro rfl rfl ne
    obtain ⟨v, set, -, moved, still, counted⟩ := takeCount_moves (s := u) (k := k) (posA ▸ ne)
    rw [latch, stamp] at counted
    exact ⟨_, rfl, still, counted, v, set, moved⟩

end Sys2Proof.Machine
end

