-- ==== Sys2Proof/Proofs/Trigger.lean ====
section
/-! PROOFS. Proofs/Trigger.lean: TRIGGER (R36, R37). The node's own report of the line entry goes to LH or LL, so it leaves
RH no fuller than it was, and a busy port's RH as it was; the relayed frame therefore finds the room that the received one
found. -/

namespace Sys2Proof.Machine

/-! ### What local frames leave of RH -/

/-- A port whose RH has lost frames to grants at most, and none while it transmits. -/
structure LinePort.RelayKept (P Q : LinePort) : Prop where
  up : Q.isUp = P.isUp
  fewer : Q.rh.length ≤ P.rh.length
  busy : P.tx ≠ none → Q.rh = P.rh ∧ Q.tx = P.tx

theorem LinePort.RelayKept.refl (P : LinePort) : P.RelayKept P := ⟨rfl, Nat.le_refl _, fun _ => ⟨rfl, rfl⟩⟩

theorem LinePort.RelayKept.trans {P Q R : LinePort} (h : P.RelayKept Q) (g : Q.RelayKept R) : P.RelayKept R where
  up := g.up.trans h.up
  fewer := g.fewer.trans h.fewer
  busy busy := by
    obtain ⟨rh, tx⟩ := h.busy busy
    obtain ⟨rh', tx'⟩ := g.busy (tx ▸ busy)
    exact ⟨rh'.trans rh, tx'.trans tx⟩

/-- Both ports keep their RH so. -/
def State.KeepsRelay (s t : State) : Prop := ∀ r, (s.port r).RelayKept (t.port r)

theorem State.KeepsRelay.refl (s : State) : s.KeepsRelay s := fun r => .refl (s.port r)

theorem State.KeepsRelay.trans {s t u : State} (h : s.KeepsRelay t) (g : t.KeepsRelay u) : s.KeepsRelay u :=
  fun r => (h r).trans (g r)

theorem State.KeepsRelay.of_ports {s t : State} (h : t.ports = s.ports) : s.KeepsRelay t := fun r => by
  rw [State.port_congr h]; exact .refl _

theorem LinePort.decide_busy {P : LinePort} (busy : P.tx ≠ none) (now limit : Nat) : P.decide now limit = P :=
  if_neg fun idle => busy idle.2

/-- A frame offered to another queue than RH. -/
theorem offer_keepsRelay (s : State) (p : Port) {q : QueueId} (hq : q ≠ .rh) (f : Frame) :
    s.KeepsRelay (s.offer p q f).1 := by
  unfold State.offer
  dsimp only
  split
  · split
    · rename_i l _
      intro r
      rw [port_setPort_eq]
      split
      · rename_i own
        subst own
        have rh : ((s.port r).setQueue q l).rh = (s.port r).rh :=
          (LinePort.queue_setQueue (s.port r) q .rh l).trans (if_neg hq.symm)
        refine ⟨?_, ?_, fun busy => ?_⟩
        · rw [(LinePort.decide_sameLink _ _ _).isUp, LinePort.setQueue_isUp]
        · exact rh ▸ (LinePort.decide_queue _ _ _ .rh).length_le
        · rw [LinePort.decide_busy (by simpa using busy)]
          exact ⟨rh, LinePort.setQueue_tx _ _ _⟩
      · exact .refl _
    · exact .refl s
    · exact .refl s
  · exact .refl s

theorem localQueue_ne_rh (f : Frame) : localQueue f ≠ .rh := by
  rcases localQueue_local f with h | h <;> rw [h] <;> decide

theorem offerBoth_keepsRelay (s : State) (f : Frame) : s.KeepsRelay (s.offerBoth f).1 :=
  (offer_keepsRelay s .a (localQueue_ne_rh f) f).trans (offer_keepsRelay _ .b (localQueue_ne_rh f) f)

theorem overrun_keepsRelay (s : State) : s.KeepsRelay s.overrun := by
  refine .trans (t := s.countOccurrence srcOverrun s.posA) (.of_ports rfl) ?_
  show State.KeepsRelay _ (s.countOccurrence srcOverrun s.posA).reportOverrun
  unfold State.reportOverrun
  split
  · exact offerBoth_keepsRelay _ _
  · exact .refl _

theorem sendLocal_keepsRelay (s : State) (f : Frame) : s.KeepsRelay (s.sendLocal f) := by
  have overruns : ∀ (k : Nat) (s : State), s.KeepsRelay (State.overruns k s) := by
    intro k
    induction k with
    | zero => exact .refl
    | succ k ih => exact fun s => (overrun_keepsRelay s).trans (ih s.overrun)
  exact (offerBoth_keepsRelay s f).trans (overruns _ _)

theorem occurFrom_keepsRelay (s : State) (n : EntryId) (o : Nat) : s.KeepsRelay (s.occurFrom n o) := by
  refine .trans (t := s.countOccurrence n o) (.of_ports rfl) ?_
  show State.KeepsRelay _ ((s.countOccurrence n o).reportOccurred n)
  unfold State.reportOccurred
  split
  · exact sendLocal_keepsRelay _ _
  · exact .refl _

theorem clearWithCode_keepsRelay (s : State) (n : EntryId) (code : Word) : s.KeepsRelay (s.clearWithCode n code) := by
  unfold State.clearWithCode
  split
  · refine .trans (t := s.markCleared n) (.of_ports rfl) ?_
    unfold State.reportCleared
    split
    · exact sendLocal_keepsRelay _ _
    · exact .refl _
  · exact .refl s

/-! ### A frame relayed to RH (R40, R43) -/

theorem relay_room {s : State} {p : Port} (f : TriggerFields) (room : (s.port p.opposite).rh.length < 8) :
    s.relay p (.trigger f) = (s.offer p.opposite .rh (.trigger f)).1 :=
  relay_eq_offer (offer_room (q := .rh) room (.trigger f))

/-- A TRIGGER relayed to a full RH counts an occurrence of QUEUE_OVERRUN; it is never the node's own report of it. -/
theorem relay_full {s : State} {p : Port} (f : TriggerFields) (up : (s.port p.opposite).isUp = true)
    (full : 8 ≤ (s.port p.opposite).rh.length) : s.relay p (.trigger f) = s.overrun := by
  have offered : s.offer p.opposite (relayQueue (.trigger f)) (.trigger f) = (s, true) := by
    have lost : assign .rh ⟨.trigger f, s.now⟩ (s.port p.opposite).rh = ((s.port p.opposite).rh, .overrun) :=
      (if_neg (Nat.not_lt.mpr full)).trans (if_pos rfl)
    show s.offer p.opposite .rh (.trigger f) = (s, true)
    unfold State.offer
    dsimp only
    rw [if_pos up, show (s.port p.opposite).queue .rh = (s.port p.opposite).rh from rfl, lost]
    rfl
  unfold State.relay
  rw [offered]
  rfl

/-! ### The line entry of a TRIGGER (R36) -/

/-- The lowest line entry that holds the code. -/
theorem lineFor_some {s : State} {code : Word} {i : Fin 16} (range : 0x0800 ≤ code.toNat) (holds : s.lines[i].code = code)
    (lowest : ∀ j : Fin 16, s.lines[j].code = code → i ≤ j) : s.lineFor code = some i := by
  unfold State.lineFor
  rw [if_neg (by omega), List.find?_eq_some_iff_getElem]
  refine ⟨beq_iff_eq.mpr holds, i.val, by simp, by simp, fun j hj => ?_⟩
  rw [List.getElem_finRange, Bool.not_eq_true', beq_eq_false_iff_ne]
  intro same
  have := lowest _ same
  simp only [Fin.le_def, Fin.val_cast] at this
  omega

theorem lineFor_none {s : State} {code : Word}
    (h : code.toNat < 0x0800 ∨ ∀ i : Fin 16, s.lines[i].code ≠ code) : s.lineFor code = none := by
  unfold State.lineFor
  split
  · rfl
  · rename_i range
    rw [List.find?_eq_none]
    intro i _ same
    exact h.resolve_left range i (beq_iff_eq.mp same)

theorem insideSpan_iff (s : State) (f : TriggerFields) : s.insideSpan f = true ↔
    s.posA ≠ 0 ∧ f.first.toNat ≤ s.posA ∧ s.posA ≤ f.last.toNat ∧ f.origin.toNat ≠ s.posA ∧ f.origin.toNat ≤ 254 := by
  simp [State.insideSpan, and_assoc]

theorem spanAhead_iff (s : State) (p : Port) (f : TriggerFields) : s.spanAhead p f = true ↔
    s.posA = 0 ∨ (p = .a ∧ s.posA < f.last.toNat) ∨ (p = .b ∧ f.first.toNat < s.posA) := by
  cases p <;> simp [State.spanAhead]

/-- A TRIGGER that acts on no line entry. -/
theorem actTrigger_none {s : State} {f : TriggerFields} (h : s.insideSpan f = false ∨ s.lineFor f.code = none) :
    s.actTrigger f = s := by
  unfold State.actTrigger
  rcases h with outside | absent
  · rw [outside]; rfl
  · rw [absent]; simp

/-- A SET that acts on a line entry: an occurrence (R36, R142). -/
theorem actTrigger_set {s : State} {f : TriggerFields} {i : Fin 16} (inside : s.insideSpan f = true)
    (line : s.lineFor f.code = some i) (set : f.mode = .set) :
    s.actTrigger f = s.occurFrom (srcLine i) f.origin.toNat := by
  unfold State.actTrigger
  rw [if_pos inside, line, set]

/-- A CLEAR that acts on a line entry: a clearing (R36, R143). -/
theorem actTrigger_clear {s : State} {f : TriggerFields} {i : Fin 16} (inside : s.insideSpan f = true)
    (line : s.lineFor f.code = some i) (clear : f.mode = .clear) : s.actTrigger f = s.clearSource (srcLine i) := by
  unfold State.actTrigger
  rw [if_pos inside, line, clear]

theorem actTrigger_consequence (s : State) (f : TriggerFields) : Consequence anyEntry s (s.actTrigger f) := by
  unfold State.actTrigger
  split
  · split
    · exact .refl _ s
    · split
      · exact occurFrom_consequence trivial s _ _ trivial
      · exact clearSource_consequence trivial s _ trivial
  · exact .refl _ s

theorem actTrigger_keepsRelay (s : State) (f : TriggerFields) : s.KeepsRelay (s.actTrigger f) := by
  unfold State.actTrigger
  split
  · split
    · exact .refl s
    · split
      · exact occurFrom_keepsRelay s _ _
      · exact clearWithCode_keepsRelay s _ _
  · exact .refl s

/-- What comes after the action: the relay and what the event owes. -/
theorem takeTrigger_after (s : State) (p : Port) (f : TriggerFields) :
    Consequence settleSide (s.actTrigger f) (s.takeTrigger p f).settle := by
  refine .trans ?_ (settle_consequence _)
  unfold State.takeTrigger
  dsimp only
  split
  · exact relay_consequence (f := .trigger f) (.inl rfl) _ p nofun
  · exact .refl _ _

/-- The relay of a TRIGGER by what the received one found (R37, R43). -/
theorem takeTrigger_relay (s : State) (p : Port) (f : TriggerFields) :
    (s.spanAhead p f = true →
      ((s.port p.opposite).rh.length < 8 →
        s.takeTrigger p f = ((s.actTrigger f).offer p.opposite .rh (.trigger f)).1) ∧
      ((s.port p.opposite).isUp = true → (s.port p.opposite).tx ≠ none → 8 ≤ (s.port p.opposite).rh.length →
        s.takeTrigger p f = (s.actTrigger f).overrun)) ∧
    (s.spanAhead p f = false → s.takeTrigger p f = s.actTrigger f) := by
  have kept := actTrigger_keepsRelay s f p.opposite
  have ahead : (s.actTrigger f).spanAhead p f = s.spanAhead p f := by
    unfold State.spanAhead
    rw [(actTrigger_consequence s f).posA]
  unfold State.takeTrigger
  dsimp only
  rw [ahead]
  refine ⟨fun is => ⟨fun room => ?_, fun up busy full => ?_⟩, fun not => if_neg (by rw [not]; exact Bool.false_ne_true)⟩
  · rw [if_pos is, relay_room f (kept.fewer.trans_lt room)]
  · rw [if_pos is, relay_full f (kept.up.trans up) (by rw [(kept.busy busy).1]; exact full)]

theorem srcLine_not_side (i : Fin 16) : ¬ settleSide (srcLine i) := by
  revert i; unfold settleSide; decide

/-- What a clearing leaves in its own entry, the serve state apart (R143). -/
theorem clearWithCode_record (s : State) (n : EntryId) (code : Word) (hn : n ≠ srcOverrun) :
    SameRecord { s.latch[n] with asserted := false } (s.clearWithCode n code).latch[n] := by
  unfold State.clearWithCode
  split
  · rw [(reportCleared_reported (E := overrunOnly) rfl (s.markCleared n) n code).latch n hn]
    show SameRecord _ ((s.setLatch n _).latch[n])
    rw [latch_setLatch_self]
    exact ⟨rfl, rfl, rfl, rfl, rfl, rfl⟩
  · rename_i clear
    exact ⟨Bool.eq_false_of_not_eq_true clear, rfl, rfl, rfl, rfl, rfl⟩

theorem sourceCode_srcLine (s : State) (i : Fin 16) : s.sourceCode (srcLine i) = s.lines[i].code := by
  have line : ¬ (srcLine i).val < 35 := by show ¬ 35 + i.val < 35; omega
  unfold State.sourceCode
  rw [dif_neg line]
  simp [srcLine]

/-- An occurrence of QUEUE_OVERRUN: its report makes no further one (R43, R44). -/
theorem overrun_counted (s : State) :
    s.overrun.still = s.still ∧
      LatchEntry.CountedOnce srcOverrun s.stamp s.posA s.latch[srcOverrun] s.overrun.latch[srcOverrun] := by
  refine ⟨(overrun_consequence (E := anyEntry) s trivial).still, ?_⟩
  have entry : s.overrun.latch[srcOverrun] =
      s.latch[srcOverrun].occurred srcOverrun s.stamp s.posA (s.planValid srcOverrun) := by
    show (s.countOccurrence srcOverrun s.posA).reportOverrun.latch[srcOverrun] = _
    rw [(reportOverrun_reported (fun _ => False) (s.countOccurrence srcOverrun s.posA)).latch srcOverrun id]
    exact latch_setLatch_self s srcOverrun _
  rw [entry]
  refine ⟨rfl, rfl, ?_, rfl, rfl, Bool.or_comm _ _⟩
  unfold LatchEntry.occurred
  cases s.latch[srcOverrun].first <;> rfl

/-- A TRIGGER that acts: what it leaves, and the state its relay starts from. -/
theorem takeTrigger_acts {s : State} {p : Port} {f : TriggerFields} {i : Fin 16} (inside : s.insideSpan f = true)
    (line : s.lineFor f.code = some i) (code : s.lines[i].code = f.code) :
    (s.takeTrigger p f).settle.still = s.still ∧
    (f.mode = .set → s.actTrigger f = s.occurFrom (srcLine i) f.origin.toNat ∧
      LatchEntry.CountedOnce (srcLine i) s.stamp f.origin.toNat s.latch[srcLine i]
        (s.takeTrigger p f).settle.latch[srcLine i]) ∧
    (f.mode = .clear → s.actTrigger f = s.clearWithCode (srcLine i) f.code ∧
      SameRecord { s.latch[srcLine i] with asserted := false } (s.takeTrigger p f).settle.latch[srcLine i]) := by
  have after := takeTrigger_after s p f
  have entry := after.latch _ (srcLine_not_side i)
  have other : srcLine i ≠ srcOverrun := fun e => srcLine_not_side i (.inl e)
  refine ⟨after.still.trans (actTrigger_consequence s f).still, fun set => ?_, fun clear => ?_⟩
  · have acts := actTrigger_set inside line set
    exact ⟨acts, (acts ▸ occurFrom_counted s _ _ other).trans_same entry⟩
  · have cleared : s.actTrigger f = s.clearWithCode (srcLine i) f.code := by
      rw [actTrigger_clear inside line clear, State.clearSource, sourceCode_srcLine, code]
    exact ⟨cleared, (cleared ▸ clearWithCode_record s _ _ other).trans entry⟩

/-- Settles O16: the action and the relay that follows it, each on the port that has been heard. -/
theorem triggersActInsideTheirSpan : Obligations.TriggersActInsideTheirSpan := by
  refine ⟨fun p f s h => ?_, overrun_counted⟩
  have exec : exec (.trigger p f) s = .next ((s.heard p).takeTrigger p f).settle :=
    congrArg Host.Outcome.next (goodUp_hears h _)
  have posA : (s.heard p).posA = s.posA := setPort_posA s p _
  have lines : (s.heard p).lines = s.lines := setPort_lines s p _
  have latch : (s.heard p).latch = s.latch := setPort_latch s p _
  have stamp : (s.heard p).stamp = s.stamp := by cases p <;> rfl
  have hs : (s.heard p).Settled := heard_settled h.1
  obtain ⟨ahead, passed⟩ := takeTrigger_relay (s.heard p) p f
  rw [heard_port_opposite, spanAhead_iff, posA] at ahead
  rw [← Bool.not_eq_true, spanAhead_iff, posA] at passed
  rw [exec]
  refine ⟨fun i node first last foreign origin range holds lowest => ?_, fun idle => ?_⟩
  · have inside : (s.heard p).insideSpan f = true := by
      rw [insideSpan_iff, posA]
      exact ⟨node, first, last, foreign, origin⟩
    have line : (s.heard p).lineFor f.code = some i := by
      refine lineFor_some range ?_ ?_ <;> rw [lines]
      · exact holds
      · exact lowest
    obtain ⟨still, set, clear⟩ := takeTrigger_acts (p := p) inside line (by rw [lines]; exact holds)
    rw [latch, stamp] at set
    rw [latch] at clear
    refine ⟨_, (s.heard p).actTrigger f, rfl, still, set, clear, fun span => ?_, fun onA onB => ?_⟩
    · obtain ⟨room, full⟩ := ahead (.inr span)
      exact ⟨fun h => congrArg State.settle (room h), fun up busy h => congrArg State.settle (full up busy h)⟩
    · refine congrArg State.settle (passed ?_)
      rintro (zero | ⟨rfl, before⟩ | ⟨rfl, before⟩)
      · exact node zero
      · have := onA rfl; omega
      · have := onB rfl; omega
  · have standing : (s.heard p).actTrigger f = s.heard p := by
      refine actTrigger_none ?_
      rw [← Bool.not_eq_true, insideSpan_iff, posA]
      rcases idle with zero | before | behind | own | far | code | absent
      · exact .inl fun h => h.1 zero
      · exact .inl fun h => absurd h.2.1 (by omega)
      · exact .inl fun h => absurd h.2.2.1 (by omega)
      · exact .inl fun h => h.2.2.2.1 own
      · exact .inl fun h => absurd h.2.2.2.2 (by omega)
      · exact .inr (lineFor_none (.inl code))
      · exact .inr (lineFor_none (.inr (by rw [lines]; exact absent)))
    rw [standing] at ahead passed
    refine ⟨fun span => ?_, fun node onA onB => ?_⟩
    · obtain ⟨room, full⟩ := ahead span
      refine ⟨fun h => ?_, fun up busy h => ?_⟩
      · rw [room h, settle_of_settled _ (offer_settled hs _ _ _)]
      · rw [full up busy h]
    · have behind : (s.heard p).takeTrigger p f = s.heard p := by
        refine passed ?_
        rintro (zero | ⟨rfl, before⟩ | ⟨rfl, before⟩)
        · exact node zero
        · have := onA rfl; omega
        · have := onB rfl; omega
      rw [behind, settle_of_settled _ hs]

end Sys2Proof.Machine
end

