-- ==== Sys2Proof/Proofs/Wire.lean ====
section
/-! PROOFS. Proofs/Wire.lean: the parser of a received frame is a left inverse of its encoder (R19, R26, R179). One
round-trip law per piece of the encoding (words, codes, items, data), then one per payload layout, then the frame with its
header and check word. -/

namespace Sys2Proof.Machine

/-! ### Words, small numbers and codes -/

@[simp] theorem append_bytes_of_word (w : Word) : w.extractLsb' 8 8 ++ w.extractLsb' 0 8 = w := by
  rw [BitVec.extractLsb'_append_extractLsb'_eq_extractLsb' (by rfl)]
  exact BitVec.extractLsb'_eq_self

@[simp] theorem append_bytes_of_clock (c : BitVec 32) :
    c.extractLsb' 24 8 ++ c.extractLsb' 16 8 ++ c.extractLsb' 8 8 ++ c.extractLsb' 0 8 = c := by
  rw [BitVec.extractLsb'_append_extractLsb'_eq_extractLsb' (by rfl),
    BitVec.extractLsb'_append_extractLsb'_eq_extractLsb' (by rfl),
    BitVec.extractLsb'_append_extractLsb'_eq_extractLsb' (by rfl)]
  exact BitVec.extractLsb'_eq_self

@[simp] theorem length_wordBytes (w : Word) : (wordBytes w).length = 2 := rfl

theorem toNat_byteOf {n : Nat} (h : n ≤ 255) : (byteOf n).toNat = n := by
  unfold byteOf
  rw [BitVec.toNat_ofNat]
  omega

@[simp] theorem kindOfCode_byteOf_kindCode (k : Kind) : kindOfCode (byteOf (kindCode k)).toNat = some k := by
  cases k <;> rfl

@[simp] theorem sideOfCode_byteOf_sideCode (d : Side) : sideOfCode (byteOf (sideCode d)).toNat = some d := by
  cases d <;> rfl

@[simp] theorem transitionOfCode_byteOf_transitionCode (t : Transition) :
    transitionOfCode (byteOf (transitionCode t)).toNat = some t := by
  cases t <;> rfl

@[simp] theorem classOfCode_byteOf_classCode (c : EventClass) : classOfCode (byteOf (classCode c)).toNat = some c := by
  cases c <;> rfl

@[simp] theorem modeOfCode_byteOf_modeCode (m : TriggerMode) : modeOfCode (byteOf (modeCode m)).toNat = some m := by
  cases m <;> rfl

theorem toNat_byteOf_frameCode (f : Frame) : (byteOf (frameCode f)).toNat = frameCode f := by
  cases f <;> rfl

/-! ### The structure tests -/

theorem sampleFields_wf_iff {f : SampleFields} : f.wf = true ↔ 1 ≤ f.items.length ∧ f.items.length ≤ 4 := by
  simp [SampleFields.wf]

theorem request_wf_iff {r : Request} : r.wf = true ↔ r.data.length ≤ 16 := by simp [Request.wf]

theorem replyFields_wf_iff {f : ReplyFields} : f.wf = true ↔ f.data.length ≤ 16 := by simp [ReplyFields.wf]

/-! ### Lists of items and of data words -/

theorem length_flatMap_wordBytes (ws : List Word) : (ws.flatMap wordBytes).length = 2 * ws.length := by
  induction ws with
  | nil => rfl
  | cons w ws ih => rw [List.flatMap_cons, List.length_append, ih, length_wordBytes, List.length_cons]; omega

theorem length_flatMap_itemBytes (is : List SampleItem) : (is.flatMap itemBytes).length = 5 * is.length := by
  induction is with
  | nil => rfl
  | cons i is ih =>
    have five : (itemBytes i).length = 5 := rfl
    rw [List.flatMap_cons, List.length_append, ih, five, List.length_cons]; omega

theorem parseWords_flatMap_wordBytes (ws : List Word) : parseWords (ws.flatMap wordBytes) = some ws := by
  induction ws with
  | nil => rfl
  | cons w ws ih => simp [wordBytes, parseWords, ih]

theorem parseItems_flatMap_itemBytes (is : List SampleItem) : parseItems (is.flatMap itemBytes) = some is := by
  induction is with
  | nil => rfl
  | cons i is ih => simp [itemBytes, wordBytes, parseItems, ih]

theorem parseData_flatMap_wordBytes {ws : List Word} (h : ws.length ≤ 16) :
    parseData (byteOf ws.length) (ws.flatMap wordBytes) = some ws := by
  have count : ws.length = (byteOf ws.length).toNat := (toNat_byteOf (by omega)).symm
  simp [parseData, parseWords_flatMap_wordBytes, ← count, h]

/-! ### Payloads -/

theorem parseCount_payloadBytes (d : Side) (k : Byte) : parseCount (payloadBytes (.count d k)) = some (.count d k) := by
  simp [payloadBytes, parseCount]

theorem parseSample_payloadBytes {f : SampleFields} (h : f.wf = true) :
    parseSample (payloadBytes (.sample f)) = some (.sample f) := by
  simp only [payloadBytes, parseSample, parseItems_flatMap_itemBytes, if_pos (sampleFields_wf_iff.mp h)]

theorem parseEvent_payloadBytes (f : EventFields) : parseEvent (payloadBytes (.event f)) = some (.event f) := by
  simp [payloadBytes, wordBytes, clockBytes, parseEvent]

theorem parseTrigger_payloadBytes (f : TriggerFields) : parseTrigger (payloadBytes (.trigger f)) = some (.trigger f) := by
  simp [payloadBytes, wordBytes, parseTrigger]

theorem parseRequest_payloadBytes {f : RequestFields} (h : f.req.wf = true) :
    parseRequest (payloadBytes (.mgmtReq f)) = some (.mgmtReq f) := by
  have data := parseData_flatMap_wordBytes (ws := f.req.data) (request_wf_iff.mp h)
  simp [payloadBytes, wordBytes, parseRequest, show parseData _ (f.req.data.flatMap _) = _ from data]

theorem parseReply_payloadBytes {f : ReplyFields} (h : f.wf = true) :
    parseReply (payloadBytes (.mgmtReply f)) = some (.mgmtReply f) := by
  have data := parseData_flatMap_wordBytes (ws := f.data) (replyFields_wf_iff.mp h)
  simp [payloadBytes, wordBytes, parseReply, show parseData _ (f.data.flatMap _) = _ from data]

theorem parseTime_payloadBytes (c : BitVec 32) : parseTime (payloadBytes (.time c)) = some (.time c) := by
  simp [payloadBytes, clockBytes, parseTime]

theorem parseFrame_payloadBytes {f : Frame} (h : f.wf = true) : parseFrame (frameCode f) (payloadBytes f) = some f := by
  cases f with
  | fill => rfl
  | count d k => exact parseCount_payloadBytes d k
  | sample f => exact parseSample_payloadBytes h
  | event f => exact parseEvent_payloadBytes f
  | trigger f => exact parseTrigger_payloadBytes f
  | mgmtReq f => exact parseRequest_payloadBytes h
  | mgmtReply f => exact parseReply_payloadBytes h
  | time c => exact parseTime_payloadBytes c

/-- The longest payload is a MGMT_REPLY of sixteen data words, 42 bytes (R19). -/
theorem length_payloadBytes_le {f : Frame} (h : f.wf = true) : (payloadBytes f).length ≤ 42 := by
  cases f with
  | sample f =>
    have count := sampleFields_wf_iff.mp h
    simp only [payloadBytes, List.length_cons, length_flatMap_itemBytes]
    omega
  | mgmtReq f =>
    have count := request_wf_iff.mp h
    simp only [payloadBytes, List.length_cons, List.length_append, length_flatMap_wordBytes, length_wordBytes]
    omega
  | mgmtReply f =>
    have count := replyFields_wf_iff.mp h
    simp only [payloadBytes, List.length_cons, List.length_append, length_flatMap_wordBytes, length_wordBytes]
    omega
  | fill | count | event | trigger | time => simp [payloadBytes, wordBytes, clockBytes]

/-! ### The frame with its header and check word -/

theorem splitCheck_append_wordBytes (body : List Byte) (w : Word) :
    splitCheck (body ++ wordBytes w) = some (body, w) := by
  simp [splitCheck, wordBytes]

/-- What the receiver makes of the bytes of a frame. -/
theorem receive_wireBytes (p : Port) {f : Frame} (h : f.wf = true) : receive p (wireBytes f) = commandOf p f := by
  have fits := length_payloadBytes_le h
  have len : (byteOf (payloadBytes f).length).toNat = (payloadBytes f).length := toNat_byteOf (by omega)
  have check : checkPasses (pairBytes (frameBody f)) (checkWord (pairBytes (frameBody f))) = true :=
    checkPasses_checkWord _
  have lenGood : ¬ (42 < (payloadBytes f).length ∨ (payloadBytes f).length ≠ (payloadBytes f).length) := by omega
  rw [receive, wireBytes, splitCheck_append_wordBytes]
  unfold frameBody at check ⊢
  simp only [receiveBody, len, if_neg lenGood, if_pos check, toNat_byteOf_frameCode, parseFrame_payloadBytes h]

/-- Settles O19: a sender's check word passes, and parsing undoes encoding. -/
theorem sentBytesAreTheFramesCommand : Obligations.SentBytesAreTheFramesCommand := by
  unfold Obligations.SentBytesAreTheFramesCommand
  exact ⟨checkPasses_checkWord, fun p _ => receive_wireBytes p⟩

end Sys2Proof.Machine
end

