-- ==== Sys2Proof/Proofs/Queues.lean ====
section
/-! PROOFS. Proofs/Queues.lean: what becomes of a frame offered to a port's queue (R39 to R46), the overrun of a full high
queue (R43, R44), and how long the head of a queue waits for its grant (R51, R52). -/

namespace Sys2Proof.Machine

/-! ### The turn of a queue (R51, R52) -/

/-- The member of the high ring through which a queue is granted (3.6). -/
def QueueId.member : QueueId → HighMember
  | .rh => .rh
  | .lh => .lh
  | .rl => .lowGroup
  | .ll => .lowGroup

/-- The steps from one member of the high ring to another in ring order. -/
def HighMember.stepsTo (m n : HighMember) : Nat := if m = n then 0 else if m.next = n then 1 else 2

/-- The low pointer stands at the other queue of LOWGROUP, which a grant through LOWGROUP then prefers (R52). -/
def QueueId.yields (low : LowMember) : QueueId → Bool
  | .rh => false
  | .lh => false
  | .rl => low == .ll
  | .ll => low == .rl

/-- A bound on the grants before a queue's own: the steps of the high pointer to its member, and a round of the high ring
more where LOWGROUP first grants its other queue. -/
def LinePort.turn (P : LinePort) (q : QueueId) : Nat :=
  P.high.stepsTo q.member + if q.yields P.low then 3 else 0

theorem HighMember.stepsTo_le (m n : HighMember) : m.stepsTo n ≤ 2 := by
  unfold stepsTo
  split
  · omega
  · split <;> omega

theorem HighMember.stepsTo_self (m : HighMember) : m.stepsTo m = 0 := if_pos rfl

theorem HighMember.stepsTo_next (m : HighMember) : m.stepsTo m.next = 1 := by cases m <;> rfl

theorem HighMember.stepsTo_pos {m n : HighMember} (ne : m ≠ n) : 1 ≤ m.stepsTo n := by
  unfold stepsTo
  rw [if_neg ne]
  split <;> omega

theorem HighMember.stepsTo_eq_two {m n : HighMember} (ne : m ≠ n) (ne' : m.next ≠ n) : m.stepsTo n = 2 :=
  (if_neg ne).trans (if_neg ne')

theorem LinePort.turn_lt_six (P : LinePort) (q : QueueId) : P.turn q < 6 := by
  have := P.high.stepsTo_le q.member
  unfold turn
  split <;> omega

theorem LinePort.turn_high_lt_three (P : LinePort) {q : QueueId} (high : q.isHigh = true) : P.turn q < 3 := by
  have := P.high.stepsTo_le q.member
  have preferred : q.yields P.low = false := by
    cases q with
    | rh => rfl
    | lh => rfl
    | rl => cases high
    | ll => cases high
  unfold turn
  rw [preferred, if_neg Bool.false_ne_true]
  omega

/-- After a grant the high pointer stands behind the member it granted (R51). -/
theorem highAfter_eq_next (q : QueueId) : highAfter q = q.member.next := by cases q <;> rfl

/-- A member that the pointer passes comes nearer to every member that lies behind it. -/
theorem HighMember.stepsTo_next_lt {h m n : HighMember} (le : h.stepsTo m ≤ h.stepsTo n) (ne : m ≠ n) :
    m.next.stepsTo n < h.stepsTo n := by
  cases h <;> cases m <;> cases n <;> revert le ne <;> decide

/-! ### The order of the search -/

theorem LinePort.lowChoice_member {P : LinePort} {r : QueueId} (h : P.lowChoice = some r) : r.member = .lowGroup := by
  cases r with
  | rl => rfl
  | ll => rfl
  | _ => unfold lowChoice at h; grind

theorem LinePort.memberChoice_member {P : LinePort} {m : HighMember} {r : QueueId} (h : P.memberChoice m = some r) :
    r.member = m := by
  cases m with
  | lowGroup => exact lowChoice_member h
  | _ =>
    unfold memberChoice at h
    dsimp only at h
    split at h <;> cases h
    rfl

/-- A queue that holds a frame makes its member grant. -/
theorem LinePort.memberChoice_ne_none {P : LinePort} {q : QueueId} (waiting : P.queue q ≠ []) :
    P.memberChoice q.member ≠ none := by
  intro none
  have empty := memberChoice_none none
  cases q with
  | rh => exact waiting empty
  | lh => exact waiting empty
  | rl => exact waiting empty.1
  | ll => exact waiting empty.2

/-- LOWGROUP grants a waiting queue where the low pointer does not stand at the other (R52). -/
theorem LinePort.lowChoice_of_not_yields {P : LinePort} {q : QueueId} (waiting : P.queue q ≠ [])
    (low : q.member = .lowGroup) (preferred : q.yields P.low = false) : P.lowChoice = some q := by
  have eligible := (P.eligible_iff q).mpr waiting
  unfold lowChoice
  cases q with
  | rh => cases low
  | lh => cases low
  | rl => cases pointer : P.low <;> simp_all [QueueId.yields]
  | ll => cases pointer : P.low <;> simp_all [QueueId.yields]

/-- The search grants the first member, from the high pointer on, that has a head (R51). -/
theorem LinePort.choice_first {P : LinePort} {r : QueueId} (h : P.choice = some r) :
    P.memberChoice r.member = some r ∧
      ∀ n, P.memberChoice n ≠ none → P.high.stepsTo r.member ≤ P.high.stepsTo n := by
  unfold choice at h
  rw [Option.or_eq_some_iff, Option.or_eq_some_iff] at h
  rcases h with first | ⟨none, second | ⟨none', third⟩⟩
  · rw [memberChoice_member first, HighMember.stepsTo_self]
    exact ⟨first, fun _ _ => Nat.zero_le _⟩
  · rw [memberChoice_member second, HighMember.stepsTo_next]
    exact ⟨second, fun n some => HighMember.stepsTo_pos fun e => some (e ▸ none)⟩
  · rw [memberChoice_member third]
    refine ⟨third, fun n some => ?_⟩
    rw [HighMember.stepsTo_eq_two (n := n) (fun e => some (e ▸ none)) fun e => some (e ▸ none')]
    exact HighMember.stepsTo_le _ _

/-! ### Grants in turn -/

theorem LinePort.grantFrom_queue {P : LinePort} {q r : QueueId} (ne : q ≠ r) : (P.grantFrom r).queue q = P.queue q := by
  cases h : P.queue r with
  | nil => unfold grantFrom; rw [h]
  | cons x rest =>
    have kept : (P.grantFrom r).queue q = (P.setQueue r rest).queue q := by rw [grantFrom_cons h]; cases q <;> rfl
    rw [kept, queue_setQueue, if_neg ne]

theorem LinePort.grantFrom_turn {P : LinePort} {r : QueueId} (head : P.queue r ≠ []) (q : QueueId) :
    (P.grantFrom r).turn q = r.member.next.stepsTo q.member + if q.yields (lowAfter P.low r) then 3 else 0 := by
  obtain ⟨x, rest, h⟩ := List.exists_cons_of_ne_nil head
  rw [grantFrom_cons h, ← highAfter_eq_next]
  rfl

/-- A queue of another member than the granted one keeps its place in the low ring (R52). -/
theorem yields_lowAfter {q r : QueueId} (ne : r.member ≠ q.member) (low : LowMember) :
    q.yields (lowAfter low r) = q.yields low := by
  cases q <;> cases r <;> first | rfl | exact absurd rfl ne

/-- LOWGROUP alone has two queues. -/
theorem member_eq_lowGroup {q r : QueueId} (same : r.member = q.member) (ne : r ≠ q) : q.member = .lowGroup := by
  cases q with
  | rl => rfl
  | ll => rfl
  | rh => cases r <;> cases same; exact absurd rfl ne
  | lh => cases r <;> cases same; exact absurd rfl ne

/-- A grant through LOWGROUP leaves the low pointer at the other queue (R52). -/
theorem yields_lowAfter_same {q r : QueueId} (same : r.member = q.member) (ne : r ≠ q) (low : LowMember) :
    q.yields (lowAfter low r) = false := by
  cases q with
  | rh => rfl
  | lh => rfl
  | rl =>
    cases r <;> cases same
    · exact absurd rfl ne
    · rfl
  | ll =>
    cases r <;> cases same
    · rfl
    · exact absurd rfl ne

/-- While a queue holds a frame, a grant is its own or brings its turn nearer. -/
theorem LinePort.turn_lt_of_grant {P : LinePort} {q r : QueueId} (waiting : P.queue q ≠ []) (granted : P.choice = some r)
    (ne : r ≠ q) : (P.grantFrom r).turn q < P.turn q := by
  obtain ⟨own, first⟩ := choice_first granted
  have nearest := first _ (memberChoice_ne_none waiting)
  rw [grantFrom_turn (choice_some granted)]
  unfold turn
  by_cases same : r.member = q.member
  · have low := member_eq_lowGroup same ne
    have yielded : q.yields P.low = true := by
      refine Bool.eq_true_of_not_eq_false fun preferred => ne ?_
      have chosen : P.lowChoice = some r := by rwa [same, low] at own
      exact Option.some.inj (chosen.symm.trans (lowChoice_of_not_yields waiting low preferred))
    rw [yielded, yields_lowAfter_same same ne, if_pos rfl, if_neg Bool.false_ne_true]
    have := r.member.next.stepsTo_le q.member
    omega
  · rw [yields_lowAfter same]
    have := HighMember.stepsTo_next_lt nearest same
    omega

/-- A head is granted within any number of grants above its turn. -/
theorem LinePort.granted_of_turn_lt {grant : LinePort → LinePort}
    (grants : ∀ Q r, Q.choice = some r → grant Q = Q.grantFrom r) {q : QueueId} :
    ∀ (n : Nat) (P : LinePort), P.queue q ≠ [] → P.turn q < n → ∃ k < n, (grant^[k] P).choice = some q
  | 0, _, _, soon => absurd soon (Nat.not_lt_zero _)
  | n + 1, P, waiting, soon => by
    cases granted : P.choice with
    | none => exact absurd (choice_none granted q) waiting
    | some r =>
      by_cases own : r = q
      · exact ⟨0, Nat.succ_pos n, own ▸ granted⟩
      · have step := grants P r granted
        have nearer := turn_lt_of_grant waiting granted own
        have still : (P.grantFrom r).queue q ≠ [] := by rwa [grantFrom_queue (Ne.symm own)]
        obtain ⟨k, bound, found⟩ := granted_of_turn_lt grants n (P.grantFrom r) still (by omega)
        exact ⟨k + 1, by omega, by rwa [Function.iterate_succ_apply, step]⟩

/-- Settles O18: the turn of a high queue is below 3, of any queue below 6. -/
theorem headsAreGrantedInTurn : Obligations.HeadsAreGrantedInTurn := by
  intro P grant grants
  have step : ∀ Q r, Q.choice = some r → grant Q = Q.grantFrom r := fun Q r granted => by rw [grants, granted]
  exact ⟨fun q waiting high => LinePort.granted_of_turn_lt step 3 P waiting (P.turn_high_lt_three high),
    fun q waiting => LinePort.granted_of_turn_lt step 6 P waiting (P.turn_lt_six q)⟩

/-! ### A frame assigned to a queue (R42, R43, R45, R46) -/

theorem assign_room {q : QueueId} {l : List Queued} (room : l.length < q.capacity) (x : Queued) :
    assign q x l = (l ++ [x], .appended) := if_pos room

section
variable {q : QueueId} {l : List Queued} (full : q.capacity ≤ l.length)
include full

theorem assign_full_high (high : q.isHigh = true) (x : Queued) : assign q x l = (l, .overrun) :=
  (if_neg (Nat.not_lt.mpr full)).trans (if_pos high)

theorem assign_full_low (low : q.isHigh = false) (x : Queued) : assign q x l =
    if isSample x.frame && l.any (fun y => isSample y.frame) then (dropOldestSample l ++ [x], .appended)
    else (l, .discarded) :=
  (if_neg (Nat.not_lt.mpr full)).trans (if_neg (by rw [low]; exact Bool.false_ne_true))

/-- A full low queue discards a frame that is no SAMPLE or finds none (R45, R46). -/
theorem assign_full_low_discards (low : q.isHigh = false) {x : Queued}
    (h : isSample x.frame = false ∨ ∀ y ∈ l, isSample y.frame = false) : assign q x l = (l, .discarded) := by
  rw [assign_full_low full low]
  refine if_neg fun displaces => ?_
  obtain ⟨sample, any⟩ := Bool.and_eq_true_iff.mp displaces
  obtain ⟨y, member, older⟩ := List.any_eq_true.mp any
  rcases h with other | none
  · rw [other] at sample; exact Bool.false_ne_true sample
  · rw [none y member] at older; exact Bool.false_ne_true older

end

theorem dropOldestSample_append {y : Queued} (sample : isSample y.frame = true) (newer : List Queued) :
    ∀ older : List Queued, (∀ x ∈ older, isSample x.frame = false) →
      dropOldestSample (older ++ y :: newer) = older ++ newer
  | [], _ => if_pos sample
  | x :: older, others => by
    have head : isSample x.frame = false := others x List.mem_cons_self
    rw [List.cons_append, dropOldestSample, if_neg (by rw [head]; exact Bool.false_ne_true),
      dropOldestSample_append sample newer older fun z hz => others z (List.mem_cons_of_mem x hz)]
    rfl

/-- At a full low queue a SAMPLE displaces the oldest one (R45). -/
theorem assign_full_low_displaces {q : QueueId} {x y : Queued} {older newer : List Queued}
    (full : q.capacity ≤ (older ++ y :: newer).length) (low : q.isHigh = false) (offered : isSample x.frame = true)
    (others : ∀ z ∈ older, isSample z.frame = false) (sample : isSample y.frame = true) :
    assign q x (older ++ y :: newer) = (older ++ newer ++ [x], .appended) := by
  have found : (older ++ y :: newer).any (fun z => isSample z.frame) = true :=
    List.any_eq_true.mpr ⟨y, List.mem_append_right older List.mem_cons_self, sample⟩
  rw [assign_full_low full low, offered, found, dropOldestSample_append sample newer older others]
  rfl

/-! ### An offer (R39, R42 to R44, R50) -/

theorem offer_down {s : State} {p : Port} (down : (s.port p).isUp = false) (q : QueueId) (f : Frame) :
    s.offer p q f = (s, false) :=
  if_neg (by rw [down]; exact Bool.false_ne_true)

section
variable {s : State} {p : Port} {q : QueueId} {f : Frame} {l : List Queued} (up : (s.port p).isUp = true)
include up

theorem offer_appended (taken : assign q ⟨f, s.now⟩ ((s.port p).queue q) = (l, .appended)) :
    s.offer p q f = (s.setPort p (((s.port p).setQueue q l).decide s.now s.node.sampleAgeLimit), false) := by
  unfold State.offer
  dsimp only
  rw [if_pos up, taken]

theorem offer_discarded (taken : assign q ⟨f, s.now⟩ ((s.port p).queue q) = (l, .discarded)) :
    s.offer p q f = (s, false) := by
  unfold State.offer
  dsimp only
  rw [if_pos up, taken]

theorem offer_overrun (taken : assign q ⟨f, s.now⟩ ((s.port p).queue q) = (l, .overrun)) :
    s.offer p q f = (s, !ownOverrunReport s.posA f) := by
  unfold State.offer
  dsimp only
  rw [if_pos up, taken]

/-- A frame that joins the queue of a busy transmitter waits there (R42). -/
theorem offer_appended_busy (busy : (s.port p).tx ≠ none)
    (taken : assign q ⟨f, s.now⟩ ((s.port p).queue q) = (l, .appended)) :
    s.offer p q f = (s.setPort p ((s.port p).setQueue q l), false) := by
  rw [offer_appended up taken, LinePort.decide_busy (by rwa [LinePort.setQueue_tx])]

/-- A full high queue discards a frame (R43, R44). -/
theorem offer_full_high (full : q.capacity ≤ ((s.port p).queue q).length) (high : q.isHigh = true) :
    s.offer p q f = (s, !ownOverrunReport s.posA f) :=
  offer_overrun up (assign_full_high full high _)

end

/-! ### A frame sent at once (R42, R50) -/

theorem LinePort.setQueue_setQueue (P : LinePort) (q : QueueId) (l l' : List Queued) :
    (P.setQueue q l).setQueue q l' = P.setQueue q l' := by cases q <;> rfl

theorem LinePort.setQueue_queue (P : LinePort) (q : QueueId) : P.setQueue q (P.queue q) = P := by cases q <;> rfl

/-- A frame does not age in the µs of its entry (R48). -/
theorem aged_entry (f : Frame) (now limit : Nat) : Queued.aged now limit ⟨f, now⟩ = false := by
  simp [Queued.aged]

/-- A port whose frames are all young keeps them (R48). -/
theorem LinePort.ageHeads_young {P : LinePort} {now limit : Nat}
    (young : ∀ q, ∀ x ∈ P.queue q, Queued.aged now limit x = false) : P.ageHeads now limit = P := by
  have kept : ∀ q, (P.queue q).dropWhile (Queued.aged now limit) = P.queue q := fun q =>
    List.dropWhile_eq_self_iff.mpr fun _ => by rw [young q _ (List.getElem_mem _)]; exact Bool.false_ne_true
  have rl : P.rl.dropWhile (Queued.aged now limit) = P.rl := kept .rl
  have ll : P.ll.dropWhile (Queued.aged now limit) = P.ll := kept .ll
  unfold ageHeads
  rw [rl, ll]

/-- The search finds the one queue that holds a frame (R51). -/
theorem LinePort.choice_only {P : LinePort} {q : QueueId} (waiting : P.queue q ≠ [])
    (others : ∀ r, r ≠ q → P.queue r = []) : P.choice = some q := by
  cases found : P.choice with
  | none => exact absurd (choice_none found q) waiting
  | some r =>
    by_cases own : r = q
    · rw [own]
    · exact absurd (others r own) (choice_some found)

/-- An UP port that is idle and empty sends a frame that joins a queue at once (R42, R50). -/
theorem LinePort.decide_first {P : LinePort} (up : P.isUp = true) (idle : P.tx = none) (empty : ∀ r, P.queue r = [])
    (q : QueueId) (f : Frame) (now limit : Nat) : (P.setQueue q [⟨f, now⟩]).decide now limit =
      { P with tx := some f, fillTimer := none, high := highAfter q, low := lowAfter P.low q } := by
  have queues : ∀ r, (P.setQueue q [⟨f, now⟩]).queue r = if r = q then [⟨f, now⟩] else [] := fun r => by
    rw [queue_setQueue, empty]
  have aged : (P.setQueue q [⟨f, now⟩]).ageHeads now limit = P.setQueue q [⟨f, now⟩] := by
    refine ageHeads_young fun r x member => ?_
    rw [queues] at member
    split at member
    · rw [List.mem_singleton.mp member]; exact aged_entry f now limit
    · exact absurd member List.not_mem_nil
  have head : (P.setQueue q [⟨f, now⟩]).queue q = [⟨f, now⟩] := (queues q).trans (if_pos rfl)
  have found : (P.setQueue q [⟨f, now⟩]).choice = some q :=
    choice_only (by rw [head]; exact List.cons_ne_nil _ _) fun r other => (queues r).trans (if_neg other)
  have granted : ((P.setQueue q [⟨f, now⟩]).setQueue q []) = P := by
    rw [setQueue_setQueue, ← empty q, setQueue_queue]
  have low : (P.setQueue q [⟨f, now⟩]).low = P.low := by cases q <;> rfl
  rw [decide_some (by rwa [setQueue_isUp]) (by rwa [setQueue_tx]) (aged ▸ found) (aged.symm ▸ head), aged, granted, low]

/-- Settles O11: by the port's state, and at an UP port by the room in the queue. -/
theorem offersMeetTheQueueRules : Obligations.OffersMeetTheQueueRules := by
  intro s p q f
  refine ⟨fun down => offer_down down q f, fun up room busy => offer_appended_busy up busy (assign_room room _),
    fun up empty idle => ?_, fun up full => ⟨offer_full_high up full, fun low other => ?_, fun low none => ?_, ?_⟩⟩
  · have room : ((s.port p).queue q).length < q.capacity := by rw [empty]; cases q <;> decide
    rw [offer_appended up (assign_room room _), empty, List.nil_append, LinePort.decide_first up idle empty]
  · exact offer_discarded up (assign_full_low_discards full low (.inl other))
  · exact offer_discarded up (assign_full_low_discards full low (.inr none))
  · intro low offered busy older y newer split others sample
    refine offer_appended_busy up busy ?_
    rw [split] at full ⊢
    exact assign_full_low_displaces full low offered others sample

/-! ### An EVENT relayed to a full RH (R43, R44) -/

theorem heard_stamp (s : State) (p : Port) : (s.heard p).stamp = s.stamp := by cases p <;> rfl

theorem heard_planValid (s : State) (p : Port) (n : EntryId) : (s.heard p).planValid n = s.planValid n := by
  cases p <;> rfl

theorem exec_event {s : State} {p : Port} (h : s.Hears p) (f : EventFields) :
    exec (.event p f) s = .next ((s.heard p).relay p (.event f)).settle :=
  congrArg Host.Outcome.next (goodUp_hears h _)

/-- A frame relayed to a full RH is an occurrence of QUEUE_OVERRUN, but for the node's own report of it (R43, R44). -/
theorem relay_full_rh {s : State} {p : Port} {f : Frame} (high : relayQueue f = .rh)
    (up : (s.port p.opposite).isUp = true) (full : 8 ≤ (s.port p.opposite).rh.length) :
    s.relay p f = if ownOverrunReport s.posA f then s else s.overrun := by
  have offered := offer_full_high (q := .rh) (f := f) up full rfl
  unfold State.relay
  rw [high, offered]
  cases ownOverrunReport s.posA f <;> rfl

/-- An occurrence of QUEUE_OVERRUN that launches no plan leaves a settled state settled. -/
theorem overrun_settle {s : State} (hs : s.Settled) (idle : s.planValid srcOverrun = false) :
    s.overrun.settle = s.overrun :=
  settle_of_settled _ <|
    settled_of_reported hs (overrun_reported (E := overrunOnly) s rfl) fun _ only => only.symm ▸ idle

/-- Settles O13: the frame is lost at the port that has been heard, and the occurrence's own report leaves RH alone. -/
theorem aFullHighQueueCountsAnOverrun : Obligations.AFullHighQueueCountsAnOverrun := by
  intro p f s h high up busy full idle
  have hs : (s.heard p).Settled := heard_settled h.1
  have opposite := heard_port_opposite s p
  have posA : (s.heard p).posA = s.posA := setPort_posA s p _
  have latch : (s.heard p).latch = s.latch := setPort_latch s p _
  have relayed := relay_full_rh (s := s.heard p) (p := p) (f := .event f) (if_neg high) (by rwa [opposite])
    (by rw [opposite, full])
  rw [exec_event h, relayed, posA]
  refine ⟨fun own => ?_, fun other => ?_⟩
  · rw [if_pos own, settle_of_settled _ hs]
  · rw [if_neg (by rw [other]; exact Bool.false_ne_true), overrun_settle hs (by rwa [heard_planValid])]
    obtain ⟨still, counted⟩ := overrun_counted (s.heard p)
    have reported := overrun_reported (E := overrunOnly) (s.heard p) rfl
    obtain ⟨rh, -⟩ := (overrun_keepsRelay (s.heard p) p.opposite).busy (by rwa [opposite])
    rw [opposite] at rh
    rw [latch, posA, heard_stamp] at counted
    refine ⟨_, rfl, rh, counted, fun n only => ?_, still.trans (setPort_still s p _)⟩
    rw [reported.latch n only, latch]

end Sys2Proof.Machine
end

