-- ==== Sys2Proof/Proofs/TapCache.lean ====
section
/-! PROOFS. Proofs/TapCache.lean: the tap cache by itself: the laws of R57 said of a cache, the two updates that keep them
(entries that stay or go, and an entry placed where no other place holds its key), the lookup by key (R57, R73), the victim
place (R64), and what each operation on the cache leaves at a place (R59 to R72). -/

namespace Sys2Proof.Machine

/-! ### Places -/

theorem getElem_setPlace (t : TapCache) (i j : Fin 128) (x : Option TapEntry) :
    (t.set i x)[j] = if j = i then x else t[j] := by
  simp only [Fin.getElem_fin, Vector.getElem_set, Fin.ext_iff, eq_comm (a := i.val)]

theorem place_set (set : Fin 32) (w : Fin 4) : (place set w).val / 4 = set.val := by
  show (4 * set.val + w.val) / 4 = set.val
  omega

theorem wayOf_place (set : Fin 32) (w : Fin 4) : wayOf (place set w) = w.val := by
  show (4 * set.val + w.val) % 4 = w.val
  omega

/-- A place of a set is one of the set's four ways. -/
theorem place_of_set {i : Fin 128} {set : Fin 32} (h : set.val = i.val / 4) : ∃ w : Fin 4, i = place set w :=
  ⟨⟨i.val % 4, Nat.mod_lt _ (by decide)⟩, Fin.ext (by show i.val = 4 * set.val + i.val % 4; omega)⟩

theorem effLock_le (n : NodeCfg) : n.effLock ≤ 3 := Nat.min_le_right _ _

theorem holdsKey_iff {t : TapCache} {i : Fin 128} {o c : Nat} :
    holdsKey t i o c = true ↔ ∃ e, t[i] = some e ∧ e.origin = o ∧ e.channel = c := by
  unfold holdsKey
  split
  · rename_i none; simp [none]
  · rename_i e valid; simp [valid]

theorem holdsKey_eq_false {t : TapCache} {i : Fin 128} {o c : Nat} :
    holdsKey t i o c = false ↔ ∀ e, t[i] = some e → ¬(e.origin = o ∧ e.channel = c) := by
  rw [← Bool.not_eq_true, holdsKey_iff]
  exact ⟨fun h e valid key => h ⟨e, valid, key⟩, fun h ⟨e, valid, key⟩ => h e valid key⟩

/-! ### The laws of a cache (R57, R58) -/

/-- The laws of `State.TapLaw`, said of the cache alone. -/
structure LawfulCache (t : TapCache) : Prop where
  fits : ∀ (i : Fin 128) (e : TapEntry), t[i] = some e → e.Fits i
  unique : ∀ (i j : Fin 128) (e f : TapEntry), t[i] = some e → t[j] = some f →
    e.origin = f.origin → e.channel = f.channel → i = j

theorem tapLaw_iff {s : State} : s.TapLaw ↔ LawfulCache s.tap := ⟨fun ⟨f, u⟩ => ⟨f, u⟩, fun ⟨f, u⟩ => ⟨f, u⟩⟩

theorem State.TapLaw.of_tap {s t : State} (h : s.TapLaw) (same : t.tap = s.tap) : t.TapLaw :=
  tapLaw_iff.mpr (same ▸ tapLaw_iff.mp h)

/-- Entries that stay in their places with their keys, or go. -/
theorem LawfulCache.of_entries {t u : TapCache} (h : LawfulCache t)
    (stays : ∀ (i : Fin 128) (f : TapEntry), u[i] = some f →
      ∃ e, t[i] = some e ∧ f.origin = e.origin ∧ f.channel = e.channel ∧ f.age ≤ 255) : LawfulCache u where
  fits i f valid := by
    obtain ⟨e, was, origin, channel, age⟩ := stays i f valid
    have fits := h.fits i e was
    exact ⟨by rw [origin, channel]; exact fits.set, origin ▸ fits.origin, channel ▸ fits.channel, age⟩
  unique i j f g fi gj origin channel := by
    obtain ⟨e, ei, eo, ec, -⟩ := stays i f fi
    obtain ⟨d, dj, fo, fc, -⟩ := stays j g gj
    exact h.unique i j e d ei dj (eo ▸ fo ▸ origin) (ec ▸ fc ▸ channel)

/-- Entries that stay as they are, or go. -/
theorem LawfulCache.of_sub {t u : TapCache} (h : LawfulCache t) (sub : ∀ i : Fin 128, u[i] = none ∨ u[i] = t[i]) :
    LawfulCache u :=
  h.of_entries fun i f valid => by
    rcases sub i with gone | same
    · rw [gone] at valid; cases valid
    · exact ⟨f, same ▸ valid, rfl, rfl, (h.fits i f (same ▸ valid)).age⟩

/-- An entry placed where it fits, while no other place holds its key. -/
theorem LawfulCache.set {t : TapCache} (h : LawfulCache t) {i : Fin 128} {e : TapEntry} (fits : e.Fits i)
    (sole : ∀ j, j ≠ i → holdsKey t j e.origin e.channel = false) : LawfulCache (t.set i (some e)) where
  fits j f valid := by
    rw [getElem_setPlace] at valid
    split at valid
    · rename_i here; cases valid; exact here ▸ fits
    · exact h.fits j f valid
  unique j k f g fj gk origin channel := by
    rw [getElem_setPlace] at fj gk
    split at fj <;> split at gk
    · rename_i a b; rw [a, b]
    · rename_i away; cases fj
      exact absurd ⟨origin.symm, channel.symm⟩ (holdsKey_eq_false.mp (sole k away) g gk)
    · rename_i away _; cases gk
      exact absurd ⟨origin, channel⟩ (holdsKey_eq_false.mp (sole j away) f fj)
    · exact h.unique j k f g fj gk origin channel

/-! ### What an operation leaves at a place -/

theorem getElem_flushPlaces (t : TapCache) (lock : Nat) (all : Bool) (i : Fin 128) :
    (flushPlaces t lock all)[i] = if all = false ∧ wayOf i < lock then t[i] else none := by
  have flushed : (flushPlaces t lock all)[i] = if all || !wayLocked lock (wayOf i) then none else t[i] := by
    simp [flushPlaces]
  rw [flushed]
  cases all <;> by_cases locked : wayOf i < lock <;> simp [wayLocked, locked]

theorem getElem_withoutKey (t : TapCache) (keep i : Fin 128) (o c : Nat) :
    (withoutKey t keep o c)[i] = if i ≠ keep ∧ holdsKey t i o c = true then none else t[i] := by
  simp [withoutKey]

theorem emptyLocked_getElem (s : State) (i : Fin 128) :
    s.emptyLocked.tap[i] = if wayOf i < s.node.effLock then none else s.tap[i] := by
  simp [State.emptyLocked, wayLocked]

theorem tapAge_getElem (s : State) (i : Fin 128) : s.tapAge.tap[i] = s.tap[i].map TapEntry.aged := by
  simp [State.tapAge]

theorem lockChanged_getElem (s : State) (l0 l1 : Nat) (i : Fin 128) :
    (s.lockChanged l0 l1).tap[i] = s.tap[i].map (TapEntry.relock l0 l1 (wayOf i)) := by
  unfold State.lockChanged
  dsimp only
  split <;> simp

/-- With the key taken out elsewhere, no other place holds it. -/
theorem holdsKey_withoutKey (t : TapCache) {keep i : Fin 128} (away : i ≠ keep) (o c : Nat) :
    holdsKey (withoutKey t keep o c) i o c = false := by
  rw [holdsKey_eq_false]
  intro e valid key
  rw [getElem_withoutKey] at valid
  split at valid
  · cases valid
  · rename_i none; exact none ⟨away, holdsKey_iff.mpr ⟨e, valid, key⟩⟩

/-- A locked place filled by a load, its key taken out of every other place (R67, R72). -/
theorem getElem_loaded (t : TapCache) (i j : Fin 128) (e : TapEntry) (o c : Nat) :
    ((withoutKey t i o c).set i (some e))[j] =
      if j = i then some e else if holdsKey t j o c = true then none else t[j] := by
  rw [getElem_setPlace]
  split
  · rfl
  · rename_i away; rw [getElem_withoutKey]; simp [away]

theorem LawfulCache.loaded {t : TapCache} (h : LawfulCache t) {i : Fin 128} {e : TapEntry} {o c : Nat} (fits : e.Fits i)
    (origin : e.origin = o) (channel : e.channel = c) : LawfulCache ((withoutKey t i o c).set i (some e)) := by
  subst origin channel
  refine LawfulCache.set (h.of_sub fun j => ?_) fits fun j away => holdsKey_withoutKey t away _ _
  rw [getElem_withoutKey]
  split
  · exact .inl rfl
  · exact .inr rfl

theorem LawfulCache.flushPlaces {t : TapCache} (h : LawfulCache t) (lock : Nat) (all : Bool) :
    LawfulCache (flushPlaces t lock all) :=
  h.of_sub fun i => by
    rw [getElem_flushPlaces]
    split
    · exact .inr rfl
    · exact .inl rfl

/-- Entries changed in place, their keys and the range of their ages kept. -/
theorem LawfulCache.of_map {t u : TapCache} (h : LawfulCache t) (change : Fin 128 → TapEntry → TapEntry)
    (mapped : ∀ i : Fin 128, u[i] = t[i].map (change i))
    (keeps : ∀ i e, (change i e).origin = e.origin ∧ (change i e).channel = e.channel ∧
      (e.age ≤ 255 → (change i e).age ≤ 255)) : LawfulCache u :=
  h.of_entries fun i f valid => by
    rw [mapped] at valid
    obtain ⟨e, was, rfl⟩ := Option.map_eq_some_iff.mp valid
    obtain ⟨origin, channel, age⟩ := keeps i e
    exact ⟨e, was, origin, channel, age (h.fits i e was).age⟩

theorem TapEntry.relock_keeps (l0 l1 way : Nat) (e : TapEntry) :
    (e.relock l0 l1 way).origin = e.origin ∧ (e.relock l0 l1 way).channel = e.channel ∧
      (e.relock l0 l1 way).age = e.age := by
  unfold TapEntry.relock
  split
  · exact ⟨rfl, rfl, rfl⟩
  · split <;> exact ⟨rfl, rfl, rfl⟩

/-! ### The lookup by key (R57, R73) -/

theorem tapFind_holds {t : TapCache} {o c : Nat} {i : Fin 128} (h : tapFind t o c = some i) :
    holdsKey t i o c = true :=
  List.find?_some (p := fun i => holdsKey t i o c) h

/-- In a lawful cache a key is found in the place that holds it. -/
theorem LawfulCache.tapFind {t : TapCache} (h : LawfulCache t) {i : Fin 128} {e : TapEntry} (valid : t[i] = some e) :
    tapFind t e.origin e.channel = some i := by
  obtain ⟨w, here⟩ := place_of_set (h.fits i e valid).set
  have holds : holdsKey t i e.origin e.channel = true := holdsKey_iff.mpr ⟨e, valid, rfl, rfl⟩
  have found : (Machine.tapFind t e.origin e.channel).isSome = true := by
    unfold Machine.tapFind
    rw [List.find?_isSome]
    exact ⟨i, List.mem_map.mpr ⟨w, List.mem_finRange w, here.symm⟩, holds⟩
  obtain ⟨j, hj⟩ := Option.isSome_iff_exists.mp found
  obtain ⟨f, at_j, origin, channel⟩ := holdsKey_iff.mp (tapFind_holds hj)
  rw [hj, h.unique j i f e at_j valid origin channel]

theorem tapFind_none {t : TapCache} {o c : Nat} (h : ∀ i, holdsKey t i o c = false) : tapFind t o c = none := by
  unfold tapFind
  rw [List.find?_eq_none]
  intro i _
  rw [h i]
  exact Bool.false_ne_true

/-- A key that the lookup does not find stands nowhere in a lawful cache. -/
theorem LawfulCache.tapFind_none {t : TapCache} (h : LawfulCache t) {o c : Nat} (missed : Machine.tapFind t o c = none)
    (i : Fin 128) : holdsKey t i o c = false := by
  rw [holdsKey_eq_false]
  rintro e valid ⟨rfl, rfl⟩
  rw [h.tapFind valid] at missed
  cases missed

/-! ### The victim (R64) -/

/-- The unlocked ways of a set, in order. -/
def unlockedWays (lock : Nat) : List (Fin 4) := (List.finRange 4).filter fun w => !wayLocked lock w.val

theorem mem_unlockedWays {lock : Nat} {w : Fin 4} : w ∈ unlockedWays lock ↔ lock ≤ w.val := by
  simp [unlockedWays, wayLocked]

theorem unlockedWays_sorted (lock : Nat) : (unlockedWays lock).Pairwise (· < ·) :=
  (List.pairwise_lt_finRange 4).filter _

theorem victim_eq (t : TapCache) (lock : Nat) (set : Fin 32) :
    victim t lock set =
      (((unlockedWays lock).map (place set)).find? (fun i => t[i] == none)).or
        (oldest t ((unlockedWays lock).map (place set))) := rfl

/-- In an increasing list, what is less than an element stands before it, and what is greater after it. -/
theorem mem_of_sorted_split {l as bs : List (Fin 4)} {v w : Fin 4} (sorted : l.Pairwise (· < ·))
    (split : l = as ++ w :: bs) (mem : v ∈ l) : (v < w → v ∈ as) ∧ (w ≤ v → v = w ∨ v ∈ bs) := by
  subst split
  obtain ⟨-, after, before⟩ := List.pairwise_append.mp sorted
  rw [List.pairwise_cons] at after
  rcases List.mem_append.mp mem with first | rest
  · exact ⟨fun _ => first, fun le => absurd (before v first w List.mem_cons_self) (not_lt.mpr le)⟩
  · rcases List.mem_cons.mp rest with rfl | last
    · exact ⟨fun lt => absurd lt (lt_irrefl v), fun _ => .inl rfl⟩
    · exact ⟨fun lt => absurd (after.1 v last) (not_lt.mpr lt.le), fun _ => .inr last⟩

theorem oldest_isSome (t : TapCache) {l : List (Fin 128)} (h : l ≠ []) : (oldest t l).isSome = true := by
  cases l with
  | nil => exact absurd rfl h
  | cons i is =>
    unfold oldest
    split
    · rfl
    · split <;> rfl

/-- The oldest of a list: none before it is as old, none after it is older. -/
theorem oldest_split {t : TapCache} {l : List (Fin 128)} {i : Fin 128} (h : oldest t l = some i) :
    ∃ as bs, l = as ++ i :: bs ∧ (∀ j ∈ as, (placeAge t j).getD 0 < (placeAge t i).getD 0) ∧
      ∀ j ∈ bs, (placeAge t j).getD 0 ≤ (placeAge t i).getD 0 := by
  induction l generalizing i with
  | nil => cases h
  | cons k ks ih =>
    unfold oldest at h
    split at h
    · rename_i none
      cases h
      have empty : ks = [] := by
        by_contra some
        have := oldest_isSome t some
        rw [none] at this
        cases this
      subst empty
      exact ⟨[], [], rfl, nofun, nofun⟩
    · rename_i j oldestRest
      obtain ⟨as, bs, rfl, before, after⟩ := ih oldestRest
      split at h
      · rename_i le
        cases h
        refine ⟨[], _, rfl, nofun, fun m mem => ?_⟩
        rcases List.mem_append.mp mem with first | rest
        · exact (before m first).le.trans le
        · rcases List.mem_cons.mp rest with rfl | last
          · exact le
          · exact (after m last).trans le
      · rename_i lt
        cases h
        refine ⟨k :: as, bs, rfl, fun m mem => ?_, after⟩
        rcases List.mem_cons.mp mem with rfl | first
        · exact not_le.mp lt
        · exact before m first

/-- What R64 asks of the way that is evicted among a set's unlocked ones. -/
structure VictimWay (t : TapCache) (lock : Nat) (set : Fin 32) (w : Fin 4) : Prop where
  unlocked : lock ≤ w.val
  validBefore : ∀ v : Fin 4, lock ≤ v.val → v < w → t[place set v] ≠ none
  allValid : t[place set w] ≠ none → ∀ v : Fin 4, lock ≤ v.val → t[place set v] ≠ none
  oldest : t[place set w] ≠ none → ∀ v : Fin 4, lock ≤ v.val →
    (placeAge t (place set v)).getD 0 ≤ (placeAge t (place set w)).getD 0
  firstOldest : t[place set w] ≠ none → ∀ v : Fin 4, lock ≤ v.val → v < w →
    (placeAge t (place set v)).getD 0 < (placeAge t (place set w)).getD 0

/-- With a way unlocked the victim is the lowest invalid way, or the first of the oldest. -/
theorem victim_way (t : TapCache) {lock : Nat} (free : lock ≤ 3) (set : Fin 32) :
    ∃ w, VictimWay t lock set w ∧ victim t lock set = some (place set w) := by
  have sorted := unlockedWays_sorted lock
  rw [victim_eq, List.find?_map]
  cases invalid : (unlockedWays lock).find? ((fun i => t[i] == none) ∘ place set) with
  | some w =>
    obtain ⟨empty, as, bs, split, valid⟩ := List.find?_eq_some_iff_append.mp invalid
    have vacant : t[place set w] = none := by simpa using empty
    refine ⟨w, ⟨mem_unlockedWays.mp (List.mem_of_find?_eq_some invalid), fun v unlocked lt => ?_,
      (absurd vacant ·), (absurd vacant ·), (absurd vacant ·)⟩, rfl⟩
    have before := (mem_of_sorted_split sorted split (mem_unlockedWays.mpr unlocked)).1 lt
    simpa [Option.isSome_iff_ne_none] using valid v before
  | none =>
    have valid : ∀ v : Fin 4, lock ≤ v.val → t[place set v] ≠ none := fun v unlocked => by
      simpa using List.find?_eq_none.mp invalid v (mem_unlockedWays.mpr unlocked)
    have some : (unlockedWays lock).map (place set) ≠ [] :=
      List.ne_nil_of_mem (List.mem_map_of_mem ((mem_unlockedWays (w := 3)).mpr free))
    obtain ⟨i, old⟩ := Option.isSome_iff_exists.mp (oldest_isSome t some)
    obtain ⟨as, bs, split, before, after⟩ := oldest_split old
    obtain ⟨ws, rest, splitWays, rfl, splitRest⟩ := List.map_eq_append_iff.mp split
    obtain ⟨w, vs, rfl, rfl, rfl⟩ := List.map_eq_cons_iff.mp splitRest
    have unlocked : lock ≤ w.val := mem_unlockedWays.mp (by simp [splitWays])
    refine ⟨w, ⟨unlocked, fun v hv _ => valid v hv, fun _ => valid, fun _ v hv => ?_, fun _ v hv lt => ?_⟩, old⟩
    · have placed := mem_of_sorted_split sorted splitWays (mem_unlockedWays.mpr hv)
      rcases lt_or_ge v w with lt | ge
      · exact (before _ (List.mem_map_of_mem (placed.1 lt))).le
      · rcases placed.2 ge with rfl | last
        · exact le_rfl
        · exact after _ (List.mem_map_of_mem last)
    · exact before _ (List.mem_map_of_mem ((mem_of_sorted_split sorted splitWays (mem_unlockedWays.mpr hv)).1 lt))

/-! ### An item offered to the cache (R61 to R64) -/

theorem TapEntry.Fits.learned {origin : Nat} {it : SampleItem} {set : Fin 32} (w : Fin 4)
    (here : setIndex origin it.channel.toNat = set) (lo : 1 ≤ origin) (hi : origin ≤ 254)
    (channel : it.channel.toNat ≤ 3) : (learnedEntry origin it).Fits (place set w) where
  set := (congrArg Fin.val here).trans (place_set set w).symm
  origin := ⟨lo, hi⟩
  channel := channel
  age := Nat.zero_le _

theorem tapItem_lawful {s : State} (h : LawfulCache s.tap) (origin : Nat) (it : SampleItem) :
    LawfulCache (State.tapItem origin s it).tap := by
  unfold State.tapItem
  split
  · exact h
  · rename_i taken
    split
    · rename_i i found
      refine h.of_entries fun j f valid => ?_
      rw [getElem_setPlace] at valid
      split at valid
      · rename_i here
        obtain ⟨e, was, rfl⟩ := Option.map_eq_some_iff.mp valid
        exact ⟨e, here ▸ was, rfl, rfl, Nat.zero_le _⟩
      · exact ⟨f, valid, rfl, rfl, (h.fits j f valid).age⟩
    · rename_i missed
      split
      · obtain ⟨w, -, chosen⟩ := victim_way s.tap (effLock_le s.node) (setIndex origin it.channel.toNat)
        rw [chosen]
        obtain ⟨zero, high, -, channel⟩ : origin ≠ 0 ∧ ¬254 < origin ∧ origin ≠ s.posA ∧ ¬3 < it.channel.toNat := by
          simpa only [not_or] using taken
        exact h.set (.learned w rfl (Nat.pos_of_ne_zero zero) (not_lt.mp high) (not_lt.mp channel))
          fun j _ => h.tapFind_none missed j
      · exact h

/-! ### A stored way taken by the load (R72) -/

theorem kindOfCode_isSome {k : Nat} : (kindOfCode k).isSome = true ↔ 1 ≤ k ∧ k ≤ 4 := by
  match k with
  | 0 | 1 | 2 | 3 | 4 => decide
  | n + 5 =>
    have unnamed : kindOfCode (n + 5) = none := rfl
    rw [unnamed]
    exact ⟨nofun, fun ⟨_, high⟩ => absurd high (by omega)⟩

/-- The stored words that R72 takes for a place, and their entry. -/
theorem storedEntry_eq_some {placed : List (Nat × Nat)} {i : Fin 128} {pres o c k v fl : Word} {e : TapEntry} :
    storedEntry placed i [pres, o, c, k, v, fl] = some e ↔
      ∃ kind, kindOfCode k.toNat = some kind ∧
        (pres.toNat ≤ 1 ∧ fl.toNat ≤ 1 ∧ 1 ≤ o.toNat ∧ o.toNat ≤ 254 ∧ c.toNat ≤ 3 ∧
          (setIndex o.toNat c.toNat).val = i.val / 4 ∧ (o.toNat, c.toNat) ∉ placed) ∧
        e = loadedEntry o.toNat c.toNat kind v.toInt (fl != 0) := by
  unfold storedEntry
  dsimp only
  cases kindOfCode k.toNat with
  | none => simp
  | some kind => simp [eq_comm]

theorem storedEntry_fits {placed : List (Nat × Nat)} {i : Fin 128} {w : List Word} {e : TapEntry}
    (h : storedEntry placed i w = some e) : e.Fits i := by
  match w, h with
  | [pres, o, c, k, v, fl], h =>
    obtain ⟨kind, -, ⟨-, -, lo, hi, channel, set, -⟩, rfl⟩ := storedEntry_eq_some.mp h
    exact ⟨set, ⟨lo, hi⟩, channel, Nat.zero_le _⟩

theorem TaplockLoad.take_lawful (lock : Nat) {L : TaplockLoad} (h : LawfulCache L.tap) (i : Fin 128) (w : List Word) :
    LawfulCache (L.take lock i w).tap := by
  have emptied : LawfulCache (if wayLocked lock (wayOf i) then L.tap.set i none else L.tap) := by
    split
    · refine h.of_sub fun j => ?_
      rw [getElem_setPlace]
      split
      · exact .inl rfl
      · exact .inr rfl
    · exact h
  unfold TaplockLoad.take
  dsimp only
  split
  · exact emptied
  · split
    · exact emptied
    · rename_i e stored
      split
      · exact h.loaded (storedEntry_fits stored) rfl rfl
      · exact h

theorem TaplockLoad.takeAll_lawful (lock : Nat) (is : List (Fin 128)) {L : TaplockLoad} (h : LawfulCache L.tap)
    (ws : List Word) : LawfulCache (TaplockLoad.takeAll lock L is ws).tap := by
  induction is generalizing L ws with
  | nil => exact h
  | cons i is ih => exact ih (L.take_lawful lock h i _) _

end Sys2Proof.Machine
end

