-- ==== Sys2Proof/Proofs/TapLaw.lean ====
section
/-! PROOFS. Proofs/TapLaw.lean: every step keeps the laws of the tap cache (R57, R58). The cache is touched by its own
operations alone: an item, an ageing, a change of the lock count, a flush, a TAP_LOAD, the load of the TAPLOCK group and the
resets. Every other operation leaves it as it stood. -/

namespace Sys2Proof.Machine

/-! ### What sensors, fans, doors, plans and the line leave as it stood -/

/-- The tap cache, and two fields that the image load moves. -/
structure Standing where
  tap : TapCache
  nodeState : NodeState
  lastFailing : Nat

def State.standing (s : State) : Standing := ⟨s.tap, s.nodeState, s.lastFailing⟩

theorem standing_tap {s t : State} (h : t.standing = s.standing) : t.tap = s.tap := congrArg Standing.tap h

theorem standing_nodeState {s t : State} (h : t.standing = s.standing) : t.nodeState = s.nodeState :=
  congrArg Standing.nodeState h

theorem standing_lastFailing {s t : State} (h : t.standing = s.standing) : t.lastFailing = s.lastFailing :=
  congrArg Standing.lastFailing h

theorem State.TapLaw.of_cache {s : State} {cache : TapCache} (lawful : LawfulCache cache) (h : s.tap = cache) : s.TapLaw :=
  tapLaw_iff.mpr (h ▸ lawful)

theorem State.TapLaw.of_standing {s t : State} (h : s.TapLaw) (same : t.standing = s.standing) : t.TapLaw :=
  h.of_tap (standing_tap same)

theorem Consequence.standing {E : EntryId → Prop} {s t : State} (h : Consequence E s t) : t.standing = s.standing :=
  (congrArg State.standing h.still : t.still.standing = s.still.standing)

section
variable (s : State)

@[simp] theorem standing_setPort (p : Port) (P : LinePort) : (s.setPort p P).standing = s.standing := by cases p <;> rfl

@[simp] theorem standing_setKind (k : Kind) (K : KindUnit) : (s.setKind k K).standing = s.standing := by cases k <;> rfl

@[simp] theorem standing_setChannel (c : ChannelId) (C : Channel) : (s.setChannel c C).standing = s.standing := rfl

@[simp] theorem standing_setFan (f : FanId) (F : Fan) : (s.setFan f F).standing = s.standing := rfl

@[simp] theorem standing_setDoor (d : DoorId) (D : Door) : (s.setDoor d D).standing = s.standing := rfl

@[simp] theorem standing_markDirty (g : Fin 15) : (s.markDirty g).standing = s.standing := rfl

theorem standing_withDecision (due : Bool) : State.standing { s with decisionDue := due } = s.standing := rfl

theorem standing_withLatch (latch : Vector LatchEntry 51) (due : Bool) :
    State.standing { s with latch := latch, decisionDue := due } = s.standing := rfl

theorem standing_withPlan (plan : Vector PlanStep 64) : State.standing { s with plan := plan } = s.standing := rfl

theorem tap_withDirty (dirty : Vector Bool 15) : State.tap { s with dirty := dirty } = s.tap := rfl

theorem tap_withFailing (dirty : Vector Bool 15) (n : Nat) :
    State.tap { s with dirty := dirty, lastFailing := n } = s.tap := rfl

theorem tap_withLoading (l : LoadState) : State.tap { s with loading := l } = s.tap := rfl

theorem tap_withTaplock (tap : TapCache) (dirty : Vector Bool 15) :
    State.tap { s with tap := tap, dirty := dirty } = tap := rfl

theorem tap_withPosition (k : Nat) : State.tap { s with posA := k } = s.tap := rfl

@[simp] theorem standing_settle : s.settle.standing = s.standing := (settle_consequence s).standing

@[simp] theorem standing_occurFrom (n : EntryId) (o : Nat) : (s.occurFrom n o).standing = s.standing :=
  (occurFrom_consequence (E := anyEntry) trivial s n o trivial).standing

@[simp] theorem standing_occur (n : EntryId) : (s.occur n).standing = s.standing := standing_occurFrom s n _

@[simp] theorem standing_clearWithCode (n : EntryId) (code : Word) : (s.clearWithCode n code).standing = s.standing :=
  (clearWithCode_consequence (E := anyEntry) trivial s n code trivial).standing

@[simp] theorem standing_clearSource (n : EntryId) : (s.clearSource n).standing = s.standing :=
  standing_clearWithCode s n _

@[simp] theorem standing_follow (n : EntryId) (was is : Bool) : (s.follow n was is).standing = s.standing :=
  (follow_consequence (E := anyEntry) trivial s n was is trivial).standing

@[simp] theorem standing_occurIf (n : EntryId) (b : Bool) : (s.occurIf n b).standing = s.standing := by
  cases b
  · rfl
  · exact standing_occur s n

@[simp] theorem standing_offer (p : Port) (q : QueueId) (f : Frame) : (s.offer p q f).1.standing = s.standing := by
  unfold State.offer
  dsimp only
  split
  · split <;> simp
  · rfl

@[simp] theorem standing_overrun : s.overrun.standing = s.standing :=
  (overrun_consequence (E := anyEntry) s trivial).standing

@[simp] theorem standing_overruns (k : Nat) : (State.overruns k s).standing = s.standing :=
  (overruns_consequence (E := anyEntry) trivial k s).standing

@[simp] theorem standing_sendLocal (f : Frame) : (s.sendLocal f).standing = s.standing := by
  simp [State.sendLocal, State.offerBoth]

@[simp] theorem standing_relay (p : Port) (f : Frame) : (s.relay p f).standing = s.standing := by
  unfold State.relay
  dsimp only
  split <;> simp

@[simp] theorem standing_reply (p : Port) (op : Byte) (r : Request) (a : Answer) :
    (s.reply p op r a).standing = s.standing := standing_offer s p _ _

@[simp] theorem standing_renew : s.renew.standing = s.standing := (renew_consequence anyEntry s).standing

@[simp] theorem standing_handOff : s.handOff.standing = s.standing := (handOff_consequence anyEntry s).standing

@[simp] theorem standing_reformJet (f : FanId) : (s.reformJet f).standing = s.standing :=
  (reformJet_consequence anyEntry s f).standing

@[simp] theorem standing_reformPassage : s.reformPassage.standing = s.standing :=
  (reformPassage_consequence anyEntry s).standing

@[simp] theorem standing_passageFollows (was is : Bool) : (s.passageFollows was is).standing = s.standing :=
  (passageFollows_consequence anyEntry s was is).standing

theorem standing_stepExpired : s.stepExpired.standing = s.standing := (stepExpired_consequence s).standing

/-! ### The line -/

@[simp] theorem standing_superviseGood (p : Port) : (s.superviseGood p).standing = s.standing :=
  (superviseGood_consequence s p).standing.trans (standing_setPort s p _)

theorem standing_badFrame (p : Port) : (s.badFrame p).standing = s.standing := by
  unfold State.badFrame
  dsimp only
  split <;> simp

theorem standing_linkExpired (p : Port) : (s.linkExpired p).standing = s.standing := by
  unfold State.linkExpired
  dsimp only
  split
  · rfl
  · split <;> simp

theorem standing_fillExpired (p : Port) : (s.fillExpired p).standing = s.standing := by
  unfold State.fillExpired
  dsimp only
  split <;> simp

theorem standing_sent (p : Port) : (s.sent p).standing = s.standing := by
  unfold State.sent
  dsimp only
  split <;> simp

theorem standing_guardRetest (was : Bool) : (s.guardRetest was).standing = s.standing := by
  unfold State.guardRetest
  split <;> simp

theorem standing_relayCount (p : Port) (side : Side) (k : Byte) : (s.relayCount p side k).standing = s.standing := by
  unfold State.relayCount
  split <;> simp

theorem standing_actTrigger (f : TriggerFields) : (s.actTrigger f).standing = s.standing := by
  unfold State.actTrigger
  split
  · split
    · rfl
    · split <;> simp
  · rfl

theorem standing_takeTrigger (p : Port) (f : TriggerFields) : (s.takeTrigger p f).standing = s.standing := by
  unfold State.takeTrigger
  dsimp only
  split <;> simp [standing_actTrigger]

theorem standing_takeTime (p : Port) (clock : BitVec 32) : (s.takeTime p clock).standing = s.standing :=
  standing_relay _ p _

/-! ### Sensors and demand -/

@[simp] theorem standing_loopFaultChange (c : ChannelId) (was is : Bool) :
    (s.loopFaultChange c was is).standing = s.standing := standing_follow s _ was is

theorem standing_conversion (c : ChannelId) (code : BitVec 12) : (s.conversion c code).standing = s.standing := by
  unfold State.conversion
  dsimp only
  split <;> simp

theorem standing_reportExpiry : s.reportExpiry.standing = s.standing := by
  unfold State.reportExpiry
  dsimp only
  split
  · rfl
  · exact standing_sendLocal _ _

@[simp] theorem standing_failedChange (k : Kind) (was is : KindStatus) :
    (s.failedChange k was is).standing = s.standing := by
  unfold State.failedChange
  split
  · simp
  · split <;> simp

@[simp] theorem standing_alarmChange (k : Kind) (was is : Bool) : (s.alarmChange k was is).standing = s.standing := by
  unfold State.alarmChange
  split
  · rfl
  · exact standing_follow s _ was is

@[simp] theorem standing_kindSources (old : Kinds) : (State.kindSources old s).standing = s.standing := by
  simp [State.kindSources]

theorem standing_kindHoldExpired (k : Kind) : (s.kindHoldExpired k).standing = s.standing := by
  unfold State.kindHoldExpired
  dsimp only
  split <;> simp

theorem standing_controlExpired : s.controlExpired.standing = s.standing :=
  (standing_handOff _).trans (standing_kindSources _ _)

/-! ### Fans and doors -/

theorem standing_fanFault (f : FanId) : (s.fanFault f).standing = s.standing := standing_occur _ _

theorem standing_startExpired (f : FanId) : (s.startExpired f).standing = s.standing := by
  unfold State.startExpired
  split <;> simp [standing_fanFault]

theorem standing_stallExpired (f : FanId) : (s.stallExpired f).standing = s.standing := by
  unfold State.stallExpired
  split <;> simp [standing_fanFault]

theorem standing_dwellExpired (f : FanId) : (s.dwellExpired f).standing = s.standing := by
  unfold State.dwellExpired
  split <;> simp

theorem standing_isolatorAccepted (f : FanId) : (s.isolatorAccepted f).standing = s.standing := by
  unfold State.isolatorAccepted State.isolatorState
  dsimp only
  split
  · rfl
  · split <;> simp

@[simp] theorem standing_doorTo (d : DoorId) (D : Door) (egress : Bool) : (s.doorTo d D egress).standing = s.standing := by
  simp [State.doorTo]

theorem standing_doorDebounced (d : DoorId) (i : DoorInput) : (s.doorDebounced d i).standing = s.standing := by
  unfold State.doorDebounced
  dsimp only
  split <;> simp

theorem standing_doorsLeaveStarting : s.doorsLeaveStarting.standing = s.standing :=
  (standing_doorTo _ 1 _ false).trans (standing_doorTo s 0 _ false)

theorem standing_callPointAccepted : s.callPointAccepted.standing = s.standing := by
  unfold State.callPointAccepted
  split
  · rfl
  · exact standing_follow _ _ _ _

theorem standing_launchHoldExpired : s.launchHoldExpired.standing = s.standing := by
  unfold State.launchHoldExpired
  split <;> rfl

/-! ### Stored words and their effects -/

/-- A fold of updates that each leave the cache leaves it. -/
theorem standing_foldl {α : Type} (update : State → α → State) (h : ∀ s a, (update s a).standing = s.standing)
    (l : List α) : (l.foldl update s).standing = s.standing := by
  induction l generalizing s with
  | nil => rfl
  | cons a l ih => rw [List.foldl_cons, ih, h]

theorem standing_putWord (T : Table) (e w : Nat) (v : Word) : (s.putWord T e w v).1.standing = s.standing := by
  unfold State.putWord
  cases T with
  | kind => exact standing_setKind s _ _
  | node | status | tap | latch | stack => rfl
  | _ =>
    dsimp only
    split <;> rfl

theorem standing_putTableWords (T : Table) (a : Nat) (vs : List Word) :
    (s.putTableWords T a vs).1.standing = s.standing := by
  induction vs generalizing s a with
  | nil => rfl
  | cons v vs ih =>
    refine (ih _ (a + 1)).trans ?_
    unfold State.putTableWord
    split
    · exact standing_putWord s T _ _ v
    · rfl

theorem standing_loadEntries (T : Table) (e n : Nat) (ws : List Word) :
    (s.loadEntries T e n ws).standing = s.standing := by
  induction n generalizing s e ws with
  | zero => rfl
  | succ n ih => exact (ih _ (e + 1) _).trans (standing_putTableWords s T _ _)

theorem standing_markWord (T : Table) (a : Nat) : (s.markWord T a).standing = s.standing := by
  unfold State.markWord
  split
  · split <;> rfl
  · rfl

theorem standing_markWords (T : Table) (a n : Nat) : (s.markWords T a n).standing = s.standing := by
  induction n generalizing s a with
  | zero => rfl
  | succ n ih => exact (ih _ _).trans (standing_markWord s T a)

theorem standing_channelsChanged (old : State) :
    ((List.finRange 4).foldl (State.channelChanged old) s).standing = s.standing :=
  standing_foldl s _ (fun s c => by simp [State.channelChanged]) _

theorem standing_termsChanged : s.termsChanged.standing = s.standing := standing_kindSources _ _

/-- The term lists' effects, taken when the lists have changed. -/
theorem standing_termsFollowed (old : State) :
    (if s.terms = old.terms then s else s.termsChanged).standing = s.standing := by
  split
  · rfl
  · exact standing_termsChanged s

theorem standing_lineChanged (old : State) (i : Fin 16) : (State.lineChanged old s i).standing = s.standing := by
  unfold State.lineChanged
  split <;> simp

theorem standing_revalidate (old : State) : (State.revalidate old s).standing = s.standing :=
  standing_withLatch s _ _

/-! ### The image store -/

theorem standing_writeComplete (r : SerialAnswer) : (s.writeComplete r).standing = s.standing := by
  unfold State.writeComplete
  split <;> cases r <;> rfl

theorem standing_storeFrom (i : Nat) : (s.storeFrom i).standing = s.standing := by
  unfold State.storeFrom
  split <;> rfl

theorem standing_verified (g : Fin 15) (good : Bool) : (s.verified g good).standing = s.standing := by
  unfold State.verified
  split
  · split <;> rfl
  · simp

theorem standing_verifyComplete (r : SerialAnswer) : (s.verifyComplete r).standing = s.standing := by
  unfold State.verifyComplete
  split
  · exact (standing_storeFrom _ _).trans (standing_verified _ _ _)
  · dsimp only
    split
    · rfl
    · exact standing_occur _ _
  all_goals rfl

/-! ### The operations of the responder that leave the cache -/

theorem standing_runFlushPlans : s.runFlushPlans.1.standing = s.standing := by
  unfold State.runFlushPlans
  split
  · rfl
  · refine (standing_revalidate _ s).trans ?_
    unfold State.markFlushed
    exact (standing_foldl _ _ (fun s i => by split <;> simp) _).trans (standing_withPlan s _)

theorem standing_runAck (r : Request) : (s.runAck r).1.standing = s.standing := by
  unfold State.runAck
  split
  · dsimp only
    split <;> rfl
  all_goals rfl

theorem standing_runClearPlan (r : Request) : (s.runClearPlan r).1.standing = s.standing := by
  have any : ∀ n, settleSide n → anyEntry n := fun _ _ => trivial
  unfold State.runClearPlan
  split
  · exact (clearActive_consequence any s).standing
  · split
    · exact (clearAll_consequence any s).standing
    · rfl

theorem standing_runFanReset (r : Request) : (s.runFanReset r).1.standing = s.standing := by
  unfold State.runFanReset State.fanReset
  split
  · dsimp only
    split <;> simp
  · rfl

theorem standing_runDoorReset (r : Request) : (s.runDoorReset r).1.standing = s.standing := by
  unfold State.runDoorReset
  split <;> simp

theorem runOpen_tap : s.runOpen.1.tap = s.tap := by
  unfold State.runOpen
  split
  · rw [standing_tap (standing_withDecision _ _), standing_tap (standing_renew _)]
  · rfl

theorem standing_runStore : s.runStore.1.standing = s.standing := by
  unfold State.runStore
  split <;> simp [standing_storeFrom]

end

/-! ### The operations on the cache keep its laws -/

section
variable {s : State}

theorem State.TapLaw.tapItems (h : s.TapLaw) (f : SampleFields) : (s.tapItems f).TapLaw := by
  unfold State.tapItems
  induction f.items generalizing s with
  | nil => exact h
  | cons it items ih => exact ih (tapLaw_iff.mpr (tapItem_lawful (tapLaw_iff.mp h) _ it))

theorem State.TapLaw.takeSample (h : s.TapLaw) (p : Port) (f : SampleFields) : (s.takeSample p f).TapLaw := by
  unfold State.takeSample
  dsimp only
  split
  · exact (h.tapItems f).of_standing (standing_relay _ p _)
  · exact h.tapItems f

theorem State.TapLaw.tapAge (h : s.TapLaw) : s.tapAge.TapLaw :=
  tapLaw_iff.mpr <| (tapLaw_iff.mp h).of_map (fun _ => TapEntry.aged) (tapAge_getElem s)
    fun _ _ => ⟨rfl, rfl, fun _ => Nat.min_le_right _ _⟩

theorem State.TapLaw.lockChanged (h : s.TapLaw) (l0 l1 : Nat) : (s.lockChanged l0 l1).TapLaw :=
  tapLaw_iff.mpr <| (tapLaw_iff.mp h).of_map (fun i => TapEntry.relock l0 l1 (wayOf i)) (lockChanged_getElem s l0 l1)
    fun i e => by
      obtain ⟨origin, channel, age⟩ := e.relock_keeps l0 l1 (wayOf i)
      exact ⟨origin, channel, fun le => age ▸ le⟩

theorem State.TapLaw.flushUnlocked (h : s.TapLaw) : s.flushUnlocked.TapLaw :=
  tapLaw_iff.mpr ((tapLaw_iff.mp h).flushPlaces _ _)

theorem State.TapLaw.flushTap (h : s.TapLaw) : s.flushTap.TapLaw := by
  have flushed : LawfulCache (flushPlaces s.tap s.node.effLock (!s.node.tapProtect)) := (tapLaw_iff.mp h).flushPlaces _ _
  unfold State.flushTap
  dsimp only
  split <;> exact tapLaw_iff.mpr flushed

theorem State.TapLaw.emptyLocked (h : s.TapLaw) : s.emptyLocked.TapLaw :=
  tapLaw_iff.mpr <| (tapLaw_iff.mp h).of_sub fun i => by
    rw [emptyLocked_getElem]
    split
    · exact .inl rfl
    · exact .inr rfl

/-- The target of a TAP_LOAD is a locked way of the key's set. -/
theorem loadTarget_way {t : TapCache} {lock o c : Nat} {i : Fin 128} (h : loadTarget t lock o c = some i) :
    ∃ w : Fin 4, w.val < lock ∧ i = place (setIndex o c) w := by
  have locked : ∀ {p : Fin 128 → Bool},
      (((List.finRange 4).filter fun w => wayLocked lock w.val).map (place (setIndex o c))).find? p = some i →
        ∃ w : Fin 4, w.val < lock ∧ i = place (setIndex o c) w := by
    intro p found
    obtain ⟨w, mem, here⟩ := List.mem_map.mp (List.mem_of_find?_eq_some found)
    exact ⟨w, by simpa [wayLocked] using (List.mem_filter.mp mem).2, here.symm⟩
  unfold loadTarget at h
  rcases Option.or_eq_some_iff.mp h with found | ⟨-, found⟩
  · exact locked found
  · exact locked found

theorem State.TapLaw.tapLoad (h : s.TapLaw) {t : State} {o c : Nat} {k : Kind} {v : Int} (lo : 1 ≤ o) (hi : o ≤ 254)
    (channel : c ≤ 3) (loaded : s.tapLoad o c k v = some t) : t.TapLaw := by
  obtain ⟨i, target, rfl⟩ := Option.map_eq_some_iff.mp loaded
  obtain ⟨w, -, rfl⟩ := loadTarget_way target
  have fits : (loadedEntry o c k v true).Fits (place (setIndex o c) w) :=
    ⟨(place_set _ w).symm, ⟨lo, hi⟩, channel, Nat.zero_le _⟩
  exact .of_cache ((tapLaw_iff.mp h).loaded fits rfl rfl) (markDirty_tap _ _)

theorem State.TapLaw.runTapLoad (h : s.TapLaw) (r : Request) : (s.runTapLoad r).1.TapLaw := by
  unfold State.runTapLoad
  split
  · split
    · exact h
    · split
      · exact h
      · split
        · exact h
        · rename_i inRange _ _ loaded
          exact h.tapLoad (by omega) (by omega) (by omega) loaded
  all_goals exact h

/-! ### Stored words, the image load and the resets -/

theorem State.TapLaw.nodeChanged (h : s.TapLaw) (old : State) : (s.nodeChanged old).TapLaw := by
  have relocked : ∀ t : State, t.standing = s.standing →
      (if t.node.effLock = old.node.effLock then t else t.lockChanged old.node.effLock t.node.effLock).TapLaw := by
    intro t same
    split
    · exact h.of_standing same
    · exact (h.of_standing same).lockChanged _ _
  unfold State.nodeChanged
  refine relocked _ ?_
  split <;> split <;> rfl

theorem State.TapLaw.changed (h : s.TapLaw) (old : State) : (State.changed old s).TapLaw := by
  have node := ((h.of_standing (standing_channelsChanged s old)).of_standing (standing_termsFollowed _ old)).nodeChanged old
  unfold State.changed
  have lines := node.of_standing (standing_foldl _ _ (fun s i => standing_lineChanged s old i) (List.finRange 16))
  exact lines.of_standing ((standing_revalidate _ old).trans (standing_withDecision _ _))

theorem State.TapLaw.writeTable (h : s.TapLaw) (T : Table) (a : Nat) (ws : List Word) : (s.writeTable T a ws).1.TapLaw :=
  ((h.of_standing (standing_putTableWords s T a ws)).of_standing (standing_markWords _ T a _)).changed s

theorem State.TapLaw.runWrite (h : s.TapLaw) (r : Request) : (s.runWrite r).1.TapLaw := by
  unfold State.runWrite
  split
  · exact h
  · dsimp only
    split
    · exact h
    · split
      · exact h
      · split
        · exact h
        · exact h.writeTable _ _ _

theorem endLoad_tap (s : State) (locked : Bool) : (s.endLoad locked).tap = s.tap := by
  unfold State.endLoad
  dsimp only
  rw [standing_tap (standing_withDecision _ _), standing_tap (standing_renew _),
    standing_tap (standing_doorsLeaveStarting _), standing_tap (standing_reformPassage _),
    standing_tap (standing_reformJet _ _), standing_tap (standing_reformJet _ _)]

theorem State.TapLaw.nextGroup (h : s.TapLaw) (i : Nat) (locked : Bool) (count : Nat) :
    (s.nextGroup i locked count).TapLaw := by
  unfold State.nextGroup
  split
  · split
    · exact h.of_tap rfl
    · exact h.emptyLocked.of_tap (endLoad_tap _ locked)
  · exact h.of_tap (endLoad_tap s locked)

theorem State.TapLaw.headerRead (h : s.TapLaw) (r : SerialAnswer) : (s.headerRead r).TapLaw := by
  unfold State.headerRead
  split
  · split
    · exact h.of_tap ((endLoad_tap _ true).trans ((standing_tap (standing_occur _ _)).trans (tap_withLoading s _)))
    · exact h.nextGroup _ _ _
  · exact h
  · exact h

theorem State.TapLaw.loadTaplock (h : s.TapLaw) (data : List Word) : LawfulCache (s.loadTaplock data).1 := by
  unfold State.loadTaplock
  dsimp only
  exact TaplockLoad.takeAll_lawful _ _ (L := ⟨s.tap, [], false⟩) (tapLaw_iff.mp h) data

theorem State.TapLaw.loadGroup (h : s.TapLaw) (g : Fin 15) (data : List Word) : (s.loadGroup g data).TapLaw := by
  unfold State.loadGroup
  split
  · exact ((h.of_standing (standing_loadEntries s _ _ _ _)).changed s).of_tap (tap_withDirty _ _)
  · exact .of_cache (h.loadTaplock data) (tap_withTaplock s _ _)

theorem State.TapLaw.failGroup (h : s.TapLaw) (g : Fin 15) : (s.failGroup g).TapLaw := by
  unfold State.failGroup
  dsimp only
  split
  · exact h.emptyLocked.of_tap ((standing_tap (standing_occur _ _)).trans (tap_withFailing _ _ _))
  · exact h.of_tap ((standing_tap (standing_occur _ _)).trans (tap_withFailing _ _ _))

theorem State.TapLaw.groupRead (h : s.TapLaw) (r : SerialAnswer) : (s.groupRead r).TapLaw := by
  unfold State.groupRead
  split
  · dsimp only
    split
    · exact (h.loadGroup _ _).nextGroup _ _ _
    · exact (h.failGroup _).nextGroup _ _ _
  · exact h
  · exact h

/-- A reset empties the cache. -/
theorem emptyCache_lawful : LawfulCache (Vector.replicate 128 none) where
  fits i e valid := by simp at valid
  unique i j e f valid := by simp at valid

theorem hardReset_tapLaw (s : State) (cause : ResetCause) : (s.hardReset cause).TapLaw := by
  refine .of_cache emptyCache_lawful ?_
  rw [State.hardReset, (firstEvaluation_consequence _).tap]
  rfl

theorem restarted_tapLaw (s : State) : s.restarted.TapLaw := by
  refine .of_cache emptyCache_lawful ?_
  rw [State.restarted, (firstEvaluation_consequence _).tap]
  rfl

theorem State.TapLaw.setPosA (h : s.TapLaw) (k : Nat) : (s.setPosA k).TapLaw := by
  unfold State.setPosA
  split
  · exact h
  · have moved : (State.occur { s with posA := k } srcPosition).TapLaw :=
      h.of_tap ((standing_tap (standing_occur _ _)).trans (tap_withPosition s k))
    exact moved.flushUnlocked.of_standing (standing_guardRetest _ _)

theorem State.TapLaw.takeCount (h : s.TapLaw) (p : Port) (side : Side) (k : Byte) : (s.takeCount p side k).TapLaw := by
  unfold State.takeCount
  split
  · exact (h.setPosA _).of_standing (standing_relayCount _ _ _ k)
  · exact h.of_standing ((standing_relayCount _ _ _ k).trans rfl)
  · exact h.of_standing (standing_occur _ _)
  · exact h.of_standing (standing_occur _ _)

/-! ### Commands -/

theorem State.TapLaw.goodUp (h : s.TapLaw) (p : Port) (dispatch : State → State)
    (keeps : ∀ s : State, s.TapLaw → (dispatch s).TapLaw) : (s.goodUp p dispatch).TapLaw := by
  have supervised : (s.superviseGood p).settle.TapLaw := h.of_standing (by simp)
  unfold State.goodUp
  dsimp only
  split
  · exact (keeps _ supervised).of_standing (standing_settle _)
  · exact supervised

theorem State.TapLaw.goodAny (h : s.TapLaw) (p : Port) (dispatch : State → State)
    (keeps : ∀ s : State, s.TapLaw → (dispatch s).TapLaw) : (s.goodAny p dispatch).TapLaw :=
  (keeps _ (h.of_standing (by simp))).of_standing (standing_settle _)

theorem State.TapLaw.respond (h : s.TapLaw) (p : Port) (op : Byte) (r : Request) (free : Bool)
    (run : State → State × Answer) (keeps : ∀ s : State, s.TapLaw → (run s).1.TapLaw) :
    (s.respond p op r free run).TapLaw := by
  unfold State.respond
  split
  · exact h.of_standing (standing_reply s p op r _)
  · exact (keeps s h).of_standing (by simp)

theorem State.TapLaw.request (h : s.TapLaw) (p : Port) (op : Byte) (r : Request) (free : Bool)
    (run : State → State × Answer) (keeps : ∀ s : State, s.TapLaw → (run s).1.TapLaw) :
    (s.request p op r free run).TapLaw := by
  refine h.goodUp p _ fun s law => ?_
  split
  · exact law.respond p op r free run keeps
  · exact law

end

/-- Every command keeps the laws of the cache. -/
theorem exec_tapLaw (c : Instr) {s : State} (h : s.TapLaw) : ∃ t, exec c s = .next t ∧ t.TapLaw := by
  have settled : ∀ {t : State}, t.TapLaw → t.settle.TapLaw := fun law => law.of_standing (standing_settle _)
  have leaves : ∀ {t : State}, t.standing = s.standing → t.settle.TapLaw := fun same => settled (h.of_standing same)
  have relayed : ∀ (p : Port) (f : Frame) (b : Bool) (s : State), s.TapLaw → (if b then s.relay p f else s).TapLaw := by
    intro p f b s law
    cases b
    · exact law
    · exact law.of_standing (standing_relay s p f)
  cases c with
  | powerOnReset => exact ⟨_, rfl, hardReset_tapLaw s .powerOn⟩
  | pinReset => exact ⟨_, rfl, hardReset_tapLaw s .pin⟩
  | badFrame p => exact ⟨_, rfl, leaves (standing_badFrame s p)⟩
  | fill p => exact ⟨_, rfl, h.goodAny p _ fun _ law => law⟩
  | count p side k => exact ⟨_, rfl, h.goodAny p _ fun _ law => law.takeCount p side k⟩
  | sample p f =>
    refine ⟨_, rfl, h.goodUp p _ fun s law => ?_⟩
    split
    · exact law.takeSample p f
    · exact law
  | event p f => exact ⟨_, rfl, h.goodUp p _ (relayed p _ true)⟩
  | trigger p f => exact ⟨_, rfl, h.goodUp p _ fun s law => law.of_standing (standing_takeTrigger s p f)⟩
  | mgmtReply p f => exact ⟨_, rfl, h.goodUp p _ (relayed p _ _)⟩
  | mgmtReqRelay p f => exact ⟨_, rfl, h.goodUp p _ (relayed p _ _)⟩
  | time p clock => exact ⟨_, rfl, h.goodUp p _ fun s law => law.of_standing (standing_takeTime s p clock)⟩
  | unknownFrame p => exact ⟨_, rfl, h.goodUp p _ fun _ law => law⟩
  | read p r => exact ⟨_, rfl, h.request p 1 r _ _ fun s law => by rw [runRead_state]; exact law⟩
  | write p r => exact ⟨_, rfl, h.request p 2 r _ _ fun _ law => law.runWrite r⟩
  | tapLoad p r => exact ⟨_, rfl, h.request p 3 r _ _ fun _ law => law.runTapLoad r⟩
  | flushTap p r => exact ⟨_, rfl, h.request p 4 r _ _ fun _ law => law.flushTap⟩
  | flushPlans p r => exact ⟨_, rfl, h.request p 5 r _ _ fun s law => law.of_standing (standing_runFlushPlans s)⟩
  | ack p r => exact ⟨_, rfl, h.request p 6 r _ _ fun s law => law.of_standing (standing_runAck s r)⟩
  | clearPlan p r => exact ⟨_, rfl, h.request p 7 r _ _ fun s law => law.of_standing (standing_runClearPlan s r)⟩
  | setMask p r => exact ⟨_, rfl, h.request p 8 r _ _ fun _ law => law.of_standing rfl⟩
  | fanReset p r => exact ⟨_, rfl, h.request p 9 r _ _ fun s law => law.of_standing (standing_runFanReset s r)⟩
  | doorReset p r => exact ⟨_, rfl, h.request p 10 r _ _ fun s law => law.of_standing (standing_runDoorReset s r)⟩
  | openNode p r => exact ⟨_, rfl, h.request p 11 r _ _ fun s law => law.of_tap (runOpen_tap s)⟩
  | store p r => exact ⟨_, rfl, h.request p 12 r _ _ fun s law => law.of_standing (standing_runStore s)⟩
  | restart p r =>
    refine ⟨_, rfl, h.goodUp p _ fun s law => ?_⟩
    split
    · split
      · exact law.of_standing (standing_reply s p 13 r _)
      · exact restarted_tapLaw s
    · exact law
  | badOpRequest p op r =>
    refine ⟨_, rfl, h.goodUp p _ fun s law => ?_⟩
    split
    · exact law.respond p op r false _ fun _ law => law
    · exact law
  | linkTimerExpiry p => exact ⟨_, rfl, leaves (standing_linkExpired s p)⟩
  | fillTimerExpiry p => exact ⟨_, rfl, h.of_standing (standing_fillExpired s p)⟩
  | transmissionCompletion p => exact ⟨_, rfl, h.of_standing (standing_sent s p)⟩
  | conversionCompletion ch code => exact ⟨_, rfl, leaves (standing_conversion s ch code)⟩
  | reportTimerExpiry => exact ⟨_, rfl, leaves (standing_reportExpiry s)⟩
  | tapAgeingExpiry => exact ⟨_, rfl, h.tapAge⟩
  | controlTimerExpiry => exact ⟨_, rfl, leaves (standing_controlExpired s)⟩
  | kindHoldExpiry k => exact ⟨_, rfl, leaves (standing_kindHoldExpired s k)⟩
  | startTimerExpiry f => exact ⟨_, rfl, leaves (standing_startExpired s f)⟩
  | stallTimerExpiry f => exact ⟨_, rfl, leaves (standing_stallExpired s f)⟩
  | dwellTimerExpiry f => exact ⟨_, rfl, h.of_standing (standing_dwellExpired s f)⟩
  | isolatorAccepted f => exact ⟨_, rfl, leaves (standing_isolatorAccepted s f)⟩
  | doorDebounceExpiry d i => exact ⟨_, rfl, leaves (standing_doorDebounced s d i)⟩
  | egressTimerExpiry d | holdTimerExpiry d | relockTimerExpiry d | feedbackTimerExpiry d =>
    exact ⟨_, rfl, leaves (standing_doorTo s d _ false)⟩
  | tachEdge _ _ | tachOverflow _ | periodStart _ | isolatorInputChange _ _ | doorInputChange _ _ _
  | lampCompareMatch _ | callPointInputChange _ => exact ⟨_, rfl, h.of_standing rfl⟩
  | callPointAccepted => exact ⟨_, rfl, leaves (standing_callPointAccepted s)⟩
  | launchHoldExpiry => exact ⟨_, rfl, leaves (standing_launchHoldExpired s)⟩
  | stepTimerExpiry => exact ⟨_, rfl, leaves (standing_stepExpired s)⟩
  | imageHeaderRead r => exact ⟨_, rfl, settled (h.headerRead r)⟩
  | imageGroupRead r => exact ⟨_, rfl, settled (h.groupRead r)⟩
  | storeWriteComplete r => exact ⟨_, rfl, h.of_standing (standing_writeComplete s r)⟩
  | storeVerifyComplete r => exact ⟨_, rfl, leaves (standing_verifyComplete s r)⟩

/-- Settles O50: a step is a tick, which leaves the cache, or a command. -/
theorem stepsKeepTheTapLaw : Obligations.StepsKeepTheTapLaw := by
  intro s t h e
  unfold step at e
  split at e
  · cases e
    exact h.of_standing rfl
  · rename_i c rest _
    have queued : State.TapLaw { s with pending := rest } := h.of_standing rfl
    obtain ⟨u, hu, law⟩ := exec_tapLaw c queued
    rw [hu] at e
    cases e
    exact law

end Sys2Proof.Machine
end

