-- ==== Sys2Proof/Proofs/TapOperations.lean ====
section
/-! PROOFS. Proofs/TapOperations.lean: what a SAMPLE item, an ageing expiry, TAP_LOAD and FLUSH_TAP do to the tap cache
(R59, R61 to R64, R67 to R69, R185). -/

namespace Sys2Proof.Machine

/-! ### A SAMPLE item, an equation per case (R61 to R64) -/

section
variable {s : State} {origin : Nat} {it : SampleItem}

theorem tapItem_ignored (h : origin = 0 ∨ 254 < origin ∨ origin = s.posA ∨ 3 < it.channel.toNat) :
    s.tapItem origin it = s := if_pos h

variable (taken : ¬(origin = 0 ∨ 254 < origin ∨ origin = s.posA ∨ 3 < it.channel.toNat))
include taken

theorem tapItem_hit {i : Fin 128} {e : TapEntry} (found : tapFind s.tap origin it.channel.toNat = some i)
    (valid : s.tap[i] = some e) : s.tapItem origin it = { s with tap := s.tap.set i (some (e.hit it)) } := by
  unfold State.tapItem
  rw [if_neg taken, found]
  dsimp only
  rw [valid]
  rfl

theorem tapItem_unlearned (missed : tapFind s.tap origin it.channel.toNat = none)
    (unlearned : s.learns origin it.kind = false) : s.tapItem origin it = s := by
  unfold State.tapItem
  rw [if_neg taken, missed, unlearned]
  rfl

theorem tapItem_learned {i : Fin 128} (missed : tapFind s.tap origin it.channel.toNat = none)
    (learns : s.learns origin it.kind = true)
    (chosen : victim s.tap s.node.effLock (setIndex origin it.channel.toNat) = some i) :
    s.tapItem origin it = { s with tap := s.tap.set i (some (learnedEntry origin it)) } := by
  unfold State.tapItem
  rw [if_neg taken, missed, learns, chosen]
  rfl

end

/-- Among valid ways, the ages that R64 compares. -/
theorem placeAge_of_valid {t : TapCache} {i : Fin 128} (valid : t[i] ≠ none) :
    placeAge t i = some ((placeAge t i).getD 0) := by
  obtain ⟨e, he⟩ := Option.ne_none_iff_exists'.mp valid
  simp [placeAge, he]

theorem placeAge_ne_none {t : TapCache} {i : Fin 128} : placeAge t i ≠ none ↔ t[i] ≠ none := by
  simp [placeAge]

/-- Settles O20: in a lawful cache the lookup finds the one place that holds the key, or none does. -/
theorem itemsHitOrAreLearned : Obligations.ItemsHitOrAreLearned := by
  intro s origin it law
  have lawful := tapLaw_iff.mp law
  refine ⟨tapItem_ignored, fun lo hi foreign channel => ?_⟩
  have taken : ¬(origin = 0 ∨ 254 < origin ∨ origin = s.posA ∨ 3 < it.channel.toNat) := by
    simp only [not_or, not_lt]
    exact ⟨Nat.pos_iff_ne_zero.mp lo, hi, foreign, channel⟩
  refine ⟨fun i e valid eo ec => ?_, fun nowhere => ?_⟩
  · have found : tapFind s.tap origin it.channel.toNat = some i := eo ▸ ec ▸ lawful.tapFind valid
    exact tapItem_hit taken found valid
  · have missed : tapFind s.tap origin it.channel.toNat = none := tapFind_none fun i => holdsKey_eq_false.mpr (nowhere i)
    refine ⟨tapItem_unlearned taken missed, fun learns => ?_⟩
    obtain ⟨w, way, chosen⟩ := victim_way s.tap (effLock_le s.node) (setIndex origin it.channel.toNat)
    refine ⟨w, way.unlocked, fun v unlocked lt => placeAge_ne_none.mpr (way.validBefore v unlocked lt),
      fun full v unlocked => ?_, tapItem_learned taken missed learns chosen⟩
    have valid := placeAge_ne_none.mp full
    exact ⟨_, _, placeAge_of_valid (way.allValid valid v unlocked), placeAge_of_valid valid, way.oldest valid v unlocked,
      way.firstOldest valid v unlocked⟩

/-- Settles O21: each entry ages by itself. -/
theorem ageingRaisesEveryAge : Obligations.AgeingRaisesEveryAge := fun _ => rfl

/-! ### The reply of an operation that changes the cache -/

theorem reply_still (s : State) (p : Port) (op : Byte) (r : Request) (a : Answer) :
    (s.reply p op r a).still = s.still := (offer_consequence anyEntry s p .ll _ rfl).still

section
variable (s : State) (p : Port) (op : Byte) (r : Request) (a : Answer)

theorem reply_tap : (s.reply p op r a).tap = s.tap :=
  (congrArg State.tap (reply_still s p op r a) : (s.reply p op r a).still.tap = s.still.tap)

theorem reply_dirty : (s.reply p op r a).dirty = s.dirty :=
  (congrArg State.dirty (reply_still s p op r a) : (s.reply p op r a).still.dirty = s.still.dirty)

theorem reply_rewritten : (s.reply p op r a).rewritten = s.rewritten :=
  (congrArg State.rewritten (reply_still s p op r a) : (s.reply p op r a).still.rewritten = s.still.rewritten)

end

/-- `t` differs from `s` in the cache and the TAPLOCK marks alone. -/
def State.MovesCache (s t : State) : Prop := t = { s with tap := t.tap, dirty := t.dirty, rewritten := t.rewritten }

theorem State.MovesCache.settled {s t : State} (h : s.MovesCache t) (hs : s.Settled) : t.Settled := by
  rw [h]
  exact hs

/-- What the reply leaves of such a change. -/
theorem State.MovesCache.reply {s t : State} (h : s.MovesCache t) (p : Port) (op : Byte) (r : Request) (a : Answer) :
    t.reply p op r a =
      State.reply
        { s with
          tap := (t.reply p op r a).tap, dirty := (t.reply p op r a).dirty, rewritten := (t.reply p op r a).rewritten }
        p op r a := by
  rw [reply_tap, reply_dirty, reply_rewritten]
  exact congrArg (State.reply · p op r a) h

theorem markDirty_movesCache (s : State) (tap : TapCache) (g : Fin 15) :
    s.MovesCache (State.markDirty { s with tap := tap } g) := rfl

theorem withTap_movesCache (s : State) (tap : TapCache) : s.MovesCache { s with tap := tap } := rfl

theorem heard_tap (s : State) (p : Port) : (s.heard p).tap = s.tap := setPort_tap s p _

theorem heard_node (s : State) (p : Port) : (s.heard p).node = s.node := setPort_node s p _

theorem heard_dirty (s : State) (p : Port) : (s.heard p).dirty = s.dirty := setPort_dirty s p _

theorem heard_rewritten (s : State) (p : Port) : (s.heard p).rewritten = s.rewritten := setPort_rewritten s p _

theorem heard_storing (s : State) (p : Port) : (s.heard p).storing = s.storing := setPort_storing s p _

/-! ### TAP_LOAD, an equation per case (R67, R68) -/

theorem runTapLoad_short {s : State} {r : Request} (short : r.data.length < 4) :
    s.runTapLoad r = (s, { status := stBadIndex }) := by
  unfold State.runTapLoad
  split
  · rename_i data
    rw [data] at short
    simp only [List.length_cons] at short
    omega
  all_goals rfl

section
variable {s : State} {r : Request} {o c k v : Word} {rest : List Word}

theorem runTapLoad_outside (data : r.data = o :: c :: k :: v :: rest)
    (outside : o.toNat = 0 ∨ 254 < o.toNat ∨ 3 < c.toNat ∨ k.toNat = 0 ∨ 4 < k.toNat) :
    s.runTapLoad r = (s, { status := stBadIndex }) := by
  unfold State.runTapLoad
  rw [data]
  dsimp only
  cases named : kindOfCode k.toNat with
  | none => rfl
  | some kind =>
    have inRange := kindOfCode_isSome.mp (named ▸ rfl : (kindOfCode k.toNat).isSome = true)
    exact if_pos (by omega)

variable {kind : Kind}

variable (data : r.data = o :: c :: k :: v :: rest) (named : kindOfCode k.toNat = some kind) (lo : 1 ≤ o.toNat)
  (hi : o.toNat ≤ 254) (channel : c.toNat ≤ 3)
include data named lo hi channel

theorem runTapLoad_full (full : loadTarget s.tap s.node.effLock o.toNat c.toNat = none) :
    s.runTapLoad r = (s, { status := stFull }) := by
  unfold State.runTapLoad State.tapLoad
  rw [data]
  dsimp only
  rw [named]
  dsimp only
  rw [if_neg (by omega), full]
  rfl

theorem runTapLoad_loaded {i : Fin 128} (target : loadTarget s.tap s.node.effLock o.toNat c.toNat = some i) :
    s.runTapLoad r =
      (State.markDirty
        { s with
          tap := (withoutKey s.tap i o.toNat c.toNat).set i (some (loadedEntry o.toNat c.toNat kind v.toInt true)) }
        groupTaplock, { status := stOk }) := by
  unfold State.runTapLoad State.tapLoad
  rw [data]
  dsimp only
  rw [named]
  dsimp only
  rw [if_neg (by omega), target]
  rfl

end

/-! ### FLUSH_TAP (R69) -/

theorem anyLocked_iff (t : TapCache) (lock : Nat) :
    anyLocked t lock = true ↔ ∃ i : Fin 128, wayOf i < lock ∧ t[i] ≠ none := by
  simp [anyLocked, wayLocked, Option.isSome_iff_ne_none]

theorem flushTap_movesCache (s : State) : s.MovesCache s.flushTap := by
  unfold State.flushTap
  dsimp only
  split
  · exact markDirty_movesCache s _ _
  · exact withTap_movesCache s _

theorem flushTap_getElem (s : State) (i : Fin 128) :
    s.flushTap.tap[i] = if s.node.tapProtect = true ∧ wayOf i < s.node.effLock then s.tap[i] else none := by
  have cache : s.flushTap.tap = flushPlaces s.tap s.node.effLock (!s.node.tapProtect) := by
    unfold State.flushTap
    dsimp only
    split <;> rfl
  rw [cache, getElem_flushPlaces]
  simp only [Bool.not_eq_false']

/-- A FLUSH_TAP that loses a valid entry of a locked way. -/
def State.losesLocked (s : State) : Prop :=
  s.node.tapProtect = false ∧ ∃ i : Fin 128, wayOf i < s.node.effLock ∧ s.tap[i] ≠ none

theorem flushTap_of_losesLocked {s : State} (h : s.losesLocked) :
    s.flushTap.dirty = s.dirty.set 14 true ∧
      s.flushTap.rewritten = if s.storing.inHand = some 14 then s.rewritten.set 14 true else s.rewritten := by
  unfold State.flushTap
  dsimp only
  rw [if_pos (by rw [h.1, (anyLocked_iff _ _).mpr h.2]; rfl)]
  exact ⟨rfl, rfl⟩

theorem flushTap_of_not_losesLocked {s : State} (h : ¬s.losesLocked) :
    s.flushTap.dirty = s.dirty ∧ s.flushTap.rewritten = s.rewritten := by
  have keeps : ¬((!s.node.tapProtect && anyLocked s.tap s.node.effLock) = true) := by
    rw [Bool.and_eq_true, Bool.not_eq_true', anyLocked_iff]
    exact h
  unfold State.flushTap
  dsimp only
  rw [if_neg keeps]
  exact ⟨rfl, rfl⟩

/-! ### The two commands -/

section
variable {s : State} {p : Port} {r : Request} (h : s.Serves p r)
include h

/-- A request refused by its own checks: the reply alone. -/
theorem exec_tapLoad_refused {a : Answer} (refused : (s.heard p).runTapLoad r = (s.heard p, a)) :
    exec (.tapLoad p r) s = .next ((s.heard p).reply p 3 r a) := by
  refine congrArg Host.Outcome.next ((request_serves h 3 false (State.runTapLoad r)).trans ?_)
  rw [refused, settle_of_settled _ (heard_settled h.1.1)]

theorem exec_tapLoad_loaded {t : State} {a : Answer} (moves : (s.heard p).MovesCache t)
    (loaded : (s.heard p).runTapLoad r = (t, a)) : exec (.tapLoad p r) s = .next (t.reply p 3 r a) := by
  refine congrArg Host.Outcome.next ((request_serves h 3 false (State.runTapLoad r)).trans ?_)
  rw [loaded, settle_of_settled _ (moves.settled (heard_settled h.1.1))]

theorem exec_flushTap : exec (.flushTap p r) s = .next ((s.heard p).flushTap.reply p 4 r { status := 0 }) := by
  refine congrArg Host.Outcome.next ((request_serves h 4 false State.runFlushTap).trans ?_)
  unfold State.runFlushTap
  dsimp only
  rw [settle_of_settled _ ((flushTap_movesCache _).settled (heard_settled h.1.1))]
  rfl

end

/-- Settles O22: both commands change the cache and its marks alone, and reply. -/
theorem tapLoadAndFlush : Obligations.TapLoadAndFlush := by
  intro p r s h
  refine ⟨fun short => exec_tapLoad_refused h (runTapLoad_short short), fun o c k v rest data =>
    ⟨fun outside => exec_tapLoad_refused h (runTapLoad_outside data outside), fun kind named lo hi channel => ?_⟩, ?_⟩
  · rw [← heard_tap s p, ← heard_node s p]
    refine ⟨fun full => exec_tapLoad_refused h (runTapLoad_full data named lo hi channel full), fun i target => ?_⟩
    have loaded := exec_tapLoad_loaded h (markDirty_movesCache _ _ _) (runTapLoad_loaded data named lo hi channel target)
    refine ⟨_, loaded, fun j => ?_, ?_, ?_, (markDirty_movesCache _ _ _).reply p 3 r _⟩
    · rw [reply_tap, markDirty_tap]
      exact getElem_loaded _ i j _ _ _
    · rw [reply_dirty, ← heard_dirty s p]
      rfl
    · rw [reply_rewritten, ← heard_rewritten s p, ← heard_storing s p]
      rfl
  · refine ⟨_, exec_flushTap h, fun j => ?_, ?_, ?_, (flushTap_movesCache _).reply p 4 r _⟩
    · rw [reply_tap, flushTap_getElem, heard_tap, heard_node]
    all_goals
      by_cases loses : (s.heard p).losesLocked
      · obtain ⟨dirty, rewritten⟩ := flushTap_of_losesLocked loses
        unfold State.losesLocked at loses
        rw [heard_tap, heard_node] at loses
        simp only [reply_dirty, reply_rewritten, dirty, rewritten, heard_dirty, heard_rewritten, heard_storing, loses,
          true_and, and_self, if_true]
      · obtain ⟨dirty, rewritten⟩ := flushTap_of_not_losesLocked loses
        unfold State.losesLocked at loses
        rw [heard_tap, heard_node] at loses
        simp only [reply_dirty, reply_rewritten, dirty, rewritten, heard_dirty, heard_rewritten, loses, false_and, if_false]

end Sys2Proof.Machine
end

