-- ==== Sys2Proof/Proofs/TaplockLoad.lean ====
section
/-! PROOFS. Proofs/TaplockLoad.lean: the load of a TAPLOCK record (R72). The record's ways are taken one at a time; after each
the cache, the keys placed and the mark are those that R72 gives for the ways taken so far. -/

namespace Sys2Proof.Machine

/-! ### The ways of a record (R182) -/

/-- The place of a stored way. -/
def wayPlace (set : Fin 32) (way : Fin 3) : Fin 128 := place set way.castSucc

/-- Word `k` of a stored way. -/
def wayWord (data : List Word) (set : Fin 32) (way : Fin 3) (k : Nat) : Word :=
  data.getD (6 * (3 * set.val + way.val) + k) 0

/-- The key of a stored way. -/
def wayKey (data : List Word) (set : Fin 32) (way : Fin 3) : Nat × Nat :=
  ((wayWord data set way 1).toNat, (wayWord data set way 2).toNat)

/-- The entry that a stored way makes. -/
def wayEntry (data : List Word) (set : Fin 32) (way : Fin 3) (kind : Kind) : TapEntry :=
  loadedEntry (wayKey data set way).1 (wayKey data set way).2 kind (wayWord data set way 4).toInt
    (wayWord data set way 5 != 0)

theorem wayOf_wayPlace (set : Fin 32) (way : Fin 3) : wayOf (wayPlace set way) = way.val := wayOf_place set _

theorem wayPlace_injective {set set' : Fin 32} {way way' : Fin 3} (h : wayPlace set way = wayPlace set' way') :
    set = set' ∧ way = way' := by
  have val : 4 * set.val + way.val = 4 * set'.val + way'.val := congrArg Fin.val h
  exact ⟨Fin.ext (by omega), Fin.ext (by omega)⟩

/-- Every position below 96 is that of one way. -/
theorem way_of_position {p : Nat} (h : p < 96) : ∃ (set : Fin 32) (way : Fin 3), p = 3 * set.val + way.val :=
  ⟨⟨p / 3, by omega⟩, ⟨p % 3, by omega⟩, (Nat.div_add_mod p 3).symm⟩

theorem loadableWay_iff {data : List Word} {set : Fin 32} {way : Fin 3} :
    loadableWay data set way ↔
      (wayWord data set way 0).toNat = 1 ∧ (wayWord data set way 5).toNat ≤ 1 ∧ 1 ≤ (wayKey data set way).1 ∧
        (wayKey data set way).1 ≤ 254 ∧ (wayKey data set way).2 ≤ 3 ∧ 1 ≤ (wayWord data set way 3).toNat ∧
        (wayWord data set way 3).toNat ≤ 4 ∧ setIndex (wayKey data set way).1 (wayKey data set way).2 = set := Iff.rfl

theorem storedKey_eq_iff {data : List Word} {set set' : Fin 32} {way way' : Fin 3} :
    storedKey data set way = storedKey data set' way' ↔ wayKey data set way = wayKey data set' way' := by
  simp only [storedKey, wayKey, wayWord, Prod.mk.injEq, BitVec.toNat_inj]

/-- The words from a place of a long enough list on. -/
theorem take_six {l : List Word} {n : Nat} (h : n + 6 ≤ l.length) :
    (l.drop n).take 6 =
      [l.getD n 0, l.getD (n + 1) 0, l.getD (n + 2) 0, l.getD (n + 3) 0, l.getD (n + 4) 0, l.getD (n + 5) 0] := by
  have word : ∀ k, k < l.length → l.drop k = l.getD k 0 :: l.drop (k + 1) := fun k hk => by
    rw [List.drop_eq_getElem_cons hk, List.getD_eq_getElem _ _ hk]
  rw [word n (by omega), word (n + 1) (by omega), word (n + 2) (by omega), word (n + 3) (by omega),
    word (n + 4) (by omega), word (n + 5) (by omega)]
  rfl

/-- The six words of a way of a whole record. -/
theorem take_way {data : List Word} (h : data.length = 576) (set : Fin 32) (way : Fin 3) :
    (data.drop (6 * (3 * set.val + way.val))).take 6 =
      [wayWord data set way 0, wayWord data set way 1, wayWord data set way 2, wayWord data set way 3,
        wayWord data set way 4, wayWord data set way 5] :=
  take_six (by omega)

theorem taplockPlaces_way : ∀ (set : Fin 32) (way : Fin 3),
    taplockPlaces[3 * set.val + way.val]? = some (wayPlace set way) := by decide

/-! ### Taking the ways in turn -/

theorem TaplockLoad.takeAll_append (lock : Nat) (L : TaplockLoad) (is js : List (Fin 128)) (ws : List Word) :
    TaplockLoad.takeAll lock L (is ++ js) ws =
      TaplockLoad.takeAll lock (TaplockLoad.takeAll lock L is ws) js (ws.drop (6 * is.length)) := by
  induction is generalizing L ws with
  | nil => rfl
  | cons i is ih =>
    refine (ih _ _).trans ?_
    rw [List.drop_drop, List.length_cons, show 6 + 6 * is.length = 6 * (is.length + 1) by omega]
    rfl

/-- The load after the first `p` ways. -/
def TaplockLoad.upTo (lock : Nat) (tap : TapCache) (data : List Word) (p : Nat) : TaplockLoad :=
  TaplockLoad.takeAll lock ⟨tap, [], false⟩ (taplockPlaces.take p) data

theorem TaplockLoad.upTo_succ (lock : Nat) (tap : TapCache) (data : List Word) (set : Fin 32) (way : Fin 3) :
    TaplockLoad.upTo lock tap data (3 * set.val + way.val + 1) =
      (TaplockLoad.upTo lock tap data (3 * set.val + way.val)).take lock (wayPlace set way)
        ((data.drop (6 * (3 * set.val + way.val))).take 6) := by
  have here := taplockPlaces_way set way
  have inside := (List.getElem?_eq_some_iff.mp here).1
  unfold TaplockLoad.upTo
  rw [List.take_add_one, here, Option.toList_some, TaplockLoad.takeAll_append, List.length_take_of_le inside.le]
  rfl

theorem taplockPlaces_take : taplockPlaces.take 96 = taplockPlaces := by decide

theorem loadTaplock_tap (s : State) (data : List Word) :
    (s.loadTaplock data).1 = (TaplockLoad.upTo s.node.effLock s.tap data 96).tap := by
  unfold State.loadTaplock TaplockLoad.upTo
  rw [taplockPlaces_take]

theorem loadTaplock_mark (s : State) (data : List Word) :
    (s.loadTaplock data).2 = (TaplockLoad.upTo s.node.effLock s.tap data 96).missed := by
  unfold State.loadTaplock TaplockLoad.upTo
  rw [taplockPlaces_take]

/-- What R72 gives once the first `p` ways of a record are taken into the cache `tap`. -/
structure TakenTo (lock : Nat) (tap : TapCache) (data : List Word) (p : Nat) (L : TaplockLoad) : Prop where
  placed : ∀ key, key ∈ L.placed ↔
    ∃ set way, 3 * set.val + way.val < p ∧ placedWay lock data set way ∧ wayKey data set way = key
  missed : L.missed = true ↔
    ∃ set way, 3 * set.val + way.val < p ∧ wayWord data set way 0 ≠ 0 ∧ ¬placedWay lock data set way
  filled : ∀ set way, 3 * set.val + way.val < p → placedWay lock data set way →
    ∃ kind, kindOfCode (wayWord data set way 3).toNat = some kind ∧
      L.tap[wayPlace set way] = some (wayEntry data set way kind)
  emptied : ∀ set way, 3 * set.val + way.val < p → way.val < lock → ¬placedWay lock data set way →
    L.tap[wayPlace set way] = none
  gone : ∀ i : Fin 128, (∀ set way, 3 * set.val + way.val < p → way.val < lock → i ≠ wayPlace set way) →
    ∀ key ∈ L.placed, holdsKey tap i key.1 key.2 = true → L.tap[i] = none
  kept : ∀ i : Fin 128, (∀ set way, 3 * set.val + way.val < p → way.val < lock → i ≠ wayPlace set way) →
    (∀ key ∈ L.placed, holdsKey tap i key.1 key.2 = false) → L.tap[i] = tap[i]

/-! ### Which ways are placed -/

theorem placedWay.key_set {lock : Nat} {data : List Word} {set : Fin 32} {way : Fin 3} (h : placedWay lock data set way) :
    setIndex (wayKey data set way).1 (wayKey data set way).2 = set :=
  (loadableWay_iff.mp h.2.1).2.2.2.2.2.2.2

/-- Some way up to a loadable locked one is placed with its key: the first that has it. -/
theorem exists_placedWay {lock : Nat} {data : List Word} {set : Fin 32} (way : Fin 3) (locked : way.val < lock)
    (loadable : loadableWay data set way) :
    ∃ v, v ≤ way ∧ placedWay lock data set v ∧ wayKey data set v = wayKey data set way := by
  induction way using WellFoundedLT.induction with
  | ind way ih =>
    by_cases first : ∀ v : Fin 3, v < way → loadableWay data set v → storedKey data set v ≠ storedKey data set way
    · exact ⟨way, le_rfl, ⟨locked, loadable, first⟩, rfl⟩
    · simp only [not_forall, not_not] at first
      obtain ⟨v, lt, earlier, same⟩ := first
      obtain ⟨u, le, placed, key⟩ := ih v lt (Nat.lt_trans (Fin.lt_def.mp lt) locked) earlier
      exact ⟨u, le.trans lt.le, placed, key.trans (storedKey_eq_iff.mp same)⟩

/-- The model's test of a stored entry: loadable, and its key new. -/
theorem storedEntry_way {placed : List (Nat × Nat)} {data : List Word} {set : Fin 32} {way : Fin 3}
    (present : wayWord data set way 0 ≠ 0) {e : TapEntry} :
    storedEntry placed (wayPlace set way)
        [wayWord data set way 0, wayWord data set way 1, wayWord data set way 2, wayWord data set way 3,
          wayWord data set way 4, wayWord data set way 5] = some e ↔
      (loadableWay data set way ∧ wayKey data set way ∉ placed) ∧
        ∃ kind, kindOfCode (wayWord data set way 3).toNat = some kind ∧ e = wayEntry data set way kind := by
  have here : (wayPlace set way).val / 4 = set.val := place_set set _
  have some : 1 ≤ (wayWord data set way 0).toNat :=
    Nat.pos_of_ne_zero fun zero => present (BitVec.eq_of_toNat_eq zero)
  have setOf : ∀ o c, (setIndex o c).val = set.val ↔ setIndex o c = set := fun _ _ => Fin.ext_iff.symm
  rw [storedEntry_eq_some, loadableWay_iff, here, setOf]
  constructor
  · rintro ⟨kind, named, ⟨pres, flag, lo, hi, channel, ofSet, fresh⟩, rfl⟩
    have known := kindOfCode_isSome.mp (named ▸ rfl : (kindOfCode (wayWord data set way 3).toNat).isSome = true)
    exact ⟨⟨⟨le_antisymm pres some, flag, lo, hi, channel, known.1, known.2, ofSet⟩, fresh⟩, kind, named, rfl⟩
  · rintro ⟨⟨⟨pres, flag, lo, hi, channel, -, -, ofSet⟩, fresh⟩, kind, named, rfl⟩
    exact ⟨kind, named, ⟨pres.le, flag, lo, hi, channel, ofSet, fresh⟩, rfl⟩

section
variable {lock : Nat} {tap : TapCache} {data : List Word} {set : Fin 32} {way : Fin 3} {L : TaplockLoad}
variable (taken : TakenTo lock tap data (3 * set.val + way.val) L)
include taken

/-- A loadable locked way is placed exactly when its key is new. -/
theorem TakenTo.placedWay_iff (locked : way.val < lock) (loadable : loadableWay data set way) :
    placedWay lock data set way ↔ wayKey data set way ∉ L.placed := by
  have setOf := (loadableWay_iff.mp loadable).2.2.2.2.2.2.2
  rw [taken.placed]
  constructor
  · rintro ⟨-, -, first⟩ ⟨set', way', before, placed, key⟩
    have same : set' = set := by rw [← placed.key_set, key, setOf]
    subst same
    exact first way' (by omega) placed.2.1 (storedKey_eq_iff.mpr key)
  · intro fresh
    obtain ⟨v, le, placed, key⟩ := exists_placedWay way locked loadable
    rcases le.lt_or_eq with lt | rfl
    · exact absurd ⟨set, v, by omega, placed, key⟩ fresh
    · exact placed

variable (length : data.length = 576)
include length

/-- A way that is not placed: emptied when locked, and missed when it holds something. -/
theorem TakenTo.take_not_placed (rejected : ¬placedWay lock data set way) :
    L.take lock (wayPlace set way) ((data.drop (6 * (3 * set.val + way.val))).take 6) =
      { tap := if way.val < lock then L.tap.set (wayPlace set way) none else L.tap
        placed := L.placed
        missed := L.missed || decide (wayWord data set way 0 ≠ 0) } := by
  rw [take_way length]
  unfold TaplockLoad.take
  simp only [List.head?_cons, Option.some.injEq, wayOf_wayPlace, wayLocked, decide_eq_true_eq]
  by_cases vacant : wayWord data set way 0 = 0
  · simp [vacant]
  · simp only [vacant, if_false, ne_eq, not_false_eq_true, decide_true, Bool.or_true]
    cases stored : storedEntry L.placed (wayPlace set way) _ with
    | none => rfl
    | some e =>
      obtain ⟨⟨loadable, fresh⟩, -⟩ := (storedEntry_way vacant).mp stored
      have unlocked : ¬way.val < lock := fun locked => rejected ((taken.placedWay_iff locked loadable).mpr fresh)
      simp [unlocked]

/-- A way that is placed: its entry in its place, and its key nowhere else. -/
theorem TakenTo.take_placed (placed : placedWay lock data set way) :
    ∃ kind, kindOfCode (wayWord data set way 3).toNat = some kind ∧
      L.take lock (wayPlace set way) ((data.drop (6 * (3 * set.val + way.val))).take 6) =
        { tap := (withoutKey L.tap (wayPlace set way) (wayKey data set way).1 (wayKey data set way).2).set
            (wayPlace set way) (some (wayEntry data set way kind))
          placed := wayKey data set way :: L.placed
          missed := L.missed } := by
  obtain ⟨locked, loadable, -⟩ := id placed
  obtain ⟨pres, -, -, -, -, lo, hi, -⟩ := loadableWay_iff.mp loadable
  obtain ⟨kind, named⟩ := Option.isSome_iff_exists.mp (kindOfCode_isSome.mpr ⟨lo, hi⟩)
  have present : wayWord data set way 0 ≠ 0 := fun zero => by rw [zero] at pres; exact absurd pres (by decide)
  have stored := (storedEntry_way present (e := wayEntry data set way kind)).mpr
    ⟨⟨loadable, (taken.placedWay_iff locked loadable).mp placed⟩, kind, named, rfl⟩
  refine ⟨kind, named, ?_⟩
  rw [take_way length]
  unfold TaplockLoad.take
  simp only [List.head?_cons, Option.some.injEq, wayOf_wayPlace, wayLocked, present, if_false, stored, locked, decide_true,
    if_true]
  rfl

end

/-! ### One way more -/

/-- The ways before one more: those before it, and itself. -/
theorem way_lt_succ {set set' : Fin 32} {way way' : Fin 3}
    (h : 3 * set'.val + way'.val < 3 * set.val + way.val + 1) :
    3 * set'.val + way'.val < 3 * set.val + way.val ∨ (set' = set ∧ way' = way) := by
  rcases Nat.lt_succ_iff_lt_or_eq.mp h with lt | eq
  · exact .inl lt
  · exact .inr ⟨Fin.ext (by omega), Fin.ext (by omega)⟩

/-- A way before another has another place. -/
theorem wayPlace_ne {set set' : Fin 32} {way way' : Fin 3} (h : 3 * set'.val + way'.val < 3 * set.val + way.val) :
    wayPlace set' way' ≠ wayPlace set way := by
  intro same
  obtain ⟨rfl, rfl⟩ := wayPlace_injective same
  exact lt_irrefl _ h

section
variable {lock : Nat} {tap : TapCache} {data : List Word} {set : Fin 32} {way : Fin 3} {L : TaplockLoad}
variable (taken : TakenTo lock tap data (3 * set.val + way.val) L)
include taken

theorem TakenTo.succ_not_placed (rejected : ¬placedWay lock data set way) :
    TakenTo lock tap data (3 * set.val + way.val + 1)
      { tap := if way.val < lock then L.tap.set (wayPlace set way) none else L.tap
        placed := L.placed
        missed := L.missed || decide (wayWord data set way 0 ≠ 0) } := by
  have elsewhere : ∀ i, (way.val < lock → i ≠ wayPlace set way) →
      (if way.val < lock then L.tap.set (wayPlace set way) none else L.tap)[i] = L.tap[i] := by
    intro i away
    split
    · rename_i locked
      rw [getElem_setPlace, if_neg (away locked)]
    · rfl
  refine ⟨fun key => ?_, ?_, fun set' way' before placed => ?_, fun set' way' before locked none => ?_,
    fun i away key mem holds => ?_, fun i away free => ?_⟩
  · rw [taken.placed]
    constructor
    · rintro ⟨set', way', before, h⟩
      exact ⟨set', way', before.trans (Nat.lt_succ_self _), h⟩
    · rintro ⟨set', way', before, placed, h⟩
      rcases way_lt_succ before with lt | ⟨rfl, rfl⟩
      · exact ⟨set', way', lt, placed, h⟩
      · exact absurd placed rejected
  · rw [Bool.or_eq_true, taken.missed, decide_eq_true_iff]
    constructor
    · rintro (⟨set', way', before, h⟩ | present)
      · exact ⟨set', way', before.trans (Nat.lt_succ_self _), h⟩
      · exact ⟨set, way, Nat.lt_succ_self _, present, rejected⟩
    · rintro ⟨set', way', before, present, h⟩
      rcases way_lt_succ before with lt | ⟨rfl, rfl⟩
      · exact .inl ⟨set', way', lt, present, h⟩
      · exact .inr present
  · rcases way_lt_succ before with lt | ⟨rfl, rfl⟩
    · obtain ⟨kind, named, filled⟩ := taken.filled set' way' lt placed
      exact ⟨kind, named, (elsewhere _ fun _ => wayPlace_ne lt).trans filled⟩
    · exact absurd placed rejected
  · rcases way_lt_succ before with lt | ⟨rfl, rfl⟩
    · exact (elsewhere _ fun _ => wayPlace_ne lt).trans (taken.emptied set' way' lt locked none)
    · dsimp only
      rw [if_pos locked, getElem_setPlace, if_pos rfl]
  · have before := fun set' way' lt => away set' way' (Nat.lt_succ_of_lt lt)
    exact (elsewhere i (away set way (Nat.lt_succ_self _))).trans (taken.gone i before key mem holds)
  · have before := fun set' way' lt => away set' way' (Nat.lt_succ_of_lt lt)
    exact (elsewhere i (away set way (Nat.lt_succ_self _))).trans (taken.kept i before free)

theorem TakenTo.succ_placed (placed : placedWay lock data set way) {kind : Kind}
    (named : kindOfCode (wayWord data set way 3).toNat = some kind) :
    TakenTo lock tap data (3 * set.val + way.val + 1)
      { tap := (withoutKey L.tap (wayPlace set way) (wayKey data set way).1 (wayKey data set way).2).set
          (wayPlace set way) (some (wayEntry data set way kind))
        placed := wayKey data set way :: L.placed
        missed := L.missed } := by
  have fresh : wayKey data set way ∉ L.placed := (taken.placedWay_iff placed.1 placed.2.1).mp placed
  have elsewhere := fun i (away : i ≠ wayPlace set way) =>
    (getElem_loaded L.tap (wayPlace set way) i (wayEntry data set way kind) (wayKey data set way).1
      (wayKey data set way).2).trans (if_neg away)
  refine ⟨fun key => ?_, ?_, fun set' way' before placed' => ?_, fun set' way' before locked none => ?_,
    fun i away key mem holds => ?_, fun i away free => ?_⟩
  · rw [List.mem_cons, taken.placed]
    constructor
    · rintro (rfl | ⟨set', way', before, h⟩)
      · exact ⟨set, way, Nat.lt_succ_self _, placed, rfl⟩
      · exact ⟨set', way', before.trans (Nat.lt_succ_self _), h⟩
    · rintro ⟨set', way', before, placed', rfl⟩
      rcases way_lt_succ before with lt | ⟨rfl, rfl⟩
      · exact .inr ⟨set', way', lt, placed', rfl⟩
      · exact .inl rfl
  · rw [taken.missed]
    constructor
    · rintro ⟨set', way', before, h⟩
      exact ⟨set', way', before.trans (Nat.lt_succ_self _), h⟩
    · rintro ⟨set', way', before, present, none⟩
      rcases way_lt_succ before with lt | ⟨rfl, rfl⟩
      · exact ⟨set', way', lt, present, none⟩
      · exact absurd placed none
  · rcases way_lt_succ before with lt | ⟨rfl, rfl⟩
    · obtain ⟨kind', named', filled⟩ := taken.filled set' way' lt placed'
      refine ⟨kind', named', (elsewhere _ (wayPlace_ne lt)).trans ((if_neg ?_).trans filled)⟩
      rw [holdsKey_iff]
      rintro ⟨e, valid, origin, channel⟩
      obtain rfl := Option.some.inj (filled.symm.trans valid)
      exact fresh ((taken.placed _).mpr ⟨set', way', lt, placed', Prod.ext origin channel⟩)
    · exact ⟨kind, named, (getElem_setPlace _ _ _ _).trans (if_pos rfl)⟩
  · rcases way_lt_succ before with lt | ⟨rfl, rfl⟩
    · rw [elsewhere _ (wayPlace_ne lt), taken.emptied set' way' lt locked none, ite_self]
    · exact absurd placed none
  · have before := fun set' way' lt => away set' way' (Nat.lt_succ_of_lt lt)
    rw [elsewhere i (away set way (Nat.lt_succ_self _) placed.1)]
    by_cases old : ∃ key ∈ L.placed, holdsKey tap i key.1 key.2 = true
    · obtain ⟨key', mem', holds'⟩ := old
      rw [taken.gone i before key' mem' holds', ite_self]
    · have free : ∀ key ∈ L.placed, holdsKey tap i key.1 key.2 = false := by simpa using old
      have same := taken.kept i before free
      rcases List.mem_cons.mp mem with rfl | mem
      · refine if_pos ?_
        obtain ⟨e, valid, h⟩ := holdsKey_iff.mp holds
        exact holdsKey_iff.mpr ⟨e, same.trans valid, h⟩
      · exact absurd holds (by rw [free key mem]; exact Bool.false_ne_true)
  · have before := fun set' way' lt => away set' way' (Nat.lt_succ_of_lt lt)
    have same := taken.kept i before fun key mem => free key (List.mem_cons_of_mem _ mem)
    rw [elsewhere i (away set way (Nat.lt_succ_self _) placed.1), same]
    refine if_neg ?_
    rw [holdsKey_iff]
    rintro ⟨e, valid, h⟩
    exact holdsKey_eq_false.mp (free _ List.mem_cons_self) e (same.symm.trans valid) h

end

/-- The load of a record, way after way, is what R72 gives. -/
theorem takenTo_upTo (lock : Nat) (tap : TapCache) {data : List Word} (length : data.length = 576) {p : Nat} (h : p ≤ 96) :
    TakenTo lock tap data p (TaplockLoad.upTo lock tap data p) := by
  induction p with
  | zero =>
    exact
      { placed := fun key => ⟨nofun, fun ⟨_, _, before, _⟩ => absurd before (Nat.not_lt_zero _)⟩
        missed := ⟨nofun, fun ⟨_, _, before, _⟩ => absurd before (Nat.not_lt_zero _)⟩
        filled := fun _ _ before => absurd before (Nat.not_lt_zero _)
        emptied := fun _ _ before => absurd before (Nat.not_lt_zero _)
        gone := fun _ _ _ mem => nomatch mem
        kept := fun _ _ _ => rfl }
  | succ p ih =>
    obtain ⟨set, way, rfl⟩ := way_of_position (p := p) (by omega)
    have taken := ih (by omega)
    rw [TaplockLoad.upTo_succ]
    by_cases placed : placedWay lock data set way
    · obtain ⟨kind, named, eq⟩ := taken.take_placed length placed
      rw [eq]
      exact taken.succ_placed placed named
    · rw [taken.take_not_placed length placed]
      exact taken.succ_not_placed placed

end Sys2Proof.Machine
end

