-- ==== Sys2Proof/Proofs/ImageLoad.lean ====
section
/-! PROOFS. Proofs/ImageLoad.lean: the load of the stored image (R72, R183): the header, each group, and the end of the load.
Beside the event's consequences the end of the load moves the load's progress, the node state and, where the TAPLOCK group is
not read, the locked ways. -/

namespace Sys2Proof.Machine

/-! ### What the end of the load leaves -/

/-- `t` differs from `s` in what an event's consequences may touch alone, and in the records of no latch entry outside E. -/
structure StillBut (E : EntryId → Prop) (s t : State) : Prop where
  still : t.still = s.still
  latch : ∀ n : EntryId, ¬E n → SameRecord s.latch[n] t.latch[n]

theorem Consequence.stillBut {E : EntryId → Prop} {s t : State} (h : Consequence E s t) : StillBut E s t :=
  ⟨h.still, h.latch⟩

namespace StillBut

variable {E : EntryId → Prop} {s t r : State}

theorem trans (h : StillBut E s t) (g : StillBut E t r) : StillBut E s r :=
  ⟨g.still.trans h.still, fun n hn => (h.latch n hn).trans (g.latch n hn)⟩

theorem tap (h : StillBut E s t) : t.tap = s.tap := (congrArg State.tap h.still : t.still.tap = s.still.tap)

theorem loading (h : StillBut E s t) : t.loading = s.loading :=
  (congrArg State.loading h.still : t.still.loading = s.still.loading)

theorem nodeState (h : StillBut E s t) : t.nodeState = s.nodeState :=
  (congrArg State.nodeState h.still : t.still.nodeState = s.still.nodeState)

theorem node (h : StillBut E s t) : t.node = s.node := (congrArg State.node h.still : t.still.node = s.still.node)

theorem dirty (h : StillBut E s t) : t.dirty = s.dirty := (congrArg State.dirty h.still : t.still.dirty = s.still.dirty)

theorem lastFailing (h : StillBut E s t) : t.lastFailing = s.lastFailing :=
  (congrArg State.lastFailing h.still : t.still.lastFailing = s.still.lastFailing)

end StillBut

/-- The sources below the three of the image store (8.1). -/
abbrev belowStore (n : EntryId) : Prop := n.val < 32

theorem settle_stillBut (s : State) : StillBut belowStore s s.settle :=
  ((settle_consequence s).mono fun n side => by rcases side with rfl | rfl | rfl | rfl <;> decide).stillBut

/-- A door's change outside egress touches its fault and held entries alone. -/
theorem doorTo_stillBut (s : State) (d : DoorId) (D : Door) : StillBut belowStore s (s.doorTo d D false) := by
  have overrun : belowStore srcOverrun := by decide
  have set : StillBut belowStore s (s.setDoor d (D.supervise s.now s.doors[d])) := ⟨rfl, fun _ _ => .refl _⟩
  have fault := fun (t : State) (was is : Bool) =>
    follow_consequence overrun t (srcDoorFault d) was is (show 28 + d.val < 32 by omega)
  have held := fun (t : State) (was is : Bool) =>
    follow_consequence overrun t (srcHeld d) was is (show 26 + d.val < 32 by omega)
  exact set.trans (((fault _ _ _).trans (held _ _ _)).trans (passageFollows_consequence _ _ _ _)).stillBut

theorem doorsLeaveStarting_stillBut (s : State) : StillBut belowStore s s.doorsLeaveStarting :=
  (doorTo_stillBut s 0 _).trans (doorTo_stillBut _ 1 _)

/-- The node state that the load leads to (R181). -/
def loadedState (locked : Bool) : NodeState := if locked then .lockout else .operating

theorem endLoad_stillBut (s : State) (locked : Bool) :
    StillBut belowStore { s with loading := .done, nodeState := loadedState locked } (s.endLoad locked) := by
  have decided : ∀ t : State, StillBut belowStore t { t with decisionDue := true } := fun _ => ⟨rfl, fun _ _ => .refl _⟩
  unfold State.endLoad
  exact (reformJet_consequence _ _ jet1).stillBut.trans <| (reformJet_consequence _ _ jet2).stillBut.trans <|
    (reformPassage_consequence _ _).stillBut.trans <| (doorsLeaveStarting_stillBut _).trans <|
    (renew_consequence _ _).stillBut.trans (decided _)

/-! ### The next group, an equation per case (R183) -/

section
variable (s : State) {i : Nat} (locked : Bool) {count : Nat}

theorem nextGroup_more (h : i < 15) (more : i < count) :
    s.nextGroup i locked count = { s with loading := .group ⟨i, h⟩ locked count } := by
  unfold State.nextGroup
  rw [dif_pos h, if_pos more]

theorem nextGroup_short (h : i < 15) (short : count ≤ i) :
    s.nextGroup i locked count = s.emptyLocked.endLoad locked := by
  unfold State.nextGroup
  rw [dif_pos h, if_neg (by omega)]
  rfl

theorem nextGroup_last (h : 15 ≤ i) : s.nextGroup i locked count = s.endLoad locked := dif_neg (by omega)

/-- The load's end in the event of its last read (log entry 34). -/
theorem endLoad_settle : StillBut belowStore { s with loading := .done, nodeState := loadedState locked }
    (s.endLoad locked).settle :=
  (endLoad_stillBut s locked).trans (settle_stillBut _)

theorem endLoad_settle_tap : (s.endLoad locked).settle.tap = s.tap := by
  rw [(endLoad_settle s locked).tap]

theorem endLoad_settle_node : (s.endLoad locked).settle.node = s.node := by
  rw [(endLoad_settle s locked).node]

theorem endLoad_settle_dirty : (s.endLoad locked).settle.dirty = s.dirty := by
  rw [(endLoad_settle s locked).dirty]

theorem endLoad_settle_lastFailing : (s.endLoad locked).settle.lastFailing = s.lastFailing := by
  rw [(endLoad_settle s locked).lastFailing]

theorem endLoad_settle_latch {n : EntryId} (hn : ¬belowStore n) :
    SameRecord s.latch[n] (s.endLoad locked).settle.latch[n] := (endLoad_settle s locked).latch n hn

end

section
variable (s : State)

theorem emptyLocked_node : s.emptyLocked.node = s.node := by dsimp only [State.emptyLocked]

theorem emptyLocked_dirty : s.emptyLocked.dirty = s.dirty := by dsimp only [State.emptyLocked]

theorem emptyLocked_lastFailing : s.emptyLocked.lastFailing = s.lastFailing := by dsimp only [State.emptyLocked]

theorem emptyLocked_latch : s.emptyLocked.latch = s.latch := by dsimp only [State.emptyLocked]

theorem emptyLocked_nodeState : s.emptyLocked.nodeState = s.nodeState := by dsimp only [State.emptyLocked]

theorem emptyLocked_still (l : LoadState) (n : NodeState) :
    State.still { s.emptyLocked with loading := l, nodeState := n } =
      { s.still with loading := l, nodeState := n, tap := s.emptyLocked.tap } := by
  dsimp only [State.still, State.emptyLocked]

theorem emptyLocked_stamp : s.emptyLocked.stamp = s.stamp := by dsimp only [State.emptyLocked, State.stamp]

theorem emptyLocked_posA : s.emptyLocked.posA = s.posA := by dsimp only [State.emptyLocked]

end

/-- How the load goes on after a group, from what the group left. -/
structure LoadGoesOn (u t : State) (g : Fin 15) (locked : Bool) (n : Nat) : Prop where
  more : ∀ h : g.val + 1 < 15, g.val + 1 < n → t.loading = .group ⟨g.val + 1, h⟩ locked n ∧ t.nodeState = u.nodeState
  ends : g.val = 14 ∨ n ≤ g.val + 1 → t.loading = .done ∧ t.nodeState = if locked then NodeState.lockout else .operating
  skips : g.val < 14 → n ≤ g.val + 1 → ∀ i : Fin 128, wayOf i < t.node.effLock → t.tap[i] = none
  last : g.val = 14 → t.tap = u.tap
  dirty : t.dirty = u.dirty
  lastFailing : t.lastFailing = u.lastFailing
  latch : ∀ m : EntryId, ¬belowStore m → SameRecord u.latch[m] t.latch[m]

theorem nextGroup_goesOn (u : State) (g : Fin 15) (locked : Bool) (n : Nat) :
    LoadGoesOn u (u.nextGroup (g.val + 1) locked n).settle g locked n := by
  by_cases inside : g.val + 1 < 15
  · by_cases more : g.val + 1 < n
    · rw [nextGroup_more u locked inside more]
      have after := settle_stillBut { u with loading := .group ⟨g.val + 1, inside⟩ locked n }
      exact
        { more := fun _ _ => ⟨after.loading, after.nodeState⟩
          ends := fun h => by omega
          skips := fun _ h => by omega
          last := fun h => by omega
          dirty := after.dirty
          lastFailing := after.lastFailing
          latch := after.latch }
    · rw [nextGroup_short u locked inside (by omega)]
      have after := endLoad_settle u.emptyLocked locked
      exact
        { more := fun _ h => absurd h more
          ends := fun _ => ⟨after.loading, after.nodeState⟩
          skips := fun _ _ i lockedWay => by
            rw [endLoad_settle_node, emptyLocked_node] at lockedWay
            rw [endLoad_settle_tap, emptyLocked_getElem, if_pos lockedWay]
          last := fun h => by omega
          dirty := (endLoad_settle_dirty _ locked).trans (emptyLocked_dirty u)
          lastFailing := (endLoad_settle_lastFailing _ locked).trans (emptyLocked_lastFailing u)
          latch := fun m hm => emptyLocked_latch u ▸ endLoad_settle_latch u.emptyLocked locked hm }
  · rw [nextGroup_last u locked (by omega)]
    have after := endLoad_settle u locked
    exact
      { more := fun h => absurd h inside
        ends := fun _ => ⟨after.loading, after.nodeState⟩
        skips := fun h => by omega
        last := fun _ => endLoad_settle_tap u locked
        dirty := endLoad_settle_dirty u locked
        lastFailing := endLoad_settle_lastFailing u locked
        latch := fun _ hm => endLoad_settle_latch u locked hm }

/-! ### The header (R183) -/

section
variable {s : State} {x : SerialAnswer} (reading : s.loading = .header)
include reading

theorem headerRead_absent (absent : headerOf (s.serialRead x 0 5) = none) :
    s.headerRead x = (State.occur { s with loading := .done } srcStoreAbsent).endLoad true := by
  unfold State.headerRead
  rw [reading]
  dsimp only
  rw [absent]

theorem headerRead_present {locked : Bool} {n : Nat} (present : headerOf (s.serialRead x 0 5) = some (locked, n)) :
    s.headerRead x = s.nextGroup 0 locked n := by
  unfold State.headerRead
  rw [reading]
  dsimp only
  rw [present]

/-- A memory with no valid header: STORE_ABSENT, and the load ends in LOCKOUT. -/
theorem imageHeaderRead_absent (absent : headerOf (s.serialRead x 0 5) = none) :
    ∃ t, exec (.imageHeaderRead x) s = .next t ∧
      t.still = { s.still with loading := .done, nodeState := .lockout } ∧
      LatchEntry.CountedOnce srcStoreAbsent s.stamp s.posA s.latch[srcStoreAbsent] t.latch[srcStoreAbsent] := by
  let w := State.occur { s with loading := .done } srcStoreAbsent
  have counted := occurFrom_counted { s with loading := .done } srcStoreAbsent s.posA (by decide)
  have occurred : w.still = { s.still with loading := .done } :=
    (occur_consequence (E := anyEntry) trivial { s with loading := .done } srcStoreAbsent trivial).still
  have ended := endLoad_settle w true
  have read := congrArg State.settle (headerRead_absent reading absent)
  refine ⟨(w.endLoad true).settle, congrArg Host.Outcome.next read, ?_,
    counted.trans_same (ended.latch srcStoreAbsent (by decide))⟩
  have moved : State.still { w with loading := .done, nodeState := .lockout } =
      { w.still with loading := .done, nodeState := .lockout } := rfl
  rw [ended.still]
  exact moved.trans (by rw [occurred])

theorem imageHeaderRead_present (settled : s.Settled) {locked : Bool} {n : Nat}
    (present : headerOf (s.serialRead x 0 5) = some (locked, n)) (some : 1 ≤ n) :
    exec (.imageHeaderRead x) s = .next { s with loading := .group 0 locked n } := by
  have first : State.Settled { s with loading := .group 0 locked n } := settled
  refine congrArg Host.Outcome.next ?_
  rw [headerRead_present reading present, nextGroup_more s locked (by decide) some]
  exact settle_of_settled _ first

theorem imageHeaderRead_empty {locked : Bool} (present : headerOf (s.serialRead x 0 5) = some (locked, 0)) :
    ∃ t, exec (.imageHeaderRead x) s = .next t ∧
      t.still = { s.still with loading := .done, nodeState := loadedState locked, tap := t.tap } ∧
      ∀ i : Fin 128, t.tap[i] = if wayOf i < s.node.effLock then none else s.tap[i] := by
  have ended := endLoad_settle s.emptyLocked locked
  have read : s.headerRead x = s.emptyLocked.endLoad locked :=
    (headerRead_present reading present).trans (nextGroup_short s locked (by decide) le_rfl)
  refine ⟨_, congrArg Host.Outcome.next (congrArg State.settle read), ?_, fun i => ?_⟩
  · rw [endLoad_settle_tap]
    exact ended.still.trans (emptyLocked_still s _ _)
  · rw [endLoad_settle_tap, emptyLocked_getElem]

end

/-! ### What a group's words leave -/

theorem lockChanged_standing (s : State) (l0 l1 : Nat) :
    (s.lockChanged l0 l1).standing = { s.standing with tap := (s.lockChanged l0 l1).tap } := by
  unfold State.lockChanged
  dsimp only
  split <;> rfl

theorem nodeChanged_standing (s old : State) :
    (s.nodeChanged old).standing = { s.standing with tap := (s.nodeChanged old).tap } := by
  have relocked : ∀ t : State, t.standing = s.standing → ∀ u,
      u = (if t.node.effLock = old.node.effLock then t else t.lockChanged old.node.effLock t.node.effLock) →
        u.standing = { s.standing with tap := u.tap } := by
    rintro t same u rfl
    split
    · rw [← same]; rfl
    · rw [lockChanged_standing, same]
  refine relocked _ ?_ _ rfl
  split <;> split <;> rfl

/-- The effects of a change move neither the node state nor the last failing group. -/
theorem changed_standing (s old : State) :
    (State.changed old s).standing = { s.standing with tap := (State.changed old s).tap } := by
  have node : ∀ t : State, t.standing = s.standing →
      (t.nodeChanged old).standing = { s.standing with tap := (t.nodeChanged old).tap } := by
    intro t same
    rw [nodeChanged_standing, same]
  have later : ∀ {t u : State}, t.standing = { s.standing with tap := t.tap } → u.standing = t.standing →
      u.standing = { s.standing with tap := u.tap } := by
    intro t u left same
    rw [same, left, standing_tap same]
  unfold State.changed
  refine later (node _ ((standing_termsFollowed _ old).trans (standing_channelsChanged s old))) ?_
  exact (standing_revalidate _ old).trans <| (standing_withDecision _ _).trans <|
    standing_foldl _ _ (fun s i => standing_lineChanged s old i) _

section
variable (s : State) {g : Fin 15}

theorem loadGroup_table {T : Table} {first k : Nat} (table : groupTable g = some (T, first, k)) (data : List Word) :
    s.loadGroup g data =
      { State.changed s (s.loadEntries T first k data) with
        dirty := (State.changed s (s.loadEntries T first k data)).dirty.set g false } := by
  unfold State.loadGroup
  rw [table]

theorem loadGroup_taplock (data : List Word) :
    s.loadGroup groupTaplock data =
      { s with tap := (s.loadTaplock data).1, dirty := s.dirty.set groupTaplock (s.loadTaplock data).2 } := rfl

end

theorem loadGroup_taplock_tap (s : State) (data : List Word) :
    (s.loadGroup groupTaplock data).tap = (s.loadTaplock data).1 := by rw [loadGroup_taplock]

theorem loadGroup_taplock_dirty (s : State) (data : List Word) :
    (s.loadGroup groupTaplock data).dirty[groupTaplock] = (s.loadTaplock data).2 := by
  rw [loadGroup_taplock]
  exact Vector.getElem_set_self _

theorem loadGroup_left (s : State) (g : Fin 15) (data : List Word) :
    (s.loadGroup g data).nodeState = s.nodeState ∧ (s.loadGroup g data).lastFailing = s.lastFailing := by
  unfold State.loadGroup
  split
  · rename_i T first k _
    have left := changed_standing (s.loadEntries T first k data) s
    have stored := standing_loadEntries s T first k data
    exact ⟨(congrArg Standing.nodeState left).trans (standing_nodeState stored),
      (congrArg Standing.lastFailing left).trans (standing_lastFailing stored)⟩
  · exact ⟨rfl, rfl⟩

/-! ### A TAPLOCK record (R72) -/

theorem recordData_length {g : Fin 15} {ws data : List Word} (h : recordData g ws = some data) :
    data.length = dataLength g := by
  unfold recordData at h
  split at h
  · split at h
    · rename_i good
      obtain ⟨-, -, length, -⟩ := good
      cases h
      exact length
    · cases h
  · cases h

/-- A flag word of at most 1 is set exactly when it is 1. -/
theorem flag_eq {f : Word} (h : f.toNat ≤ 1) : (f != 0) = decide (f = 1) := by
  have cases : f = 0 ∨ f = 1 := by
    rcases Nat.le_one_iff_eq_zero_or_eq_one.mp h with zero | one
    · exact .inl (BitVec.eq_of_toNat_eq zero)
    · exact .inr (BitVec.eq_of_toNat_eq one)
  rcases cases with rfl | rfl <;> decide

/-- Every way of a record is among its 96. -/
theorem way_lt (set : Fin 32) (way : Fin 3) : 3 * set.val + way.val < 96 := by omega

section
variable (s : State) {data : List Word} (length : data.length = 576)
include length

theorem loadTaplock_taken :
    TakenTo s.node.effLock s.tap data 96 (TaplockLoad.upTo s.node.effLock s.tap data 96) :=
  takenTo_upTo s.node.effLock s.tap length le_rfl

theorem loadTaplock_gone {i : Fin 128} (unlocked : s.node.effLock ≤ wayOf i) {set : Fin 32} {way : Fin 3}
    (placed : placedWay s.node.effLock data set way)
    (holds : holdsKey s.tap i (wayKey data set way).1 (wayKey data set way).2 = true) :
    (s.loadTaplock data).1[i] = none := by
  have taken := loadTaplock_taken s length
  rw [loadTaplock_tap]
  refine taken.gone i (fun set' way' _ locked here => ?_) _
    ((taken.placed _).mpr ⟨set, way, way_lt set way, placed, rfl⟩) holds
  rw [here, wayOf_wayPlace] at unlocked
  omega

theorem loadTaplock_kept {i : Fin 128} (unlocked : s.node.effLock ≤ wayOf i)
    (free : ∀ set way, placedWay s.node.effLock data set way →
      holdsKey s.tap i (wayKey data set way).1 (wayKey data set way).2 = false) :
    (s.loadTaplock data).1[i] = s.tap[i] := by
  have taken := loadTaplock_taken s length
  rw [loadTaplock_tap]
  refine taken.kept i (fun set' way' _ locked here => ?_) fun key mem => ?_
  · rw [here, wayOf_wayPlace] at unlocked
    omega
  · obtain ⟨set, way, -, placed, rfl⟩ := (taken.placed key).mp mem
    exact free set way placed

theorem loadTaplock_emptied {set : Fin 32} {way : Fin 3} (locked : way.val < s.node.effLock)
    (rejected : ¬placedWay s.node.effLock data set way) : (s.loadTaplock data).1[wayPlace set way] = none := by
  rw [loadTaplock_tap]
  exact (loadTaplock_taken s length).emptied set way (way_lt set way) locked rejected

theorem loadTaplock_filled {set : Fin 32} {way : Fin 3} (placed : placedWay s.node.effLock data set way) {kind : Kind}
    (named : kindOfCode (wayWord data set way 3).toNat = some kind) :
    (s.loadTaplock data).1[wayPlace set way] = some (wayEntry data set way kind) := by
  obtain ⟨kind', named', filled⟩ := (loadTaplock_taken s length).filled set way (way_lt set way) placed
  obtain rfl := Option.some.inj (named'.symm.trans named)
  rw [loadTaplock_tap]
  exact filled

theorem loadTaplock_missed :
    (s.loadTaplock data).2 = true ↔
      ∃ set way, wayWord data set way 0 ≠ 0 ∧ ¬placedWay s.node.effLock data set way := by
  rw [loadTaplock_mark]
  refine (loadTaplock_taken s length).missed.trans ⟨?_, ?_⟩
  · rintro ⟨set, way, -, h⟩
    exact ⟨set, way, h⟩
  · rintro ⟨set, way, h⟩
    exact ⟨set, way, way_lt set way, h⟩

end

/-! ### A group whose record fails (R183) -/

/-- What a failed record leaves, from the state with the group at its reset value. -/
structure GroupFailed (g : Fin 15) (u t : State) : Prop where
  tap : t.tap = u.tap
  nodeState : t.nodeState = u.nodeState
  dirty : t.dirty = u.dirty.set g true
  lastFailing : t.lastFailing = g.val + 1
  counted : LatchEntry.CountedOnce srcStoreCorrupt u.stamp u.posA u.latch[srcStoreCorrupt] t.latch[srcStoreCorrupt]

theorem groupFailed (g : Fin 15) (u : State) :
    GroupFailed g u (State.occur { u with dirty := u.dirty.set g true, lastFailing := g.val + 1 } srcStoreCorrupt) := by
  have after := (occur_consequence (E := anyEntry) trivial
    { u with dirty := u.dirty.set g true, lastFailing := g.val + 1 } srcStoreCorrupt trivial).stillBut
  exact
    { tap := after.tap
      nodeState := after.nodeState
      dirty := after.dirty
      lastFailing := after.lastFailing
      counted := occurFrom_counted { u with dirty := u.dirty.set g true, lastFailing := g.val + 1 } srcStoreCorrupt
        u.posA (by decide) }

theorem failGroup_taplock (s : State) : GroupFailed groupTaplock s.emptyLocked (s.failGroup groupTaplock) := by
  unfold State.failGroup
  rw [if_pos rfl]
  exact groupFailed groupTaplock s.emptyLocked

theorem failGroup_table (s : State) {g : Fin 15} (h : g ≠ groupTaplock) : GroupFailed g s (s.failGroup g) := by
  unfold State.failGroup
  rw [if_neg h]
  exact groupFailed g s

/-- A failed record keeps every value but TAPLOCK's locked ways, and counts STORE_CORRUPT. -/
theorem failGroup_left (s : State) (g : Fin 15) :
    (s.failGroup g).nodeState = s.nodeState ∧ (s.failGroup g).dirty = s.dirty.set g true ∧
      (s.failGroup g).lastFailing = g.val + 1 ∧
      LatchEntry.CountedOnce srcStoreCorrupt s.stamp s.posA s.latch[srcStoreCorrupt]
        (s.failGroup g).latch[srcStoreCorrupt] := by
  by_cases h : g = groupTaplock
  · subst h
    obtain ⟨-, nodeState, dirty, lastFailing, counted⟩ := failGroup_taplock s
    rw [emptyLocked_nodeState] at nodeState
    rw [emptyLocked_dirty] at dirty
    rw [emptyLocked_stamp, emptyLocked_posA, emptyLocked_latch] at counted
    exact ⟨nodeState, dirty, lastFailing, counted⟩
  · obtain ⟨-, nodeState, dirty, lastFailing, counted⟩ := failGroup_table s h
    exact ⟨nodeState, dirty, lastFailing, counted⟩

/-! ### A group (R183) -/

section
variable {s : State} {x : SerialAnswer} {g : Fin 15} {locked : Bool} {n : Nat} (reading : s.loading = .group g locked n)
include reading

theorem imageGroupRead_passed {data : List Word}
    (record : recordData g (s.serialRead x (placeOf g) (3 + dataLength g)) = some data) :
    exec (.imageGroupRead x) s = .next ((s.loadGroup g data).nextGroup (g.val + 1) locked n).settle := by
  have read : s.groupRead x = (s.loadGroup g data).nextGroup (g.val + 1) locked n := by
    unfold State.groupRead
    rw [reading]
    dsimp only
    rw [record]
  exact congrArg Host.Outcome.next (congrArg State.settle read)

theorem imageGroupRead_failed (record : recordData g (s.serialRead x (placeOf g) (3 + dataLength g)) = none) :
    exec (.imageGroupRead x) s = .next ((s.failGroup g).nextGroup (g.val + 1) locked n).settle := by
  have read : s.groupRead x = (s.failGroup g).nextGroup (g.val + 1) locked n := by
    unfold State.groupRead
    rw [reading]
    dsimp only
    rw [record]
  exact congrArg Host.Outcome.next (congrArg State.settle read)

end

theorem sameConfig_nextGroup {s u : State} (same : u.records = s.records) (i : Nat) (locked : Bool) (n : Nat) :
    SameConfig s (u.nextGroup i locked n).settle :=
  (records_eq_iff _ _).mp (by rw [records_settle, records_nextGroup, same])

/-- Settles O46: the load goes on from what each group's words, its TAPLOCK ways or its failure left. -/
theorem theImageLoadTakesItsGroups : Obligations.TheImageLoadTakesItsGroups := by
  refine ⟨fun x s settled reading => ⟨imageHeaderRead_absent reading,
    fun _ _ present some => imageHeaderRead_present reading settled present some,
    fun _ => imageHeaderRead_empty reading⟩, fun x s g locked n reading => ?_⟩
  cases record : recordData g (s.serialRead x (placeOf g) (3 + dataLength g)) with
  | none =>
    have on := nextGroup_goesOn (s.failGroup g) g locked n
    obtain ⟨nodeState, dirty, lastFailing, counted⟩ := failGroup_left s g
    refine ⟨_, imageGroupRead_failed reading record, fun h more => ?_, on.ends, on.skips, nofun, fun _ =>
      ⟨sameConfig_nextGroup (records_failGroup s g) _ _ _, ?_, on.lastFailing.trans lastFailing, fun taplock i => ?_,
        counted.trans_same (on.latch srcStoreCorrupt (by decide))⟩⟩
    · obtain ⟨loading, kept⟩ := on.more h more
      exact ⟨loading, kept.trans nodeState⟩
    · rw [on.dirty, dirty]
      exact Vector.getElem_set_self _
    · subst taplock
      rw [on.last rfl, (failGroup_taplock s).tap, emptyLocked_getElem]
  | some data =>
    have on := nextGroup_goesOn (s.loadGroup g data) g locked n
    obtain ⟨nodeState, lastFailing⟩ := loadGroup_left s g data
    refine ⟨_, imageGroupRead_passed reading record, fun h more => ?_, on.ends, on.skips, fun data' same => ?_, nofun⟩
    · obtain ⟨loading, kept⟩ := on.more h more
      exact ⟨loading, kept.trans nodeState⟩
    cases same
    refine ⟨fun T first k table => ⟨sameConfig_nextGroup ?_ _ _ _, ?_, on.lastFailing.trans lastFailing, ?_⟩,
      fun taplock => ?_⟩
    · rw [loadGroup_table s table, records_withDirty, records_changed]
    · rw [on.dirty, loadGroup_table s table]
      exact Vector.getElem_set_self _
    · rintro u rfl
      rw [loadGroup_table s table]
    · subst taplock
      have length : data.length = 576 := recordData_length record
      have tap := (on.last rfl).trans (loadGroup_taplock_tap s data)
      refine ⟨sameConfig_nextGroup (records_withTaplock s _ _) _ _ _, on.lastFailing.trans lastFailing, ?_, ?_, ?_, ?_⟩
      · intro i unlocked set way placed holds
        rw [tap]
        exact loadTaplock_gone s length unlocked placed holds
      · intro i unlocked free
        rw [tap]
        exact loadTaplock_kept s length unlocked free
      · intro i set way here lockedWay
        obtain rfl : i = wayPlace set way := Fin.ext here
        rw [tap]
        refine ⟨loadTaplock_emptied s length lockedWay, ?_⟩
        rintro placed _ _ _ rfl rfl rfl kind named
        refine (loadTaplock_filled s length placed named).trans ?_
        have flag := flag_eq (loadableWay_iff.mp placed.2.1).2.1
        unfold wayEntry loadedEntry
        rw [flag]
        rfl
      · rw [on.dirty, loadGroup_taplock_dirty]
        exact loadTaplock_missed s length

end Sys2Proof.Machine
end

