-- ==== Sys2Proof/Proofs/Evaluation.lean ====
section
/-! PROOFS. Proofs/Evaluation.lean: an evaluation of the kinds (R75 to R88): the terms that count and their weighing, the status,
level, demand and alarm of a kind, and that the sources it raises, the hand-off and what the event owes leave them so. -/

namespace Sys2Proof.Machine

/-! ### The terms that count (R77 to R79) -/

theorem localTerm_eq_some {s : State} {k : Kind} {x : Term} {v : Int} :
    s.localTerm k x = some v ↔
      s.channels[x.channel].cfg.kind = some k ∧ s.channels[x.channel].fault = false ∧
        s.channels[x.channel].smoothed = some v := by
  unfold State.localTerm Channel.reading
  cases value : s.channels[x.channel].smoothed <;> simp [and_assoc]

/-- In a lawful cache the lookup finds the one entry of the key. -/
theorem LawfulCache.tapLookup_eq_some {t : TapCache} (h : LawfulCache t) {o c : Nat} {e : TapEntry} :
    tapLookup t o c = some e ↔ ∃ i : Fin 128, t[i] = some e ∧ e.origin = o ∧ e.channel = c := by
  unfold tapLookup
  constructor
  · intro found
    obtain ⟨i, at_i, valid⟩ := Option.bind_eq_some_iff.mp found
    obtain ⟨f, holds, key⟩ := holdsKey_iff.mp (tapFind_holds at_i)
    cases holds.symm.trans valid
    exact ⟨i, valid, key⟩
  · rintro ⟨i, valid, rfl, rfl⟩
    rw [h.tapFind valid]
    exact valid

theorem tapTerm_eq_some {s : State} (law : s.TapLaw) {k : Kind} {x : Term} {v : Int} :
    s.tapTerm k x = some v ↔
      x.offset ≠ 0 ∧ s.posA ≠ 0 ∧ 1 ≤ (s.posA : Int) + x.offset ∧ (s.posA : Int) + x.offset ≤ 254 ∧
        ∃ (i : Fin 128) (e : TapEntry), s.tap[i] = some e ∧ (e.origin : Int) = s.posA + x.offset ∧
          e.channel = x.channel.val ∧ e.kind = k ∧ e.fault = false ∧ e.age ≤ s.node.staleLimit ∧ e.value = v := by
  have lookup := fun e => (tapLaw_iff.mp law).tapLookup_eq_some
    (o := ((s.posA : Int) + x.offset).toNat) (c := x.channel.val) (e := e)
  unfold State.tapTerm
  dsimp only
  constructor
  · intro value
    split at value
    case isFalse => cases value
    case isTrue heard =>
      obtain ⟨offset, placed, low, high⟩ := heard
      refine ⟨offset, placed, low, high, ?_⟩
      cases found : tapLookup s.tap ((s.posA : Int) + x.offset).toNat x.channel.val with
      | none => rw [found] at value; cases value
      | some e =>
        rw [found] at value
        obtain ⟨i, valid, origin, channel⟩ := (lookup e).mp found
        obtain ⟨⟨kind, sound, fresh⟩, same⟩ := Option.ite_none_right_eq_some.mp value
        exact ⟨i, e, valid, by omega, channel, kind, sound, fresh, Option.some.inj same⟩
  · rintro ⟨offset, placed, low, high, i, e, valid, origin, channel, kind, sound, fresh, rfl⟩
    rw [if_pos ⟨offset, placed, low, high⟩, (lookup e).mpr ⟨i, valid, by omega, channel⟩]
    exact if_pos ⟨kind, sound, fresh⟩

theorem termValue_eq_some {s : State} (law : s.TapLaw) {k : Kind} {x : Term} {v : Int} :
    s.termValue k x = some v ↔ x.Counts s k v := by
  unfold State.termValue Term.Counts
  cases source : x.source with
  | loc => simp [localTerm_eq_some]
  | tap => simp [tapTerm_eq_some law]

/-! ### The weighing of a kind's terms (R81, R84) -/

theorem foldl_add_pair {α : Type} (f : α → Nat) (g : α → Int) :
    ∀ (l : List α) (acc : Nat × Int),
      l.foldl (fun a x => (a.1 + f x, a.2 + g x)) acc = (acc.1 + (l.map f).sum, acc.2 + (l.map g).sum)
  | [], acc => by simp
  | x :: l, acc => by
    rw [List.foldl_cons, foldl_add_pair f g l]
    simp [Nat.add_assoc, Int.add_assoc]

/-- The weights of the valid terms and their weighted values, each summed over the list. -/
theorem weigh_eq (s : State) (k : Kind) :
    s.weigh k =
      (((s.termsOf k).map fun x => if (s.termValue k x).isSome then x.weight else 0).sum,
        ((s.termsOf k).map fun x => (x.weight : Int) * (s.termValue k x).getD 0).sum) := by
  unfold State.weigh
  refine (List.foldl_ext _ _ _ fun acc x _ => ?_).trans ((foldl_add_pair _ _ _ _).trans (by rw [Nat.zero_add, Int.zero_add]))
  cases s.termValue k x <;> simp

theorem take_drop_eq_filterMap {α : Type} (l : List α) (n m : Nat) :
    (l.drop n).take m = (List.range m).filterMap fun i => l[n + i]? := by
  induction m with
  | zero => rfl
  | succ m ih =>
    rw [List.range_succ, List.filterMap_append, ← ih, List.take_add_one, List.getElem?_drop]
    cases at_m : l[n + m]? <;> simp [at_m]

/-- A kind's list is its 8 entries of the TERM table, in table order (R77). -/
theorem termsOf_eq (s : State) (k : Kind) :
    s.termsOf k = (List.range 8).filterMap fun i => s.terms[8 * [Kind.co, .no2, .opac, .vel].idxOf k + i]? := by
  have place : kindCode k - 1 = [Kind.co, .no2, .opac, .vel].idxOf k := by cases k <;> rfl
  simp [State.termsOf, take_drop_eq_filterMap, place]

/-! ### Status and level (R81, R82, R84) -/

section
variable {K : KindUnit} {now w : Nat} {sum : Int}

theorem settle_weight (K : KindUnit) (now w : Nat) (sum : Int) : (K.settle now w sum).weight = w := by
  unfold KindUnit.settle
  dsimp only
  split
  · rfl
  · split <;> (try split) <;> rfl

theorem settle_d (K : KindUnit) (now w : Nat) (sum : Int) : (K.settle now w sum).d = K.d := by
  unfold KindUnit.settle
  dsimp only
  split
  · rfl
  · split <;> (try split) <;> rfl

theorem settle_alarm (K : KindUnit) (now w : Nat) (sum : Int) : (K.settle now w sum).alarm = K.alarm := by
  unfold KindUnit.settle
  dsimp only
  split
  · rfl
  · split <;> (try split) <;> rfl

/-- With its quorum a kind is OK at the rounded mean of its valid terms. -/
theorem settle_quorum (h : max K.cfg.quorum 1 ≤ w) :
    K.settle now w sum = { K with weight := w, status := .ok, level := some (roundDiv sum w), holdTimer := none } :=
  if_pos (decide_eq_true h)

theorem settle_short (h : w < max K.cfg.quorum 1) : K.cfg.meets w = false := decide_eq_false (Nat.not_le.mpr h)

/-- An OK kind that misses its quorum is DEGRADED, with its hold timer started. -/
theorem settle_degrades (h : w < max K.cfg.quorum 1) (ok : K.status = .ok) (hold : K.cfg.hold ≠ 0) :
    K.settle now w sum =
      { K with weight := w, status := .degraded, holdTimer := some (now + K.cfg.hold * 1000000) } := by
  simp [KindUnit.settle, settle_short h, ok, hold, usOfSec]

/-- Without a hold time it is FAILED at once. -/
theorem settle_fails (h : w < max K.cfg.quorum 1) (ok : K.status = .ok) (hold : K.cfg.hold = 0) :
    K.settle now w sum = { K with weight := w, status := .failed } := by
  simp [KindUnit.settle, settle_short h, ok, hold]

/-- A kind that was not OK and misses its quorum stays as it is. -/
theorem settle_stays (h : w < max K.cfg.quorum 1) (notOk : K.status ≠ .ok) :
    K.settle now w sum = { K with weight := w } := by
  cases status : K.status with
  | ok => exact absurd status notOk
  | _ => simp [KindUnit.settle, settle_short h, status]

/-- A kind that misses its quorum keeps its level. -/
theorem settle_short_level (h : w < max K.cfg.quorum 1) : (K.settle now w sum).level = K.level := by
  by_cases ok : K.status = .ok
  · by_cases hold : K.cfg.hold = 0
    · rw [settle_fails h ok hold]
    · rw [settle_degrades h ok hold]
  · rw [settle_stays h ok]

end

/-! ### Demand and alarm of a gas kind (R85, R86) -/

theorem KindUnit.demand_failed {K : KindUnit} (h : K.status = .failed) : K.demand = K.cfg.failed := by
  simp [KindUnit.demand, h]

theorem KindUnit.alarmAfter_failed {K : KindUnit} (h : K.status = .failed) : K.alarmAfter = K.alarm := by
  simp [KindUnit.alarmAfter, h]

/-- The kind forms its demand and its alarm from its level: it is OK or DEGRADED. -/
def KindUnit.Reads (K : KindUnit) (l : Int) : Prop := (K.status = .ok ∨ K.status = .degraded) ∧ K.level = some l

section
variable {K : KindUnit} {l : Int}

theorem KindUnit.Reads.demand (h : K.Reads l) : K.demand = K.cfg.ramp l := by
  obtain ⟨status | status, level⟩ := h <;> simp [KindUnit.demand, status, level]

theorem KindUnit.Reads.alarmAfter (h : K.Reads l) :
    K.alarmAfter = if K.alarm then !decide (l ≤ K.cfg.effClear) else decide (K.cfg.alarm ≤ l) := by
  obtain ⟨status | status, level⟩ := h <;> simp [KindUnit.alarmAfter, status, level]

end

section
variable {c : KindCfg} {l : Int}

theorem ramp_below (h : c.tLo < c.tHi) (low : l ≤ c.tLo) : c.ramp l = 0 := by
  simp [KindCfg.ramp, h, low]

theorem ramp_below_step (h : c.tHi ≤ c.tLo) (low : l < c.tHi) : c.ramp l = 0 := by
  simp [KindCfg.ramp, Int.not_lt.mpr h, low]

theorem ramp_above (high : c.tHi ≤ l) : c.ramp l = 1000 := by
  unfold KindCfg.ramp
  split
  · exact if_neg (by omega)
  · exact if_neg (Int.not_lt.mpr high)

/-- Between the thresholds the demand is the level's share of 1000, rounded down. -/
theorem ramp_between (low : c.tLo < l) (high : l < c.tHi) :
    (c.ramp l : Int) * (c.tHi - c.tLo) ≤ 1000 * (l - c.tLo) ∧
      1000 * (l - c.tLo) < ((c.ramp l : Int) + 1) * (c.tHi - c.tLo) := by
  have span : 0 < c.tHi - c.tLo := by omega
  have share : (c.ramp l : Int) = 1000 * (l - c.tLo) / (c.tHi - c.tLo) := by
    unfold KindCfg.ramp
    rw [if_pos (by omega), if_neg (by omega), if_neg (by omega)]
    exact Int.toNat_of_nonneg (Int.ediv_nonneg (by omega) span.le)
  rw [share]
  exact ⟨Int.ediv_mul_le _ span.ne', Int.lt_ediv_add_one_mul_self _ span⟩

end

/-- The alarm by the level's place between the thresholds (R86). -/
theorem KindUnit.Reads.alarm_thresholds {K : KindUnit} {l : Int} (h : K.Reads l) :
    (K.cfg.alarm ≤ l → K.alarmAfter = true) ∧
      (K.cfg.clear < K.cfg.alarm → l ≤ K.cfg.clear → K.alarmAfter = false) ∧
      (K.cfg.alarm ≤ K.cfg.clear → l < K.cfg.alarm → K.alarmAfter = false) ∧
      (K.cfg.clear < l → l < K.cfg.alarm → K.alarmAfter = K.alarm) := by
  rw [h.alarmAfter]
  unfold KindCfg.effClear
  cases K.alarm
  · simp only [Bool.false_eq_true, ↓reduceIte, decide_eq_true_eq, decide_eq_false_iff_not]
    omega
  · simp only [↓reduceIte, Bool.not_eq_true', Bool.not_eq_false', decide_eq_true_eq, decide_eq_false_iff_not]
    split <;> omega

/-! ### A kind after an evaluation -/

section
variable (s : State) (k : Kind)

/-- The kind after stage 1: weighed and settled. -/
abbrev State.weighed : KindUnit := (s.kind k).settle s.now (s.weigh k).1 (s.weigh k).2

theorem evaluated_unused (h : (s.kind k).status = .unused) : s.evaluated k = s.kind k := if_pos h

theorem evaluated_used (h : (s.kind k).status ≠ .unused) :
    s.evaluated k =
      { s.weighed k with
        d := if isGas k then (s.weighed k).demand else (s.kind k).d
        alarm := if isGas k then (s.weighed k).alarmAfter else (s.kind k).alarm } := by
  unfold State.evaluated
  dsimp only
  rw [if_neg h]
  split
  · rfl
  · rw [← settle_d (s.kind k) s.now (s.weigh k).1 (s.weigh k).2,
      ← settle_alarm (s.kind k) s.now (s.weigh k).1 (s.weigh k).2]

theorem isGas_iff : isGas k = true ↔ k ≠ .vel := by cases k <;> simp [isGas]

end

/-! ### What follows the evaluation leaves the kinds -/

theorem failedChange_consequence (s : State) (k : Kind) (was is : KindStatus) :
    Consequence anyEntry s (s.failedChange k was is) := by
  unfold State.failedChange
  split
  · exact occur_consequence trivial s _ trivial
  · split
    · exact clearSource_consequence trivial s _ trivial
    · exact .refl _ s

theorem alarmChange_consequence (s : State) (k : Kind) (was is : Bool) :
    Consequence anyEntry s (s.alarmChange k was is) := by
  unfold State.alarmChange
  split
  · exact .refl _ s
  · exact follow_consequence trivial s _ was is trivial

theorem kindSources_consequence (old : Kinds) (s : State) : Consequence anyEntry s (State.kindSources old s) := by
  unfold State.kindSources
  exact (failedChange_consequence s _ _ _).trans <| (failedChange_consequence _ _ _ _).trans <|
    (failedChange_consequence _ _ _ _).trans <| (failedChange_consequence _ _ _ _).trans <|
    (alarmChange_consequence _ _ _ _).trans <| (alarmChange_consequence _ _ _ _).trans (alarmChange_consequence _ _ _ _)

/-- The state as the control timer starts anew (R75). -/
abbrev State.retimed (s : State) : State := { s with controlTimer := some (s.now + s.node.controlPeriod * 1000000) }

theorem exec_controlTimerExpiry (s : State) :
    exec .controlTimerExpiry s = .next (State.kindSources s.kinds s.retimed.evaluate).handOff.settle := rfl

/-- All that an evaluation does after stage 5 (R75). -/
theorem controlTimerExpiry_consequence (s : State) :
    Consequence anyEntry s.retimed.evaluate (State.kindSources s.kinds s.retimed.evaluate).handOff.settle :=
  ((kindSources_consequence _ _).trans (handOff_consequence _ _)).trans ((settle_consequence _).mono fun _ _ => trivial)

theorem Consequence.kinds {E : EntryId → Prop} {s t : State} (h : Consequence E s t) : t.kinds = s.kinds :=
  (congrArg State.kinds h.still : t.still.kinds = s.still.kinds)

theorem Consequence.controlTimer {E : EntryId → Prop} {s t : State} (h : Consequence E s t) :
    t.controlTimer = s.controlTimer :=
  (congrArg State.controlTimer h.still : t.still.controlTimer = s.still.controlTimer)

theorem State.kind_congr {s t : State} (h : t.kinds = s.kinds) (k : Kind) : t.kind k = s.kind k := by
  cases k <;> simp only [State.kind, h]

theorem kind_evaluate (s : State) (k : Kind) : s.retimed.evaluate.kind k = s.evaluated k := by cases k <;> rfl

/-- Settles O36: what a used kind's evaluation gives is read off the settled kind, whose status is a matter of the quorum. -/
theorem evaluationsSettleTheKinds : Obligations.EvaluationsSettleTheKinds := by
  refine ⟨fun s k x v law => termValue_eq_some law, fun s k ts list => by rw [list, ← termsOf_eq]; exact weigh_eq s k,
    fun s => ⟨_, exec_controlTimerExpiry s, (controlTimerExpiry_consequence s).controlTimer, fun k => ?_⟩⟩
  rw [State.kind_congr (controlTimerExpiry_consequence s).kinds, kind_evaluate]
  refine ⟨cfg_evaluated s k, evaluated_unused s k, fun used => ?_⟩
  have cfg : (s.weighed k).cfg = (s.kind k).cfg := KindUnit.cfg_settle _ _ _ _
  have alarm : (s.weighed k).alarm = (s.kind k).alarm := settle_alarm _ _ _ _
  rw [evaluated_used s k used]
  refine ⟨settle_weight _ _ _ _, fun quorum => ?_,
    fun short => ⟨settle_short_level short, fun ok hold => ?_, fun ok hold => ?_, fun notOk => ?_⟩, ?_, fun gas failed => ?_, fun gas status l lo hi a c level hlo hhi ha hc => ?_⟩
  · simp only [State.weighed, settle_quorum quorum]
    exact ⟨trivial, trivial, _, rfl, roundDiv_bounds _ (by omega)⟩
  · simp only [State.weighed, settle_degrades short ok hold]
    exact ⟨trivial, trivial⟩
  · simp only [State.weighed, settle_fails short ok hold]
  · simp only [State.weighed, settle_stays short notOk]
    exact ⟨trivial, trivial⟩
  · rintro rfl
    exact ⟨rfl, rfl⟩
  · have isFailed : (s.weighed k).status = .failed := failed
    simp only [(isGas_iff k).mpr gas, if_true, ← cfg, ← alarm]
    exact ⟨KindUnit.demand_failed isFailed, KindUnit.alarmAfter_failed isFailed⟩
  · have reads : (s.weighed k).Reads l := ⟨status, level⟩
    obtain ⟨set, cleared, clearedAtOnce, kept⟩ := reads.alarm_thresholds
    subst hlo hhi ha hc
    simp only [(isGas_iff k).mpr gas, if_true, reads.demand, ← cfg, ← alarm]
    exact ⟨ramp_below, ramp_below_step, ramp_above, ramp_between, set, cleared, clearedAtOnce, kept⟩

end Sys2Proof.Machine
end

