-- ==== Sys2Proof/Proofs/HandOff.lean ====
section
/-! PROOFS. Proofs/HandOff.lean: the limited demand and u (R88, R90, R91), the duty of a magnitude (R95), the commands that the
directive forms and the hand-off (R92 to R96), and how a channel acts on a request by its state (R105, R107 to R111). -/

namespace Sys2Proof.Machine

/-! ### The limited demand (R88) -/

section
variable (n : NodeCfg) {d lim : Nat}

theorem limit_rise (h : lim < d) : n.limit d lim = min d (lim + max n.rUp 1) := by
  unfold NodeCfg.limit NodeCfg.effUp
  rw [if_pos h]
  omega

theorem limit_fall (h : d < lim) : n.limit d lim = max d (lim - max n.rDn 1) := by
  unfold NodeCfg.limit NodeCfg.effDn
  rw [if_neg (by omega)]
  omega

theorem limit_rest (h : d = lim) : n.limit d lim = lim := by
  unfold NodeCfg.limit
  rw [if_neg (by omega)]
  omega

end

theorem dLimAfter_auto {s : State} (h : s.jetDirective = .auto) (d : Nat) : s.dLimAfter d = s.node.limit d s.dLim := by
  simp [State.dLimAfter, h]

theorem dLimAfter_other {s : State} (h : s.jetDirective ≠ .auto) (d : Nat) : s.dLimAfter d = s.dLim := by
  cases directive : s.jetDirective with
  | auto => exact absurd directive h
  | _ => simp [State.dLimAfter, directive]

/-! ### The velocity command (R90, R91) -/

theorem clampInt_eq {lo hi : Int} (h : lo ≤ hi) (x : Int) : clampInt lo hi x = max lo (min hi x) := by
  unfold clampInt
  split
  · omega
  · split <;> omega

/-- One controller step, bounded by R_up, of u within its range. -/
theorem velocityStep_eq (n : NodeCfg) (vt l u : Int) :
    n.velocityStep vt l u =
      max (-1000) (min 1000
        (u + max (-max (n.rUp : Int) 1) (min (max (n.rUp : Int) 1) (((n.kp : Int) * (vt - l)).tdiv 256)))) := by
  have up : (n.effUp : Int) = max (n.rUp : Int) 1 := by simp [NodeCfg.effUp]
  rw [NodeCfg.velocityStep, clampInt_eq (by decide), clampInt_eq (by omega), up]

theorem uAfter_steps {s : State} {vt l : Int} (directive : s.jetDirective = .velocity vt) (reads : s.kinds.vel.Reads l) :
    s.uAfter = s.node.velocityStep vt l s.u := by
  obtain ⟨status | status, level⟩ := reads <;> simp [State.uAfter, directive, status, level]

theorem uAfter_without_level {s : State} (h : s.kinds.vel.status = .failed ∨ s.kinds.vel.status = .unused) :
    s.uAfter = s.u := by
  unfold State.uAfter
  rcases h with status | status <;> rw [status] <;> split <;> rfl

theorem uAfter_other {s : State} (h : ∀ vt, s.jetDirective ≠ .velocity vt) : s.uAfter = s.u := by
  cases directive : s.jetDirective with
  | velocity vt => exact absurd directive (h vt)
  | _ => simp [State.uAfter, directive]

theorem seeded_other {s : State} (h : ∀ vt, s.jetDirective ≠ .velocity vt) : s.seeded = s := by
  cases directive : s.jetDirective with
  | velocity vt => exact absurd directive (h vt)
  | _ => simp [State.seeded, directive]

theorem seeded_velocity {s : State} {vt : Int} (h : s.jetDirective = .velocity vt) : s.seeded = { s with u := s.seed } := by
  simp [State.seeded, h]

theorem signed_eq (c : Cmd) :
    c.signed = if c.dir = some .forward then (c.mag : Int) else if c.dir = some .reverse then -c.mag else 0 := by
  unfold Cmd.signed
  rcases c.dir with _ | _ | _ <;> rfl

/-! ### The duty of a magnitude (R95) -/

theorem dutyOf_zero (c : FanCfg) : c.dutyOf 0 = 0 := rfl

/-- Above 0 the duty is the magnitude's share of the span of the effective bounds, rounded to nearest. -/
theorem dutyOf_share (c : FanCfg) {m : Nat} (hm : 0 < m) :
    c.effDmin ≤ c.dutyOf m ∧
      2 * 1000 * (c.dutyOf m - c.effDmin) ≤ 2 * (m * (c.effDmax - c.effDmin)) + 1000 ∧
      2 * (m * (c.effDmax - c.effDmin)) + 1000 < 2 * 1000 * (c.dutyOf m - c.effDmin + 1) := by
  have order := effDmin_le_effDmax c
  have span : (m : Int) * ((c.effDmax : Int) - c.effDmin) = (m * (c.effDmax - c.effDmin) : Nat) := by
    push_cast [Nat.cast_sub order]
    rfl
  have duty : c.dutyOf m = c.effDmin + (roundDiv (m * (c.effDmax - c.effDmin) : Nat) 1000).toNat := by
    rw [← span]
    exact if_neg hm.ne'
  have bounds := roundDiv_bounds (m * (c.effDmax - c.effDmin) : Nat) (d := 1000) (by decide)
  omega

/-! ### The command that the directive forms (R92 to R94) -/

/-- The staged magnitude: none up to the offset, from there the share of what is left of 1000, rounded down. -/
theorem staged_share (m off : Nat) :
    (m ≤ min off 999 → staged m off = 0) ∧
      (min off 999 < m →
        staged m off * (1000 - min off 999) ≤ (m - min off 999) * 1000 ∧
          (m - min off 999) * 1000 < (staged m off + 1) * (1000 - min off 999)) := by
  refine ⟨fun low => if_pos low, fun high => ?_⟩
  have share : staged m off = (m - min off 999) * 1000 / (1000 - min off 999) := if_neg (by omega)
  rw [share]
  exact ⟨Nat.div_mul_le_self _ _, (Nat.lt_mul_div_succ _ (by omega)).trans_eq (Nat.mul_comm _ _)⟩

theorem offsetOf_eq (s : State) (f : FanId) :
    s.offsetOf f = if f = jet1 ∨ s.fans[jet1].available = false then 0 else s.fans[f].cfg.stageOffset := by
  unfold State.offsetOf
  by_cases first : f = jet1
  · simp [first]
  · cases s.fans[jet1].available <;> simp [first]

theorem formed_asks {s : State} {f : FanId} (h : s.fans[f].available = true) :
    s.jetDirective.Asks s f (s.offsetOf f) (s.formed f) := by
  unfold State.formed
  rw [if_pos h]
  cases s.jetDirective with
  | auto => exact ⟨staged_share _ _, rfl⟩
  | off => rfl
  | fixed d v => rfl
  | holdLast c1 c2 => rfl
  | velocity vt =>
    exact ⟨staged_share _ _, fun forward => if_pos forward, fun reverse => (if_neg (by omega)).trans (if_pos reverse)⟩

theorem jetCommand_unavailable {s : State} {f : FanId} (h : s.fans[f].available = false) : s.jetCommand f = {} := by
  rw [State.jetCommand, minRun_eq, if_pos (.inl h)]

theorem jetCommand_available {s : State} {f : FanId} (h : s.fans[f].available = true) :
    s.jetCommand f =
      if (s.formed f).mag = 0 ∨ (s.formed f).mag < s.fans[f].leastRun (s.formed f).dir then {} else s.formed f := by
  rw [State.jetCommand, minRun_eq]
  simp only [h, Bool.true_eq_false, false_or]

/-! ### The hand-off (R96, R105, R114) -/

/-- A jet channel after a hand-off of a command, the request 0 while an override holds the jets. -/
def Fan.takeHanded (now : Nat) (held : Bool) (c : Cmd) (F : Fan) : Fan :=
  Fan.takeRequest now (if held then {} else c) (F.cfg.dutyOf c.mag)
    { F with handed := c, handedDuty := F.cfg.dutyOf c.mag }

theorem handJet_eq (s : State) (f : FanId) (c : Cmd) : s.handJet f c = { s with fans := (s.handJet f c).fans } := rfl

theorem handPassage_eq (s : State) : s.handPassage = { s with fans := s.handPassage.fans } := rfl

theorem handOff_eq (s : State) : s.handOff = { s with fans := s.handOff.fans } := by
  unfold State.handOff
  rw [handPassage_eq, handJet_eq, handJet_eq]

theorem handJet_fans (s : State) (f g : FanId) (c : Cmd) :
    (s.handJet f c).fans[g] = if g = f then s.fans[f].takeHanded s.now s.jetsHeld c else s.fans[g] :=
  fans_setFan s f g _

/-- The duty that comes with no request is as good as any other. -/
theorem takeRequest_idle (F : Fan) (now duty duty' : Nat) : F.takeRequest now {} duty = F.takeRequest now {} duty' := rfl

theorem reformPassage_eq (s : State) {m : Nat}
    (hm : m = if s.fans[passage].handed.mag = 0 then s.fans[passage].cfg.passageSpeed else s.fans[passage].handed.mag) :
    s.reformPassage = s.setFan passage (s.fans[passage].takeRequest s.now
      (if s.passageRuns then ⟨m, some .forward⟩ else {}) (s.fans[passage].cfg.dutyOf m)) := by
  unfold State.reformPassage State.passageRequest
  dsimp only
  rw [← hm]
  cases s.passageRuns
  · exact congrArg (s.setFan passage) (takeRequest_idle _ _ _ _)
  · rfl

/-- The passage channel with its speed handed (R96). -/
def Fan.withSpeedHanded (F : Fan) : Fan :=
  { F with handed := ⟨F.cfg.passageSpeed, some .forward⟩, handedDuty := F.cfg.dutyOf F.cfg.passageSpeed }

theorem handPassage_fans (s : State) (g : FanId) :
    s.handPassage.fans[g] =
      if g = passage then
        Fan.takeRequest s.now (if s.passageRuns then ⟨s.fans[passage].cfg.passageSpeed, some .forward⟩ else {})
          (s.fans[passage].cfg.dutyOf s.fans[passage].cfg.passageSpeed) s.fans[passage].withSpeedHanded
      else s.fans[g] := by
  let t : State := s.setFan passage s.fans[passage].withSpeedHanded
  have handed : t.fans[passage] = s.fans[passage].withSpeedHanded := fans_setFan_self s passage _
  have again : t.reformPassage = _ := reformPassage_eq t (m := s.fans[passage].cfg.passageSpeed) (by
    rw [handed]
    exact (ite_self _).symm)
  show t.reformPassage.fans[g] = _
  rw [again, fans_setFan, handed, fans_setFan]
  by_cases h : g = passage
  · rw [if_pos h, if_pos h]
    rfl
  · rw [if_neg h, if_neg h, if_neg h]

theorem handOff_fans (s : State) (f : FanId) :
    s.handOff.fans[f] =
      if f = passage then
        Fan.takeRequest s.now (if s.passageRuns then ⟨s.fans[passage].cfg.passageSpeed, some .forward⟩ else {})
          (s.fans[passage].cfg.dutyOf s.fans[passage].cfg.passageSpeed) s.fans[passage].withSpeedHanded
      else s.fans[f].takeHanded s.now s.jetsHeld (s.jetCommand f) := by
  let t : State := (s.handJet jet1 (s.jetCommand jet1)).handJet jet2 (s.jetCommand jet2)
  have jets : ∀ g, t.fans[g] =
      if g = jet2 then (s.handJet jet1 (s.jetCommand jet1)).fans[jet2].takeHanded s.now s.jetsHeld (s.jetCommand jet2)
      else (s.handJet jet1 (s.jetCommand jet1)).fans[g] := fun g => handJet_fans _ jet2 g _
  have passed : t.fans[passage] = s.fans[passage] := by
    rw [jets, if_neg (by decide), handJet_fans, if_neg (by decide)]
  show t.handPassage.fans[f] = _
  rw [handPassage_fans, passed, jets, handJet_fans, handJet_fans]
  fin_cases f <;> rfl

/-! ### A channel acts on a request by its state (R105, R107 to R111) -/

/-- The duty between the effective bounds is the nearest one to the duty that came with the request (log entry 17). -/
theorem startDuty_eq (F : Fan) : F.startDuty = F.cfg.bounded F.heldDuty := by
  have order := effDmin_le_effDmax F.cfg
  unfold Fan.startDuty FanCfg.bounded
  unfold FanCfg.effDmax FanCfg.effDmin at *
  dsimp only
  split
  · omega
  · split <;> omega

theorem enterStarting_eq (F : Fan) (now : Nat) (d : Direction) : F.enterStarting now d = F.started now d := by
  unfold Fan.enterStarting Fan.started Fan.confirm
  rw [startDuty_eq]
  dsimp only
  by_cases slow : F.speed < F.cfg.confirmSpeed
  · rw [if_neg (by omega), if_pos slow]
    rfl
  · rw [if_pos (by omega), if_neg slow]
    unfold Fan.stallTest Fan.stalled
    by_cases stall : F.speed * 100 < F.request.mag * F.cfg.stallRatio <;> simp [stall, usOfSec]

/-- A timer that is started unless it runs. -/
theorem started_timer (T : Timer) (deadline : Nat) :
    (if T.isSome then T else some deadline) = some (T.getD deadline) := by
  cases T <;> rfl

theorem stallTest_eq (F : Fan) (now : Nat) :
    F.stallTest now =
      { F with
        stallTimer :=
          if F.speed * 100 < F.request.mag * F.cfg.stallRatio then
            some (F.stallTimer.getD (now + F.cfg.stallTime * 1000000))
          else none } := by
  unfold Fan.stallTest Fan.stalled usOfSec
  rw [started_timer]
  by_cases stall : F.speed * 100 < F.request.mag * F.cfg.stallRatio
  · rw [if_pos (decide_eq_true stall), if_pos stall]
  · rw [if_neg (by simpa using stall), if_neg stall]

theorem wants_iff {F : Fan} {d : Direction} : F.wants d = true ↔ F.request.mag ≠ 0 ∧ F.request.dir = some d := by
  simp [Fan.wants]

section
variable {F : Fan} (now : Nat) {d : Direction}

theorem serve_stopped_run (h : F.state = .stopped) (run : F.wants d = true) : F.serve now = F.started now d := by
  obtain ⟨mag, dir⟩ := wants_iff.mp run
  simp [Fan.serve, Fan.serveStopped, h, dir, mag, enterStarting_eq]

theorem serve_stopped_rest (h : F.state = .stopped) (rest : ∀ d, F.wants d = false) : F.serve now = F := by
  simp only [Fan.serve, h, Fan.serveStopped]
  cases dir : F.request.dir with
  | none => rfl
  | some d =>
    have idle : F.request.mag = 0 := by simpa [Fan.wants, dir] using rest d
    exact if_pos idle

theorem serve_coasting (h : F.state = .stopping (some d)) :
    F.serve now = if F.wants d then F.started now d else F := by
  simp only [Fan.serve, h, enterStarting_eq]

theorem serve_holds (h : F.state = .stopping none ∨ F.state = .fault ∨ F.state = .disabled) : F.serve now = F := by
  rcases h with h | h | h <;> simp only [Fan.serve, h]

theorem runDir_eq_some : F.runDir = some d ↔ F.state = .starting d ∨ F.state = .running d := by
  cases h : F.state <;> simp [Fan.runDir, h]

theorem serve_running_stops (h : F.runDir = some d) (other : F.wants d = false) :
    F.serve now = F.enterStopping now (some d) := by
  rcases runDir_eq_some.mp h with h | h <;> simp [Fan.serve, h, other]

theorem serve_starting_goesOn (h : F.state = .starting d) (run : F.wants d = true) :
    F.serve now = { F with pendingDuty := F.startDuty } := by
  simp only [Fan.serve, h, run, if_true]

theorem serve_running_goesOn (h : F.state = .running d) (run : F.wants d = true) :
    F.serve now = { F with pendingDuty := F.startDuty }.stallTest now := by
  simp only [Fan.serve, h, run, if_true]

end

/-! ### A hold timer's expiry (R82, R87) -/

theorem kindHoldExpired_running {s : State} {k : Kind} (h : (s.kind k).holdTimer.isSome = true) :
    s.kindHoldExpired k =
      (s.setKind k { s.kind k with status := .failed, holdTimer := none }).failedChange k (s.kind k).status .failed :=
  if_neg (Option.isSome_iff_ne_none.mp h)

theorem failedChange_counted (s : State) (k : Kind) {was : KindStatus} (h : was ≠ .failed) :
    LatchEntry.CountedOnce (srcKindFailed k) s.stamp s.posA s.latch[srcKindFailed k]
      (s.failedChange k was .failed).latch[srcKindFailed k] := by
  unfold State.failedChange
  rw [if_pos ⟨rfl, h⟩]
  exact occurFrom_counted s _ _ (by cases k <;> decide)

theorem not_settleSide_srcKindFailed (k : Kind) : ¬ settleSide (srcKindFailed k) := by
  cases k <;> simp only [settleSide] <;> decide

theorem kindHoldExpiry_fails {s : State} {k : Kind} (running : (s.kind k).holdTimer.isSome = true) :
    ∃ t, exec (.kindHoldExpiry k) s = .next t ∧
      t.still = (s.setKind k { s.kind k with status := .failed, holdTimer := none }).still ∧
      ((s.kind k).status ≠ .failed →
        LatchEntry.CountedOnce (srcKindFailed k) s.stamp s.posA s.latch[srcKindFailed k] t.latch[srcKindFailed k]) := by
  let v := s.setKind k { s.kind k with status := .failed, holdTimer := none }
  let t := v.failedChange k (s.kind k).status .failed
  have expiry : exec (.kindHoldExpiry k) s = .next t.settle := 
    congrArg (fun x : State => Host.Outcome.next x.settle) (kindHoldExpired_running running)
  refine ⟨t.settle, expiry, (settle_consequence t).still.trans (failedChange_consequence v k _ _).still,
    fun status => ?_⟩
  have counted := (failedChange_counted v k status).trans_same
    ((settle_consequence t).latch _ (not_settleSide_srcKindFailed k))
  cases k <;> exact counted

/-! ### The parts of O37 -/

theorem Consequence.demand {E : EntryId → Prop} {s t : State} (h : Consequence E s t) : t.demand = s.demand :=
  (congrArg State.demand h.still : t.still.demand = s.still.demand)

theorem Consequence.dLim {E : EntryId → Prop} {s t : State} (h : Consequence E s t) : t.dLim = s.dLim :=
  (congrArg State.dLim h.still : t.still.dLim = s.still.dLim)

theorem evaluate_still (s : State) :
    s.retimed.evaluate.still =
      { s.still with
        controlTimer := s.retimed.evaluate.controlTimer, kinds := s.retimed.evaluate.kinds
        demand := s.retimed.evaluate.demand, dLim := s.retimed.evaluate.dLim } := rfl

theorem evaluate_demand (s : State) : s.evaluate.demand = s.evaluate.kinds.zoneDemand := rfl

theorem evaluate_dLim (s : State) : s.evaluate.dLim = s.dLimAfter s.evaluate.demand := rfl

/-- The kinds, D and D_lim of an evaluation, and what comes after stage 5 in its order (R75, R88). -/
theorem controlTimerExpiry_demand (s : State) :
    ∃ t, exec .controlTimerExpiry s = .next t ∧
      t.still =
        { s.still with controlTimer := t.controlTimer, kinds := t.kinds, demand := t.demand, dLim := t.dLim } ∧
      t.demand = max (max t.kinds.co.d t.kinds.no2.d) t.kinds.opac.d ∧
      (s.jetDirective ≠ .auto → t.dLim = s.dLim) ∧
      (s.jetDirective = .auto →
        (s.dLim < t.demand → t.dLim = min t.demand (s.dLim + max s.node.rUp 1)) ∧
        (t.demand < s.dLim → t.dLim = max t.demand (s.dLim - max s.node.rDn 1)) ∧
        (t.demand = s.dLim → t.dLim = s.dLim)) ∧
      t = (State.kindSources s.kinds
        (State.evaluate { s with controlTimer := some (s.now + s.node.controlPeriod * 1000000) })).handOff.settle := by
  have after := controlTimerExpiry_consequence s
  refine ⟨_, exec_controlTimerExpiry s, ?_, ?_, fun other => ?_, fun auto => ?_, rfl⟩
  · rw [after.still, after.controlTimer, after.kinds, after.demand, after.dLim]
    exact evaluate_still s
  · rw [after.demand, after.kinds, evaluate_demand]
    rfl
  · rw [after.dLim, evaluate_dLim]
    exact dLimAfter_other (s := s.retimed) other _
  · rw [after.dLim, after.demand, evaluate_dLim, dLimAfter_auto (s := s.retimed) auto]
    exact ⟨limit_rise s.node, limit_fall s.node, limit_rest s.node⟩

theorem evaluate_u (s : State) : s.evaluate.u = State.uAfter { s.evaluate with u := s.u } := rfl

/-- u at an evaluation and at a renewal (R90, R91). -/
theorem velocity_command (s : State) :
    ((∀ vt, s.jetDirective ≠ .velocity vt) → s.evaluate.u = s.u ∧ s.renew = s.handOff) ∧
    ∀ vt : Int, s.jetDirective = .velocity vt →
      (∀ l r : Int, s.evaluate.kinds.vel.status = .ok ∨ s.evaluate.kinds.vel.status = .degraded →
        s.evaluate.kinds.vel.level = some l → r = max (s.node.rUp : Int) 1 →
        s.evaluate.u =
          max (-1000) (min 1000 (s.u + max (-r) (min r (((s.node.kp : Int) * (vt - l)).tdiv 256))))) ∧
      (s.evaluate.kinds.vel.status = .failed ∨ s.evaluate.kinds.vel.status = .unused → s.evaluate.u = s.u) ∧
      s.renew = State.handOff
        { s with
          u := if s.fans[jet1].available = true then s.fans[jet1].handed.signed
            else if s.fans[jet2].available = true then s.fans[jet2].handed.signed else 0 } := by
  refine ⟨fun other => ⟨?_, ?_⟩, fun vt directive => ⟨fun l r status level hr => ?_, fun status => ?_, ?_⟩⟩
  · rw [evaluate_u]
    exact uAfter_other (s := { s.evaluate with u := s.u }) other
  · rw [State.renew, seeded_other other]
  · rw [evaluate_u, hr, ← velocityStep_eq]
    exact uAfter_steps (s := { s.evaluate with u := s.u }) directive ⟨status, level⟩
  · rw [evaluate_u]
    exact uAfter_without_level status
  · rw [State.renew, seeded_velocity directive]
    rfl

/-- A jet's command, its hand-off and its re-formation (R92 to R96, R105). -/
theorem jet_handed (s : State) (f : FanId) (jet : f ≠ passage) :
    (s.fans[f].available = false → s.jetCommand f = {}) ∧
    (s.fans[f].available = true → ∃ c : Cmd,
      s.jetDirective.Asks s f (if f = jet1 ∨ s.fans[jet1].available = false then 0 else s.fans[f].cfg.stageOffset) c ∧
      s.jetCommand f = if c.mag = 0 ∨ c.mag < s.fans[f].leastRun c.dir then {} else c) ∧
    s.handOff.fans[f] =
      Fan.takeRequest s.now (if s.jetsHeld then {} else s.jetCommand f)
        (s.fans[f].cfg.dutyOf (s.jetCommand f).mag)
        { s.fans[f] with handed := s.jetCommand f, handedDuty := s.fans[f].cfg.dutyOf (s.jetCommand f).mag } ∧
    (s.reformJet f).fans[f] =
      s.fans[f].takeRequest s.now
        (if s.jetsHeld ∨ s.fans[f].available = false ∨ s.fans[f].handed.mag < s.fans[f].leastRun s.fans[f].handed.dir
          then {} else s.fans[f].handed) s.fans[f].handedDuty := by
  refine ⟨jetCommand_unavailable, fun available => ⟨s.formed f, ?_, jetCommand_available available⟩, ?_, ?_⟩
  · rw [← offsetOf_eq]
    exact formed_asks available
  · rw [handOff_fans, if_neg jet]
    rfl
  · exact (fans_setFan_self s f _).trans (takeRequest_minRun _ _ _)

/-- The passage channel's hand-off (R96, R114). -/
theorem passage_handed (s : State) :
    s.handOff.fans[passage] =
      Fan.takeRequest s.now (if s.passageRuns then ⟨s.fans[passage].cfg.passageSpeed, some .forward⟩ else {})
        (s.fans[passage].cfg.dutyOf s.fans[passage].cfg.passageSpeed)
        { s.fans[passage] with
          handed := ⟨s.fans[passage].cfg.passageSpeed, some .forward⟩
          handedDuty := s.fans[passage].cfg.dutyOf s.fans[passage].cfg.passageSpeed } :=
  (handOff_fans s passage).trans (if_pos rfl)

/-- A request by the state that the channel is in (R105, R107 to R111). -/
theorem takeRequest_by_state (now duty : Nat) (c : Cmd) (F G : Fan)
    (hG : G = { F with request := if c.mag = 0 then {} else c, heldDuty := if c.mag = 0 then 0 else duty }) :
    (F.state = .stopped →
      (∀ d, G.wants d = true → F.takeRequest now c duty = G.started now d) ∧
      ((∀ d, G.wants d = false) → F.takeRequest now c duty = G)) ∧
    (∀ d, F.state = .stopping (some d) →
      (G.wants d = true → F.takeRequest now c duty = G.started now d) ∧
      (G.wants d = false → F.takeRequest now c duty = G)) ∧
    (F.state = .stopping none ∨ F.state = .fault ∨ F.state = .disabled → F.takeRequest now c duty = G) ∧
    (∀ d, F.runDir = some d →
      (G.wants d = false → F.takeRequest now c duty =
        { G with
          state := .stopping (some d), duty := 0, pendingDuty := 0, startTimer := none, stallTimer := none
          dwellTimer := some (now + F.cfg.coastDwell * 1000000) }) ∧
      (G.wants d = true → F.takeRequest now c duty =
        { G with
          pendingDuty := F.cfg.bounded duty
          stallTimer :=
            if F.state = .starting d then F.stallTimer
            else if F.speed * 100 < c.mag * F.cfg.stallRatio then
              some (F.stallTimer.getD (now + F.cfg.stallTime * 1000000))
            else none })) := by
  have taken : F.takeRequest now c duty = G.serve now := by rw [hG]; rfl
  have state : G.state = F.state := by rw [hG]
  have runDir : G.runDir = F.runDir := by rw [hG]; rfl
  rw [taken, ← state, ← runDir]
  refine ⟨fun stopped => ⟨fun d => serve_stopped_run now stopped, serve_stopped_rest now stopped⟩,
    fun d coasting => ?_, serve_holds now, fun d driven => ⟨fun other => ?_, fun run => ?_⟩⟩
  · rw [serve_coasting now coasting]
    exact ⟨fun run => if_pos run, fun other => if_neg (ne_true_of_eq_false other)⟩
  · rw [serve_running_stops now driven other, hG]
    rfl
  · have magnitude : c.mag ≠ 0 := fun zero => (wants_iff.mp run).1 (by rw [hG]; simp [zero])
    have pending : G.startDuty = F.cfg.bounded duty := by rw [startDuty_eq, hG]; simp [magnitude]
    rcases runDir_eq_some.mp driven with starting | running
    · rw [serve_starting_goesOn now starting run, pending, if_pos starting, hG]
    · have other : G.state ≠ .starting d := by rw [running]; exact FanState.noConfusion
      rw [serve_running_goesOn now running run, stallTest_eq, pending, if_neg other, hG]
      simp only [magnitude, if_false]

/-- Settles O37: the evaluation's demands, the velocity command, the hand-off and the request are a lemma each. -/
theorem demandFollowsTheKindsAndHoldTimersFailThem : Obligations.DemandFollowsTheKindsAndHoldTimersFailThem := by
  refine ⟨controlTimerExpiry_demand, fun k s running => kindHoldExpiry_fails running, velocity_command, signed_eq,
    fun s => ⟨jet_handed s, passage_handed s, handOff_eq s, fun m hm => reformPassage_eq s hm⟩, ?_, takeRequest_by_state⟩
  rintro c m lo hi rfl rfl
  exact ⟨dutyOf_zero c, dutyOf_share c⟩

end Sys2Proof.Machine
end

