-- ==== Sys2Proof/Proofs/Decisions.lean ====
section
/-! PROOFS. Proofs/Decisions.lean: acceptance decisions (R153, R154): the winner among the eligible entries, the decisions that an
event makes, and why they come to an end: each launch raises CL, which no entry's level exceeds 7. -/

namespace Sys2Proof.Machine

/-! ### The winner (R153) -/

/-- An entry is of a higher level than another, or of the same and not after it. -/
def State.Beats (s : State) (n m : EntryId) : Prop :=
  s.effLevel m < s.effLevel n ∨ (s.effLevel m = s.effLevel n ∧ n ≤ m)

theorem State.Beats.refl (s : State) (n : EntryId) : s.Beats n n := .inr ⟨rfl, le_refl n⟩

theorem State.Beats.trans {s : State} {n m r : EntryId} (h : s.Beats n m) (g : s.Beats m r) : s.Beats n r := by
  rcases h with h | ⟨h, le⟩ <;> rcases g with g | ⟨g, le'⟩
  · exact .inl (g.trans h)
  · exact .inl (g ▸ h)
  · exact .inl (h ▸ g)
  · exact .inr ⟨g.trans h, le.trans le'⟩

/-- Of entries in order, the fold keeps the one that beats all. -/
theorem foldl_better (s : State) :
    ∀ (l : List EntryId) (b : EntryId), (b :: l).Pairwise (· < ·) →
      ∃ n ∈ b :: l, l.foldl s.better (some b) = some n ∧ ∀ m ∈ b :: l, s.Beats n m
  | [], b, _ => ⟨b, List.mem_cons_self, rfl, fun m hm => List.mem_singleton.mp hm ▸ State.Beats.refl s b⟩
  | x :: l, b, ordered => by
    have first : ∀ m ∈ x :: l, b < m := (List.pairwise_cons.mp ordered).1
    have later : (x :: l).Pairwise (· < ·) := (List.pairwise_cons.mp ordered).2
    rw [List.foldl_cons]
    by_cases higher : s.effLevel b < s.effLevel x
    · obtain ⟨n, mem, fold, beats⟩ := foldl_better s l x later
      refine ⟨n, List.mem_cons_of_mem _ mem, by rw [State.better, if_pos higher, fold], fun m hm => ?_⟩
      rcases List.mem_cons.mp hm with rfl | hm
      · exact State.Beats.trans (beats x List.mem_cons_self) (.inl higher)
      · exact beats m hm
    · obtain ⟨n, mem, fold, beats⟩ := foldl_better s l b
        (List.pairwise_cons.mpr ⟨fun m hm => first m (List.mem_cons_of_mem _ hm), (List.pairwise_cons.mp later).2⟩)
      refine ⟨n, ?_, by rw [State.better, if_neg higher, fold], fun m hm => ?_⟩
      · rcases List.mem_cons.mp mem with rfl | mem
        · exact List.mem_cons_self
        · exact List.mem_cons_of_mem _ (List.mem_cons_of_mem _ mem)
      · rcases List.mem_cons.mp hm with rfl | hm
        · exact beats m List.mem_cons_self
        · rcases List.mem_cons.mp hm with rfl | hm
          · have kept : s.Beats b m := by
              rcases Nat.lt_or_eq_of_le (Nat.not_lt.mp higher) with less | same
              · exact .inl less
              · exact .inr ⟨same, (first m List.mem_cons_self).le⟩
            exact State.Beats.trans (beats b List.mem_cons_self) kept
          · exact beats m (List.mem_cons_of_mem _ hm)

theorem eligible_iff {s : State} {n : EntryId} :
    s.eligible n = true ↔
      s.latch[n].serve = .pending ∧ s.currentLevel < s.effLevel n ∧
        (s.effClass n = .life ∨ (s.mask < s.effLevel n ∧ s.launchHold = none ∧ s.nodeState = .operating)) := by
  simp [State.eligible, and_assoc]

/-- The eligible entries in order have a winner exactly when there is one of them; it beats them all. -/
theorem winner_cases (s : State) :
    (s.winner = none ∧ ∀ m, s.eligible m = false) ∨
      ∃ n, s.winner = some n ∧ s.eligible n = true ∧ ∀ m, s.eligible m = true → s.Beats n m := by
  have listed : ∀ m, m ∈ (List.finRange 51).filter s.eligible ↔ s.eligible m = true := by simp
  have ordered : ((List.finRange 51).filter s.eligible).Pairwise (· < ·) := (List.pairwise_lt_finRange 51).filter _
  unfold State.winner
  cases entries : (List.finRange 51).filter s.eligible with
  | nil =>
    refine .inl ⟨rfl, fun m => Bool.eq_false_of_not_eq_true fun h => ?_⟩
    exact List.not_mem_nil (entries ▸ (listed m).mpr h)
  | cons b l =>
    rw [entries] at listed ordered
    obtain ⟨n, mem, fold, beats⟩ := foldl_better s l b ordered
    exact .inr ⟨n, fold, (listed n).mp mem, fun m h => beats m ((listed m).mpr h)⟩

theorem accepted_eq_some {s : State} {n : EntryId} {i : Fin 64} :
    s.accepted = some (n, i) ↔ s.winner = some n ∧ (s.sourceCfg n).step = some i := by
  unfold State.accepted
  constructor
  · intro h
    obtain ⟨m, won, step⟩ := Option.bind_eq_some_iff.mp h
    obtain ⟨j, at_j, same⟩ := Option.map_eq_some_iff.mp step
    cases same
    exact ⟨won, at_j⟩
  · rintro ⟨won, step⟩
    rw [won, Option.bind_some, step]
    rfl

theorem accepted_wins {s : State} {n : EntryId} {i : Fin 64} (h : s.accepted = some (n, i)) :
    (s.sourceCfg n).step = some i ∧ s.eligible n = true ∧ ∀ m, s.eligible m = true → s.Beats n m := by
  obtain ⟨won, step⟩ := accepted_eq_some.mp h
  rcases winner_cases s with ⟨none, -⟩ | ⟨m, won', eligible, beats⟩
  · rw [none] at won
    cases won
  · cases won.symm.trans won'
    exact ⟨step, eligible, beats⟩

theorem accepted_none {s : State} (h : ∀ n, s.eligible n = false) : s.accepted = none := by
  rcases winner_cases s with ⟨none, -⟩ | ⟨n, -, eligible, -⟩
  · rw [State.accepted, none]
    rfl
  · rw [h n] at eligible
    cases eligible

/-- An eligible entry has a plan step (R145), so a decision launches. -/
theorem accepted_exists {s : State} (law : s.LoadLaw) {m : EntryId} (h : s.eligible m = true) :
    ∃ n i, s.accepted = some (n, i) := by
  rcases winner_cases s with ⟨-, none⟩ | ⟨n, won, eligible, -⟩
  · rw [none m] at h
    cases h
  · have valid := law.pending n (eligible_iff.mp eligible).1
    unfold State.planValid at valid
    cases step : (s.sourceCfg n).step with
    | none =>
      rw [step] at valid
      cases valid
    | some i => exact ⟨n, i, accepted_eq_some.mpr ⟨won, step⟩⟩

/-! ### Decisions until none launches (R154) -/

theorem decideN_none {s : State} (h : s.accepted = none) : ∀ k, State.decideN k s = s
  | 0 => rfl
  | k + 1 => by rw [State.decideN, h]

theorem decideN_some {s : State} {n : EntryId} {i : Fin 64} (h : s.accepted = some (n, i)) (k : Nat) :
    State.decideN (k + 1) s = State.decideN k (s.launch n i).afterStackChange := by
  rw [State.decideN, h]

/-- A decision owed, and no step end: the event makes its decisions. -/
theorem settle_of_due {s : State} (due : s.decisionDue = true) (calm : s.Calm) :
    s.settle = { State.decideN 8 s with decisionDue := false } := by
  have step : s.settleStep = s := by
    unfold State.settleStep
    split
    · rfl
    · rename_i c rest stack
      rw [if_neg (by rw [calm c (by rw [State.active, stack]; rfl)]; exact Bool.false_ne_true)]
  show s.settleStep.settleDecisions = _
  rw [step, State.settleDecisions, if_pos due]
  rfl

theorem Consequence.sourceCfg {E : EntryId → Prop} {s t : State} (h : Consequence E s t) (n : EntryId) :
    t.sourceCfg n = s.sourceCfg n := by
  unfold State.sourceCfg
  simp only [h.sources, h.lines]

theorem Consequence.effLevel {E : EntryId → Prop} {s t : State} (h : Consequence E s t) (n : EntryId) :
    t.effLevel n = s.effLevel n := congrArg SourceCfg.effLevel (h.sourceCfg n)

/-- The state in which a launch builds its context: the ACTIVE one saved, the oldest dropped where room is wanted (R157). -/
abbrev State.roomMade (s : State) : State := s.saveActive.makeRoom

/-- That state with the new context on the stack and its LAUNCHED frame sent. -/
abbrev State.announced (s : State) (n : EntryId) (i : Fin 64) : State :=
  (s.roomMade.pushContext n i).report n .launched (some i)

theorem announced_stack (s : State) (n : EntryId) (i : Fin 64) :
    (s.announced n i).stack = s.roomMade.newContext n i :: s.roomMade.stack :=
  (report_reported (E := fun _ => True) trivial _ _ _ _).stack

theorem launch_eq (s : State) (n : EntryId) (i : Fin 64) :
    s.launch n i = ((s.announced n i).enterStep i).startHold := by
  unfold State.launch
  rfl

theorem startHold_stack (s : State) : s.startHold.stack = s.stack := rfl

theorem launch_stack (s : State) (n : EntryId) (i : Fin 64) :
    (s.launch n i).stack = (s.announced n i).entered i (s.roomMade.newContext n i) :: s.roomMade.stack := by
  rw [launch_eq, startHold_stack, enterStep_stack _ i _ _ (announced_stack s n i)]

theorem roomMade_consequence (s : State) : Consequence settleSide s s.roomMade :=
  (saveActive_consequence _ s).trans (makeRoom_consequence (fun _ h => h) _)

/-- A launch takes CL to the level of the entry launched (R152, R157). -/
theorem launch_currentLevel (s : State) (n : EntryId) (i : Fin 64) :
    (s.launch n i).afterStackChange.currentLevel = s.effLevel n := by
  unfold State.currentLevel
  rw [afterStackChange_stack, launch_stack]
  exact (roomMade_consequence s).effLevel n

theorem effLevel_le {c : SourceCfg} (h : c.InRange) : c.effLevel ≤ 7 := by
  have level : c.level ≤ 7 := h
  unfold SourceCfg.effLevel
  cases c.cls <;> dsimp only <;> (try split) <;> (try split) <;> omega

theorem State.ConfigLaw.effLevel_le {s : State} (law : s.ConfigLaw) (n : EntryId) : s.effLevel n ≤ 7 := by
  unfold State.effLevel State.sourceCfg
  split
  · rename_i device
    exact Machine.effLevel_le (law.sources ⟨n.val, device⟩)
  · exact Machine.effLevel_le (law.lines ⟨n.val - 35, by omega⟩).2

theorem launched_consequence (s : State) (n : EntryId) (i : Fin 64) :
    Consequence settleSide s (s.launch n i).afterStackChange :=
  (launch_consequence (fun _ h => h) s n i).trans (afterStackChange_consequence (fun _ h => h) _)

/-- Each launch raises CL, so the decisions end where no entry is accepted. -/
theorem decideN_exhausts :
    ∀ (k : Nat) (s : State), (∀ n, s.effLevel n ≤ 7) → 7 < k + s.currentLevel → (State.decideN k s).accepted = none
  | 0, s, bound, high => by
    show s.accepted = none
    refine accepted_none fun n => Bool.eq_false_of_not_eq_true fun h => ?_
    obtain ⟨-, above, -⟩ := eligible_iff.mp h
    have := bound n
    omega
  | k + 1, s, bound, high => by
    cases accepted : s.accepted with
    | none => rw [decideN_none accepted, accepted]
    | some launched =>
      obtain ⟨n, i⟩ := launched
      obtain ⟨-, above, -⟩ := eligible_iff.mp (accepted_wins accepted).2.1
      rw [decideN_some accepted]
      refine decideN_exhausts k _ (fun m => ((launched_consequence s n i).effLevel m).trans_le (bound m)) ?_
      rw [launch_currentLevel]
      omega

end Sys2Proof.Machine
end

