-- ==== Sys2Proof/Proofs/StepEnds.lean ====
section
/-! PROOFS. Proofs/StepEnds.lean: frames sent while the ports have room for several, a context's entry to a step (R159 to R161),
its step's end and its own, the resumption that follows (R160 to R163), and the expiries of the launch hold and of the step
timer. -/

namespace Sys2Proof.Machine

/-! ### Frames sent at ports with room -/

/-- Both transmitters are busy and each local queue has room for `k` frames more. -/
def State.RoomFor (k : Nat) (s : State) : Prop :=
  ∀ p, (s.port p).tx ≠ none ∧ (s.port p).lh.length + k ≤ 8 ∧ (s.port p).ll.length + k ≤ 16

theorem State.Roomy.roomFor {s : State} (h : s.Roomy) : s.RoomFor 4 := fun p => by
  obtain ⟨busy, high, low⟩ := h p
  exact ⟨busy, by omega, by omega⟩

theorem State.RoomFor.of_ports {k : Nat} {s t : State} (h : s.RoomFor k) (same : t.ports = s.ports) : t.RoomFor k :=
  fun p => by rw [State.port_congr same p]; exact h p

/-- The state with a frame waiting at each port. -/
def State.awaiting (s : State) (f : Frame) : State :=
  { s with ports := { a := s.ports.a.waits s.now f, b := s.ports.b.waits s.now f } }

theorem port_awaiting (s : State) (f : Frame) (p : Port) : (s.awaiting f).port p = (s.port p).waits s.now f := by
  cases p <;> rfl

section
variable {k : Nat} {s : State}

/-- With room for it a local frame waits at each port, and nothing else happens (R41, R42). -/
theorem State.RoomFor.sendLocal (h : s.RoomFor (k + 1)) (f : Frame) : s.sendLocal f = s.awaiting f :=
  s.sendLocal_waits f fun p => by
    obtain ⟨busy, high, low⟩ := h p
    refine ⟨busy, ?_⟩
    rcases localQueue_local f with e | e <;> rw [e]
    · exact Nat.lt_of_lt_of_le (Nat.lt_add_of_pos_right (Nat.succ_pos k)) high
    · exact Nat.lt_of_lt_of_le (Nat.lt_add_of_pos_right (Nat.succ_pos k)) low

/-- It takes one place. -/
theorem State.RoomFor.awaiting (h : s.RoomFor (k + 1)) (f : Frame) : (s.awaiting f).RoomFor k := fun p => by
  obtain ⟨busy, high, low⟩ := h p
  rw [port_awaiting]
  refine ⟨by rw [LinePort.waits_tx]; exact busy, ?_, ?_⟩
  · have longer : ((s.port p).waits s.now f).lh.length ≤ (s.port p).lh.length + if QueueId.lh = localQueue f then 1 else 0 :=
      LinePort.waits_length s.now f (s.port p) .lh
    split at longer <;> omega
  · have longer : ((s.port p).waits s.now f).ll.length ≤ (s.port p).ll.length + if QueueId.ll = localQueue f then 1 else 0 :=
      LinePort.waits_length s.now f (s.port p) .ll
    split at longer <;> omega

theorem State.RoomFor.report (h : s.RoomFor (k + 1)) (n : EntryId) (t : Transition) (i : Option (Fin 64)) :
    s.report n t i = s.awaiting (s.eventFrame n t (s.sourceCode n) i) := h.sendLocal _

/-- The spread of a step waits unless its code or posA is 0 (R159). -/
theorem State.RoomFor.spread (h : s.RoomFor (k + 1)) (i : Fin 64) :
    s.spread s.plan[i] =
      if s.plan[i].spreadCode = 0 ∨ s.posA = 0 then s else s.awaiting (s.spreadFrame s.plan[i]) := by
  rw [State.spread, h.sendLocal]

theorem State.RoomFor.spread_port (h : s.RoomFor (k + 1)) (i : Fin 64) (p : Port) :
    (s.spread s.plan[i]).port p = (s.port p).waitsSpread s i := by
  rw [h.spread, LinePort.waitsSpread]
  split
  · rfl
  · rw [port_awaiting]
    rfl

theorem State.RoomFor.spread_latch (h : s.RoomFor (k + 1)) (i : Fin 64) : (s.spread s.plan[i]).latch = s.latch := by
  rw [h.spread]
  split <;> rfl

end

/-! ### Entry to a step (R159 to R161) -/

theorem stepEntered_entered (s : State) (i : Fin 64) (c : Context) : StepEntered s i (s.entered i c) where
  step := rfl
  unseen := rfl
  timed timer := by
    simp only [State.entered, State.entryTimer, timer]
    exact ⟨trivial, rfl⟩
  awaits clear level asserted := by
    have held : (isLevel c.source && s.latch[c.source].asserted) = true := Bool.and_eq_true_iff.mpr ⟨level, asserted⟩
    simp only [State.entered, State.entryTimer, clear, held, if_true]
    exact ⟨trivial, rfl⟩
  cleared clear free := by
    have held : (isLevel c.source && s.latch[c.source].asserted) = false := Bool.and_eq_false_iff.mpr free
    simp only [State.entered, State.entryTimer, clear, held]
    exact ⟨rfl, rfl⟩
  untimed hold := by
    simp only [State.entered, State.entryTimer, hold]
    exact ⟨trivial, trivial⟩
  captured := rfl

theorem enterStep_eq {s : State} (i : Fin 64) {c : Context} {rest : List Context} (h : s.stack = c :: rest) :
    s.enterStep i = (s.setStack (s.entered i c :: rest)).spread s.plan[i] := by
  rw [State.enterStep, h]

theorem enterStep_port {k : Nat} {s : State} (room : s.RoomFor (k + 1)) (i : Fin 64) {c : Context} {rest : List Context}
    (h : s.stack = c :: rest) (p : Port) : (s.enterStep i).port p = (s.port p).waitsSpread s i := by
  have entered : (s.setStack (s.entered i c :: rest)).RoomFor (k + 1) := room.of_ports rfl
  rw [enterStep_eq i h]
  exact entered.spread_port i p

theorem enterStep_latch {k : Nat} {s : State} (room : s.RoomFor (k + 1)) (i : Fin 64) {c : Context} {rest : List Context}
    (h : s.stack = c :: rest) : (s.enterStep i).latch = s.latch := by
  have entered : (s.setStack (s.entered i c :: rest)).RoomFor (k + 1) := room.of_ports rfl
  rw [enterStep_eq i h]
  exact entered.spread_latch i

/-! ### The end of a step and of a context (R160 to R163) -/

section
variable {s : State} {c : Context} {rest : List Context}

theorem nextStep_valid {j : Fin 64} (h : s.plan[c.step].next = some j) (valid : s.plan[j].valid = true) :
    s.nextStep c = some j := by
  rw [State.nextStep, State.stepOf, h]
  exact Option.filter_some_pos valid

theorem nextStep_none (h : ∀ j : Fin 64, s.plan[c.step].next = some j → s.plan[j].valid = false) : s.nextStep c = none := by
  unfold State.nextStep State.stepOf
  rw [Option.filter_eq_none_iff]
  intro j next
  rw [h j next]
  exact Bool.false_ne_true

theorem endStep_next (h : s.stack = c :: rest) {j : Fin 64} (next : s.nextStep c = some j) : s.endStep = s.enterStep j := by
  unfold State.endStep
  rw [h]
  dsimp only
  rw [next]

theorem endStep_end (h : s.stack = c :: rest) (next : s.nextStep c = none) : s.endStep = s.endActive := by
  unfold State.endStep
  rw [h]
  dsimp only
  rw [next]

theorem endContext_eq (h : s.stack = c :: rest) :
    s.endContext = (((s.report c.source .ended (some c.step)).serveEnded c.source).setStack rest).oweDecision := by
  rw [State.endContext, h]

theorem endContext_port {k : Nat} (room : s.RoomFor (k + 1)) (h : s.stack = c :: rest) (p : Port) :
    s.endContext.port p =
      (s.port p).waits s.now (s.eventFrame c.source .ended (s.sourceCode c.source) (some c.step)) := by
  rw [endContext_eq h, room.report, ← port_awaiting]
  rfl

theorem endPending_eq_false (h : c.timer ≠ .frozen 0) (unseen : c.clearSeen = false) : c.endPending = false := by
  simp [Context.endPending, h, unseen]

theorem endPending_eq_true (h : c.timer = .frozen 0 ∨ c.clearSeen = true) : c.endPending = true := by
  simpa [Context.endPending] using h

theorem resume_empty (h : s.stack = []) : ∀ k, State.resume k s = s
  | 0 => rfl
  | k + 1 => by rw [State.resume, h]

/-- The newest saved context counts down again from what remained. -/
theorem resume_thaws (h : s.stack = c :: rest) (goesOn : c.endPending = false) (k : Nat) :
    State.resume (k + 1) s = s.setStack ({ c with timer := c.timer.thaw s.now } :: rest) := by
  rw [State.resume, h]
  dsimp only
  rw [if_neg (ne_true_of_eq_false goesOn)]

/-- A kept end moves the resumed context on as its step's end does. -/
theorem resume_moves_on (h : s.stack = c :: rest) (kept : c.endPending = true) :
    State.resume (s.stack.length + 1) s = s.endStep := by
  unfold State.resume State.endStep
  rw [h]
  dsimp only
  rw [if_pos kept]
  cases s.nextStep c with
  | some j => rfl
  | none =>
    show State.resume (rest.length + 1) s.endContext = State.resume s.stack.length s.endContext
    rw [h, List.length_cons]

/-- A context's end: what stays of the stack resumes. -/
theorem endActive_eq (h : s.stack = c :: rest) : s.endActive = State.resume (rest.length + 1) s.endContext := by
  rw [State.endActive, h, List.length_cons]

theorem endContext_rest (h : s.stack = c :: rest) : s.endContext.stack = rest := by
  rw [endContext_stack, h, List.tail_cons]

theorem endActive_empty (h : s.stack = [c]) : s.endActive = s.endContext := by
  rw [endActive_eq h, resume_empty (endContext_rest h)]

theorem endActive_thaws {d : Context} {more : List Context} (h : s.stack = c :: d :: more) (goesOn : d.endPending = false) :
    s.endActive = s.endContext.setStack ({ d with timer := d.timer.thaw s.now } :: more) := by
  rw [endActive_eq h, resume_thaws (endContext_rest h) goesOn, (endContext_consequence (E := settleSide) (.inl rfl) s).now]

theorem endActive_moves_on {d : Context} {more : List Context} (h : s.stack = c :: d :: more) (kept : d.endPending = true) :
    s.endActive = s.endContext.endStep := by
  rw [endActive_eq h, ← resume_moves_on (endContext_rest h) kept, endContext_rest h]

/-- With no kept end to take, the context's ENDED frame is all that its end sends. -/
theorem endActive_port {k : Nat} (room : s.RoomFor (k + 1)) (h : s.stack = c :: rest)
    (goesOn : ∀ d, rest.head? = some d → d.endPending = false) (p : Port) :
    s.endActive.port p =
      (s.port p).waits s.now (s.eventFrame c.source .ended (s.sourceCode c.source) (some c.step)) := by
  rw [← endContext_port room h]
  cases rest with
  | nil => rw [endActive_empty h]
  | cons d more =>
    rw [endActive_thaws h (goesOn d rfl)]
    cases p <;> rfl

end

/-! ### The expiries -/

theorem exec_launchHoldExpiry {s : State} (h : s.launchHold.isSome = true) :
    exec .launchHoldExpiry s = .next (State.settle { s with launchHold := none, decisionDue := true }) := by
  have expired : s.launchHoldExpired = { s with launchHold := none, decisionDue := true } :=
    if_neg (Option.isSome_iff_ne_none.mp h)
  rw [← expired]
  rfl

/-- With no entry waiting the decision launches nothing. -/
theorem launchHoldExpiry_idle {s : State} (settled : s.Settled) (h : s.launchHold.isSome = true)
    (idle : ∀ n : EntryId, s.latch[n].serve ≠ .pending) :
    exec .launchHoldExpiry s = .next { s with launchHold := none } := by
  let v : State := { s with launchHold := none, decisionDue := true }
  have unaccepted : v.accepted = none :=
    accepted_none fun n => Bool.eq_false_of_not_eq_true fun eligible => idle n (eligible_iff.mp eligible).1
  have owed : v.settle = { v with decisionDue := false } := by
    rw [settle_of_due (s := v) rfl settled.2, decideN_none unaccepted]
  rw [exec_launchHoldExpiry h, owed, ← settled.1]

theorem exec_stepTimerExpiry {s : State} {c : Context} {rest : List Context} {deadline : Nat} (h : s.stack = c :: rest)
    (running : c.timer = .running deadline) :
    exec .stepTimerExpiry s = .next s.endStep.afterStackChange.settle := by
  have expired : s.stepExpired = s.endStep.afterStackChange := by
    unfold State.stepExpired
    rw [h]
    dsimp only
    rw [running]
  rw [← expired]
  rfl

/-- Settles O45: the step's end by whether it has a valid next step, the context's by what is saved below it. -/
theorem holdAndStepTimersExpire : Obligations.HoldAndStepTimersExpire := by
  refine ⟨fun s settled => launchHoldExpiry_idle settled, fun s => exec_launchHoldExpiry, fun now ms => rfl,
    fun s c rest deadline stack running => ⟨exec_stepTimerExpiry stack running, fun j next valid => ?_, fun ends => ?_,
      fun room p => ⟨fun j next valid => ?_, fun ends goesOn => ?_⟩⟩⟩
  · rw [endStep_next stack (nextStep_valid next valid), enterStep_stack s j c rest stack]
    exact ⟨_, rfl, rfl, rfl, rfl, rfl, rfl, stepEntered_entered s j c⟩
  · have ended := endStep_end stack (nextStep_none ends)
    rw [ended]
    refine ⟨afterStackChange_due _ (endActive_due s (by rw [stack]; exact List.cons_ne_nil _ _)), ?_, ?_⟩
    · rintro rfl
      rw [endActive_empty stack, endContext_rest stack]
    · rintro d more rfl
      refine ⟨fun timer unseen => ?_,
        fun kept => ⟨endContext_rest stack, endActive_moves_on stack (endPending_eq_true kept)⟩⟩
      rw [endActive_thaws stack (endPending_eq_false timer unseen)]
      rfl
  · rw [endStep_next stack (nextStep_valid next valid), enterStep_port room.roomFor j stack]
  · rw [endStep_end stack (nextStep_none ends), endActive_port room.roomFor stack goesOn]

end Sys2Proof.Machine
end

