-- ==== Sys2Proof/Proofs/Launch.lean ====
section
/-! PROOFS. Proofs/Launch.lean: the launch of a winning entry (R157 to R159): the room made on the stack, with the drop of the
oldest context where three stand, the new context, and the frames sent, in their order. -/

namespace Sys2Proof.Machine

/-! ### Entries that sending leaves as they stand -/

/-- Sending `k` frames leaves the entry as it stands: it is not QUEUE_OVERRUN's, or the frames have room. -/
def State.Spares (k : Nat) (m : EntryId) (s : State) : Prop := m ≠ srcOverrun ∨ s.RoomFor k

theorem State.RoomFor.weaken {k : Nat} {s : State} (h : s.RoomFor (k + 1)) : s.RoomFor k := fun p => by
  obtain ⟨busy, high, low⟩ := h p
  exact ⟨busy, by omega, by omega⟩

namespace State.Spares

variable {k : Nat} {m : EntryId} {s t : State}

theorem weaken (h : s.Spares (k + 1) m) : s.Spares k m := h.imp_right State.RoomFor.weaken

theorem of_ports (h : s.Spares k m) (same : t.ports = s.ports) : t.Spares k m := h.imp_right fun room => room.of_ports same

theorem sent_latch (h : s.Spares (k + 1) m) (f : Frame) : (s.sendLocal f).latch[m] = s.latch[m] := by
  rcases h with other | room
  · exact (sendLocal_reported (E := overrunOnly) rfl s f).latch m other
  · rw [room.sendLocal]
    rfl

theorem sent (h : s.Spares (k + 1) m) (f : Frame) : (s.sendLocal f).Spares k m := by
  refine h.imp_right fun room => ?_
  rw [room.sendLocal]
  exact room.awaiting f

theorem reported_latch (h : s.Spares (k + 1) m) (n : EntryId) : (s.reportOccurred n).latch[m] = s.latch[m] := by
  unfold State.reportOccurred
  split
  · exact h.sent_latch _
  · rfl

theorem occur_latch (h : s.Spares (k + 1) m) (n : EntryId) :
    (s.occur n).latch[m] = if m = n then s.latch[m].occurred m s.stamp s.posA (s.planValid m) else s.latch[m] := by
  have counted : (s.countOccurrence n s.posA).Spares (k + 1) m := h.of_ports rfl
  refine (counted.reported_latch n).trans ((latch_setLatch s n m _).trans ?_)
  split
  · rename_i same
    rw [same]
  · rfl

theorem enterStep_latch (h : s.Spares (k + 1) m) (i : Fin 64) : (s.enterStep i).latch[m] = s.latch[m] := by
  unfold State.enterStep State.spread
  split
  · rfl
  · rename_i c rest _
    split
    · rfl
    · have entered : (s.setStack (s.entered i c :: rest)).Spares (k + 1) m := h.of_ports rfl
      exact entered.sent_latch _

end State.Spares

theorem latch_setServe (s : State) (n m : EntryId) (v : Serve) :
    (s.setServe n v).latch[m] = if m = n then { s.latch[n] with serve := v } else s.latch[m] := latch_setLatch s n m _

theorem LatchEntry.CountedOnce.of_same {n : EntryId} {t : Stamp} {o : Nat} {e e' e'' : LatchEntry} (h : SameRecord e e')
    (g : LatchEntry.CountedOnce n t o e' e'') : LatchEntry.CountedOnce n t o e e'' :=
  ⟨by rw [g.count, h.count], g.unack, by rw [g.first, h.first], g.last, g.origin, by rw [g.asserted, h.asserted]⟩

/-! ### Frames read the configuration, the clock and one count -/

theorem eventFrame_congr {s t : State} {n : EntryId} (posA : t.posA = s.posA) (clock : t.clock = s.clock)
    (clockSet : t.clockSet = s.clockSet) (cfg : t.sourceCfg n = s.sourceCfg n)
    (count : t.latch[n].count = s.latch[n].count) (k : Transition) (code : Word) (i : Option (Fin 64)) :
    t.eventFrame n k code i = s.eventFrame n k code i := by
  simp only [State.eventFrame, State.effClass, State.effLevel, posA, clock, clockSet, cfg, count]

section
variable {E : EntryId → Prop} {s t : State}

theorem Consequence.stamp (h : Consequence E s t) : t.stamp = s.stamp := by
  rw [State.stamp, h.clock, h.clockSet, State.stamp]

theorem Consequence.sourceCode (h : Consequence E s t) (n : EntryId) : t.sourceCode n = s.sourceCode n := by
  unfold State.sourceCode
  simp only [h.lines]

theorem Consequence.planValid (h : Consequence E s t) (n : EntryId) : t.planValid n = s.planValid n := by
  unfold State.planValid
  rw [h.sourceCfg, h.plan]

theorem Consequence.eventFrame (h : Consequence E s t) {n : EntryId} (count : t.latch[n].count = s.latch[n].count)
    (k : Transition) (code : Word) (i : Option (Fin 64)) : t.eventFrame n k code i = s.eventFrame n k code i :=
  eventFrame_congr h.posA h.clock h.clockSet (h.sourceCfg n) count k code i

theorem Consequence.waitsSpread (h : Consequence E s t) (i : Fin 64) (P : LinePort) :
    P.waitsSpread t i = P.waitsSpread s i := by
  unfold LinePort.waitsSpread
  rw [h.plan, h.posA, h.now]

theorem Consequence.occurredFrame (h : Consequence E s t) {n : EntryId} (count : t.latch[n].count = s.latch[n].count) :
    t.occurredFrame n = s.occurredFrame n := by
  unfold State.occurredFrame
  rw [h.sourceCode, h.sourceCfg]
  refine eventFrame_congr (s := s.setLatch n _) (t := t.setLatch n _) h.posA h.clock h.clockSet (h.sourceCfg n) ?_ _ _ _
  rw [latch_setLatch_self, latch_setLatch_self, count]

end

theorem countOccurrence_eventFrame (s : State) (n : EntryId) (o : Nat) :
    (s.countOccurrence n o).eventFrame n .occurred (s.sourceCode n) (s.sourceCfg n).step = s.occurredFrame n := by
  refine eventFrame_congr (s := s.setLatch n _) (t := s.countOccurrence n o) rfl rfl rfl rfl ?_ _ _ _
  have counted : (s.countOccurrence n o).latch[n] = s.latch[n].occurred n s.stamp o (s.planValid n) :=
    latch_setLatch_self s n _
  rw [counted, latch_setLatch_self]
  rfl

/-- With room for it an occurrence's frame waits where its source reports (R141, R148). -/
theorem State.RoomFor.occur_port {k : Nat} {s : State} (h : s.RoomFor (k + 1)) (n : EntryId) (p : Port) :
    (s.occur n).port p =
      if (s.sourceCfg n).report = true then (s.port p).waits s.now (s.occurredFrame n) else s.port p := by
  have counted : (s.countOccurrence n s.posA).RoomFor (k + 1) := h.of_ports rfl
  rw [← countOccurrence_eventFrame s n s.posA]
  show (if (s.sourceCfg n).report = true then
    (s.countOccurrence n s.posA).report n .occurred (s.sourceCfg n).step else s.countOccurrence n s.posA).port p = _
  split
  · rw [counted.report, port_awaiting]
    rfl
  · rfl

theorem State.RoomFor.occur {k : Nat} {s : State} (h : s.RoomFor (k + 1)) (n : EntryId) : (s.occur n).RoomFor k := by
  have counted : (s.countOccurrence n s.posA).RoomFor (k + 1) := h.of_ports rfl
  show ((s.countOccurrence n s.posA).reportOccurred n).RoomFor k
  unfold State.reportOccurred
  split
  · rw [counted.report]
    exact counted.awaiting _
  · exact counted.weaken

/-! ### The room made on the stack (R157, R158) -/

section
variable (s : State)

theorem saveActive_eq : s.saveActive = s.setStack s.saveActive.stack := by
  unfold State.saveActive
  split <;> rfl

theorem saveActive_ports : s.saveActive.ports = s.ports := by
  rw [saveActive_eq]
  rfl

theorem saveActive_latch : s.saveActive.latch = s.latch := by
  rw [saveActive_eq]
  rfl

theorem saveActive_fans : s.saveActive.fans = s.fans := by
  rw [saveActive_eq]
  rfl

theorem saveActive_stack {a : Context} {rest : List Context} (h : s.stack = a :: rest) :
    s.saveActive.stack = { a with timer := a.timer.freeze s.now } :: rest := by
  rw [State.saveActive, h]
  rfl

theorem saveActive_empty (h : s.stack = []) : s.saveActive.stack = [] := by
  rw [State.saveActive, h]
  exact h

theorem saveActive_length : s.saveActive.stack.length = s.stack.length := by
  cases h : s.stack with
  | nil => rw [saveActive_empty s h]
  | cons a rest => rw [saveActive_stack s h, List.length_cons, List.length_cons]

theorem saveActive_getLast? (h : 2 ≤ s.stack.length) : s.saveActive.stack.getLast? = s.stack.getLast? := by
  match stack : s.stack with
  | [] => rw [stack] at h; cases h
  | [_] => rw [stack] at h; exact absurd h (by simp)
  | a :: b :: rest => rw [saveActive_stack s stack, List.getLast?_cons_cons, List.getLast?_cons_cons]

theorem roomMade_of_room (h : s.stack.length < 3) : s.roomMade = s.saveActive := by
  unfold State.roomMade State.makeRoom
  rw [if_neg (by rw [saveActive_length]; omega)]

/-- The drop of the oldest context `d` up to PLAN_DROPPED's occurrence: recorded, its DROPPED frame sent. -/
def State.dropSent (d : Context) : State := (s.saveActive.recordDrop d).report d.source .dropped (some d.step)

/-- A source's entry taken back after its context was dropped, with a decision owed (R144, R154). -/
def State.takenBack (n : EntryId) : State := (s.serveDropped n).oweDecision

/-- The drop with its source's entry taken back. -/
def State.dropTaken (d : Context) : State := (s.dropSent d).takenBack d.source

theorem takenBack_ports (n : EntryId) : (s.takenBack n).ports = s.ports := rfl
theorem takenBack_stack (n : EntryId) : (s.takenBack n).stack = s.stack := rfl
theorem takenBack_fans (n : EntryId) : (s.takenBack n).fans = s.fans := rfl
theorem takenBack_dropped (n : EntryId) : (s.takenBack n).dropped = s.dropped := rfl

theorem takenBack_latch (n m : EntryId) :
    (s.takenBack n).latch[m] = if m = n then { s.latch[n] with serve := s.serveAfterDrop n } else s.latch[m] :=
  latch_setServe s n m _

theorem takenBack_consequence (E : EntryId → Prop) (n : EntryId) : Consequence E s (s.takenBack n) :=
  (setServe_consequence E s n _).trans (oweDecision_consequence E _)

end

section
variable {s : State} {d : Context}

theorem roomMade_drop (three : s.stack.length = 3) (oldest : s.stack.getLast? = some d) :
    s.roomMade = (s.dropTaken d).occur srcPlanDropped := by
  unfold State.roomMade State.makeRoom
  rw [if_pos (by rw [saveActive_length, three]), State.dropOldest, saveActive_getLast? s (by omega), oldest]
  rfl

theorem oldest_exists (three : s.stack.length = 3) : ∃ d, s.stack.getLast? = some d :=
  ⟨_, List.getLast?_eq_some_getLast (List.ne_nil_of_length_pos (by omega))⟩

theorem recordDrop_ports (s : State) (d : Context) : (s.saveActive.recordDrop d).ports = s.ports := by
  rw [saveActive_eq]
  rfl

theorem recordDrop_latch (s : State) (d : Context) : (s.saveActive.recordDrop d).latch = s.latch := by
  rw [saveActive_eq]
  rfl

theorem recorded_consequence (s : State) (d : Context) : Consequence anyEntry s (s.saveActive.recordDrop d) :=
  (saveActive_consequence _ s).trans (recordDrop_consequence _ _ d)

theorem dropSent_consequence (s : State) (d : Context) : Consequence anyEntry s (s.dropSent d) :=
  (recorded_consequence s d).trans (report_consequence trivial _ _ _ _)

theorem dropTaken_consequence (s : State) (d : Context) : Consequence anyEntry s (s.dropTaken d) :=
  (dropSent_consequence s d).trans (takenBack_consequence _ _ d.source)

section
variable {k : Nat} {m : EntryId}

theorem dropSent_latch (h : s.Spares (k + 1) m) (d : Context) : (s.dropSent d).latch[m] = s.latch[m] := by
  have recorded : (s.saveActive.recordDrop d).Spares (k + 1) m := h.of_ports (recordDrop_ports s d)
  exact (recorded.sent_latch _).trans (by rw [recordDrop_latch])

theorem dropTaken_room (h : s.RoomFor (k + 1)) (d : Context) : (s.dropTaken d).RoomFor k := by
  have recorded : (s.saveActive.recordDrop d).RoomFor (k + 1) := h.of_ports (recordDrop_ports s d)
  refine State.RoomFor.of_ports (s := s.dropSent d) ?_ (takenBack_ports _ d.source)
  rw [State.dropSent, recorded.report]
  exact recorded.awaiting _

theorem dropTaken_spares (h : s.Spares (k + 1) m) (d : Context) : (s.dropTaken d).Spares k m :=
  h.imp_right fun room => dropTaken_room room d

theorem dropTaken_same (h : s.Spares (k + 1) m) (d : Context) : SameRecord s.latch[m] (s.dropTaken d).latch[m] := by
  rw [← dropSent_latch h d, State.dropTaken, takenBack_latch]
  split
  · rename_i same
    subst same
    exact ⟨rfl, rfl, rfl, rfl, rfl, rfl⟩
  · exact .refl _

/-- The dropped context's entry (R144, R158). -/
theorem dropTaken_serve (h : s.Spares (k + 1) d.source) :
    (s.dropTaken d).latch[d.source].serve =
      if isLevel d.source && s.latch[d.source].asserted && s.planValid d.source then Serve.pending else .idle := by
  have after := dropSent_consequence s d
  rw [State.dropTaken, takenBack_latch, if_pos rfl, ← dropSent_latch h d, ← after.planValid]
  rfl

/-- Making room leaves every entry's record but QUEUE_OVERRUN's and PLAN_DROPPED's. -/
theorem roomMade_same (depth : s.stack.length ≤ 3) (h : s.Spares (k + 2) m) (other : m ≠ srcPlanDropped) :
    SameRecord s.latch[m] s.roomMade.latch[m] := by
  rcases Nat.lt_or_eq_of_le depth with room | three
  · rw [roomMade_of_room s room, saveActive_latch]
    exact .refl _
  · obtain ⟨d, oldest⟩ := oldest_exists three
    rw [roomMade_drop three oldest, (dropTaken_spares h d).occur_latch, if_neg other]
    exact dropTaken_same h d

end

/-- At most two contexts stay below the new one. -/
theorem roomMade_stack (depth : s.stack.length ≤ 3) : s.roomMade.stack = s.saveActive.stack.take 2 := by
  have length := saveActive_length s
  rcases Nat.lt_or_eq_of_le depth with room | three
  · rw [roomMade_of_room s room, List.take_of_length_le (by omega)]
  · obtain ⟨d, oldest⟩ := oldest_exists three
    have sent : (s.dropSent d).stack = s.saveActive.stack.dropLast :=
      (report_reported (E := fun _ => True) trivial _ _ _ _).stack
    rw [roomMade_drop three oldest, (occur_reported (E := fun _ => True) trivial _ _ trivial).stack, State.dropTaken,
      takenBack_stack, sent, List.dropLast_eq_take, length, three]

theorem Reported.dropped {E : EntryId → Prop} {s t : State} (h : Reported E s t) : t.dropped = s.dropped :=
  (congrArg State.dropped h.same : t.unreported.dropped = s.unreported.dropped)

theorem roomMade_dropped (three : s.stack.length = 3) (oldest : s.stack.getLast? = some d) :
    s.roomMade.dropped = some (d, s.stamp) := by
  have sent : (s.dropSent d).dropped = some (d, s.saveActive.stamp) :=
    (report_reported (E := fun _ => True) trivial _ _ _ _).dropped
  rw [roomMade_drop three oldest, (occur_reported (E := fun _ => True) trivial _ _ trivial).dropped, State.dropTaken,
    takenBack_dropped, sent, (saveActive_consequence anyEntry s).stamp]

theorem roomMade_fans (depth : s.stack.length ≤ 3) : s.roomMade.fans = s.fans := by
  rcases Nat.lt_or_eq_of_le depth with room | three
  · rw [roomMade_of_room s room, saveActive_fans]
  · obtain ⟨d, oldest⟩ := oldest_exists three
    have sent : (s.dropSent d).fans = s.saveActive.fans := (report_reported (E := fun _ => True) trivial _ _ _ _).fans
    rw [roomMade_drop three oldest, (occur_reported (E := fun _ => True) trivial _ _ trivial).fans, State.dropTaken,
      takenBack_fans, sent, saveActive_fans]

end

/-! ### The launch (R157, R159) -/

section
variable {s : State} {n m : EntryId} {i : Fin 64} {k : Nat}

/-- Making room takes two places at most. -/
theorem roomMade_room (depth : s.stack.length ≤ 3) (h : s.RoomFor (k + 2)) : s.roomMade.RoomFor k := by
  rcases Nat.lt_or_eq_of_le depth with short | three
  · rw [roomMade_of_room s short]
    exact h.weaken.weaken.of_ports (saveActive_ports s)
  · obtain ⟨d, oldest⟩ := oldest_exists three
    rw [roomMade_drop three oldest]
    exact (dropTaken_room h d).occur srcPlanDropped

theorem roomMade_spares (depth : s.stack.length ≤ 3) (h : s.Spares (k + 2) m) : s.roomMade.Spares k m :=
  h.imp_right (roomMade_room depth)

theorem pushContext_latch (v : State) (n m : EntryId) (i : Fin 64) :
    (v.pushContext n i).latch[m] = if m = n then { v.latch[n] with serve := .served } else v.latch[m] :=
  latch_setServe (v.setStack (v.newContext n i :: v.stack)) n m .served

theorem pushContext_ports (v : State) (n : EntryId) (i : Fin 64) : (v.pushContext n i).ports = v.ports := rfl

theorem pushContext_fans (v : State) (n : EntryId) (i : Fin 64) : (v.pushContext n i).fans = v.fans := rfl

theorem pushed_consequence (s : State) (n : EntryId) (i : Fin 64) :
    Consequence anyEntry s (s.roomMade.pushContext n i) :=
  ((roomMade_consequence s).mono fun _ _ => trivial).trans (pushContext_consequence _ _ n i)

theorem announced_consequence (s : State) (n : EntryId) (i : Fin 64) : Consequence anyEntry s (s.announced n i) :=
  (pushed_consequence s n i).trans (report_consequence trivial _ _ _ _)

theorem announced_fans (depth : s.stack.length ≤ 3) (n : EntryId) (i : Fin 64) : (s.announced n i).fans = s.fans :=
  (report_reported (E := fun _ => True) trivial _ _ _ _).fans.trans ((pushContext_fans _ n i).trans (roomMade_fans depth))

theorem announced_latch (h : s.roomMade.Spares (k + 1) m) (n : EntryId) (i : Fin 64) :
    (s.announced n i).latch[m] =
      if m = n then { s.roomMade.latch[n] with serve := .served } else s.roomMade.latch[m] := by
  have pushed : (s.roomMade.pushContext n i).Spares (k + 1) m := h.of_ports (pushContext_ports _ n i)
  exact (pushed.sent_latch _).trans (pushContext_latch _ n m i)

theorem startHold_latch (v : State) : v.startHold.latch = v.latch := rfl

theorem startHold_dropped (v : State) : v.startHold.dropped = v.dropped := rfl

theorem startHold_port (v : State) (p : Port) : v.startHold.port p = v.port p := State.port_congr rfl p

theorem launch_latch (h : s.roomMade.Spares (k + 2) m) (n : EntryId) (i : Fin 64) :
    (s.launch n i).latch[m] =
      if m = n then { s.roomMade.latch[n] with serve := .served } else s.roomMade.latch[m] := by
  have pushed : (s.roomMade.pushContext n i).Spares (k + 2) m := h.of_ports (pushContext_ports _ n i)
  have announced : (s.announced n i).Spares (k + 1) m := pushed.sent _
  rw [launch_eq, startHold_latch, announced.enterStep_latch, announced_latch h]

/-- The launch hold starts with its field, and expires at once where that is 0 (R155). -/
theorem launch_launchHold (s : State) (n : EntryId) (i : Fin 64) :
    (s.launch n i).launchHold =
      if s.node.launchHold = 0 then none else some (s.now + s.node.launchHold * 1000) := by
  have entered := (announced_consequence s n i).trans (enterStep_consequence (E := anyEntry) trivial _ i)
  rw [launch_eq, ← entered.node, ← entered.now]
  rfl

theorem enterStep_dropped (s : State) (i : Fin 64) : (s.enterStep i).dropped = s.dropped := by
  unfold State.enterStep State.spread
  split
  · rfl
  · split
    · rfl
    · exact (sendLocal_reported (E := fun _ => True) trivial _ _).dropped

theorem launch_dropped (s : State) (n : EntryId) (i : Fin 64) : (s.launch n i).dropped = s.roomMade.dropped := by
  rw [launch_eq, startHold_dropped, enterStep_dropped]
  exact (report_reported (E := fun _ => True) trivial _ _ _ _).dropped

theorem StepEntered.congr {s t : State} {d : Context} (h : StepEntered t i d) (plan : t.plan = s.plan)
    (now : t.now = s.now) (fans : t.fans = s.fans)
    (asserted : t.latch[d.source].asserted = s.latch[d.source].asserted) : StepEntered s i d := by
  obtain ⟨step, unseen, timed, awaits, cleared, untimed, captured⟩ := h
  rw [plan, now] at timed awaits cleared
  rw [asserted] at awaits cleared
  rw [plan] at untimed captured
  rw [fans] at captured
  exact ⟨step, unseen, timed, awaits, cleared, untimed, captured⟩

/-- The launched entry is SERVED and its context ACTIVE, above the contexts saved. -/
theorem launch_activates (overrun : n ≠ srcOverrun) (dropped : n ≠ srcPlanDropped) (law : s.StackLaw) (i : Fin 64) :
    (s.launch n i).latch[n].serve = .served ∧
    ((s.launch n i).launchHold =
      if s.node.launchHold = 0 then none else some (s.now + s.node.launchHold * 1000)) ∧
    (s.stack = [] → (s.launch n i).stack.tail = []) ∧
    (∀ (a : Context) (rest : List Context), s.stack = a :: rest →
      (s.launch n i).stack.tail = ({ a with timer := a.timer.freeze s.now } :: rest).take 2) ∧
    ∃ c, (s.launch n i).active = some c ∧ c.source = n ∧ StepEntered s i c ∧ c.level = s.effLevel n ∧
      c.cls = s.effClass n ∧ c.origin = s.latch[n].origin ∧ c.entry = s.stamp ∧
      (s.stack.length = 3 → ∃ d, (s.launch n i).dropped = some (d, s.stamp) ∧ s.stack.getLast? = some d) := by
  have depth := law.depth
  have same : SameRecord s.latch[n] s.roomMade.latch[n] := roomMade_same (k := 0) depth (.inl overrun) dropped
  have room := roomMade_consequence s
  have after := announced_consequence s n i
  have tail : (s.launch n i).stack.tail = s.saveActive.stack.take 2 := by
    rw [launch_stack, List.tail_cons, roomMade_stack depth]
  refine ⟨?_, launch_launchHold s n i, fun empty => ?_, fun a rest stack => ?_,
    (s.announced n i).entered i (s.roomMade.newContext n i), ?_, rfl, ?_, room.effLevel n,
    congrArg SourceCfg.cls (room.sourceCfg n), same.origin, room.stamp, fun three => ?_⟩
  · rw [launch_latch (k := 0) (.inl overrun), if_pos rfl]
  · rw [tail, saveActive_empty s empty, List.take_nil]
  · rw [tail, saveActive_stack s stack]
  · rw [State.active, launch_stack, List.head?_cons]
  · refine (stepEntered_entered _ i _).congr after.plan after.now (announced_fans depth n i) ?_
    show (s.announced n i).latch[n].asserted = _
    rw [announced_latch (k := 0) (.inl overrun), if_pos rfl]
    exact same.asserted
  · obtain ⟨d, oldest⟩ := oldest_exists three
    exact ⟨d, (launch_dropped s n i).trans (roomMade_dropped three oldest), oldest⟩

/-- The drop counts PLAN_DROPPED and takes the dropped context's entry back (R144, R158). -/
theorem launch_drops {d : Context} (dropped : n ≠ srcPlanDropped) (law : s.StackLaw)
    (waiting : s.latch[n].serve = .pending) (i : Fin 64) (three : s.stack.length = 3)
    (oldest : s.stack.getLast? = some d) :
    LatchEntry.CountedOnce srcPlanDropped s.stamp s.posA s.latch[srcPlanDropped] (s.launch n i).latch[srcPlanDropped] ∧
    (d.source ≠ srcOverrun ∨ s.Roomy →
      (s.launch n i).latch[d.source].serve =
        if s.planValid d.source = true ∧
            (d.source = srcPlanDropped ∨ (isLevel d.source = true ∧ s.latch[d.source].asserted = true))
          then Serve.pending else .idle) := by
  have taken := dropTaken_consequence s d
  refine ⟨?_, fun room => ?_⟩
  · rw [launch_latch (k := 0) (.inl (by decide)), if_neg dropped.symm, roomMade_drop three oldest, ← taken.stamp,
      ← taken.posA]
    exact .of_same (dropTaken_same (k := 0) (.inl (by decide)) d)
      (occurFrom_counted (s.dropTaken d) srcPlanDropped _ (by decide))
  · have served : s.latch[d.source].serve = .served := (law.served d.source).mpr ⟨d, List.mem_of_getLast? oldest, rfl⟩
    have other : d.source ≠ n := by
      rintro rfl
      exact Serve.noConfusion (waiting.symm.trans served)
    have spares : s.Spares 4 d.source := room.imp_right State.Roomy.roomFor
    rw [launch_latch (k := 0) (roomMade_spares law.depth spares), if_neg other, roomMade_drop three oldest,
      (dropTaken_spares (k := 2) spares.weaken d).occur_latch]
    by_cases own : d.source = srcPlanDropped
    · have edge : isLevel d.source = false := by rw [own]; rfl
      have idle : (s.dropTaken d).latch[d.source].serve = .idle := by
        rw [dropTaken_serve spares, edge]
        rfl
      rw [if_pos own, ← taken.planValid]
      simp only [LatchEntry.occurred, idle, eq_true own, beq_self_eq_true, Bool.true_and, true_or, and_true]
    · rw [if_neg own, dropTaken_serve spares]
      simp only [own, false_or, Bool.and_eq_true, and_comm]

/-- The frames LAUNCHED and spread follow those of the room made. -/
theorem launch_port_of_room (room : s.roomMade.RoomFor (k + 2)) (count : s.roomMade.latch[n].count = s.latch[n].count)
    (i : Fin 64) (p : Port) :
    (s.launch n i).port p =
      ((s.roomMade.port p).waits s.now (s.eventFrame n .launched (s.sourceCode n) (some i))).waitsSpread s i := by
  have pushed : (s.roomMade.pushContext n i).RoomFor (k + 2) := room.of_ports (pushContext_ports _ n i)
  have before := pushed_consequence s n i
  have counted : (s.roomMade.pushContext n i).latch[n].count = s.latch[n].count := by
    rw [pushContext_latch, if_pos rfl]
    exact count
  have sent : s.announced n i = (s.roomMade.pushContext n i).awaiting
      (s.eventFrame n .launched (s.sourceCode n) (some i)) := by
    rw [State.announced, pushed.report, before.eventFrame counted, before.sourceCode]
  have announced : (s.announced n i).RoomFor (k + 1) := by
    rw [sent]
    exact pushed.awaiting _
  rw [launch_eq, startHold_port, enterStep_port announced i (announced_stack s n i),
    (announced_consequence s n i).waitsSpread, sent, port_awaiting, before.now,
    State.port_congr (pushContext_ports s.roomMade n i)]

/-- The frames of the room made: DROPPED, then PLAN_DROPPED's report. -/
theorem roomMade_port {d : Context} (room : s.RoomFor (k + 2)) (three : s.stack.length = 3)
    (oldest : s.stack.getLast? = some d) (p : Port) {P : LinePort}
    (hP : P = (s.port p).waits s.now (s.eventFrame d.source .dropped (s.sourceCode d.source) (some d.step))) :
    s.roomMade.port p =
      if (s.sourceCfg srcPlanDropped).report = true then P.waits s.now (s.occurredFrame srcPlanDropped) else P := by
  have recorded : (s.saveActive.recordDrop d).RoomFor (k + 2) := room.of_ports (recordDrop_ports s d)
  have before := recorded_consequence s d
  have count : (s.saveActive.recordDrop d).latch[d.source].count = s.latch[d.source].count := by rw [recordDrop_latch]
  have sent : s.dropSent d = (s.saveActive.recordDrop d).awaiting
      (s.eventFrame d.source .dropped (s.sourceCode d.source) (some d.step)) := by
    rw [State.dropSent, recorded.report, before.eventFrame count, before.sourceCode]
  have taken : (s.dropTaken d).RoomFor (k + 1) := dropTaken_room room d
  have after := dropTaken_consequence s d
  have same : SameRecord s.latch[srcPlanDropped] (s.dropTaken d).latch[srcPlanDropped] :=
    dropTaken_same (k := 0) (.inl (by decide)) d
  have port : (s.dropTaken d).port p = P := by
    rw [State.dropTaken, State.port_congr (takenBack_ports (s.dropSent d) d.source), sent, port_awaiting, before.now, hP,
      State.port_congr (recordDrop_ports s d)]
  rw [roomMade_drop three oldest, taken.occur_port, after.sourceCfg, after.now, after.occurredFrame same.count, port]

/-- The launch's frames in their order, at ports with room (R147, R157 to R159). -/
theorem launch_ports (dropped : n ≠ srcPlanDropped) (room : s.Roomy) {L : Frame} (i : Fin 64) (p : Port)
    (hL : L = s.eventFrame n .launched (s.sourceCode n) (some i)) :
    (s.stack.length < 3 → (s.launch n i).port p = ((s.port p).waits s.now L).waitsSpread s i) ∧
    (∀ (d : Context) (D : Frame) (P : LinePort), s.stack.length = 3 → s.stack.getLast? = some d →
      D = s.eventFrame d.source .dropped (s.sourceCode d.source) (some d.step) →
      P = (s.port p).waits s.now D →
      (s.launch n i).port p =
        ((if (s.sourceCfg srcPlanDropped).report = true then P.waits s.now (s.occurredFrame srcPlanDropped)
          else P).waits s.now L).waitsSpread s i) := by
  have four : s.RoomFor 4 := room.roomFor
  have rest : ∀ depth : s.stack.length ≤ 3, s.roomMade.RoomFor 2 ∧ s.roomMade.latch[n].count = s.latch[n].count :=
    fun depth => ⟨roomMade_room depth four, (roomMade_same depth (.inr four) dropped).count⟩
  subst hL
  refine ⟨fun short => ?_, ?_⟩
  · obtain ⟨two, count⟩ := rest short.le
    rw [launch_port_of_room two count, roomMade_of_room s short, State.port_congr (saveActive_ports s)]
  · rintro d D P three oldest rfl hP
    obtain ⟨two, count⟩ := rest three.le
    rw [launch_port_of_room two count, roomMade_port four three oldest p hP]

end

/-- Settles O44: the winner, the decisions until none is accepted, and the launch, its drop and its frames. -/
theorem acceptanceLaunchesTheHighest : Obligations.AcceptanceLaunchesTheHighest := by
  refine ⟨fun s n i accepted => ?_,
    fun s m law waiting above may => accepted_exists law (eligible_iff.mpr ⟨waiting, above, may⟩),
    fun s due calm => ⟨fun none => ?_, fun n i accepted => ?_, fun law => ?_⟩,
    fun k s => ⟨fun none => decideN_none none k, fun n i accepted => decideN_some accepted k⟩,
    fun s n i overrun dropped law _ => launch_activates overrun dropped law i, fun now t => ⟨rfl, rfl⟩,
    fun s n i d _ dropped law waiting three oldest => launch_drops dropped law waiting i three oldest,
    fun s n i p L dropped room hL => launch_ports dropped room i p hL⟩
  · obtain ⟨step, eligible, beats⟩ := accepted_wins accepted
    obtain ⟨waiting, above, may⟩ := eligible_iff.mp eligible
    exact ⟨step, waiting, above, may, fun m waiting above may => beats m (eligible_iff.mpr ⟨waiting, above, may⟩)⟩
  · rw [settle_of_due due calm, decideN_none none]
  · rw [settle_of_due due calm, decideN_some accepted]
  · rw [settle_of_due due calm]
    exact decideN_exhausts 8 s law.effLevel_le (by omega)

end Sys2Proof.Machine
end

