-- ==== Sys2Proof/Proofs/Plant.lean ====
section
/-! PROOFS. Proofs/Plant.lean: the fans and doors of a node with what its plans direct, as one value, and for each operation
that moves none of them, that it leaves this value as it stood. -/

namespace Sys2Proof.Machine

/-! ### The plant as one value -/

/-- The fans and the doors with all that their overrides and directives are read from: the node state, posA, and for each
context on the stack its current step as it stands and its origin, ACTIVE first. -/
structure Plant where
  fans : Vector Fan 3
  doors : Vector Door 2
  nodeState : NodeState
  posA : Nat
  directing : List (PlanStep × Nat)

/-- The steps that direct, with their contexts' origins. -/
def State.directing (s : State) : List (PlanStep × Nat) := s.stack.map fun c => (s.stepOf c, c.origin)

def State.plant (s : State) : Plant := ⟨s.fans, s.doors, s.nodeState, s.posA, s.directing⟩

theorem plant_fans {s t : State} (h : t.plant = s.plant) : t.fans = s.fans := congrArg Plant.fans h

theorem plant_doors {s t : State} (h : t.plant = s.plant) : t.doors = s.doors := congrArg Plant.doors h

theorem plant_nodeState {s t : State} (h : t.plant = s.plant) : t.nodeState = s.nodeState := congrArg Plant.nodeState h

theorem plant_posA {s t : State} (h : t.plant = s.plant) : t.posA = s.posA := congrArg Plant.posA h

theorem plant_directing {s t : State} (h : t.plant = s.plant) : t.directing = s.directing := congrArg Plant.directing h

/-- The guard that a first directing step gives at a position (R106). -/
def guardAt (posA : Nat) : List (PlanStep × Nat) → Bool
  | [] => false
  | (p, origin) :: _ => decide (0 < p.guardSpan) && decide (distance posA origin ≤ p.guardSpan)

/-- The passage directive of a first directing step (R114). -/
def passageOf : List (PlanStep × Nat) → PassageDir
  | [] => .autoDoor
  | (p, _) :: _ => p.passage

theorem guardApplies_eq (s : State) : s.guardApplies = guardAt s.posA s.directing := by
  unfold State.guardApplies State.directing
  cases s.stack <;> rfl

theorem passageDirective_eq (s : State) : s.passageDirective = passageOf s.directing := by
  unfold State.passageDirective State.directing
  cases s.stack <;> rfl

theorem guardApplies_of_directing {s t : State} (posA : t.posA = s.posA) (directing : t.directing = s.directing) :
    t.guardApplies = s.guardApplies := by
  rw [guardApplies_eq, guardApplies_eq, posA, directing]

theorem jetsHeld_of_directing {s t : State} (nodeState : t.nodeState = s.nodeState) (posA : t.posA = s.posA)
    (directing : t.directing = s.directing) : t.jetsHeld = s.jetsHeld := by
  unfold State.jetsHeld
  rw [nodeState, guardApplies_of_directing posA directing]

/-- Doors in the same states with the same step directing give the passage fan the same reason to run (R114). -/
theorem passageRuns_of_directing {s t : State} (nodeState : t.nodeState = s.nodeState)
    (directing : t.directing = s.directing)
    (doors : ∀ d : DoorId, t.doors[d].isOpenState = s.doors[d].isOpenState) : t.passageRuns = s.passageRuns := by
  unfold State.passageRuns State.anyDoorOpen
  rw [nodeState, passageDirective_eq, passageDirective_eq, directing,
    show t.doors[0].isOpenState = s.doors[0].isOpenState from doors 0,
    show t.doors[1].isOpenState = s.doors[1].isOpenState from doors 1]

theorem plant_jetsHeld {s t : State} (h : t.plant = s.plant) : t.jetsHeld = s.jetsHeld :=
  jetsHeld_of_directing (plant_nodeState h) (plant_posA h) (plant_directing h)

theorem plant_passageRuns {s t : State} (h : t.plant = s.plant) : t.passageRuns = s.passageRuns :=
  passageRuns_of_directing (plant_nodeState h) (plant_directing h) fun d => by rw [plant_doors h]

/-! ### Updates of one block, frames and occurrences -/

section
variable (s : State)

@[simp] theorem plant_setPort (p : Port) (P : LinePort) : (s.setPort p P).plant = s.plant := by cases p <;> rfl

@[simp] theorem plant_setKind (k : Kind) (K : KindUnit) : (s.setKind k K).plant = s.plant := by cases k <;> rfl

@[simp] theorem plant_setChannel (c : ChannelId) (C : Channel) : (s.setChannel c C).plant = s.plant := rfl

@[simp] theorem plant_setLatch (n : EntryId) (e : LatchEntry) : (s.setLatch n e).plant = s.plant := rfl

@[simp] theorem plant_markDirty (g : Fin 15) : (s.markDirty g).plant = s.plant := rfl

theorem plant_withTap (tap : TapCache) : State.plant { s with tap := tap } = s.plant := rfl

theorem plant_withLatch (latch : Vector LatchEntry 51) (due : Bool) :
    State.plant { s with latch := latch, decisionDue := due } = s.plant := rfl

theorem plant_withDecision (due : Bool) : State.plant { s with decisionDue := due } = s.plant := rfl

theorem plant_withDirty (dirty : Vector Bool 15) : State.plant { s with dirty := dirty } = s.plant := rfl

theorem plant_withFailing (dirty : Vector Bool 15) (n : Nat) :
    State.plant { s with dirty := dirty, lastFailing := n } = s.plant := rfl

theorem plant_withCopy (rewritten : Vector Bool 15) (storing : StoreState) :
    State.plant { s with rewritten := rewritten, storing := storing } = s.plant := rfl

theorem plant_withSerial (serial : Memory) (storing : StoreState) :
    State.plant { s with serial := serial, storing := storing } = s.plant := rfl

/-- Reports and occurrences move nothing of the plant. -/
theorem Reported.plant {E : EntryId → Prop} {s t : State} (h : Reported E s t) : t.plant = s.plant :=
  (congrArg State.plant h.same : t.unreported.plant = s.unreported.plant)

@[simp] theorem plant_occurFrom (n : EntryId) (o : Nat) : (s.occurFrom n o).plant = s.plant :=
  (occurFrom_reported (E := anyEntry) trivial s n o trivial).plant

@[simp] theorem plant_occur (n : EntryId) : (s.occur n).plant = s.plant := plant_occurFrom s n _

@[simp] theorem plant_offer (p : Port) (q : QueueId) (f : Frame) : (s.offer p q f).1.plant = s.plant :=
  (offer_reported anyEntry s p q f).plant

@[simp] theorem plant_sendLocal (f : Frame) : (s.sendLocal f).plant = s.plant :=
  (sendLocal_reported (E := anyEntry) trivial s f).plant

@[simp] theorem plant_relay (p : Port) (f : Frame) : (s.relay p f).plant = s.plant :=
  (relay_reported (E := anyEntry) trivial s p f).plant

/-- A clearing marks contexts, and moves none of their steps and origins. -/
theorem plant_markCleared (n : EntryId) : (s.markCleared n).plant = s.plant := by
  have step : ∀ c : Context, (s.stepOf (c.sourceCleared n), (c.sourceCleared n).origin) = (s.stepOf c, c.origin) := by
    intro c
    unfold Context.sourceCleared
    split <;> rfl
  have directing : (s.markCleared n).directing = s.directing := by
    show (s.stack.map (Context.sourceCleared n)).map _ = _
    rw [List.map_map]
    exact List.map_congr_left fun c _ => step c
  exact congrArg (Plant.mk s.fans s.doors s.nodeState s.posA) directing

@[simp] theorem plant_clearWithCode (n : EntryId) (code : Word) : (s.clearWithCode n code).plant = s.plant := by
  unfold State.clearWithCode
  split
  · exact (reportCleared_reported (E := anyEntry) trivial _ n code).plant.trans (plant_markCleared s n)
  · rfl

@[simp] theorem plant_clearSource (n : EntryId) : (s.clearSource n).plant = s.plant := plant_clearWithCode s n _

@[simp] theorem plant_follow (n : EntryId) (was is : Bool) : (s.follow n was is).plant = s.plant := by
  unfold State.follow
  split
  · exact plant_occur s n
  · split
    · exact plant_clearSource s n
    · rfl

@[simp] theorem plant_occurIf (n : EntryId) (b : Bool) : (s.occurIf n b).plant = s.plant := by
  cases b
  · rfl
  · exact plant_occur s n

/-! ### The line -/

@[simp] theorem plant_superviseGood (p : Port) : (s.superviseGood p).plant = s.plant := by
  unfold State.superviseGood
  dsimp only
  split <;> simp

@[simp] theorem plant_reply (p : Port) (op : Byte) (r : Request) (a : Answer) : (s.reply p op r a).plant = s.plant :=
  plant_offer s p _ _

theorem plant_badFrame (p : Port) : (s.badFrame p).plant = s.plant := by
  unfold State.badFrame
  dsimp only
  split <;> simp

theorem plant_linkExpired (p : Port) : (s.linkExpired p).plant = s.plant := by
  unfold State.linkExpired
  dsimp only
  split
  · rfl
  · split <;> simp

theorem plant_fillExpired (p : Port) : (s.fillExpired p).plant = s.plant := by
  unfold State.fillExpired
  dsimp only
  split <;> simp

theorem plant_sent (p : Port) : (s.sent p).plant = s.plant := by
  unfold State.sent
  dsimp only
  split <;> simp

/-- A fold of updates that each leave the plant leaves it. -/
theorem plant_foldl {α : Type} (update : State → α → State) (h : ∀ s a, (update s a).plant = s.plant) (l : List α) :
    (l.foldl update s).plant = s.plant := by
  induction l generalizing s with
  | nil => rfl
  | cons a l ih => rw [List.foldl_cons, ih, h]

theorem plant_tapItem (origin : Nat) (it : SampleItem) : (State.tapItem origin s it).plant = s.plant := by
  unfold State.tapItem
  split
  · rfl
  · split
    · rfl
    · split
      · split <;> rfl
      · rfl

theorem plant_takeSample (p : Port) (f : SampleFields) : (s.takeSample p f).plant = s.plant := by
  have items : (s.tapItems f).plant = s.plant := plant_foldl s _ (fun s it => plant_tapItem s _ it) _
  unfold State.takeSample
  dsimp only
  split
  · exact (plant_relay _ p _).trans items
  · exact items

theorem plant_relayCount (p : Port) (side : Side) (k : Byte) : (s.relayCount p side k).plant = s.plant := by
  unfold State.relayCount
  split <;> simp

theorem plant_takeTrigger (p : Port) (f : TriggerFields) : (s.takeTrigger p f).plant = s.plant := by
  have acted : (s.actTrigger f).plant = s.plant := by
    unfold State.actTrigger
    split
    · split
      · rfl
      · split <;> simp
    · rfl
  unfold State.takeTrigger
  dsimp only
  split
  · exact (plant_relay _ p _).trans acted
  · exact acted

theorem plant_takeTime (p : Port) (clock : BitVec 32) : (s.takeTime p clock).plant = s.plant := plant_relay _ p _

/-! ### Sensors, demand and the call point -/

theorem plant_conversion (c : ChannelId) (code : BitVec 12) : (s.conversion c code).plant = s.plant := by
  unfold State.conversion
  dsimp only
  split
  · rfl
  · exact plant_follow _ _ _ _

theorem plant_channelChanged (old : State) (c : ChannelId) : (State.channelChanged old s c).plant = s.plant :=
  plant_follow _ _ _ _

theorem plant_reportExpiry : s.reportExpiry.plant = s.plant := by
  unfold State.reportExpiry
  dsimp only
  split
  · rfl
  · exact plant_sendLocal _ _

@[simp] theorem plant_failedChange (k : Kind) (was is : KindStatus) : (s.failedChange k was is).plant = s.plant := by
  unfold State.failedChange
  split
  · simp
  · split <;> simp

@[simp] theorem plant_alarmChange (k : Kind) (was is : Bool) : (s.alarmChange k was is).plant = s.plant := by
  unfold State.alarmChange
  split
  · rfl
  · exact plant_follow s _ was is

@[simp] theorem plant_kindSources (old : Kinds) : (State.kindSources old s).plant = s.plant := by
  simp [State.kindSources]

theorem plant_kindHoldExpired (k : Kind) : (s.kindHoldExpired k).plant = s.plant := by
  unfold State.kindHoldExpired
  dsimp only
  split <;> simp

theorem plant_termsChanged : s.termsChanged.plant = s.plant := plant_kindSources _ _

theorem plant_callPointAccepted : s.callPointAccepted.plant = s.plant := by
  unfold State.callPointAccepted
  split
  · rfl
  · exact plant_follow _ _ _ _

theorem plant_launchHoldExpired : s.launchHoldExpired.plant = s.plant := by
  unfold State.launchHoldExpired
  split <;> rfl

/-! ### The effects of a change -/

theorem plant_emptyLocked : s.emptyLocked.plant = s.plant := plant_withTap s _

theorem plant_flushTap : s.flushTap.plant = s.plant := by
  unfold State.flushTap
  dsimp only
  split
  · exact (plant_markDirty _ _).trans (plant_withTap s _)
  · exact plant_withTap s _

theorem plant_lockChanged (l0 l1 : Nat) : (s.lockChanged l0 l1).plant = s.plant := by
  unfold State.lockChanged
  dsimp only
  split
  · exact (plant_markDirty _ _).trans (plant_withTap s _)
  · exact plant_withTap s _

theorem plant_nodeChanged (old : State) : (s.nodeChanged old).plant = s.plant := by
  have timers : ∀ report control : Timer,
      State.plant { s with reportTimer := report, controlTimer := control } = s.plant := fun _ _ => rfl
  unfold State.nodeChanged
  dsimp only
  split <;> split <;> split <;> first | rfl | exact plant_lockChanged _ _ _

theorem plant_lineChanged (old : State) (i : Fin 16) : (State.lineChanged old s i).plant = s.plant := by
  unfold State.lineChanged
  split <;> simp

theorem plant_revalidate (old : State) : (State.revalidate old s).plant = s.plant := plant_withLatch s _ _

/-- What follows a stored configuration moves nothing of the plant. -/
theorem plant_changed (old : State) : (State.changed old s).plant = s.plant := by
  have channels : ((List.finRange 4).foldl (State.channelChanged old) s).plant = s.plant :=
    plant_foldl s _ (fun s c => plant_channelChanged s old c) _
  have lines : ∀ t : State, ((List.finRange 16).foldl (State.lineChanged old) t).plant = t.plant :=
    fun t => plant_foldl t _ (fun t i => plant_lineChanged t old i) _
  unfold State.changed
  dsimp only
  refine (plant_revalidate _ old).trans ((plant_withDecision _ _).trans ((lines _).trans ((plant_nodeChanged _ old).trans ?_)))
  split
  · exact channels
  · exact (plant_termsChanged _).trans channels

theorem plant_markWords (T : Table) (a n : Nat) : (s.markWords T a n).plant = s.plant := by
  have word : ∀ (s : State) (a : Nat), (s.markWord T a).plant = s.plant := by
    intro s a
    unfold State.markWord
    split
    · split <;> rfl
    · rfl
  induction n generalizing s a with
  | zero => rfl
  | succ n ih => exact (ih _ _).trans (word s a)

/-! ### The image store and the responder -/

theorem plant_failGroup (g : Fin 15) : (s.failGroup g).plant = s.plant := by
  unfold State.failGroup
  dsimp only
  refine (plant_occur _ _).trans ((plant_withFailing _ _ _).trans ?_)
  split
  · exact plant_emptyLocked s
  · rfl

theorem plant_serialWrite (r : SerialAnswer) (a : Nat) (ws : List Word) (storing : StoreState) :
    State.plant { s.serialWrite r a ws with storing := storing } = s.plant := by
  cases r
  · exact plant_withSerial s _ _
  · exact plant_withSerial s _ _

theorem plant_writeComplete (r : SerialAnswer) : (s.writeComplete r).plant = s.plant := by
  unfold State.writeComplete
  split
  · exact plant_serialWrite s r _ _ _
  · exact plant_serialWrite s r _ _ _
  all_goals rfl

theorem plant_storeFrom (i : Nat) : (s.storeFrom i).plant = s.plant := by
  unfold State.storeFrom
  split
  · exact plant_withCopy s _ _
  · exact plant_withCopy s _ _

theorem plant_verified (g : Fin 15) (good : Bool) : (s.verified g good).plant = s.plant := by
  unfold State.verified
  split
  · split
    · rfl
    · exact plant_withDirty s _
  · simp

theorem plant_verifyComplete (r : SerialAnswer) : (s.verifyComplete r).plant = s.plant := by
  unfold State.verifyComplete
  split
  · exact (plant_storeFrom _ _).trans ((plant_verified _ _ _).trans (plant_withSerial s _ _))
  · dsimp only
    split
    · exact plant_withSerial s _ _
    · exact (plant_occur _ _).trans (plant_withSerial s _ _)
  all_goals rfl

theorem plant_runTapLoad (r : Request) : (s.runTapLoad r).1.plant = s.plant := by
  unfold State.runTapLoad
  split
  · split
    · rfl
    · split
      · rfl
      · split
        · rfl
        · rename_i loaded
          obtain ⟨i, -, rfl⟩ := Option.map_eq_some_iff.mp loaded
          exact (plant_markDirty _ _).trans (plant_withTap s _)
  all_goals rfl

theorem plant_runAck (r : Request) : (s.runAck r).1.plant = s.plant := by
  unfold State.runAck
  split
  · dsimp only
    split
    · exact plant_setLatch s _ _
    · rfl
  all_goals rfl

theorem plant_runStore : s.runStore.1.plant = s.plant := by
  unfold State.runStore
  split <;> simp [plant_storeFrom]

/-- An empty stack directs nothing, whatever becomes of the steps. -/
theorem plant_withPlan (plan : Vector PlanStep 64) (empty : s.stack = []) :
    State.plant { s with plan := plan } = s.plant := by
  unfold State.plant State.directing
  dsimp only
  rw [empty, List.map_nil, List.map_nil]

theorem plant_markFlushed (old : Vector PlanStep 64) : (s.markFlushed old).plant = s.plant :=
  plant_foldl s _ (fun t i => by split; exacts [plant_markDirty t _, rfl]) _

theorem plant_runFlushPlans : s.runFlushPlans.1.plant = s.plant := by
  unfold State.runFlushPlans
  split
  · rfl
  · rename_i empty
    refine (plant_revalidate _ s).trans ((plant_markFlushed _ _).trans (plant_withPlan s _ ?_))
    exact not_ne_iff.mp empty

end

end Sys2Proof.Machine
end

