-- ==== Sys2Proof/Proofs/FanRules.lean ====
section
/-! PROOFS. Proofs/FanRules.lean: what each rule of a fan channel does to its request, its outputs and the laws of the channel
(R101 to R113). -/

namespace Sys2Proof.Machine

/-! ### The request stands but for a hand-off or a re-formation (R105) -/

section
variable (F : Fan) (now : Nat) (d : Direction)

@[simp] theorem Fan.request_stallTest : (F.stallTest now).request = F.request := by rw [stallTest_eq]

@[simp] theorem Fan.request_confirm : (F.confirm now d).request = F.request := by
  unfold Fan.confirm; split <;> simp

@[simp] theorem Fan.request_enterStarting : (F.enterStarting now d).request = F.request := by simp [Fan.enterStarting]

@[simp] theorem Fan.request_serveStopped : (F.serveStopped now).request = F.request := by
  unfold Fan.serveStopped
  split
  · split <;> simp
  · rfl

@[simp] theorem Fan.request_enterStopping (x : Option Direction) : (F.enterStopping now x).request = F.request := rfl

@[simp] theorem Fan.request_serve : (F.serve now).request = F.request := by
  unfold Fan.serve
  split <;> (try split) <;> simp

@[simp] theorem Fan.request_tryStopped : (F.tryStopped now).request = F.request := by
  unfold Fan.tryStopped
  split <;> (try split) <;> simp

@[simp] theorem Fan.request_speedChanged : (F.speedChanged now).request = F.request := by
  unfold Fan.speedChanged; split <;> simp

@[simp] theorem Fan.request_setSpeed (v : Nat) : (F.setSpeed now v).request = F.request := by
  unfold Fan.setSpeed; split <;> simp

@[simp] theorem Fan.request_capture (e : Edge) : (F.capture now e).request = F.request := by
  unfold Fan.capture
  cases e <;> dsimp only <;> split <;> rfl

theorem Fan.request_takeRequest (c : Cmd) (duty : Nat) :
    (F.takeRequest now c duty).request = if c.mag = 0 then {} else c := Fan.request_serve _ now

end

/-! ### A request of magnitude 0 keeps the outputs off (R105, R107 to R110) -/

section
variable {F : Fan} (now : Nat)

theorem wants_of_idle (idle : F.request.mag = 0) (d : Direction) : F.wants d = false := by simp [Fan.wants, idle]

theorem serveStopped_idle (idle : F.request.mag = 0) : F.serveStopped now = F := by
  unfold Fan.serveStopped
  split
  · exact if_pos idle
  · rfl

theorem serve_idle_off (idle : F.request.mag = 0) : (F.serve now).runDir = none := by
  have idle := wants_of_idle idle
  cases state : F.state with
  | stopped => rw [serve_stopped_rest now state idle]; simp only [Fan.runDir, state]
  | starting d | running d =>
    rw [serve_running_stops now (d := d) (by simp only [Fan.runDir, state]) (idle d)]
    rfl
  | stopping x =>
    cases x with
    | none => rw [serve_holds now (.inl state)]; simp only [Fan.runDir, state]
    | some d =>
      rw [serve_coasting now state, if_neg (ne_true_of_eq_false (idle d))]
      simp only [Fan.runDir, state]
  | fault => rw [serve_holds now (.inr (.inl state))]; simp only [Fan.runDir, state]
  | disabled => rw [serve_holds now (.inr (.inr state))]; simp only [Fan.runDir, state]

theorem takeRequest_idle_off {c : Cmd} (idle : c.mag = 0) (duty : Nat) : (F.takeRequest now c duty).runDir = none :=
  serve_idle_off now (by simp [idle])

theorem tryStopped_idle_off (idle : F.request.mag = 0) (off : F.runDir = none) : (F.tryStopped now).runDir = none := by
  unfold Fan.tryStopped
  split
  · split
    · rw [serveStopped_idle now (F := { F with state := .stopped }) idle]
      rfl
    · exact off
  all_goals exact off

theorem speedChanged_idle_off (idle : F.request.mag = 0) (off : F.runDir = none) : (F.speedChanged now).runDir = none := by
  unfold Fan.speedChanged
  split
  case h_1 d state => simp [Fan.runDir, state] at off
  case h_2 d state => simp [Fan.runDir, state] at off
  case h_3 => exact tryStopped_idle_off now idle off
  all_goals exact off

theorem setSpeed_idle_off (v : Nat) (idle : F.request.mag = 0) (off : F.runDir = none) :
    (F.setSpeed now v).runDir = none := by
  unfold Fan.setSpeed
  split
  · exact off
  · exact speedChanged_idle_off now (F := { F with speed := v }) idle off

end

/-! ### The laws of a channel by its outputs -/

/-- The laws that no change of a channel's state touches: its request's form (R105), the pending period (R101) and what the
tach has given (R102). -/
structure Fan.Steady (F : Fan) : Prop where
  request : F.request.mag = 0 → F.request.dir = none
  period : F.pendingTp = F.cfg.tp
  capture : F.captureTimer = none →
    F.lastRise = none ∧ F.lastFall = none ∧ F.pNew = none ∧ F.pPrev = none ∧ F.speed = 0

section
variable {F : Fan} {d : Direction}

theorem Fan.Lawful.steady (h : F.Lawful) : F.Steady := ⟨h.request, h.period, h.capture⟩

/-- The laws of a channel whose outputs are off. -/
theorem Fan.Lawful.of_off (steady : F.Steady) (off : F.runDir = none) (duty : F.duty = 0 ∧ F.pendingDuty = 0)
    (start : F.startTimer = none) (stall : F.stallTimer = none)
    (dwell : F.dwellTimer.isSome = true → ∃ x, F.state = .stopping x) (isolated : F.isoOpen = true ↔ F.state = .disabled)
    (coasting : ∀ d, F.state = .stopping (some d) → F.lastDir = some d) : F.Lawful where
  duty _ := duty
  start h := by simp [start] at h
  stall h := by simp [stall] at h
  dwell := dwell
  isolated := isolated
  request := steady.request
  driven d h := by simp [off] at h
  commanded d h := by simp [off] at h
  coasting := coasting
  pending h := by simp [off] at h
  period := steady.period
  capture := steady.capture

/-- The laws of a channel driven in a direction. -/
theorem Fan.Lawful.of_driven (steady : F.Steady) (on : F.runDir = some d) (closed : F.isoOpen = false)
    (last : F.lastDir = some d) (run : F.wants d = true) (dwell : F.dwellTimer = none)
    (start : F.startTimer.isSome = true → F.state = .starting d)
    (stall : F.stallTimer.isSome = true → F.state = .running d)
    (pending : F.request.mag ≤ 1000 → F.cfg.effDmin ≤ F.pendingDuty ∧ F.pendingDuty ≤ F.cfg.effDmax) : F.Lawful where
  duty h := by simp [on] at h
  start h := ⟨d, start h⟩
  stall h := ⟨d, stall h⟩
  dwell h := by simp [dwell] at h
  isolated := by rcases runDir_eq_some.mp on with h | h <;> simp [h, closed]
  request := steady.request
  driven e h := by rw [last]; exact on.symm.trans h
  commanded e h := by rw [on] at h; exact Option.some.inj h ▸ run
  coasting e h := by rcases runDir_eq_some.mp on with g | g <;> simp [g] at h
  pending _ := pending
  period := steady.period
  capture := steady.capture

/-- With the outputs off the start and stall timers stand still (R107 to R111). -/
theorem Fan.Lawful.timers_off (h : F.Lawful) (off : F.runDir = none) : F.startTimer = none ∧ F.stallTimer = none := by
  constructor
  · by_contra running
    obtain ⟨d, state⟩ := h.start (Option.isSome_iff_ne_none.mpr running)
    simp [Fan.runDir, state] at off
  · by_contra running
    obtain ⟨d, state⟩ := h.stall (Option.isSome_iff_ne_none.mpr running)
    simp [Fan.runDir, state] at off

/-- The dwell timer runs in STOPPING alone (R109 to R113). -/
theorem Fan.Lawful.dwell_off (h : F.Lawful) (state : ∀ x, F.state ≠ .stopping x) : F.dwellTimer = none := by
  by_contra running
  obtain ⟨x, coasts⟩ := h.dwell (Option.isSome_iff_ne_none.mpr running)
  exact state x coasts

/-- A channel that is not DISABLED has its isolator closed (R113). -/
theorem Fan.Lawful.closed (h : F.Lawful) (enabled : F.state ≠ .disabled) : F.isoOpen = false :=
  Bool.eq_false_iff.mpr fun isOpen => enabled (h.isolated.mp isOpen)

theorem Fan.Lawful.driven_closed (h : F.Lawful) (on : F.runDir = some d) : F.isoOpen = false :=
  h.closed fun disabled => by simp [Fan.runDir, disabled] at on

theorem Fan.Lawful.driven_dwell (h : F.Lawful) (on : F.runDir = some d) : F.dwellTimer = none :=
  h.dwell_off fun x coasts => by simp [Fan.runDir, coasts] at on

end

/-! ### Entries to the states keep the laws -/

section
variable {F : Fan} {d : Direction} (now : Nat)

theorem Fan.Steady.stopping (h : F.Steady) (closed : F.isoOpen = false) {x : Option Direction}
    (coasts : ∀ d, x = some d → F.lastDir = some d) : (F.enterStopping now x).Lawful :=
  .of_off ⟨h.request, h.period, h.capture⟩ rfl ⟨rfl, rfl⟩ rfl rfl (fun _ => ⟨x, rfl⟩)
    (by simp [Fan.enterStopping, Fan.quiet, closed]) fun d state => coasts d (FanState.stopping.inj state)

theorem Fan.Steady.fault (h : F.Steady) (closed : F.isoOpen = false) : Fan.Lawful { F.quiet with state := .fault } :=
  .of_off ⟨h.request, h.period, h.capture⟩ rfl ⟨rfl, rfl⟩ rfl rfl nofun (by simp [Fan.quiet, closed]) nofun

theorem Fan.Steady.disabled (h : F.Steady) (isOpen : F.isoOpen = true) : Fan.Lawful { F.quiet with state := .disabled } :=
  .of_off ⟨h.request, h.period, h.capture⟩ rfl ⟨rfl, rfl⟩ rfl rfl nofun (by simp [Fan.quiet, isOpen]) nofun

theorem bounded_bounds (F : Fan) :
    F.cfg.effDmin ≤ F.cfg.bounded F.heldDuty ∧ F.cfg.bounded F.heldDuty ≤ F.cfg.effDmax := by
  rw [← startDuty_eq]
  exact startDuty_bounds F

/-- A start puts the outputs on with a duty between the bounds (R101, R107, R108). -/
theorem Fan.Steady.started (h : F.Steady) (closed : F.isoOpen = false) (run : F.wants d = true) :
    (F.started now d).Lawful := by
  unfold Fan.started
  dsimp only
  split
  · exact .of_driven (d := d) ⟨h.request, h.period, h.capture⟩ rfl closed rfl run rfl (fun _ => rfl) nofun
      fun _ => bounded_bounds F
  · exact .of_driven (d := d) ⟨h.request, h.period, h.capture⟩ rfl closed rfl run rfl nofun (fun _ => rfl)
      fun _ => bounded_bounds F

/-- The stall test keeps the laws of a RUNNING channel (R109). -/
theorem Fan.Lawful.stallTest (h : F.Lawful) (running : F.state = .running d) : (F.stallTest now).Lawful := by
  have on : F.runDir = some d := runDir_eq_some.mpr (.inr running)
  have idle : F.startTimer = none := by
    by_contra start
    obtain ⟨e, state⟩ := h.start (Option.isSome_iff_ne_none.mpr start)
    rw [running] at state
    cases state
  rw [stallTest_eq]
  exact .of_driven (d := d) ⟨h.request, h.period, h.capture⟩ on (h.driven_closed on) (h.driven d on) (h.commanded d on)
    (h.driven_dwell on) (fun start => by simp [idle] at start) (fun _ => running)
    (h.pending (Option.isSome_iff_exists.mpr ⟨d, on⟩))

/-- A confirmed start is RUNNING (R108). -/
theorem Fan.Lawful.confirm (h : F.Lawful) (starting : F.state = .starting d) : (F.confirm now d).Lawful := by
  have on : F.runDir = some d := runDir_eq_some.mpr (.inl starting)
  unfold Fan.confirm
  split
  · refine Fan.Lawful.stallTest (d := d) now (.of_driven (d := d) ⟨h.request, h.period, h.capture⟩ rfl (h.driven_closed on)
      (h.driven d on) (h.commanded d on) (h.driven_dwell on) nofun (fun _ => rfl) ?_) rfl
    exact h.pending (Option.isSome_iff_exists.mpr ⟨d, on⟩)
  · exact h

/-- A lawful channel acts on a request of the right form by its state's rule (R105, R107 to R111). -/
theorem Fan.Lawful.serve_request (h : F.Lawful) {c : Cmd} (form : c.mag = 0 → c.dir = none) (duty : Nat) :
    (Fan.serve now { F with request := c, heldDuty := duty }).Lawful := by
  obtain ⟨G, hG⟩ : ∃ G : Fan, G = { F with request := c, heldDuty := duty } := ⟨_, rfl⟩
  rw [← hG]
  have steady : G.Steady := hG ▸ ⟨form, h.period, h.capture⟩
  have state : G.state = F.state := hG ▸ rfl
  have rest : F.runDir = none → G.Lawful := by
    intro off
    obtain ⟨start, stall⟩ := h.timers_off off
    exact hG ▸ .of_off (hG ▸ steady) off (h.duty off) start stall h.dwell h.isolated h.coasting
  have begun : ∀ d, F.state ≠ .disabled → G.wants d = true → (G.started now d).Lawful :=
    fun d enabled => steady.started now (hG ▸ h.closed enabled)
  have stops : ∀ d, F.runDir = some d → (G.enterStopping now (some d)).Lawful := fun d on =>
    steady.stopping now (hG ▸ h.driven_closed on) fun e same => by subst hG; exact Option.some.inj same ▸ h.driven d on
  have goesOn : ∀ d, F.runDir = some d → G.wants d = true → Fan.Lawful { G with pendingDuty := G.startDuty } := by
    intro d on run
    refine .of_driven (d := d) ⟨steady.request, steady.period, steady.capture⟩ (hG ▸ on) (hG ▸ h.driven_closed on)
      (hG ▸ h.driven d on) run (hG ▸ h.driven_dwell on) (fun start => ?_) (fun stall => ?_) fun _ => startDuty_bounds G
    · subst hG
      obtain ⟨e, starting⟩ := h.start start
      have same := (runDir_eq_some.mpr (.inl starting)).symm.trans on
      exact Option.some.inj same ▸ starting
    · subst hG
      obtain ⟨e, running⟩ := h.stall stall
      have same := (runDir_eq_some.mpr (.inr running)).symm.trans on
      exact Option.some.inj same ▸ running
  cases hF : F.state with
  | stopped =>
    have off : F.runDir = none := by simp only [Fan.runDir, hF]
    by_cases run : ∃ d, G.wants d = true
    · obtain ⟨d, run⟩ := run
      rw [serve_stopped_run now (state.trans hF) run]
      exact begun d (by simp [hF]) run
    · rw [serve_stopped_rest now (state.trans hF) fun d => Bool.eq_false_iff.mpr fun run' => run ⟨d, run'⟩]
      exact rest off
  | starting d =>
    have on : F.runDir = some d := runDir_eq_some.mpr (.inl hF)
    cases run : G.wants d with
    | true => rw [serve_starting_goesOn now (state.trans hF) run]; exact goesOn d on run
    | false => rw [serve_running_stops now (hG ▸ on) run]; exact stops d on
  | running d =>
    have on : F.runDir = some d := runDir_eq_some.mpr (.inr hF)
    cases run : G.wants d with
    | true =>
      rw [serve_running_goesOn now (state.trans hF) run]
      exact (goesOn d on run).stallTest now (d := d) (state.trans hF)
    | false => rw [serve_running_stops now (hG ▸ on) run]; exact stops d on
  | stopping x =>
    have off : F.runDir = none := by simp only [Fan.runDir, hF]
    cases x with
    | none => rw [serve_holds now (.inl (state.trans hF))]; exact rest off
    | some d =>
      rw [serve_coasting now (state.trans hF)]
      split
      · rename_i run
        exact begun d (by simp [hF]) run
      · exact rest off
  | fault => rw [serve_holds now (.inr (.inl (state.trans hF)))]; exact rest (by simp only [Fan.runDir, hF])
  | disabled => rw [serve_holds now (.inr (.inr (state.trans hF)))]; exact rest (by simp only [Fan.runDir, hF])

theorem Fan.Lawful.serve (h : F.Lawful) : (F.serve now).Lawful := h.serve_request now h.request F.heldDuty

theorem Fan.Lawful.takeRequest (h : F.Lawful) (c : Cmd) (duty : Nat) : (F.takeRequest now c duty).Lawful := by
  refine h.serve_request now ?_ _
  split
  · exact fun _ => rfl
  · exact fun idle => absurd idle ‹_›

/-- A still channel at the end of its dwell is STOPPED, and its request is served from there (R110). -/
theorem Fan.Lawful.tryStopped (h : F.Lawful) : (F.tryStopped now).Lawful := by
  unfold Fan.tryStopped
  split
  · rename_i x state
    have off : F.runDir = none := by simp only [Fan.runDir, state]
    obtain ⟨start, stall⟩ := h.timers_off off
    split
    · rename_i still
      obtain ⟨dwell, -⟩ := still
      have stopped : Fan.Lawful { F with state := .stopped } :=
        .of_off ⟨h.request, h.period, h.capture⟩ rfl (h.duty off) start stall (fun runs => by simp [dwell] at runs)
          (by simp [h.closed (by simp [state])]) nofun
      exact stopped.serve now
    · exact h
  all_goals exact h

theorem Fan.Lawful.speedChanged (h : F.Lawful) : (F.speedChanged now).Lawful := by
  unfold Fan.speedChanged
  split
  case h_1 d state => exact h.confirm now state
  case h_2 d state => exact h.stallTest now state
  case h_3 => exact h.tryStopped now
  all_goals exact h

/-- A measured speed keeps the laws where the channel with that speed has them (R103). -/
theorem Fan.Lawful.setSpeed {v : Nat} (h : Fan.Lawful { F with speed := v }) : (F.setSpeed now v).Lawful := by
  unfold Fan.setSpeed
  split
  · rename_i same
    subst same
    exact h
  · exact h.speedChanged now

/-- Hand-offs and re-formations keep the laws. -/
theorem FanReach.lawful {G : Fan} (reach : FanReach now F G) (h : F.Lawful) : G.Lawful := by
  induction reach with
  | refl => exact h
  | tail _ move ih =>
    cases move with
    | request c duty => exact ih.takeRequest now c duty
    | handed c duty => exact ⟨ih.duty, ih.start, ih.stall, ih.dwell, ih.isolated, ih.request, ih.driven, ih.commanded,
        ih.coasting, ih.pending, ih.period, ih.capture⟩

end

/-! ### Captured edges and stored words -/

/-- A captured edge changes what the tach has given and nothing else (R102). -/
theorem Fan.capture_eq (F : Fan) (now : Nat) (e : Edge) : F.capture now e =
    { F with
      captureTimer := some (now + usOfSec 1), lastRise := (F.capture now e).lastRise
      lastFall := (F.capture now e).lastFall, pNew := (F.capture now e).pNew, pPrev := (F.capture now e).pPrev } := by
  unfold Fan.capture
  cases e <;> dsimp only <;> split <;> rfl

/-- A word of a record other than Tp, Dmin and Dmax leaves these (R99). -/
theorem FanCfg.put_dutyFields (c : FanCfg) {w : Nat} (other : ¬ (4 ≤ w ∧ w ≤ 6)) (v : Word) :
    (c.put w v).1.tp = c.tp ∧ (c.put w v).1.dMin = c.dMin ∧ (c.put w v).1.dMax = c.dMax := by
  unfold FanCfg.put
  split <;> first | exact ⟨rfl, rfl, rfl⟩ | omega

theorem FanCfg.put_passageSpeed {c : FanCfg} (h : 1 ≤ c.passageSpeed) (w : Nat) (v : Word) :
    1 ≤ (c.put w v).1.passageSpeed := by
  unfold FanCfg.put
  split
  case h_4 =>
    rw [putNat_eq (by decide)]
    exact le_max_left _ _
  all_goals exact h

/-- A record with other bounds: the pending duty of a driven channel is formed again within them (R95, R101). -/
theorem Fan.Lawful.dutyFieldsWritten {F : Fan} (h : F.Lawful) (c : FanCfg) : Fan.Lawful (Fan.dutyFieldsWritten { F with cfg := c }) where
  duty off := by
    have off : F.runDir = none := off
    exact ⟨(h.duty off).1, (if_neg (by simp [Fan.runDir] at off ⊢; exact off)).trans (h.duty off).2⟩
  start := h.start
  stall := h.stall
  dwell := h.dwell
  isolated := h.isolated
  request := h.request
  driven := h.driven
  commanded := h.commanded
  coasting := h.coasting
  pending on mag := by
    obtain ⟨d, driven⟩ := Option.isSome_iff_exists.mp on
    have formed : (Fan.dutyFieldsWritten { F with cfg := c }).pendingDuty = c.dutyOf F.request.mag := if_pos on
    rw [formed]
    exact dutyOf_bounds c (wants_iff.mp (h.commanded d driven)).1 mag
  period := rfl
  capture := h.capture

/-- A record with the same Tp, Dmin and Dmax. -/
theorem Fan.Lawful.otherFieldsWritten {F : Fan} (h : F.Lawful) {c : FanCfg} (tp : c.tp = F.cfg.tp) (dMin : c.dMin = F.cfg.dMin)
    (dMax : c.dMax = F.cfg.dMax) : Fan.Lawful { F with cfg := c } where
  duty := h.duty
  start := h.start
  stall := h.stall
  dwell := h.dwell
  isolated := h.isolated
  request := h.request
  driven := h.driven
  commanded := h.commanded
  coasting := h.coasting
  pending on mag := by
    have low : c.effDmin = F.cfg.effDmin := by rw [FanCfg.effDmin, FanCfg.effDmin, dMin, tp]
    have high : c.effDmax = F.cfg.effDmax := by rw [FanCfg.effDmax, FanCfg.effDmax, dMax, tp, low]
    dsimp only
    rw [low, high]
    exact h.pending on mag
  period := h.period.trans tp.symm
  capture := h.capture

/-! ### The rules that take no request -/

/-- G follows F by a rule of the channel that takes no request: the laws are kept, the request stands, outputs that are off
at magnitude 0 stay off, and a passage speed above 0 stays so (R99). -/
structure Fan.KeepsRequest (F G : Fan) : Prop where
  lawful : F.Lawful → G.Lawful
  request : G.request = F.request
  idle : F.request.mag = 0 → F.runDir = none → G.runDir = none
  speed : 1 ≤ F.cfg.passageSpeed → 1 ≤ G.cfg.passageSpeed

namespace Fan.KeepsRequest

variable {F G H : Fan} (now : Nat)

theorem refl (F : Fan) : F.KeepsRequest F := ⟨id, rfl, fun _ off => off, id⟩

theorem trans (h : F.KeepsRequest G) (g : G.KeepsRequest H) : F.KeepsRequest H :=
  ⟨g.lawful ∘ h.lawful, g.request.trans h.request, fun idle off => g.idle (by rw [h.request, idle]) (h.idle idle off),
    g.speed ∘ h.speed⟩

theorem elapse (us : Nat) : F.KeepsRequest (F.elapse us) where
  lawful h := ⟨h.duty, h.start, h.stall, h.dwell, h.isolated, h.request, h.driven, h.commanded, h.coasting, h.pending,
    h.period, h.capture⟩
  request := rfl
  idle _ off := off
  speed := id

theorem isoTimer (timer : Timer) : F.KeepsRequest { F with isoTimer := timer } where
  lawful h := ⟨h.duty, h.start, h.stall, h.dwell, h.isolated, h.request, h.driven, h.commanded, h.coasting, h.pending,
    h.period, h.capture⟩
  request := rfl
  idle _ off := off
  speed := id

theorem periodStart : F.KeepsRequest F.periodStart where
  lawful h := ⟨fun off => ⟨(h.duty off).2, (h.duty off).2⟩, h.start, h.stall, h.dwell, h.isolated, h.request, h.driven,
    h.commanded, h.coasting, h.pending, h.period, h.capture⟩
  request := rfl
  idle _ off := off
  speed := id

/-- An expiry of the start or stall timer, which runs in STARTING or RUNNING alone (R111). -/
theorem fault (timer : F.startTimer.isSome = true ∨ F.stallTimer.isSome = true) :
    F.KeepsRequest { F.quiet with state := .fault } where
  lawful h := by
    refine h.steady.fault (h.closed ?_)
    rcases timer with runs | runs
    · obtain ⟨d, state⟩ := h.start runs
      simp [state]
    · obtain ⟨d, state⟩ := h.stall runs
      simp [state]
  request := rfl
  idle _ _ := rfl
  speed := id

/-- An isolator accepted open (R113). -/
theorem disabled : F.KeepsRequest { Fan.quiet { F with isoOpen := true, isoTimer := none } with state := .disabled } where
  lawful h := Fan.Steady.disabled (F := { F with isoOpen := true, isoTimer := none }) ⟨h.request, h.period, h.capture⟩ rfl
  request := rfl
  idle _ _ := rfl
  speed := id

/-- Entry to STOPPING with the last direction, and the request held is served from there (R110, R112, R113). -/
theorem coast (enabled : F.Lawful → F.isoOpen = false) :
    F.KeepsRequest ((F.enterStopping now F.lastDir).serve now) where
  lawful h := (h.steady.stopping now (enabled h) fun _ last => last).serve now
  request := Fan.request_serve _ now
  idle idle _ := serve_idle_off now idle
  speed := by simp

/-- An isolator accepted closed (R113). -/
theorem closed : F.KeepsRequest
    ((Fan.enterStopping now F.lastDir { F with isoOpen := false, isoTimer := none }).serve now) where
  lawful h := (Fan.Steady.stopping (F := { F with isoOpen := false, isoTimer := none }) now
    ⟨h.request, h.period, h.capture⟩ rfl fun _ last => last).serve now
  request := Fan.request_serve _ now
  idle idle _ := serve_idle_off now idle
  speed := by simp

/-- The dwell timer's expiry (R110). -/
theorem dwellExpiry : F.KeepsRequest (Fan.tryStopped now { F with dwellTimer := none }) where
  lawful h := Fan.Lawful.tryStopped now
    ⟨h.duty, h.start, h.stall, nofun, h.isolated, h.request, h.driven, h.commanded, h.coasting, h.pending, h.period,
      h.capture⟩
  request := Fan.request_tryStopped _ now
  idle idle off := tryStopped_idle_off now (F := { F with dwellTimer := none }) idle off
  speed := by simp

/-- An accepted edge and the speed it gives (R102, R103). -/
theorem edge (e : Edge) (v : Nat) : F.KeepsRequest ((F.capture now e).setSpeed now v) where
  lawful h := by
    refine Fan.Lawful.setSpeed now ?_
    rw [Fan.capture_eq]
    exact ⟨h.duty, h.start, h.stall, h.dwell, h.isolated, h.request, h.driven, h.commanded, h.coasting, h.pending,
      h.period, nofun⟩
  request := by simp
  idle idle off := by
    refine setSpeed_idle_off now v (by simpa using idle) ?_
    rw [Fan.capture_eq]
    exact off
  speed := by simp

/-- An overflow of the capture timer (R102). -/
theorem overflow : F.KeepsRequest (F.overflow now) := by
  unfold Fan.overflow
  split
  · exact refl F
  · exact
      { lawful := fun h => Fan.Lawful.setSpeed now
          ⟨h.duty, h.start, h.stall, h.dwell, h.isolated, h.request, h.driven, h.commanded, h.coasting, h.pending, h.period,
            fun _ => ⟨rfl, rfl, rfl, rfl, rfl⟩⟩
        request := by simp
        idle := fun idle off => setSpeed_idle_off now _ idle off
        speed := by simp }

/-- A stored word of the record: Tp, Dmin and Dmax re-form the pending period and duty (R101). -/
theorem putCfg (w : Nat) (v : Word) : F.KeepsRequest (F.putCfg w v).1 where
  lawful h := by
    unfold Fan.putCfg
    dsimp only
    split
    · exact h.dutyFieldsWritten _
    · rename_i other
      obtain ⟨tp, dMin, dMax⟩ := FanCfg.put_dutyFields F.cfg other v
      exact h.otherFieldsWritten tp dMin dMax
  request := by
    unfold Fan.putCfg
    dsimp only
    split <;> rfl
  idle _ off := by
    unfold Fan.putCfg
    dsimp only
    split <;> exact off
  speed h := by
    rw [Fan.cfg_putCfg]
    exact FanCfg.put_passageSpeed h w v

end Fan.KeepsRequest

end Sys2Proof.Machine
end

