-- ==== Sys2Proof/Proofs/FanLaws.lean ====
section
/-! PROOFS. Proofs/FanLaws.lean: every step keeps the laws of the fan channels (R101 to R113), holds the jets at 0 under the
guard and in STARTING (R106, R116), and holds the passage fan to its doors (R114). The channels move by their own rules, and by
hand-offs and re-formations; a change of the plant's directing steps is followed by a hand-off, which restores the overrides. -/

namespace Sys2Proof.Machine

/-! ### What a part of a step keeps -/

/-- The laws of the channels and the two override laws go from s to t. -/
structure State.KeepsFans (s t : State) : Prop where
  fans : s.FanLaw → t.FanLaw
  guard : s.GuardLaw → t.GuardLaw
  passageFan : s.PassageLaw → t.PassageLaw

theorem State.FanLaw.of_consequence {E : EntryId → Prop} {s t : State} (h : s.FanLaw) (g : Consequence E s t) : t.FanLaw :=
  fun f => FanReach.lawful s.now (g.fans f) (h f)

namespace State.KeepsFans

variable {s t r : State}

theorem refl (s : State) : s.KeepsFans s := ⟨id, id, id⟩

theorem trans (h : s.KeepsFans t) (g : t.KeepsFans r) : s.KeepsFans r :=
  ⟨g.fans ∘ h.fans, g.guard ∘ h.guard, g.passageFan ∘ h.passageFan⟩

/-- Channels that follow their own rules under the same overrides. -/
theorem of_rules (fans : ∀ f : FanId, Fan.KeepsRequest s.fans[f] t.fans[f]) (held : t.jetsHeld = s.jetsHeld)
    (runs : t.passageRuns = s.passageRuns) : s.KeepsFans t where
  fans law f := (fans f).lawful (law f)
  guard law hold f jet := by
    obtain ⟨idle, off⟩ := law (held ▸ hold) f jet
    exact ⟨by rw [(fans f).request, idle], (fans f).idle idle off⟩
  passageFan law :=
    { speed := (fans passage).speed law.speed
      runs := fun run => by rw [(fans passage).request]; exact law.runs (runs ▸ run)
      stops := fun rest => by rw [(fans passage).request]; exact law.stops (runs ▸ rest) }

theorem of_plant (h : t.plant = s.plant) : s.KeepsFans t :=
  of_rules (fun f => by rw [plant_fans h]; exact .refl _) (plant_jetsHeld h) (plant_passageRuns h)

theorem setFan (f : FanId) {F : Fan} (h : Fan.KeepsRequest s.fans[f] F) : s.KeepsFans (s.setFan f F) := by
  refine of_rules (fun g => ?_) rfl rfl
  rw [fans_setFan]
  split
  · rename_i same
    exact same ▸ h
  · exact .refl _

/-- A door that neither enters nor leaves OPEN and HELD. -/
theorem setDoor (d : DoorId) {D : Door} (h : D.isOpenState = s.doors[d].isOpenState) : s.KeepsFans (s.setDoor d D) := by
  refine of_rules (fun f => .refl _) rfl (passageRuns_of_directing rfl rfl fun e => ?_)
  rw [doors_setDoor]
  split
  · rename_i same
    rw [h, same]
  · rfl

end State.KeepsFans

open State.KeepsFans (of_plant of_rules)

/-! ### Hand-offs and re-formations restore the overrides -/

section
variable (s : State)

theorem handOff_jetsHeld : s.handOff.jetsHeld = s.jetsHeld := by rw [handOff_eq]; rfl

theorem handOff_passageRuns : s.handOff.passageRuns = s.passageRuns := by rw [handOff_eq]; rfl

/-- A hand-off holds the jets while an override applies (R105, R106, R116). -/
theorem handOff_guardLaw : s.handOff.GuardLaw := by
  intro hold f jet
  rw [handOff_jetsHeld] at hold
  rw [handOff_fans, if_neg jet]
  unfold Fan.takeHanded
  rw [if_pos hold]
  exact ⟨by rw [Fan.request_takeRequest]; rfl, takeRequest_idle_off s.now rfl _⟩

/-- A request that is a run request FORWARD exactly while the passage fan has reason to run (R114). -/
theorem takeRequest_passage (F : Fan) (now duty : Nat) {m : Nat} (speed : 1 ≤ m) (runs : Bool) :
    (runs = true → 1 ≤ (F.takeRequest now (if runs then ⟨m, some .forward⟩ else {}) duty).request.mag ∧
      (F.takeRequest now (if runs then ⟨m, some .forward⟩ else {}) duty).request.dir = some .forward) ∧
    (runs = false → (F.takeRequest now (if runs then ⟨m, some .forward⟩ else {}) duty).request.mag = 0) := by
  rw [Fan.request_takeRequest]
  cases runs
  · simp
  · have some : m ≠ 0 := by omega
    simp [some, speed]

theorem handOff_passageLaw (speed : 1 ≤ s.fans[passage].cfg.passageSpeed) : s.handOff.PassageLaw := by
  obtain ⟨runs, stops⟩ := takeRequest_passage s.fans[passage].withSpeedHanded s.now
    (s.fans[passage].cfg.dutyOf s.fans[passage].cfg.passageSpeed) speed s.passageRuns
  have same := handOff_passageRuns s
  have fan := handOff_fans s passage
  rw [if_pos rfl] at fan
  refine ⟨?_, fun run => ?_, fun rest => ?_⟩
  · rw [fan, Fan.cfg_takeRequest]
    exact speed
  · rw [fan]
    exact runs (same ▸ run)
  · rw [fan]
    exact stops (same ▸ rest)

theorem reformPassage_passageLaw (speed : 1 ≤ s.fans[passage].cfg.passageSpeed) : s.reformPassage.PassageLaw := by
  obtain ⟨m, hm⟩ : ∃ m, m = if s.fans[passage].handed.mag = 0 then s.fans[passage].cfg.passageSpeed
    else s.fans[passage].handed.mag := ⟨_, rfl⟩
  have positive : 1 ≤ m := by
    rw [hm]
    split <;> omega
  obtain ⟨runs, stops⟩ := takeRequest_passage s.fans[passage] s.now (s.fans[passage].cfg.dutyOf m) positive s.passageRuns
  rw [reformPassage_eq s hm]
  refine ⟨?_, fun run => ?_, fun rest => ?_⟩
  · rw [fans_setFan_self, Fan.cfg_takeRequest]
    exact speed
  · rw [fans_setFan_self]
    exact runs run
  · rw [fans_setFan_self]
    exact stops rest

theorem reformPassage_keepsFans : s.KeepsFans s.reformPassage where
  fans law := law.of_consequence (reformPassage_consequence anyEntry s)
  guard law hold f jet := by
    have same : s.reformPassage.fans[f] = s.fans[f] := (fans_setFan s passage f _).trans (if_neg jet)
    rw [same]
    exact law hold f jet
  passageFan law := reformPassage_passageLaw s law.speed

/-- The jets formed again (R105): held while an override applies, and the passage channel as it stood. -/
theorem reformJets_guardLaw : ((s.reformJet jet1).reformJet jet2).GuardLaw := by
  intro hold f jet
  have hold : s.jetsHeld = true := hold
  rw [reformJets_fans, if_neg jet, if_pos hold]
  exact ⟨by rw [Fan.request_takeRequest]; rfl, takeRequest_idle_off s.now rfl _⟩

theorem reformJets_keepsFans : s.KeepsFans ((s.reformJet jet1).reformJet jet2) where
  fans law := law.of_consequence ((reformJet_consequence anyEntry s jet1).trans (reformJet_consequence anyEntry _ jet2))
  guard _ := reformJets_guardLaw s
  passageFan law := by
    have same : ((s.reformJet jet1).reformJet jet2).fans[passage] = s.fans[passage] := by
      rw [reformJets_fans, if_pos rfl]
    exact ⟨by rw [same]; exact law.speed, fun run => by rw [same]; exact law.runs run,
      fun rest => by rw [same]; exact law.stops rest⟩

theorem passageSpeed_of_records {s t : State} (h : t.records = s.records) :
    t.fans[passage].cfg.passageSpeed = s.fans[passage].cfg.passageSpeed :=
  congrArg (fun r : Records => (r.fans passage).passageSpeed) h

/-- Whatever else has moved in an event, the hand-off after it restores the overrides. -/
theorem handedOff_keepsFans {s u : State} (fans : s.FanLaw → u.FanLaw) (records : u.records = s.records) :
    s.KeepsFans u.handOff where
  fans law := (fans law).of_consequence (handOff_consequence anyEntry u)
  guard _ := handOff_guardLaw u
  passageFan law := handOff_passageLaw u ((passageSpeed_of_records records).symm ▸ law.speed)

theorem renewed_keepsFans {s u : State} (fans : s.FanLaw → u.FanLaw) (records : u.records = s.records) :
    s.KeepsFans u.renew :=
  handedOff_keepsFans (fun law => (fans law).of_consequence (seeded_consequence anyEntry u))
    ((seeded_consequence anyEntry u).records.trans records)

/-! ### Doors -/

theorem isOpenState_supervise (D old : Door) (now : Nat) : (D.supervise now old).isOpenState = D.isOpenState := by
  unfold Door.supervise
  split
  · rfl
  · split <;> rfl

theorem isOpenState_takeLamp (D : Door) (now : Nat) (old new : LampMode) :
    (D.takeLamp now old new).isOpenState = D.isOpenState := by
  unfold Door.takeLamp
  split <;> (try split) <;> rfl

theorem isOpenState_rawChange (D : Door) (now : Nat) (t : Stamp) (i : DoorInput) (level : Bool) :
    (D.rawChange now t i level).isOpenState = D.isOpenState := by
  unfold Door.rawChange
  dsimp only
  split
  · cases i <;> rfl
  · split
    · rfl
    · cases i <;> rfl

theorem isOpenState_lampMatch (D : Door) : D.lampMatch.isOpenState = D.isOpenState := by
  unfold Door.lampMatch
  split <;> rfl

/-- A door's change and what follows it: the passage request follows where the door enters or leaves OPEN and HELD (R114). -/
theorem doorTo_keepsFans (d : DoorId) (D : Door) (egress : Bool) : s.KeepsFans (s.doorTo d D egress) := by
  obtain ⟨w, hw⟩ : ∃ w, w = (((s.setDoor d (D.supervise s.now s.doors[d])).occurIf (srcEgress d) egress).follow
      (srcDoorFault d) (s.doors[d].state == .fault) (D.state == .fault)).follow
      (srcHeld d) (s.doors[d].state == .held) (D.state == .held) := ⟨_, rfl⟩
  have plant : w.plant = (s.setDoor d (D.supervise s.now s.doors[d])).plant := by simp [hw]
  have follows : s.doorTo d D egress = w.passageFollows s.doors[d].isOpenState D.isOpenState := by rw [hw]; rfl
  rw [follows]
  unfold State.passageFollows
  split
  · rename_i same
    exact .trans (.setDoor d (by rw [isOpenState_supervise, same])) (of_plant plant)
  · have fans : w.fans = s.fans := (plant_fans plant).trans rfl
    have held : w.jetsHeld = s.jetsHeld := (plant_jetsHeld plant).trans rfl
    exact
      { fans := fun law => State.FanLaw.of_consequence (fun f => fans ▸ law f) (reformPassage_consequence anyEntry w)
        guard := fun law => (reformPassage_keepsFans w).guard fun hold f jet => fans ▸ law (held ▸ hold) f jet
        passageFan := fun law => reformPassage_passageLaw w (fans ▸ law.speed) }

theorem doorDebounced_keepsFans (d : DoorId) (i : DoorInput) : s.KeepsFans (s.doorDebounced d i) := by
  unfold State.doorDebounced
  dsimp only
  split
  · exact .refl s
  · exact doorTo_keepsFans s d _ _

theorem plant_withPins (pins : Pins) : State.plant { s with pins := pins } = s.plant := rfl

theorem doorInput_keepsFans (d : DoorId) (i : DoorInput) (level : Bool) : s.KeepsFans (s.doorInput d i level) :=
  .trans (.setDoor d (isOpenState_rawChange _ _ _ i level)) (of_plant (plant_withPins _ _))

theorem doorsLeaveStarting_keepsFans : s.KeepsFans s.doorsLeaveStarting :=
  .trans (doorTo_keepsFans s 0 _ false) (doorTo_keepsFans _ 1 _ false)

theorem retakeLamp_keepsFans : s.KeepsFans s.retakeLamp := by
  refine of_rules (fun f => .refl _) rfl (passageRuns_of_directing rfl rfl fun d => ?_)
  have lamp : s.retakeLamp.doors[d] = s.doors[d].takeLamp s.now s.lampMode s.lampDirective := by simp [State.retakeLamp]
  rw [lamp, isOpenState_takeLamp]

/-! ### The plan unit -/

/-- What follows a change of the stack restores the overrides (R157, R159, R163). -/
theorem stackChanged_keepsFans {s u : State} (h : Consequence anyEntry s u) : s.KeepsFans u.afterStackChange :=
  .trans (renewed_keepsFans (fun law => law.of_consequence h) h.records) <|
    .trans (.trans (doorTo_keepsFans _ 0 _ false) (doorTo_keepsFans _ 1 _ false)) (retakeLamp_keepsFans _)

theorem decideN_keepsFans (k : Nat) : s.KeepsFans (State.decideN k s) := by
  induction k generalizing s with
  | zero => exact .refl s
  | succ k ih =>
    unfold State.decideN
    split
    · exact .refl s
    · exact .trans (stackChanged_keepsFans (launch_consequence (fun _ _ => trivial) s _ _)) (ih _)

theorem settle_keepsFans : s.KeepsFans s.settle := by
  have step : s.KeepsFans s.settleStep := by
    unfold State.settleStep
    split
    · exact .refl s
    · split
      · exact stackChanged_keepsFans (endStep_consequence trivial s)
      · exact .refl s
  show s.KeepsFans s.settleStep.settleDecisions
  refine step.trans ?_
  unfold State.settleDecisions
  split
  · exact .trans (decideN_keepsFans _ 8) (of_plant (plant_withDecision _ _))
  · exact .refl _

theorem stepExpired_keepsFans : s.KeepsFans s.stepExpired := by
  unfold State.stepExpired
  split
  · exact .refl s
  · split
    · exact stackChanged_keepsFans (endStep_consequence trivial s)
    · exact .refl s
    · exact .refl s

theorem runClearPlan_keepsFans (r : Request) : s.KeepsFans (s.runClearPlan r).1 := by
  unfold State.runClearPlan State.clearActive State.clearAll
  split
  · dsimp only
    split
    · exact .refl s
    · exact stackChanged_keepsFans (endActive_consequence trivial s)
  · split
    · dsimp only
      split
      · exact .refl s
      · exact stackChanged_keepsFans (endAll_consequence trivial _ s)
    · exact .refl s

theorem runOpen_keepsFans : s.KeepsFans s.runOpen.1 := by
  unfold State.runOpen
  split
  · exact .trans (renewed_keepsFans (s := s) (u := { s with nodeState := .operating }) id rfl)
      (of_plant (plant_withDecision _ _))
  · exact .refl s

/-! ### Fans -/

theorem fanFault_keepsFans {f : FanId} (timer : s.fans[f].startTimer.isSome = true ∨ s.fans[f].stallTimer.isSome = true) :
    s.KeepsFans (s.fanFault f) :=
  .trans (.setFan f (.fault timer)) (of_plant (plant_occur _ _))

theorem startExpired_keepsFans (f : FanId) : s.KeepsFans (s.startExpired f) := by
  unfold State.startExpired
  split
  · exact .refl s
  · rename_i runs
    exact fanFault_keepsFans s (.inl (Option.isSome_iff_ne_none.mpr runs))

theorem stallExpired_keepsFans (f : FanId) : s.KeepsFans (s.stallExpired f) := by
  unfold State.stallExpired
  split
  · exact .refl s
  · rename_i runs
    exact fanFault_keepsFans s (.inr (Option.isSome_iff_ne_none.mpr runs))

theorem dwellExpired_keepsFans (f : FanId) : s.KeepsFans (s.dwellExpired f) := by
  unfold State.dwellExpired
  split
  · exact .refl s
  · exact .setFan f (.dwellExpiry s.now)

theorem plant_withFreeCount (n : Nat) : State.plant { s with freeCount := n } = s.plant := rfl

theorem tachEdge_keepsFans (f : FanId) (e : Edge) : s.KeepsFans (s.tachEdge f e) :=
  .trans (.setFan f (.edge s.now e _)) (of_plant (plant_withFreeCount _ _))

theorem fanReset_keepsFans (f : FanId) : s.KeepsFans (s.fanReset f) := by
  unfold State.fanReset
  dsimp only
  split
  · rename_i fault
    exact .trans (.setFan f (.coast s.now fun law => law.closed fun disabled => nomatch fault.symm.trans disabled)) (of_plant (plant_clearSource _ _))
  · exact .refl s

theorem isolatorAccepted_keepsFans (f : FanId) : s.KeepsFans (s.isolatorAccepted f) := by
  unfold State.isolatorAccepted
  split
  · exact .refl s
  · cases s.fans[f].isoOpen
    · exact .trans (.setFan f .disabled) (of_plant ((plant_occur _ _).trans (plant_clearSource _ _)))
    · exact .trans (.setFan f (.closed s.now)) (of_plant (plant_clearSource _ _))

theorem isolatorInput_keepsFans (f : FanId) (isOpen : Bool) : s.KeepsFans (s.isolatorInput f isOpen) :=
  .trans (.setFan f (.isoTimer _)) (of_plant (plant_withPins _ _))

theorem plant_withDemand (timer : Timer) (kinds : Kinds) (demand dLim : Nat) (u : Int) :
    State.plant { s with controlTimer := timer, kinds := kinds, demand := demand, dLim := dLim, u := u } = s.plant := rfl

theorem controlExpired_keepsFans : s.KeepsFans s.controlExpired := by
  have plant : (({ s with controlTimer := s.startSec s.node.controlPeriod } : State).evaluate.kindSources s.kinds).plant =
      s.plant := (plant_kindSources _ _).trans (plant_withDemand s _ _ _ _ _)
  refine handedOff_keepsFans (of_plant plant).fans ?_
  rw [records_kindSources, records_evaluate]
  rfl

end

/-! ### The line -/

section
variable (s : State)

theorem setPosA_keepsFans (k : Nat) : s.KeepsFans (s.setPosA k) := by
  unfold State.setPosA
  split
  · exact .refl s
  · obtain ⟨u, hu⟩ : ∃ u, u = (State.occur { s with posA := k } srcPosition).flushUnlocked := ⟨_, rfl⟩
    have plant : u.plant = State.plant { s with posA := k } := by
      rw [hu]
      exact (plant_withTap _ _).trans (plant_occur _ _)
    have fans : u.fans = s.fans := (plant_fans plant).trans rfl
    have node : u.nodeState = s.nodeState := (plant_nodeState plant).trans rfl
    have runs : u.passageRuns = s.passageRuns := (plant_passageRuns plant).trans rfl
    rw [← hu]
    unfold State.guardRetest
    split
    · rename_i same
      have held : u.jetsHeld = s.jetsHeld := by
        unfold State.jetsHeld
        rw [same, node]
      exact of_rules (fun f => by rw [fans]; exact .refl _) held runs
    · exact
        { fans := fun law => (reformJets_keepsFans u).fans fun f => fans ▸ law f
          guard := fun _ => reformJets_guardLaw u
          passageFan := fun law => (reformJets_keepsFans u).passageFan
            ⟨fans ▸ law.speed, fun run => fans ▸ law.runs (runs ▸ run), fun rest => fans ▸ law.stops (runs ▸ rest)⟩ }

theorem takeCount_keepsFans (p : Port) (side : Side) (k : Byte) : s.KeepsFans (s.takeCount p side k) := by
  unfold State.takeCount
  split
  · exact .trans (setPosA_keepsFans s _) (of_plant (plant_relayCount _ _ _ k))
  · exact of_plant ((plant_relayCount _ _ _ k).trans rfl)
  · exact of_plant (plant_occur s _)
  · exact of_plant (plant_occur s _)

theorem goodUp_keepsFans (p : Port) (dispatch : State → State) (h : ∀ s : State, s.KeepsFans (dispatch s)) :
    s.KeepsFans (s.goodUp p dispatch) := by
  have supervised : s.KeepsFans (s.superviseGood p).settle := .trans (of_plant (plant_superviseGood s p)) (settle_keepsFans _)
  unfold State.goodUp
  dsimp only
  split
  · exact supervised.trans ((h _).trans (settle_keepsFans _))
  · exact supervised

theorem goodAny_keepsFans (p : Port) (dispatch : State → State) (h : ∀ s : State, s.KeepsFans (dispatch s)) :
    s.KeepsFans (s.goodAny p dispatch) :=
  .trans (of_plant (plant_superviseGood s p)) <| (settle_keepsFans _).trans ((h _).trans (settle_keepsFans _))

theorem respond_keepsFans (p : Port) (op : Byte) (r : Request) (free : Bool) (run : State → State × Answer)
    (h : ∀ s : State, s.KeepsFans (run s).1) : s.KeepsFans (s.respond p op r free run) := by
  unfold State.respond
  split
  · exact of_plant (plant_reply s p op r _)
  · exact (h s).trans ((settle_keepsFans _).trans (of_plant (plant_reply _ p op r _)))

theorem request_keepsFans (p : Port) (op : Byte) (r : Request) (free : Bool) (run : State → State × Answer)
    (h : ∀ s : State, s.KeepsFans (run s).1) : s.KeepsFans (s.request p op r free run) := by
  refine goodUp_keepsFans s p _ fun s => ?_
  split
  · exact respond_keepsFans s p op r free run h
  · exact .refl s

/-! ### Stored configuration words -/

/-- t follows from s by stored configuration words: the channels by the rule of a WRITE, the doors in the same states, and
the contexts as they stood, with the given steps. -/
structure State.StoresFields (s t : State) : Prop where
  fans : ∀ f : FanId, Fan.KeepsRequest s.fans[f] t.fans[f]
  doors : ∀ d : DoorId, t.doors[d].isOpenState = s.doors[d].isOpenState
  nodeState : t.nodeState = s.nodeState
  posA : t.posA = s.posA
  stack : t.stack = s.stack

theorem State.StoresFields.refl : s.StoresFields s := ⟨fun _ => .refl _, fun _ => rfl, rfl, rfl, rfl⟩

theorem State.StoresFields.trans {s t r : State} (h : s.StoresFields t) (g : t.StoresFields r) : s.StoresFields r :=
  ⟨fun f => (h.fans f).trans (g.fans f), fun d => (g.doors d).trans (h.doors d), g.nodeState.trans h.nodeState,
    g.posA.trans h.posA, g.stack.trans h.stack⟩

theorem putWord_stores (T : Table) (e w : Nat) (v : Word) : s.StoresFields (s.putWord T e w v).1 := by
  have untouched : ∀ t : State, t.fans = s.fans → t.doors = s.doors → t.nodeState = s.nodeState → t.posA = s.posA →
      t.stack = s.stack → s.StoresFields t := fun t fans doors nodeState posA stack =>
    ⟨fun f => by rw [fans]; exact .refl _, fun d => by rw [doors], nodeState, posA, stack⟩
  unfold State.putWord
  cases T with
  | fan =>
    dsimp only
    split
    · rename_i he
      refine ⟨fun f => ?_, fun _ => rfl, rfl, rfl, rfl⟩
      show Fan.KeepsRequest s.fans[f] (s.setFan ⟨e, he⟩ _).fans[f]
      rw [fans_setFan]
      split
      · rename_i same
        subst same
        exact .putCfg w v
      · exact .refl _
    · exact .refl s
  | door =>
    dsimp only
    split
    · rename_i he
      refine ⟨fun _ => .refl _, fun d => ?_, rfl, rfl, rfl⟩
      show ((s.setDoor ⟨e, he⟩ _).doors[d]).isOpenState = _
      rw [doors_setDoor]
      split
      · rename_i same
        subst same
        rfl
      · rfl
    · exact .refl s
  | kind =>
    exact untouched _ (setKind_fans s _ _) (setKind_doors s _ _) (setKind_nodeState s _ _) (setKind_posA s _ _)
      (setKind_stack s _ _)
  | node => exact untouched _ rfl rfl rfl rfl rfl
  | status | tap | latch | stack => exact .refl s
  | channel | terms | source | linemap | plan =>
    dsimp only
    split
    · exact untouched _ rfl rfl rfl rfl rfl
    · exact .refl s

theorem putTableWord_stores (T : Table) (a : Nat) (v : Word) : s.StoresFields (s.putTableWord T a v).1 := by
  unfold State.putTableWord
  split
  · exact putWord_stores s T _ _ v
  · exact .refl s

theorem putTableWords_stores (T : Table) (a : Nat) (vs : List Word) : s.StoresFields (s.putTableWords T a vs).1 := by
  induction vs generalizing s a with
  | nil => exact .refl s
  | cons v vs ih => exact (putTableWord_stores s T a v).trans (ih _ (a + 1))

theorem loadEntries_stores (T : Table) (e n : Nat) (ws : List Word) : s.StoresFields (s.loadEntries T e n ws) := by
  induction n generalizing s e ws with
  | zero => exact .refl s
  | succ n ih => exact (putTableWords_stores s T _ _).trans (ih _ (e + 1) _)

/-- A word stored elsewhere leaves a step as it stood: of another table, or outside the step's seventeen words (R170). -/
theorem putTableWord_step (T : Table) (a : Nat) (v : Word) (i : Fin 64)
    (elsewhere : T = .plan → a < i.val * 17 ∨ (i.val + 1) * 17 ≤ a) : (s.putTableWord T a v).1.plan[i] = s.plan[i] := by
  unfold State.putTableWord
  split
  · unfold State.putWord
    cases T with
    | plan =>
      dsimp only
      split
      · rename_i he
        have other : a / Table.plan.size ≠ i.val := by
          have := elsewhere rfl
          show a / 17 ≠ i.val
          omega
        exact Vector.getElem_set_ne he i.isLt other
      · rfl
    | kind => exact congrArg (fun l : Vector PlanStep 64 => l[i]) (setKind_plan s _ _)
    | node | status | tap | latch | stack => rfl
    | _ =>
      dsimp only
      split <;> rfl
  · rfl

theorem putTableWords_step (T : Table) (a : Nat) (vs : List Word) (i : Fin 64)
    (elsewhere : T = .plan → a + vs.length ≤ i.val * 17 ∨ (i.val + 1) * 17 ≤ a) :
    (s.putTableWords T a vs).1.plan[i] = s.plan[i] := by
  induction vs generalizing s a with
  | nil => rfl
  | cons v vs ih =>
    rw [List.length_cons] at elsewhere
    refine (ih _ (a + 1) fun plan => ?_).trans (putTableWord_step s T a v i fun plan => ?_)
    · have := elsewhere plan
      omega
    · have := elsewhere plan
      omega

/-- Stored words leave the overrides as they stood, in STARTING and where they leave the contexts' current steps. -/
theorem State.StoresFields.keepsFans {s t : State} (h : s.StoresFields t)
    (current : s.nodeState = .starting ∨ ∀ c ∈ s.stack, t.plan[c.step] = s.plan[c.step]) : s.KeepsFans t := by
  rcases current with starting | current
  · have started : t.nodeState = .starting := h.nodeState.trans starting
    refine of_rules h.fans ?_ ?_
    · simp [State.jetsHeld, starting, started]
    · simp [State.passageRuns, starting, started]
  · have directing : t.directing = s.directing := by
      unfold State.directing
      rw [h.stack]
      refine List.map_congr_left fun c mem => ?_
      unfold State.stepOf
      rw [current c mem]
    exact of_rules h.fans (jetsHeld_of_directing h.nodeState h.posA directing)
      (passageRuns_of_directing h.nodeState directing h.doors)

/-- A WRITE that its checks let pass covers no current step (R151). -/
theorem runWrite_keepsFans (r : Request) : s.KeepsFans (s.runWrite r).1 := by
  unfold State.runWrite
  split
  · exact .refl s
  · rename_i T _
    dsimp only
    split
    · exact .refl s
    · split
      · exact .refl s
      · split
        · exact .refl s
        · rename_i uncovered
          refine .trans ((putTableWords_stores s T _ r.data).keepsFans (.inr fun c mem => ?_))
            (of_plant ((plant_changed _ s).trans (plant_markWords _ T _ _)))
          refine putTableWords_step s T _ _ _ fun plan => ?_
          have free : s.coversCurrent r.index.toNat r.data.length = false :=
            Bool.eq_false_iff.mpr fun covers => uncovered ⟨plan, covers⟩
          have apart := List.any_eq_false.mp free c mem
          simp only [Bool.and_eq_true, decide_eq_true_eq, not_and_or, not_lt] at apart
          omega

/-! ### The image load -/

theorem endLoad_keepsFans (locked : Bool) : s.KeepsFans (s.endLoad locked) := by
  obtain ⟨u, hu⟩ : ∃ u : State, u = { s with loading := .done, nodeState := if locked then .lockout else .operating } :=
    ⟨_, rfl⟩
  have fans : s.FanLaw → u.FanLaw := fun law => hu ▸ law
  have records : u.records = s.records := hu ▸ rfl
  have end_ : s.endLoad locked =
      { (((u.reformJet jet1).reformJet jet2).reformPassage.doorsLeaveStarting).renew with decisionDue := true } := by
    rw [hu]; rfl
  rw [end_]
  refine .trans (renewed_keepsFans (fun law => ?_) ?_) (of_plant (plant_withDecision _ _))
  · exact (doorsLeaveStarting_keepsFans _).fans ((reformPassage_keepsFans _).fans ((reformJets_keepsFans u).fans (fans law)))
  · simp [records]

theorem plant_withAgeing (timer : Timer) (tap : TapCache) :
    State.plant { s with ageTimer := timer, tap := tap } = s.plant := rfl

theorem plant_withLoading (l : LoadState) : State.plant { s with loading := l } = s.plant := rfl

theorem nextGroup_keepsFans (i : Nat) (locked : Bool) (count : Nat) : s.KeepsFans (s.nextGroup i locked count) := by
  unfold State.nextGroup
  split
  · split
    · exact of_plant (plant_withLoading s _)
    · exact .trans (of_plant (plant_emptyLocked s)) (endLoad_keepsFans _ locked)
  · exact endLoad_keepsFans s locked

theorem headerRead_keepsFans (r : SerialAnswer) : s.KeepsFans (s.headerRead r) := by
  unfold State.headerRead
  split
  · split
    · exact .trans (of_plant ((plant_occur _ _).trans (plant_withLoading s _))) (endLoad_keepsFans _ true)
    · exact nextGroup_keepsFans s _ _ _
  all_goals exact .refl s

theorem plant_withTaplock (tap : TapCache) (dirty : Vector Bool 15) :
    State.plant { s with tap := tap, dirty := dirty } = s.plant := rfl

/-- A loaded group: its words stored, and their effects, which move nothing of the plant (R183). -/
theorem loadGroup_stores (g : Fin 15) (data : List Word) : ∃ t, s.StoresFields t ∧ (s.loadGroup g data).plant = t.plant := by
  unfold State.loadGroup
  split
  · exact ⟨_, loadEntries_stores s _ _ _ _, (plant_withDirty _ _).trans (plant_changed _ s)⟩
  · exact ⟨s, .refl s, plant_withTaplock s _ _⟩

/-- A group read: in STARTING its plan steps direct nothing, so the overrides stand; the channels' laws are kept in any state. -/
theorem groupRead_keepsFans (r : SerialAnswer) (starting : s.loading ≠ .done → s.nodeState = .starting) :
    s.KeepsFans (s.groupRead r) := by
  unfold State.groupRead
  split
  · rename_i loading
    refine .trans ?_ (nextGroup_keepsFans _ _ _ _)
    split
    · obtain ⟨t, stores, plant⟩ := loadGroup_stores s _ _
      exact .trans (stores.keepsFans (.inl (starting (by simp [loading])))) (of_plant plant)
    · exact of_plant (plant_failGroup s _)
  all_goals exact .refl s

theorem groupRead_fanLaw (r : SerialAnswer) (law : s.FanLaw) : (s.groupRead r).FanLaw := by
  unfold State.groupRead
  split
  · refine (nextGroup_keepsFans _ _ _ _).fans ?_
    split
    · obtain ⟨t, stores, plant⟩ := loadGroup_stores s _ _
      exact (of_plant plant).fans fun f => (stores.fans f).lawful (law f)
    · exact (of_plant (plant_failGroup s _)).fans law
  all_goals exact law

/-! ### Resets and time -/

theorem resetFan_lawful (pins : Pins) (now : Nat) (f : FanId) : (resetFan pins now f).Lawful := by
  have tp : (defaultFanCfg f).tp = 1000 := by
    unfold defaultFanCfg
    split <;> rfl
  unfold resetFan
  split
  · exact .of_off ⟨fun _ => rfl, tp.symm, fun _ => ⟨rfl, rfl, rfl, rfl, rfl⟩⟩ rfl ⟨rfl, rfl⟩ rfl rfl nofun (by simp) nofun
  · exact .of_off ⟨fun _ => rfl, tp.symm, fun _ => ⟨rfl, rfl, rfl, rfl, rfl⟩⟩ rfl ⟨rfl, rfl⟩ rfl rfl (fun _ => ⟨none, rfl⟩)
      (by simp) nofun

theorem resetFan_request (pins : Pins) (now : Nat) (f : FanId) :
    (resetFan pins now f).request = {} ∧ (resetFan pins now f).runDir = none := by
  unfold resetFan
  split <;> exact ⟨rfl, rfl⟩

/-- Channels at their reset values in a STARTING node have all the laws (R116, R117). -/
theorem reset_keepsFans {t : State} {pins : Pins} {now : Nat} (fans : t.fans = Vector.ofFn (resetFan pins now))
    (starting : t.nodeState = .starting) : s.KeepsFans t := by
  have fan : ∀ f : FanId, t.fans[f] = resetFan pins now f := fun f => by rw [fans]; simp
  have idle : t.passageRuns = false := by simp [State.passageRuns, starting]
  refine ⟨fun _ f => ?_, fun _ _ f _ => ?_, fun _ => ⟨?_, fun run => ?_, fun _ => ?_⟩⟩
  · rw [fan]
    exact resetFan_lawful pins now f
  · rw [fan, (resetFan_request pins now f).1]
    exact ⟨rfl, (resetFan_request pins now f).2⟩
  · rw [fan, cfg_resetFan]
    decide
  · rw [idle] at run
    cases run
  · rw [fan, (resetFan_request pins now passage).1]

theorem plant_firstEvaluation : s.firstEvaluation.plant = s.plant := by
  have found : ∀ (n : EntryId) (b : Bool) (s : State), (s.firstFound n b).plant = s.plant := by
    intro n b s
    cases b
    · rfl
    · exact plant_occur s n
  unfold State.firstEvaluation
  dsimp only
  simp only [found]

theorem hardReset_keepsFans (cause : ResetCause) : s.KeepsFans (s.hardReset cause) :=
  .trans (reset_keepsFans s (t := s.fresh 0 cause) rfl rfl) (of_plant (plant_firstEvaluation _))

theorem restarted_keepsFans : s.KeepsFans s.restarted := by
  unfold State.restarted
  exact .trans (reset_keepsFans s (pins := s.pins) (now := s.now) rfl rfl) (of_plant (plant_firstEvaluation _))

theorem elapse_keepsFans (us : Nat) : s.KeepsFans (s.elapse us) :=
  of_rules (fun f => by simp only [State.elapse, Fin.getElem_fin, Vector.getElem_ofFn]; exact .elapse us) rfl rfl

end

/-! ### Every command -/

/-- Every command keeps the laws, a group read where the node is STARTING while the load runs (R181). -/
theorem exec_keepsFans (c : Instr) (s : State)
    (load : ∀ r, c = .imageGroupRead r → s.loading ≠ .done → s.nodeState = .starting) :
    ∃ t, exec c s = .next t ∧ s.KeepsFans t := by
  have settled : ∀ {t : State}, s.KeepsFans t → s.KeepsFans t.settle := fun h => h.trans (settle_keepsFans _)
  have leaves : ∀ {t : State}, t.plant = s.plant → s.KeepsFans t.settle := fun h => settled (of_plant h)
  have relayed : ∀ (p : Port) (f : Frame) (b : Bool) (s : State), s.KeepsFans (if b then s.relay p f else s) := by
    intro p f b s
    cases b
    · exact .refl s
    · exact of_plant (plant_relay s p f)
  cases c with
  | powerOnReset => exact ⟨_, rfl, hardReset_keepsFans s .powerOn⟩
  | pinReset => exact ⟨_, rfl, hardReset_keepsFans s .pin⟩
  | badFrame p => exact ⟨_, rfl, leaves (plant_badFrame s p)⟩
  | fill p => exact ⟨_, rfl, goodAny_keepsFans s p _ .refl⟩
  | count p side k => exact ⟨_, rfl, goodAny_keepsFans s p _ fun s => takeCount_keepsFans s p side k⟩
  | sample p f =>
    refine ⟨_, rfl, goodUp_keepsFans s p _ fun s => ?_⟩
    split
    · exact of_plant (plant_takeSample s p f)
    · exact .refl s
  | event p f => exact ⟨_, rfl, goodUp_keepsFans s p _ (relayed p _ true)⟩
  | trigger p f => exact ⟨_, rfl, goodUp_keepsFans s p _ fun s => of_plant (plant_takeTrigger s p f)⟩
  | mgmtReply p f => exact ⟨_, rfl, goodUp_keepsFans s p _ (relayed p _ _)⟩
  | mgmtReqRelay p f => exact ⟨_, rfl, goodUp_keepsFans s p _ (relayed p _ _)⟩
  | time p clock => exact ⟨_, rfl, goodUp_keepsFans s p _ fun s => of_plant (plant_takeTime s p clock)⟩
  | unknownFrame p => exact ⟨_, rfl, goodUp_keepsFans s p _ .refl⟩
  | read p r => exact ⟨_, rfl, request_keepsFans s p 1 r _ _ fun s => by rw [runRead_state]; exact .refl s⟩
  | write p r => exact ⟨_, rfl, request_keepsFans s p 2 r _ _ fun s => runWrite_keepsFans s r⟩
  | tapLoad p r => exact ⟨_, rfl, request_keepsFans s p 3 r _ _ fun s => of_plant (plant_runTapLoad s r)⟩
  | flushTap p r => exact ⟨_, rfl, request_keepsFans s p 4 r _ _ fun s => of_plant (plant_flushTap s)⟩
  | flushPlans p r => exact ⟨_, rfl, request_keepsFans s p 5 r _ _ fun s => of_plant (plant_runFlushPlans s)⟩
  | ack p r => exact ⟨_, rfl, request_keepsFans s p 6 r _ _ fun s => of_plant (plant_runAck s r)⟩
  | clearPlan p r => exact ⟨_, rfl, request_keepsFans s p 7 r _ _ fun s => runClearPlan_keepsFans s r⟩
  | setMask p r => exact ⟨_, rfl, request_keepsFans s p 8 r _ _ fun s => of_plant rfl⟩
  | fanReset p r =>
    refine ⟨_, rfl, request_keepsFans s p 9 r _ _ fun s => ?_⟩
    unfold State.runFanReset
    split
    · exact fanReset_keepsFans s _
    · exact .refl s
  | doorReset p r =>
    refine ⟨_, rfl, request_keepsFans s p 10 r _ _ fun s => ?_⟩
    unfold State.runDoorReset
    split
    · exact doorTo_keepsFans s _ _ false
    · exact .refl s
  | openNode p r => exact ⟨_, rfl, request_keepsFans s p 11 r _ _ runOpen_keepsFans⟩
  | store p r => exact ⟨_, rfl, request_keepsFans s p 12 r _ _ fun s => of_plant (plant_runStore s)⟩
  | restart p r =>
    refine ⟨_, rfl, goodUp_keepsFans s p _ fun s => ?_⟩
    split
    · split
      · exact of_plant (plant_reply s p 13 r _)
      · exact restarted_keepsFans s
    · exact .refl s
  | badOpRequest p op r =>
    refine ⟨_, rfl, goodUp_keepsFans s p _ fun s => ?_⟩
    split
    · exact respond_keepsFans s p op r false _ .refl
    · exact .refl s
  | linkTimerExpiry p => exact ⟨_, rfl, leaves (plant_linkExpired s p)⟩
  | fillTimerExpiry p => exact ⟨_, rfl, of_plant (plant_fillExpired s p)⟩
  | transmissionCompletion p => exact ⟨_, rfl, of_plant (plant_sent s p)⟩
  | conversionCompletion ch code => exact ⟨_, rfl, leaves (plant_conversion s ch code)⟩
  | reportTimerExpiry => exact ⟨_, rfl, leaves (plant_reportExpiry s)⟩
  | tapAgeingExpiry => exact ⟨_, rfl, of_plant (plant_withAgeing s _ _)⟩
  | controlTimerExpiry => exact ⟨_, rfl, settled (controlExpired_keepsFans s)⟩
  | kindHoldExpiry k => exact ⟨_, rfl, leaves (plant_kindHoldExpired s k)⟩
  | tachEdge f e => exact ⟨_, rfl, tachEdge_keepsFans s f e⟩
  | tachOverflow f => exact ⟨_, rfl, .setFan f (.overflow s.now)⟩
  | periodStart f => exact ⟨_, rfl, .setFan f .periodStart⟩
  | startTimerExpiry f => exact ⟨_, rfl, settled (startExpired_keepsFans s f)⟩
  | stallTimerExpiry f => exact ⟨_, rfl, settled (stallExpired_keepsFans s f)⟩
  | dwellTimerExpiry f => exact ⟨_, rfl, dwellExpired_keepsFans s f⟩
  | isolatorInputChange f isOpen => exact ⟨_, rfl, isolatorInput_keepsFans s f isOpen⟩
  | isolatorAccepted f => exact ⟨_, rfl, settled (isolatorAccepted_keepsFans s f)⟩
  | doorInputChange d i active => exact ⟨_, rfl, doorInput_keepsFans s d i active⟩
  | doorDebounceExpiry d i => exact ⟨_, rfl, settled (doorDebounced_keepsFans s d i)⟩
  | egressTimerExpiry d | holdTimerExpiry d | relockTimerExpiry d | feedbackTimerExpiry d =>
    exact ⟨_, rfl, settled (doorTo_keepsFans s d _ false)⟩
  | lampCompareMatch d => exact ⟨_, rfl, .setDoor d (isOpenState_lampMatch _)⟩
  | callPointInputChange active => exact ⟨_, rfl, of_plant rfl⟩
  | callPointAccepted => exact ⟨_, rfl, leaves (plant_callPointAccepted s)⟩
  | launchHoldExpiry => exact ⟨_, rfl, leaves (plant_launchHoldExpired s)⟩
  | stepTimerExpiry => exact ⟨_, rfl, settled (stepExpired_keepsFans s)⟩
  | imageHeaderRead r => exact ⟨_, rfl, settled (headerRead_keepsFans s r)⟩
  | imageGroupRead r => exact ⟨_, rfl, settled (groupRead_keepsFans s r (load r rfl))⟩
  | storeWriteComplete r => exact ⟨_, rfl, of_plant (plant_writeComplete s r)⟩
  | storeVerifyComplete r => exact ⟨_, rfl, leaves (plant_verifyComplete s r)⟩

/-- Every step keeps the laws where the node is STARTING while its load runs (R181). -/
theorem step_keepsFans {s t : State} (load : s.LoadLaw) (h : step s = .next t) : s.KeepsFans t := by
  unfold step at h
  split at h
  · cases h
    exact elapse_keepsFans s 1
  · rename_i c rest _
    obtain ⟨u, hu, keeps⟩ := exec_keepsFans c { s with pending := rest } fun _ _ => load.starting.mpr
    rw [hu] at h
    cases h
    have queued : s.KeepsFans { s with pending := rest } := of_plant rfl
    exact queued.trans keeps

theorem exec_fanLaw (c : Instr) {s : State} (law : s.FanLaw) : ∃ t, exec c s = .next t ∧ t.FanLaw := by
  by_cases group : ∃ r, c = .imageGroupRead r
  · obtain ⟨r, rfl⟩ := group
    exact ⟨_, rfl, (settle_keepsFans _).fans (groupRead_fanLaw s r law)⟩
  · obtain ⟨t, next, keeps⟩ := exec_keepsFans c s fun r same => absurd ⟨r, same⟩ group
    exact ⟨t, next, keeps.fans law⟩

/-- Settles O51: the channels move by their own rules, hand-offs and re-formations, and each keeps the laws. -/
theorem stepsKeepTheFanLaw : Obligations.StepsKeepTheFanLaw := by
  intro s t law h
  unfold step at h
  split at h
  · cases h
    exact (elapse_keepsFans s 1).fans law
  · rename_i c rest _
    obtain ⟨u, hu, kept⟩ := exec_fanLaw c (s := { s with pending := rest }) law
    rw [hu] at h
    cases h
    exact kept

/-- Settles O53: every change of what holds or runs the fans is followed by a hand-off or a re-formation in its own event. -/
theorem stepsKeepTheOverrideLaws : Obligations.StepsKeepTheOverrideLaws :=
  ⟨fun _ _ load law h => (step_keepsFans load h).guard law, fun _ _ load law h => (step_keepsFans load h).passageFan law⟩

end Sys2Proof.Machine
end

