-- ==== Sys2Proof/Proofs/FanReversal.lean ====
section
/-! PROOFS. Proofs/FanReversal.lean: a step that stops a running fan and then stores another coast dwell. The third good
frame after a loss brings its port UP (R21), which ends a plan that awaits LINK_A_DOWN's clearing and so stops the fan with the
coast dwell as it stands; the same frame is then dispatched (R25), and as a WRITE it stores another coast dwell. The dwell
timer keeps the first one (R99), so it is not the one that the record shows after the step. -/

namespace Sys2Proof.Machine

/-- A jet that runs FORWARD at 500 pm. -/
def forwardJet : Fan :=
  { state := .running .forward, lastDir := some .forward, request := ⟨500, some .forward⟩, duty := 500, pendingDuty := 500 }

/-- A plan step that drives the jets FORWARD at 500 pm until its source clears. -/
def untilClear : PlanStep := { valid := true, endCond := .sourceClear, jet := .fixed, fixedSpeed := 500 }

/-- The context of LINK_A_DOWN in that step. -/
def linkDownContext : Context where
  step := 0
  timer := .none
  clearSeen := false
  waiting := true
  source := srcLinkDown .a
  origin := 0
  level := 1
  cls := .advisory
  entry := ⟨0, false⟩
  captured := none

/-- A WRITE of 30 to the coast dwell of JET1, which stands at 60. -/
def dwellWrite : Request := { tag := 1, table := 4, index := 12, count := 1, data := [30] }

/-- An OPERATING node whose port A has had two good frames, with the plan of LINK_A_DOWN ACTIVE and the WRITE arriving. -/
def beforeThirdFrame : State :=
  { State.reset with
    pending := [.write .a dwellWrite]
    nodeState := .operating
    loading := .done
    ports := { a := { state := .probing, probe := 2, linkTimer := some 500000 } }
    fans := State.reset.fans.set 0 forwardJet
    latch := State.reset.latch.set 0 { asserted := true, serve := .served }
    plan := State.reset.plan.set 0 untilClear
    stack := [linkDownContext] }

theorem forwardJet_lawful : forwardJet.Lawful :=
  .of_driven (d := .forward) ⟨nofun, rfl, fun _ => ⟨rfl, rfl, rfl, rfl, rfl⟩⟩ rfl rfl rfl rfl rfl nofun nofun
    fun _ => by decide

theorem beforeThirdFrame_fanLaw : beforeThirdFrame.FanLaw := by
  have others : ∀ f : FanId, Fan.Lawful { cfg := defaultFanCfg f, dwellTimer := some 60000000 } := fun f =>
    .of_off ⟨fun _ => rfl, by revert f; decide, fun _ => ⟨rfl, rfl, rfl, rfl, rfl⟩⟩ rfl ⟨rfl, rfl⟩ rfl rfl
      (fun _ => ⟨none, rfl⟩) (by simp) nofun
  refine forall_set (l := State.reset.fans) (fun f => ?_) (by decide) forwardJet_lawful
  have start : State.reset.fans[f] = { cfg := defaultFanCfg f, dwellTimer := some 60000000 } := by simp [State.reset]
  rw [start]
  exact others f

/-- The step leaves JET1 coasting with the dwell of the record before it, beside the record after it. -/
theorem thirdFrame_stops_and_stores :
    ∃ t, step beforeThirdFrame = .next t ∧ t.fans[jet1].state = .stopping (some .forward) ∧
      t.fans[jet1].dwellTimer = some 60000000 ∧ t.now = 0 ∧ t.fans[jet1].cfg.coastDwell = 30 :=
  ⟨_, rfl, by decide +kernel⟩

/-- Refutes O52: the dwell timer of a fan that its step stops need not stand at the coast dwell that the record shows after the
step, since the same step's WRITE may have stored another one. -/
theorem not_noStepReversesARunningFan : ¬ Obligations.NoStepReversesARunningFan := by
  intro h
  obtain ⟨t, next, coasts, dwell, now, record⟩ := thirdFrame_stops_and_stores
  obtain ⟨-, starts, -⟩ := h beforeThirdFrame t jet1 beforeThirdFrame_fanLaw next
  rcases starts _ coasts with fresh | ⟨x, coasted, -⟩
  · rw [dwell, now, record] at fresh
    exact absurd fresh (by decide)
  · have ran : beforeThirdFrame.fans[jet1].state = .running .forward := rfl
    rw [ran] at coasted
    cases coasted

end Sys2Proof.Machine
end

