-- ==== Sys2Proof/Proofs/FanTimers.lean ====
section
/-! PROOFS. Proofs/FanTimers.lean: the tach inputs of a fan channel with the measured speed and its tests (R101 to R103, R108 to
R110), the expiries of its start, stall and dwell timers (R108 to R111), and its isolator (R100, R113). -/

namespace Sys2Proof.Machine

/-! ### The tests of a speed change (R108 to R110) -/

section
variable {F : Fan} (now : Nat)

theorem confirm_eq (F : Fan) (d : Direction) :
    F.confirm now d =
      if F.speed < F.cfg.confirmSpeed then F
      else
        { F with
          state := .running d, startTimer := none
          stallTimer := if F.speed * 100 < F.request.mag * F.cfg.stallRatio then
            some (F.stallTimer.getD (now + F.cfg.stallTime * 1000000)) else none } := by
  unfold Fan.confirm
  by_cases slow : F.speed < F.cfg.confirmSpeed
  · rw [if_neg (by omega), if_pos slow]
  · rw [if_pos (by omega), if_neg slow, stallTest_eq]

/-- A coasting channel waits for the end of its dwell and for the fan to be still (R110). -/
theorem tryStopped_waits {x : Option Direction} (coasts : F.state = .stopping x)
    (waits : F.dwellTimer.isSome = true ∨ F.cfg.stillThreshold < F.speed) : F.tryStopped now = F := by
  have stays : ¬ (F.dwellTimer = none ∧ F.speed ≤ F.cfg.stillThreshold) := by
    rintro ⟨expired, still⟩
    rcases waits with runs | turns
    · simp [expired] at runs
    · omega
  simp only [Fan.tryStopped, coasts, if_neg stays]

theorem tryStopped_stops {x : Option Direction} (coasts : F.state = .stopping x) (expired : F.dwellTimer = none)
    (still : F.speed ≤ F.cfg.stillThreshold) : F.tryStopped now = Fan.serve now { F with state := .stopped } := by
  simp only [Fan.tryStopped, coasts, if_pos (And.intro expired still), Fan.serve]

theorem tryStopped_starts {x : Option Direction} (coasts : F.state = .stopping x) (expired : F.dwellTimer = none)
    (still : F.speed ≤ F.cfg.stillThreshold) {d : Direction} (run : F.wants d = true) :
    F.tryStopped now = F.started now d := by
  rw [tryStopped_stops now coasts expired still]
  exact serve_stopped_run (F := { F with state := .stopped }) now rfl run

theorem tryStopped_rests {x : Option Direction} (coasts : F.state = .stopping x) (expired : F.dwellTimer = none)
    (still : F.speed ≤ F.cfg.stillThreshold) (rest : ∀ d, F.wants d = false) :
    F.tryStopped now = { F with state := .stopped } := by
  rw [tryStopped_stops now coasts expired still]
  exact serve_stopped_rest (F := { F with state := .stopped }) now rfl rest

/-- A changed speed is tested by the channel's state. -/
theorem speedChanged_tested : SpeedTested now F (F.speedChanged now) where
  starting d state := by
    have tested : F.speedChanged now = F.confirm now d := by simp only [Fan.speedChanged, state]
    rw [tested]
    exact confirm_eq now F d
  running d state := by
    have tested : F.speedChanged now = F.stallTest now := by simp only [Fan.speedChanged, state]
    rw [tested]
    exact stallTest_eq F now
  coasting x state := by
    have tested : F.speedChanged now = F.tryStopped now := by simp only [Fan.speedChanged, state]
    rw [tested]
    exact ⟨tryStopped_waits now state, fun expired still =>
      ⟨fun d run => tryStopped_starts now state expired still run, tryStopped_rests now state expired still⟩⟩
  others := by rintro (state | state | state) <;> simp only [Fan.speedChanged, state]

end

/-! ### What the tach gives (R102, R103) -/

/-- The capture timer, the last edges, the period pair and the speed. -/
def Fan.tach (F : Fan) : Timer × Option Nat × Option Nat × Option Nat × Option Nat × Nat :=
  (F.captureTimer, F.lastRise, F.lastFall, F.pNew, F.pPrev, F.speed)

/-- A channel with the tach's fields of another. -/
def Fan.withTach (F G : Fan) : Fan :=
  { F with
    captureTimer := G.captureTimer, lastRise := G.lastRise, lastFall := G.lastFall, pNew := G.pNew, pPrev := G.pPrev
    speed := G.speed }

theorem withTach_congr {F G H : Fan} (h : H.tach = G.tach) : F.withTach H = F.withTach G := by
  simp only [Fan.tach, Prod.mk.injEq] at h
  obtain ⟨timer, rise, fall, new, prev, speed⟩ := h
  simp only [Fan.withTach, timer, rise, fall, new, prev, speed]

section
variable (F : Fan) (now : Nat)

theorem tach_started (d : Direction) : (F.started now d).tach = F.tach := by
  unfold Fan.started
  dsimp only
  split <;> rfl

theorem tach_stallTest : (F.stallTest now).tach = F.tach := by rw [stallTest_eq]; rfl

theorem tach_tryStopped : (F.tryStopped now).tach = F.tach := by
  cases state : F.state with
  | stopping x =>
    by_cases ended : F.dwellTimer = none ∧ F.speed ≤ F.cfg.stillThreshold
    · obtain ⟨expired, still⟩ := ended
      by_cases run : ∃ d, F.wants d = true
      · obtain ⟨d, run⟩ := run
        rw [tryStopped_starts now state expired still run, tach_started]
      · rw [tryStopped_rests now state expired still fun d => Bool.eq_false_iff.mpr fun run' => run ⟨d, run'⟩]
        rfl
    · simp only [Fan.tryStopped, state, if_neg ended]
  | _ => simp only [Fan.tryStopped, state]

/-- A channel's tests read the tach and change nothing of it. -/
theorem tach_speedChanged : (F.speedChanged now).tach = F.tach := by
  unfold Fan.speedChanged
  split
  · unfold Fan.confirm
    split
    · exact tach_stallTest _ now
    · rfl
  · exact tach_stallTest F now
  · exact tach_tryStopped F now
  all_goals rfl

theorem tach_setSpeed (v : Nat) : (F.setSpeed now v).tach = Fan.tach { F with speed := v } := by
  unfold Fan.setSpeed
  split
  · rename_i same
    subst same
    rfl
  · exact tach_speedChanged _ now

/-- A measured speed: unchanged it is not tested, changed it is (R103, log entry 11). -/
theorem setSpeed_tested (v : Nat) :
    (v = F.speed → F.setSpeed now v = { F with speed := v }) ∧
      (v ≠ F.speed → SpeedTested now { F with speed := v } (F.setSpeed now v)) := by
  unfold Fan.setSpeed
  refine ⟨fun same => ?_, fun changed => ?_⟩
  · rw [if_pos same, same]
  · rw [if_neg changed]
    exact speedChanged_tested now

/-- An accepted edge starts the capture timer, and is the last of its polarity (R102). -/
theorem capture_edges (e : Edge) :
    (F.capture now e).captureTimer = some (now + 1000000) ∧
      (e = .rising → (F.capture now e).lastRise = some now ∧ (F.capture now e).lastFall = F.lastFall) ∧
      (e = .falling → (F.capture now e).lastFall = some now ∧ (F.capture now e).lastRise = F.lastRise) := by
  unfold Fan.capture
  cases e <;> dsimp only <;> split <;> exact ⟨rfl, by simp, by simp⟩

/-- With a last edge of its polarity an edge puts a new period into the pair, without one it puts none (R102). -/
theorem capture_pair (e : Edge) :
    (∀ u, (if e = .rising then F.lastRise else F.lastFall) = some u →
      (F.capture now e).pNew = some (now - u) ∧ (F.capture now e).pPrev = F.pNew) ∧
    ((if e = .rising then F.lastRise else F.lastFall) = none →
      (F.capture now e).pNew = F.pNew ∧ (F.capture now e).pPrev = F.pPrev) := by
  unfold Fan.capture
  cases e
  · cases last : F.lastRise <;> simp
  · cases last : F.lastFall <;> simp

theorem measure_without_pair (free : Nat) (h : F.pNew = none ∨ F.pPrev = none) : F.measure free = 0 := by
  unfold Fan.measure Fan.pairMean
  rcases h with none | none <;> rw [none]
  · cases F.pPrev <;> rfl
  · cases F.pNew <;> rfl

theorem measure_pair (free : Nat) {a b : Nat} (new : F.pNew = some a) (prev : F.pPrev = some b) (mean : 2 ≤ a + b) :
    F.measure free = min (F.cfg.ratedPeriod * 1000 / ((a + b) / 2)) 2000 := by
  unfold Fan.measure Fan.pairMean
  rw [new, prev]
  exact if_neg (by omega)

end

/-- What a TACH_EDGE leaves in its channel, read off the capture and the speed set after it. -/
theorem tachEdge_fan (f : FanId) (e : Edge) (s : State) :
    (s.tachEdge f e).fans[f] = (s.fans[f].capture s.now e).setSpeed s.now
      ((s.fans[f].capture s.now e).measure (Config.speedAtPeriodZero s.freeCount)) := fans_setFan_self s f _

/-- The speed reference (R101). -/
theorem speedRef_of_duty (F : Fan) : (F.duty = 0 → F.speedRef = false) ∧ (0 < F.duty → F.duty = F.tp → F.speedRef = true) ∧
    (F.duty < F.tp → F.speedRef = decide (F.pwmCount < F.duty)) := by
  unfold Fan.speedRef
  refine ⟨fun off => by simp [off], fun on full => ?_, fun part => ?_⟩
  · simp [full, (full ▸ on).ne']
  · simp [part.ne]

theorem tachEdge_measures (f : FanId) (e : Edge) (s : State) : ∃ t, exec (.tachEdge f e) s = .next t ∧
    t.fans[f].captureTimer = some (s.now + 1000000) ∧
    (e = .rising → t.fans[f].lastRise = some s.now ∧ t.fans[f].lastFall = s.fans[f].lastFall) ∧
    (e = .falling → t.fans[f].lastFall = some s.now ∧ t.fans[f].lastRise = s.fans[f].lastRise) ∧
    (∀ u, (if e = .rising then s.fans[f].lastRise else s.fans[f].lastFall) = some u →
      t.fans[f].pNew = some (s.now - u) ∧ t.fans[f].pPrev = s.fans[f].pNew) ∧
    ((if e = .rising then s.fans[f].lastRise else s.fans[f].lastFall) = none →
      t.fans[f].pNew = s.fans[f].pNew ∧ t.fans[f].pPrev = s.fans[f].pPrev) ∧
    (t.fans[f].pNew = none ∨ t.fans[f].pPrev = none → t.fans[f].speed = 0) ∧
    (∀ a b, t.fans[f].pNew = some a → t.fans[f].pPrev = some b → 2 ≤ a + b →
      t.fans[f].speed = min (s.fans[f].cfg.ratedPeriod * 1000 / ((a + b) / 2)) 2000) ∧
    (∀ F : Fan, F = s.fans[f].withTach t.fans[f] →
      (t.fans[f].speed = s.fans[f].speed → t.fans[f] = F) ∧
      (t.fans[f].speed ≠ s.fans[f].speed → SpeedTested s.now F t.fans[f])) ∧
    (∀ g : FanId, g ≠ f → t.fans[g] = s.fans[g]) ∧
    t = { s with fans := t.fans, freeCount := t.freeCount } := by
  obtain ⟨C, hC⟩ : ∃ C, C = s.fans[f].capture s.now e := ⟨_, rfl⟩
  obtain ⟨v, hv⟩ : ∃ v, v = C.measure (Config.speedAtPeriodZero s.freeCount) := ⟨_, rfl⟩
  have fan : (s.tachEdge f e).fans[f] = C.setSpeed s.now v := by rw [tachEdge_fan, hv, hC]
  have tach : (C.setSpeed s.now v).tach = Fan.tach { C with speed := v } := tach_setSpeed C s.now v
  obtain ⟨timer, rise, fall, new, prev, speed⟩ : (C.setSpeed s.now v).captureTimer = C.captureTimer ∧
      (C.setSpeed s.now v).lastRise = C.lastRise ∧ (C.setSpeed s.now v).lastFall = C.lastFall ∧
      (C.setSpeed s.now v).pNew = C.pNew ∧ (C.setSpeed s.now v).pPrev = C.pPrev ∧ (C.setSpeed s.now v).speed = v := by
    simpa only [Fan.tach, Prod.mk.injEq] using tach
  obtain ⟨running, rising, falling⟩ := capture_edges s.fans[f] s.now e
  obtain ⟨pair, single⟩ := capture_pair s.fans[f] s.now e
  have before : C.speed = s.fans[f].speed := by rw [hC, Fan.capture_eq]
  have with_ : s.fans[f].withTach (C.setSpeed s.now v) = { C with speed := v } := by
    rw [withTach_congr tach, hC, Fan.capture_eq]
    rfl
  obtain ⟨unchanged, changed⟩ := setSpeed_tested C s.now v
  refine ⟨s.tachEdge f e, rfl, ?_⟩
  rw [fan, timer, rise, fall, new, prev, speed, with_, ← before]
  refine ⟨hC ▸ running, hC ▸ rising, hC ▸ falling, hC ▸ pair, hC ▸ single, ?_, fun a b ha hb mean => ?_, ?_,
    fun g other => (fans_setFan s f g _).trans (if_neg other), rfl⟩
  · exact fun empty => hv ▸ measure_without_pair C _ empty
  · have record : C.cfg = s.fans[f].cfg := by rw [hC, Fan.cfg_capture]
    rw [hv, measure_pair C _ ha hb mean, record]
  · rintro F rfl
    exact ⟨unchanged, changed⟩

theorem setFan_self (s : State) (f : FanId) : s.setFan f s.fans[f] = s := by
  have same : s.fans.set f s.fans[f] = s.fans := Vector.set_getElem_self _
  unfold State.setFan
  rw [same]

/-- An overflow empties what the tach has given; without an edge before it nothing happens (R102, log entry 28). -/
theorem tachOverflow_empties (f : FanId) (s : State) :
    (s.fans[f].captureTimer = none → exec (.tachOverflow f) s = .next s) ∧
    (s.fans[f].captureTimer.isSome = true → ∃ t, exec (.tachOverflow f) s = .next t ∧
      (∀ F : Fan, F =
        { s.fans[f] with
          captureTimer := none, lastRise := none, lastFall := none, pNew := none, pPrev := none, speed := 0 } →
        (s.fans[f].speed = 0 → t.fans[f] = F) ∧ (s.fans[f].speed ≠ 0 → SpeedTested s.now F t.fans[f])) ∧
      (∀ g : FanId, g ≠ f → t.fans[g] = s.fans[g]) ∧ t = { s with fans := t.fans }) := by
  refine ⟨fun stopped => ?_, fun runs => ?_⟩
  · have idle : s.fans[f].overflow s.now = s.fans[f] := if_pos stopped
    show Host.Outcome.next (s.setFan f _) = _
    rw [idle, setFan_self]
  · have emptied : s.fans[f].overflow s.now = Fan.setSpeed s.now 0
        { s.fans[f] with captureTimer := none, lastRise := none, lastFall := none, pNew := none, pPrev := none } :=
      if_neg (Option.isSome_iff_ne_none.mp runs)
    refine ⟨_, rfl, ?_, fun g other => (fans_setFan s f g _).trans (if_neg other), rfl⟩
    rintro F rfl
    obtain ⟨unchanged, changed⟩ := setSpeed_tested
      { s.fans[f] with captureTimer := none, lastRise := none, lastFall := none, pNew := none, pPrev := none } s.now 0
    rw [fans_setFan_self, emptied]
    exact ⟨fun zero => unchanged zero.symm, fun turned => changed fun zero => turned zero.symm⟩

/-- Settles O38: an edge, an overflow and a period start are a lemma each. -/
theorem tachsAreMeasured : Obligations.TachsAreMeasured :=
  ⟨tachEdge_measures, tachOverflow_empties, fun _ _ => rfl, speedRef_of_duty⟩

/-! ### Channels that no request moves (R111, R113) -/

/-- A channel in a state, its isolator as given, with its duty 0 and its timers stopped. -/
structure Fan.Out (state : FanState) (isOpen : Bool) (F : Fan) : Prop where
  state : F.state = state
  isOpen : F.isoOpen = isOpen
  duty : F.duty = 0
  pending : F.pendingDuty = 0
  start : F.startTimer = none
  stall : F.stallTimer = none
  dwell : F.dwellTimer = none

/-- Hand-offs and re-formations leave a channel in FAULT or DISABLED out (R111, R113). -/
theorem FanReach.out {now : Nat} {F G : Fan} {state : FanState} {isOpen : Bool} (reach : FanReach now F G)
    (h : F.Out state isOpen) (held : state = .fault ∨ state = .disabled) : G.Out state isOpen := by
  induction reach with
  | refl => exact h
  | tail _ move ih =>
    cases move with
    | request c duty =>
      unfold Fan.takeRequest
      rw [serve_holds now (.inr (by dsimp only; rwa [ih.state]))]
      exact ⟨ih.state, ih.isOpen, ih.duty, ih.pending, ih.start, ih.stall, ih.dwell⟩
    | handed c duty => exact ⟨ih.state, ih.isOpen, ih.duty, ih.pending, ih.start, ih.stall, ih.dwell⟩

theorem srcFanFault_not_side (f : FanId) : ¬ settleSide (srcFanFault f) := by
  revert f; unfold settleSide; decide

theorem srcFanFault_ne_srcOverrun (f : FanId) : srcFanFault f ≠ srcOverrun := by revert f; decide

theorem srcIsolated_ne_srcOverrun (f : FanId) : srcIsolated f ≠ srcOverrun := by revert f; decide

theorem srcIsolated_ne_srcFanFault (f : FanId) : srcIsolated f ≠ srcFanFault f := by revert f; decide

theorem srcIsolated_not_side (f : FanId) : ¬ settleSide (srcIsolated f) := by
  revert f; unfold settleSide; decide

/-! ### The start, stall and dwell timers -/

/-- Either expiry takes its channel to FAULT (R108, R109, R111). -/
theorem exec_faultExpiry {s : State} {f : FanId} {c : Instr}
    (expiry : (c = .startTimerExpiry f ∧ s.fans[f].startTimer.isSome = true) ∨
      (c = .stallTimerExpiry f ∧ s.fans[f].stallTimer.isSome = true)) : exec c s = .next (s.fanFault f).settle := by
  rcases expiry with ⟨rfl, runs⟩ | ⟨rfl, runs⟩
  · have faults : s.startExpired f = s.fanFault f := if_neg (Option.isSome_iff_ne_none.mp runs)
    exact congrArg (fun t : State => Host.Outcome.next t.settle) faults
  · have faults : s.stallExpired f = s.fanFault f := if_neg (Option.isSome_iff_ne_none.mp runs)
    exact congrArg (fun t : State => Host.Outcome.next t.settle) faults

/-- A fault with the settling of its event: the channel is out, and its fault source has counted (R111). -/
theorem fanFault_settle (s : State) (f : FanId) :
    (s.fanFault f).settle.fans[f].Out .fault s.fans[f].isoOpen ∧
      LatchEntry.CountedOnce (srcFanFault f) s.stamp s.posA s.latch[srcFanFault f] (s.fanFault f).settle.latch[srcFanFault f] ∧
      (s.fanFault f).settle.still = s.still := by
  obtain ⟨v, hv⟩ : ∃ v, v = s.setFan f { s.fans[f].quiet with state := .fault } := ⟨_, rfl⟩
  have fault : s.fanFault f = v.occur (srcFanFault f) := by rw [hv]; rfl
  have out : v.fans[f].Out .fault s.fans[f].isoOpen := by
    rw [hv, fans_setFan_self]
    exact ⟨rfl, rfl, rfl, rfl, rfl, rfl, rfl⟩
  have occurred : (v.occur (srcFanFault f)).fans = v.fans := plant_fans (plant_occur v _)
  obtain ⟨still, counted⟩ := occur_settle v (srcFanFault_not_side f)
  rw [fault]
  refine ⟨((settle_consequence _).fans f).out (occurred ▸ out) (.inl rfl), ?_, still.trans (hv ▸ rfl)⟩
  rw [hv] at counted ⊢
  exact counted

/-- An expired dwell timer leads a coasting channel on when the fan is still (R110). -/
theorem exec_dwellTimerExpiry {s : State} {f : FanId} (runs : s.fans[f].dwellTimer.isSome = true) :
    exec (.dwellTimerExpiry f) s = .next (s.setFan f (Fan.tryStopped s.now { s.fans[f] with dwellTimer := none })) := by
  show Host.Outcome.next (s.dwellExpired f) = _
  unfold State.dwellExpired
  rw [if_neg (Option.isSome_iff_ne_none.mp runs)]

/-- Settles O39: both faults are one lemma, and the dwell's expiry goes by the fan's speed and the request it holds. -/
theorem fanTimersAct : Obligations.FanTimersAct := by
  refine ⟨fun f s c expiry => ?_, fun f s x runs coasts => ?_⟩
  · obtain ⟨out, counted, still⟩ := fanFault_settle s f
    exact ⟨_, exec_faultExpiry expiry, out.state, out.duty, out.pending, out.start, out.stall, out.dwell, counted, still⟩
  · obtain ⟨F, hF⟩ : ∃ F : Fan, F = { s.fans[f] with dwellTimer := none } := ⟨_, rfl⟩
    have state : F.state = .stopping x := hF ▸ coasts
    have expired : F.dwellTimer = none := hF ▸ rfl
    rw [exec_dwellTimerExpiry runs, ← hF]
    refine ⟨fun turns => ?_, fun still idle => ?_, fun d still run => ?_⟩
    · rw [tryStopped_waits s.now state (.inr (hF ▸ turns))]
    · rw [tryStopped_rests s.now state expired (hF ▸ still) (wants_of_idle (hF ▸ idle)), hF]
    · rw [tryStopped_starts s.now state expired (hF ▸ still) (by rw [hF]; exact run), hF]
      rfl

/-! ### Entry to STOPPING with the last direction (R110, R112, R113) -/

section
variable {F : Fan} (now : Nat)

/-- No request held in the last direction: the channel coasts. -/
theorem coast_rests (rest : ∀ d, F.lastDir = some d → F.wants d = false) :
    (F.enterStopping now F.lastDir).serve now = F.enterStopping now F.lastDir := by
  cases last : F.lastDir with
  | none => exact serve_holds now (.inl rfl)
  | some d =>
    rw [serve_coasting now (d := d) rfl]
    exact if_neg (ne_true_of_eq_false (rest d last))

/-- A request held in the last direction starts at once. -/
theorem coast_starts {d : Direction} (last : F.lastDir = some d) (run : F.wants d = true) :
    (F.enterStopping now F.lastDir).serve now = F.started now d := by
  rw [last, serve_coasting now (d := d) rfl]
  exact if_pos run

end

/-- A clearing that no context awaits leaves a settled state settled, where no QUEUE_OVERRUN launches a plan (R143, R161). -/
theorem clearSource_settled {s : State} (hs : s.Settled) {n : EntryId} (apart : ∀ c ∈ s.stack, c.source ≠ n)
    (idle : s.planValid srcOverrun = false) : (s.clearSource n).Settled := by
  unfold State.clearSource State.clearWithCode
  split
  · have marked : (s.markCleared n).Settled := settled_of_same hs (map_sourceCleared n s.stack apart) rfl
    exact settled_of_reported marked (reportCleared_reported (E := overrunOnly) rfl _ n _) fun _ only => only.symm ▸ idle
  · exact hs

/-! ### The isolator -/

/-- An isolator accepted open, with the settling of its event (R113). -/
theorem isolatorOpened_settle (s : State) (f : FanId) :
    (s.isolatorState f true).settle.fans[f].Out .disabled true ∧
      (s.isolatorState f true).settle.latch[srcFanFault f].asserted = false ∧
      LatchEntry.CountedOnce (srcIsolated f) s.stamp s.posA s.latch[srcIsolated f]
        (s.isolatorState f true).settle.latch[srcIsolated f] ∧
      (s.isolatorState f true).settle.still = s.still := by
  obtain ⟨v, hv⟩ : ∃ v, v = s.setFan f
      { Fan.quiet { s.fans[f] with isoOpen := true, isoTimer := none } with state := .disabled } := ⟨_, rfl⟩
  obtain ⟨w, hw⟩ : ∃ w, w = v.clearSource (srcFanFault f) := ⟨_, rfl⟩
  have opened : s.isolatorState f true = w.occur (srcIsolated f) := by rw [hw, hv]; rfl
  have cleared : Consequence (fun n => n = srcFanFault f ∨ n = srcOverrun) v w :=
    hw ▸ clearSource_consequence (.inr rfl) v _ (.inl rfl)
  have out : v.fans[f].Out .disabled true := by
    rw [hv, fans_setFan_self]
    exact ⟨rfl, rfl, rfl, rfl, rfl, rfl, rfl⟩
  have fans : (w.occur (srcIsolated f)).fans = v.fans :=
    (plant_fans (plant_occur w _)).trans (plant_fans (hw ▸ plant_clearSource v _))
  obtain ⟨still, counted⟩ := occur_settle w (srcIsolated_not_side f)
  have record : SameRecord s.latch[srcIsolated f] w.latch[srcIsolated f] := by
    have same := cleared.latch (srcIsolated f) fun touched => touched.elim (srcIsolated_ne_srcFanFault f) (srcIsolated_ne_srcOverrun f)
    rwa [hv] at same
  have unasserted : w.latch[srcFanFault f].asserted = false := by
    rw [hw]
    exact clearWithCode_asserted v _ _ (srcFanFault_ne_srcOverrun f)
  have isolating : Consequence (fun n => n = srcIsolated f ∨ n = srcOverrun) w (w.occur (srcIsolated f)) :=
    occur_consequence (.inr rfl) w _ (.inl rfl)
  have settled := ((settle_consequence (w.occur (srcIsolated f))).latch (srcFanFault f) (srcFanFault_not_side f)).asserted
  have occurred := (isolating.latch (srcFanFault f) fun touched =>
    touched.elim (srcIsolated_ne_srcFanFault f).symm (srcFanFault_ne_srcOverrun f)).asserted
  have posA : w.posA = s.posA := (congrArg State.posA cleared.still : w.still.posA = v.still.posA).trans (hv ▸ rfl)
  have stamp : w.stamp = s.stamp := cleared.stamp.trans (hv ▸ rfl)
  rw [opened]
  refine ⟨((settle_consequence _).fans f).out (fans ▸ out) (.inr rfl), settled.trans (occurred.trans unasserted), ?_,
    still.trans (cleared.still.trans (hv ▸ rfl))⟩
  rw [posA, stamp] at counted
  exact counted.of_same record

/-- The level that differs from the isolator state begins the 20 ms, the state's own ends them (R100). -/
theorem exec_isolatorInputChange (f : FanId) (isOpen : Bool) (s : State) :
    exec (.isolatorInputChange f isOpen) s = .next
      { s.setFan f
          { s.fans[f] with
            isoTimer := if isOpen = s.fans[f].isoOpen then none else some (s.fans[f].isoTimer.getD (s.now + 20000)) } with
        pins := { s.pins with isolatorOpen := s.pins.isolatorOpen.set f isOpen } } := by
  show Host.Outcome.next (s.isolatorInput f isOpen) = _
  rw [← started_timer]
  rfl

/-- At the end of the 20 ms the isolator state is the other one (R100). -/
theorem exec_isolatorAccepted {f : FanId} {s : State} (runs : s.fans[f].isoTimer.isSome = true) {isOpen : Bool}
    (was : s.fans[f].isoOpen = isOpen) : exec (.isolatorAccepted f) s = .next (s.isolatorState f (!isOpen)).settle := by
  have accepted : s.isolatorAccepted f = s.isolatorState f (!isOpen) := by
    rw [← was]
    exact if_neg (Option.isSome_iff_ne_none.mp runs)
  exact congrArg (fun t : State => Host.Outcome.next t.settle) accepted

/-- A clearing after a channel is led on, with the settling of its event (R112, R113). -/
theorem setFan_clearSource_settle {s : State} (hs : s.Settled) (f : FanId) (F : Fan) {n : EntryId} (own : n ≠ srcOverrun)
    (apart : ∀ c ∈ s.stack, c.source ≠ n) (idle : s.planValid srcOverrun = false) :
    ((s.setFan f F).clearSource n).Settled ∧ ((s.setFan f F).clearSource n).fans = (s.setFan f F).fans ∧
      ((s.setFan f F).clearSource n).latch[n].asserted = false ∧ ((s.setFan f F).clearSource n).still = s.still := by
  have led : (s.setFan f F).Settled := settled_of_same hs rfl rfl
  exact ⟨clearSource_settled led apart idle, plant_fans (plant_clearSource _ n), clearWithCode_asserted _ n _ own,
    (clearSource_consequence (E := anyEntry) trivial _ n trivial).still⟩

/-- An isolator accepted closed, with the settling of its event (R113). -/
theorem isolatorClosed_settle {s : State} (hs : s.Settled) {f : FanId} {F : Fan}
    (closed : F = { s.fans[f] with isoOpen := false, isoTimer := none })
    (apart : ∀ c ∈ s.stack, c.source ≠ srcIsolated f) (idle : s.planValid srcOverrun = false) :
    (s.isolatorState f false).settle.fans[f] = (F.enterStopping s.now F.lastDir).serve s.now ∧
      (s.isolatorState f false).settle.latch[srcIsolated f].asserted = false ∧
      (s.isolatorState f false).settle.still = s.still := by
  obtain ⟨settled, fans, asserted, still⟩ := setFan_clearSource_settle hs f
    ((F.enterStopping s.now F.lastDir).serve s.now) (srcIsolated_ne_srcOverrun f) apart idle
  have led : s.isolatorState f false =
      (s.setFan f ((F.enterStopping s.now F.lastDir).serve s.now)).clearSource (srcIsolated f) := by rw [closed]; rfl
  rw [led, settle_of_settled _ settled]
  refine ⟨?_, asserted, still⟩
  rw [fans]
  exact fans_setFan_self s f _

/-- Settles O40: the input, the opening and the closing are a lemma each; what a closing starts goes by the request held. -/
theorem isolatorsDisableAChannel : Obligations.IsolatorsDisableAChannel := by
  refine ⟨exec_isolatorInputChange, fun f s runs was => ?_, fun f s hs runs was apart idle rest => ?_,
    fun f d s hs runs was apart idle last run => ?_⟩
  · obtain ⟨out, unasserted, counted, still⟩ := isolatorOpened_settle s f
    exact ⟨_, exec_isolatorAccepted runs was, out.state, out.isOpen, out.duty, out.pending, out.start, out.stall, out.dwell,
      unasserted, counted, still⟩
  · obtain ⟨fan, unasserted, still⟩ := isolatorClosed_settle hs rfl apart idle
    exact ⟨_, exec_isolatorAccepted runs was, fan.trans (coast_rests s.now rest), unasserted, still⟩
  · obtain ⟨fan, unasserted, still⟩ := isolatorClosed_settle hs rfl apart idle
    exact ⟨_, exec_isolatorAccepted runs was, fan.trans (coast_starts s.now last run), unasserted, still⟩

end Sys2Proof.Machine
end

