-- ==== Sys2Proof/Proofs/FanResets.lean ====
section
/-! PROOFS. Proofs/FanResets.lean: FAN_RESET (R112) and DOOR_RESET (R131) as the responder serves them. -/

namespace Sys2Proof.Machine

/-! ### What a served request finds and what its reply leaves -/

section
variable (s : State) (p : Port)

theorem heard_fans : (s.heard p).fans = s.fans := plant_fans (plant_setPort s p _)

theorem heard_doors : (s.heard p).doors = s.doors := plant_doors (plant_setPort s p _)

theorem heard_now : (s.heard p).now = s.now := by cases p <;> rfl

theorem heard_stack : (s.heard p).stack = s.stack := by cases p <;> rfl

theorem reply_latch (op : Byte) (r : Request) (a : Answer) (n : EntryId) : (s.reply p op r a).latch[n] = s.latch[n] :=
  (offer_reported (fun _ => False) s p .ll _).latch n id

end

theorem exec_fanReset_serves {s : State} {p : Port} {r : Request} (h : s.Serves p r) :
    exec (.fanReset p r) s =
      .next (((s.heard p).runFanReset r).1.settle.reply p 9 r ((s.heard p).runFanReset r).2) :=
  congrArg Host.Outcome.next (request_serves h 9 false (State.runFanReset r))

theorem exec_doorReset_serves {s : State} {p : Port} {r : Request} (h : s.Serves p r) :
    exec (.doorReset p r) s =
      .next (((s.heard p).runDoorReset r).1.settle.reply p 10 r ((s.heard p).runDoorReset r).2) :=
  congrArg Host.Outcome.next (request_serves h 10 false (State.runDoorReset r))

/-! ### FAN_RESET (R112) -/

section
variable {s : State} {r : Request}

theorem runFanReset_badIndex (far : 3 ≤ r.index.toNat) : s.runFanReset r = (s, { status := 5 }) := dif_neg (by omega)

theorem runFanReset_channel {f : FanId} (index : r.index.toNat = f.val) :
    s.runFanReset r = (s.fanReset f, { status := 0 }) := by
  obtain ⟨i, small⟩ := f
  subst index
  exact dif_pos _

theorem fanReset_idle {f : FanId} (up : s.fans[f].state ≠ .fault) : s.fanReset f = s := if_neg up

end

theorem started_runDir (F : Fan) (now : Nat) (d : Direction) : (F.started now d).runDir = some d := by
  unfold Fan.started
  dsimp only
  split <;> rfl

/-- A reset in FAULT leaves a settled node: the channel led on by its held request, its fault source cleared. -/
theorem fanReset_leads {s : State} (hs : s.Settled) {f : FanId} (fault : s.fans[f].state = .fault)
    (apart : ∀ c ∈ s.stack, c.source ≠ srcFanFault f) (idle : s.planValid srcOverrun = false) :
    (s.fanReset f).Settled ∧
      (∀ g : FanId, (s.fanReset f).fans[g] =
        if g = f then (s.fans[f].enterStopping s.now s.fans[f].lastDir).serve s.now else s.fans[g]) ∧
      (s.fanReset f).latch[srcFanFault f].asserted = false ∧ (s.fanReset f).still = s.still := by
  have led : s.fanReset f =
      (s.setFan f ((s.fans[f].enterStopping s.now s.fans[f].lastDir).serve s.now)).clearSource (srcFanFault f) := if_pos fault
  obtain ⟨settled, fans, asserted, still⟩ := setFan_clearSource_settle hs f
    ((s.fans[f].enterStopping s.now s.fans[f].lastDir).serve s.now) (srcFanFault_ne_srcOverrun f) apart idle
  rw [led, fans]
  exact ⟨settled, fun g => fans_setFan s f g _, asserted, still⟩

/-- The FAN_RESET of a channel in FAULT. -/
theorem fanReset_of_fault {p : Port} {r : Request} {s : State} (h : s.Serves p r) {f : FanId} (index : r.index.toNat = f.val)
    (fault : s.fans[f].state = .fault) (apart : ∀ c ∈ s.stack, c.source ≠ srcFanFault f)
    (idle : s.planValid srcOverrun = false) :
    ∃ t, exec (.fanReset p r) s = .next t ∧ t.latch[srcFanFault f].asserted = false ∧ t.still = (s.heard p).still ∧
      ∀ g : FanId, t.fans[g] =
        if g = f then (s.fans[f].enterStopping s.now s.fans[f].lastDir).serve s.now else s.fans[g] := by
  obtain ⟨settled, fans, asserted, still⟩ := fanReset_leads (heard_settled (p := p) h.1.1) (f := f) (by rwa [heard_fans])
    (by rwa [heard_stack]) (by rwa [heard_planValid])
  rw [heard_fans, heard_now] at fans
  refine ⟨_, exec_fanReset_serves h, ?_⟩
  rw [runFanReset_channel index, settle_of_settled _ settled, reply_latch, reply_still, plant_fans (plant_reply _ p 9 r _)]
  exact ⟨asserted, still, fans⟩

theorem fanReset_served {p : Port} {r : Request} {s : State} (h : s.Serves p r) (f : FanId)
    (index : r.index.toNat = f.val) :
    (s.fans[f].state ≠ .fault → exec (.fanReset p r) s = .next ((s.heard p).reply p 9 r { status := 0 })) ∧
      (s.fans[f].state = .fault → (∀ c ∈ s.stack, c.source ≠ srcFanFault f) → s.planValid srcOverrun = false →
        ∃ t, exec (.fanReset p r) s = .next t ∧ t.latch[srcFanFault f].asserted = false ∧
          t.still = (s.heard p).still ∧
          ((∀ d, s.fans[f].lastDir = some d → s.fans[f].wants d = false) →
            t.fans[f] =
              { s.fans[f] with
                state := .stopping s.fans[f].lastDir, duty := 0, pendingDuty := 0, startTimer := none
                stallTimer := none, dwellTimer := some (s.now + s.fans[f].cfg.coastDwell * 1000000) }) ∧
          (∀ d, s.fans[f].lastDir = some d → s.fans[f].wants d = true → t.fans[f].runDir = some d) ∧
          ∀ g : FanId, g ≠ f → t.fans[g] = s.fans[g]) := by
  refine ⟨fun up => ?_, fun fault apart idle => ?_⟩
  · rw [exec_fanReset_serves h, runFanReset_channel index, fanReset_idle (by rwa [heard_fans]),
      settle_of_settled _ (heard_settled h.1.1)]
  · obtain ⟨t, run, asserted, still, fans⟩ := fanReset_of_fault h index fault apart idle
    have led := (fans f).trans (if_pos rfl)
    refine ⟨t, run, asserted, still, fun rest => ?_, fun d last wanted => ?_, fun g other => (fans g).trans (if_neg other)⟩
    · exact led.trans (coast_rests s.now rest)
    · rw [led, coast_starts s.now last wanted, started_runDir]

/-! ### A door that goes to a new value (R130) -/

/-- The feedback comparison changes the feedback timer alone. -/
theorem supervise_eq (D old : Door) (now : Nat) : ∃ timer, D.supervise now old = { D with feedbackTimer := timer } := by
  unfold Door.supervise
  split
  · exact ⟨_, rfl⟩
  · split
    · exact ⟨_, rfl⟩
    · exact ⟨_, rfl⟩

/-- A lawful door compared with itself: its feedback timer runs exactly while drive and feedback disagree. -/
theorem Door.Lawful.supervise_self {D : Door} {starting : Bool} (h : D.Lawful starting) (now : Nat) :
    D.supervise now D = D := by
  have feedback := h.feedback
  unfold Door.supervise
  by_cases quiet : D.state = .fault ∨ D.agrees = true
  · have stopped : D.feedbackTimer = none := by
      rcases quiet with fault | agrees
      · simpa [fault] using feedback
      · simpa [agrees] using feedback
    rw [if_pos quiet, ← stopped]
  · rw [if_neg quiet, if_neg fun moved => quiet moved.symm]

theorem setDoor_self (s : State) (d : DoorId) : s.setDoor d s.doors[d] = s := by
  have same : s.doors.set d s.doors[d] = s.doors := Vector.set_getElem_self _
  unfold State.setDoor
  rw [same]

/-- A lawful door that stays as it is. -/
theorem doorTo_self (s : State) (d : DoorId) (h : s.doors[d].Lawful s.isStarting) : s.doorTo d s.doors[d] false = s := by
  unfold State.doorTo
  rw [h.supervise_self, setDoor_self, occurIf_false, follow_same, follow_same]
  exact if_pos rfl

/-- A door that leaves FAULT, but not for HELD. -/
theorem doorTo_leavesFault {s : State} {d : DoorId} {D : Door} (fault : s.doors[d].state = .fault) (left : D.state ≠ .fault)
    (unheld : D.state ≠ .held) :
    s.doorTo d D false =
      ((s.setDoor d (D.supervise s.now s.doors[d])).clearSource (srcDoorFault d)).passageFollows
        s.doors[d].isOpenState D.isOpenState := by
  have wasFault : (s.doors[d].state == .fault) = true := beq_iff_eq.mpr fault
  have isFault : (D.state == .fault) = false := beq_eq_false_iff_ne.mpr left
  have wasHeld : (s.doors[d].state == .held) = false := by rw [fault]; rfl
  have isHeld : (D.state == .held) = false := beq_eq_false_iff_ne.mpr unheld
  unfold State.doorTo
  rw [occurIf_false, wasFault, isFault, wasHeld, isHeld, follow_same]
  rfl

theorem passageFollows_latch (s : State) (was is : Bool) : (s.passageFollows was is).latch = s.latch := by
  unfold State.passageFollows; split <;> rfl

theorem passageFollows_settled {s : State} (hs : s.Settled) (was is : Bool) : (s.passageFollows was is).Settled := by
  unfold State.passageFollows
  split
  · exact hs
  · exact settled_of_same hs rfl rfl

/-! ### DOOR_RESET (R131) -/

theorem srcDoorFault_ne_srcOverrun (d : DoorId) : srcDoorFault d ≠ srcOverrun := by revert d; decide

section
variable {D : Door} (now : Nat)

/-- A door reset with its way open is OPEN, by its policy or by egress. -/
theorem reset_opened (starting : Bool) (fault : D.state = .fault) (shut : D.closed.level = false) :
    D.reset now starting = D.enterOpen now (if D.policy = .normal then .egress else .policy) := by
  have cause : (if D.policy.isOpen then OpenCause.policy else .egress) = if D.policy = .normal then .egress else .policy := by
    cases D.policy <;> rfl
  unfold Door.reset
  rw [if_pos fault, shut, cause]
  rfl

theorem reset_shut (starting : Bool) (fault : D.state = .fault) (shut : D.closed.level = true) :
    D.reset now starting = D.reevaluate now starting := by
  unfold Door.reset
  rw [if_pos fault, if_pos shut]

theorem reset_idle (starting : Bool) (up : D.state ≠ .fault) : D.reset now starting = D := if_neg up

/-- A reset takes a door out of FAULT, to OPEN, RELEASED or SECURED. -/
theorem reset_leaves (starting : Bool) (fault : D.state = .fault) :
    (D.reset now starting).state ≠ .fault ∧ (D.reset now starting).state ≠ .held := by
  cases shut : D.closed.level with
  | false => rw [reset_opened now starting fault shut]; exact ⟨nofun, nofun⟩
  | true =>
    rw [reset_shut now starting fault shut]
    rcases reevaluate_state D now starting with ⟨c, released⟩ | secured
    · rw [released]; exact ⟨nofun, nofun⟩
    · rw [secured]; exact ⟨nofun, nofun⟩

theorem reevaluate_secured (policy : D.policy = .normal) (bar : D.pushBar.level = false) (egress : D.egressTimer = none) :
    (D.reevaluate now false).state = .secured := by
  simp [Door.reevaluate, Door.placed, Door.requiresRelease, Door.barTimer, Policy.isOpen, policy, bar, egress]

theorem reevaluate_egress (policy : D.policy = .normal) (bar : D.pushBar.level = true) (egress : D.egressTimer = none) :
    (D.reevaluate now false).state = .released .egress ∧
      (D.reevaluate now false).egressTimer = some (now + D.cfg.egressTime * 1000000) := by
  simp [Door.reevaluate, Door.placed, Door.requiresRelease, Door.releaseCause, Door.barTimer, Policy.isOpen, policy, bar, egress,
    usOfSec]

theorem reevaluate_policy (policy : D.policy ≠ .normal) : (D.reevaluate now false).state = .released .policy := by
  have isOpen : D.policy.isOpen = true := by
    cases h : D.policy with
    | normal => exact absurd h policy
    | _ => rfl
  simp [Door.reevaluate, Door.placed, Door.requiresRelease, Door.releaseCause, isOpen]

end

/-- What a DOOR_RESET outside STARTING makes of a door in FAULT (R131). -/
structure Door.Reset (now : Nat) (D E : Door) : Prop where
  opened : D.closed.level = false →
    E.state = .opened (if D.policy = .normal then .egress else .policy) ∧
      E.holdTimer = some (now + D.cfg.holdLimit * 1000000)
  secured : D.closed.level = true → D.policy = .normal → D.pushBar.level = false → E.state = .secured
  egress : D.closed.level = true → D.policy = .normal → D.pushBar.level = true →
    E.state = .released .egress ∧ E.egressTimer = some (now + D.cfg.egressTime * 1000000)
  policy : D.closed.level = true → D.policy ≠ .normal → E.state = .released .policy

theorem Door.Lawful.reset {D : Door} {starting : Bool} (h : D.Lawful starting) (fault : D.state = .fault) (now : Nat) :
    D.Reset now (D.reset now false) := by
  have egress : D.egressTimer = none := by
    rw [← Option.not_isSome_iff_eq_none]
    intro runs
    obtain ⟨c, released⟩ := h.egress runs
    exact nomatch fault.symm.trans released
  refine ⟨fun shut => ?_, fun shut policy bar => ?_, fun shut policy bar => ?_, fun shut policy => ?_⟩
  · rw [reset_opened now false fault shut]
    exact ⟨rfl, rfl⟩
  · rw [reset_shut now false fault shut]
    exact reevaluate_secured now policy bar egress
  · rw [reset_shut now false fault shut]
    exact reevaluate_egress now policy bar egress
  · rw [reset_shut now false fault shut]
    exact reevaluate_policy now policy

/-- The feedback comparison leaves what the reset made. -/
theorem Door.Reset.supervise {now : Nat} {D E : Door} (h : D.Reset now E) (old : Door) : D.Reset now (E.supervise now old) := by
  obtain ⟨timer, compared⟩ := supervise_eq E old now
  rw [compared]
  exact ⟨h.opened, h.secured, h.egress, h.policy⟩

section
variable {s : State} {r : Request}

theorem runDoorReset_badIndex (far : 2 ≤ r.index.toNat) : s.runDoorReset r = (s, { status := 5 }) := dif_neg (by omega)

theorem runDoorReset_channel {d : DoorId} : r.index.toNat = d.val →
    s.runDoorReset r = (s.doorTo d (s.doors[d].reset s.now s.isStarting) false, { status := 0 }) := by
  obtain ⟨i, small⟩ := d
  rintro rfl
  exact dif_pos _

end

/-- A reset in FAULT leaves a settled node: the door by its inputs, its fault source cleared, and no other door moved. -/
theorem doorReset_leads {s : State} (hs : s.Settled) {d : DoorId} {D : Door} (fault : s.doors[d].state = .fault)
    (left : D.state ≠ .fault) (unheld : D.state ≠ .held) (apart : ∀ c ∈ s.stack, c.source ≠ srcDoorFault d)
    (idle : s.planValid srcOverrun = false) :
    (s.doorTo d D false).Settled ∧
      (∀ e : DoorId, (s.doorTo d D false).doors[e] = if e = d then D.supervise s.now s.doors[d] else s.doors[e]) ∧
      (s.doorTo d D false).latch[srcDoorFault d].asserted = false ∧ (s.doorTo d D false).still = s.still := by
  obtain ⟨v, hv⟩ : ∃ v, v = s.setDoor d (D.supervise s.now s.doors[d]) := ⟨_, rfl⟩
  have doors : (v.clearSource (srcDoorFault d)).doors = v.doors := plant_doors (plant_clearSource v _)
  have placed : v.Settled := settled_of_same hs (hv ▸ rfl) (hv ▸ rfl)
  have cleared : (v.clearSource (srcDoorFault d)).Settled :=
    clearSource_settled placed (by rw [hv]; exact apart) (by rw [hv]; exact idle)
  have still : (v.clearSource (srcDoorFault d)).still = s.still :=
    (clearSource_consequence (E := anyEntry) trivial v _ trivial).still.trans (hv ▸ rfl)
  rw [doorTo_leavesFault fault left unheld, ← hv, passageFollows_doors, passageFollows_latch, doors]
  refine ⟨passageFollows_settled cleared _ _, fun e => ?_, clearWithCode_asserted v _ _ (srcDoorFault_ne_srcOverrun d),
    (passageFollows_consequence anyEntry _ _ _).still.trans still⟩
  rw [hv]
  exact doors_setDoor s d e _

/-- The DOOR_RESET of a door in FAULT. -/
theorem doorReset_of_fault {p : Port} {r : Request} {s : State} (h : s.Serves p r) {d : DoorId} (index : r.index.toNat = d.val)
    (law : s.DoorLaw) (fault : s.doors[d].state = .fault) (apart : ∀ c ∈ s.stack, c.source ≠ srcDoorFault d)
    (idle : s.planValid srcOverrun = false) :
    ∃ t, exec (.doorReset p r) s = .next t ∧ t.latch[srcDoorFault d].asserted = false ∧ t.still = (s.heard p).still ∧
      s.doors[d].Reset s.now t.doors[d] ∧ ∀ e : DoorId, e ≠ d → t.doors[e] = s.doors[e] := by
  have up : (s.heard p).isStarting = false := (heard_isStarting s p).trans (beq_eq_false_iff_ne.mpr h.2.1)
  obtain ⟨left, unheld⟩ := reset_leaves s.now false fault
  obtain ⟨settled, doors, asserted, still⟩ := doorReset_leads (heard_settled (p := p) h.1.1) (d := d)
    (by rwa [heard_doors]) left unheld (by rwa [heard_stack]) (by rwa [heard_planValid])
  rw [heard_doors, heard_now] at doors
  refine ⟨_, exec_doorReset_serves h, ?_⟩
  rw [runDoorReset_channel index, up, heard_now, heard_doors, settle_of_settled _ settled, reply_latch, reply_still,
    plant_doors (plant_reply _ p 10 r _)]
  refine ⟨asserted, still, ?_, fun e other => (doors e).trans (if_neg other)⟩
  rw [(doors d).trans (if_pos rfl)]
  exact ((law d).reset fault s.now).supervise s.doors[d]

/-- A DOOR_RESET of a door that is not in FAULT. -/
theorem doorReset_of_up {p : Port} {r : Request} {s : State} (h : s.Serves p r) {d : DoorId} (index : r.index.toNat = d.val)
    (up : s.doors[d].state ≠ .fault) (law : s.DoorLaw) :
    exec (.doorReset p r) s = .next ((s.heard p).reply p 10 r { status := 0 }) := by
  have same : (s.heard p).doorTo d (s.heard p).doors[d] false = s.heard p :=
    doorTo_self _ d (by rw [heard_doors, heard_isStarting]; exact law d)
  rw [exec_doorReset_serves h, runDoorReset_channel index, reset_idle _ _ (by rwa [heard_doors]), same,
    settle_of_settled _ (heard_settled h.1.1)]

/-- Settles O31: the channels' numbers past the last, the fan channels and the doors each have their lemma. -/
theorem fanAndDoorResets : Obligations.FanAndDoorResets := by
  intro p r s h
  refine ⟨fun far => ?_, fun far => ?_, fanReset_served h, fun d index => ⟨doorReset_of_up h index, ?_⟩⟩
  · rw [exec_fanReset_serves h, runFanReset_badIndex far, settle_of_settled _ (heard_settled h.1.1)]
  · rw [exec_doorReset_serves h, runDoorReset_badIndex far, settle_of_settled _ (heard_settled h.1.1)]
  · intro fault law apart idle
    obtain ⟨t, run, asserted, still, reset, others⟩ := doorReset_of_fault h index law fault apart idle
    exact ⟨t, run, asserted, still, reset.opened, reset.secured, reset.egress, reset.policy, others⟩

end Sys2Proof.Machine
end

