-- ==== Sys2Proof/Proofs/DoorRules.lean ====
section
/-! PROOFS. Proofs/DoorRules.lean: the rules of one door (R120 to R131) and its laws. What the laws ask of a door is read by the
door's state; each rule takes a door that stands so to one that does, and the feedback comparison after it restores R130. -/

namespace Sys2Proof.Machine

/-! ### The laws read by the door's state -/

/-- What the laws ask of a door beside its feedback timer, by its state (R121 to R129). -/
def Door.Stands (starting : Bool) (D : Door) : Prop :=
  match D.state with
  | .secured =>
    D.closed.level = true ∧ D.requiresRelease starting = false ∧ D.holdTimer = none ∧ D.relockTimer = none ∧
      D.holdExpired = false
  | .released c =>
    D.closed.level = true ∧ D.requiresRelease starting = true ∧ c = D.releaseCause starting ∧
      (D.pushBar.level = true → starting = true ∨ D.egressTimer.isSome = true) ∧ D.holdTimer = none ∧
      D.relockTimer = none ∧ D.holdExpired = false
  | .opened _ =>
    D.closed.level = false ∧ D.holdTimer.isSome = !D.holdExpired ∧ (D.holdExpired = true → D.policy = .holdOpen) ∧
      D.egressTimer = none ∧ D.relockTimer = none
  | .held =>
    D.closed.level = false ∧ D.egressTimer = none ∧ D.holdTimer = none ∧ D.relockTimer = none ∧ D.holdExpired = false
  | .relocking =>
    D.closed.level = true ∧ D.requiresRelease starting = false ∧ D.relockTimer.isSome = true ∧ D.holdTimer = none ∧
      D.holdExpired = false
  | .fault => D.egressTimer = none ∧ D.holdTimer = none ∧ D.relockTimer = none ∧ D.holdExpired = false

section
variable {D : Door} {starting : Bool}

/-- A door that needs no release has no egress timer running (R123). -/
theorem Door.egressTimer_of_unreleased (h : D.requiresRelease starting = false) : D.egressTimer = none := by
  unfold Door.requiresRelease at h
  simp only [Bool.or_eq_false_iff, Option.isSome_eq_false_iff, Option.isNone_iff_eq_none] at h
  exact h.1.2

theorem Door.Lawful.stands (h : D.Lawful starting) : D.Stands starting := by
  have stopped : ∀ {t : Timer} {P : Prop}, (t.isSome = true → P) → ¬P → t = none := fun run off =>
    Option.not_isSome_iff_eq_none.mp fun some => off (run some)
  have unmarked : (¬∃ c, D.state = .opened c) → D.holdExpired = false := fun shut =>
    Bool.eq_false_iff.mpr fun mark => shut (h.expired mark).1
  have egress := stopped h.egress
  have hold := stopped h.hold
  have relock := stopped h.relock
  unfold Door.Stands
  cases state : D.state with
  | secured =>
    obtain ⟨closed, free⟩ := h.secured state
    exact ⟨closed, free, hold (by simp [state]), relock (by simp [state]), unmarked (by simp [state])⟩
  | released c =>
    obtain ⟨closed, required, cause⟩ := h.released c state
    exact ⟨closed, required, cause, h.bar ⟨c, state⟩, hold (by simp [state]), relock (by simp [state]),
      unmarked (by simp [state])⟩
  | opened c =>
    obtain ⟨open_, timer⟩ := h.opened c state
    exact ⟨open_, timer, fun mark => (h.expired mark).2, egress (by simp [state]), relock (by simp [state])⟩
  | held =>
    obtain ⟨open_, timer, mark⟩ := h.held state
    exact ⟨open_, egress (by simp [state]), timer, relock (by simp [state]), mark⟩
  | relocking =>
    obtain ⟨closed, free, timer⟩ := h.relocking state
    exact ⟨closed, free, timer, hold (by simp [state]), unmarked (by simp [state])⟩
  | fault =>
    exact ⟨egress (by simp [state]), hold (by simp [state]), relock (by simp [state]), unmarked (by simp [state])⟩

/-- The laws of a door are what its state asks and the feedback comparison (R130). -/
theorem Door.lawful_iff :
    D.Lawful starting ↔ D.Stands starting ∧ D.feedbackTimer.isSome = (D.state != .fault && !D.agrees) := by
  refine ⟨fun h => ⟨h.stands, h.feedback⟩, fun ⟨stands, feedback⟩ => ?_⟩
  unfold Door.Stands at stands
  cases state : D.state with
  | secured =>
    rw [state] at stands
    obtain ⟨closed, free, hold, relock, mark⟩ := stands
    have egress := egressTimer_of_unreleased free
    constructor <;> simp [*]
  | released c =>
    rw [state] at stands
    obtain ⟨closed, required, cause, bar, hold, relock, mark⟩ := stands
    constructor <;> simp [*]
    exact bar
  | opened c =>
    rw [state] at stands
    obtain ⟨open_, hold, mark, egress, relock⟩ := stands
    constructor <;> simp [*]
    exact mark
  | held =>
    rw [state] at stands
    obtain ⟨open_, egress, hold, relock, mark⟩ := stands
    constructor <;> simp [*]
  | relocking =>
    rw [state] at stands
    obtain ⟨closed, free, relock, hold, mark⟩ := stands
    have egress := egressTimer_of_unreleased free
    constructor <;> simp [*]
  | fault =>
    rw [state] at stands
    obtain ⟨egress, hold, relock, mark⟩ := stands
    constructor <;> simp [*]

end

/-! ### What each rule makes of a door that stands -/

/-- The fields that no rule of a door's state moves: its policy (but at a change of it), its lamp and its feedback timer. -/
def Door.beside (D : Door) : Policy × Bool × Timer × Timer := (D.policy, D.lamp, D.lampTimer, D.feedbackTimer)

section
variable {D : Door} (now : Nat) {starting : Bool}

/-- Whether a closed door requires release does not wait for its bar's timer (R123). -/
theorem Door.requiresRelease_barTimer :
    Door.requiresRelease starting { D with egressTimer := D.barTimer now } = D.requiresRelease starting := by
  unfold Door.requiresRelease Door.barTimer
  cases D.pushBar.level <;> cases D.egressTimer <;> simp

/-- A re-evaluation of a door that requires release (R123). -/
theorem Door.reevaluate_required (need : D.requiresRelease starting = true) : D.reevaluate now starting =
    { D with egressTimer := D.barTimer now, state := .released (D.releaseCause starting) } := by
  unfold Door.reevaluate Door.placed
  rw [requiresRelease_barTimer, if_pos need]
  rfl

/-- A re-evaluation of a door that requires none (R123). -/
theorem Door.reevaluate_free (free : D.requiresRelease starting = false) :
    D.reevaluate now starting = { D with state := .secured, egressTimer := none } := by
  unfold Door.reevaluate Door.placed
  rw [requiresRelease_barTimer, if_neg (Bool.eq_false_iff.mp free)]

theorem Door.beside_reevaluate : (D.reevaluate now starting).beside = D.beside := by
  unfold Door.reevaluate Door.placed
  split <;> rfl

theorem Door.beside_shut : (D.shut now starting).beside = D.beside := by
  unfold Door.shut
  dsimp only
  split
  · exact beside_reevaluate now
  · rfl

theorem Door.beside_closes : (D.closes now starting).beside = D.beside := by
  unfold Door.closes
  cases D.state with
  | opened c | held => exact beside_shut now
  | secured | released c | relocking | fault => rfl

/-- A closed door with its other timers stopped stands where a re-evaluation places it (R123). -/
theorem Door.stands_reevaluate (closed : D.closed.level = true) (hold : D.holdTimer = none) (relock : D.relockTimer = none)
    (mark : D.holdExpired = false) : (D.reevaluate now starting).Stands starting := by
  cases need : D.requiresRelease starting with
  | true =>
    have bar : D.pushBar.level = true → (D.barTimer now).isSome = true := fun pressed => by
      unfold Door.barTimer
      rw [pressed]
      cases D.egressTimer <;> rfl
    rw [reevaluate_required now need]
    exact ⟨closed, (requiresRelease_barTimer now).trans need, rfl, fun pressed => .inr (bar pressed), hold, relock, mark⟩
  | false =>
    have egress := egressTimer_of_unreleased need
    rw [reevaluate_free now need, ← egress]
    exact ⟨closed, need, hold, relock, mark⟩

/-- An open door stands in OPEN with its hold timer started (R124, R125, R129). -/
theorem Door.stands_enterOpen (c : OpenCause) (opened : D.closed.level = false) (mark : D.holdExpired = false) :
    (D.enterOpen now c).Stands starting :=
  ⟨opened, by simp [Door.enterOpen, mark], fun marked => absurd (mark.symm.trans marked) nofun, rfl, rfl⟩

theorem Door.stands_shut (closed : D.closed.level = true) (relock : D.relockTimer = none) :
    (D.shut now starting).Stands starting := by
  unfold Door.shut
  dsimp only
  split
  · exact stands_reevaluate now closed rfl relock rfl
  · rename_i free
    exact ⟨closed, Bool.eq_false_iff.mpr free, rfl, rfl, rfl⟩

/-- A door whose bar is accepted as pressed (R124, R125, R129). -/
theorem Door.stands_pressed (h : D.Stands starting) {x : DebouncedInput} :
    ((Door.pressed now starting { D with pushBar := x }).1).Stands starting := by
  unfold Door.Stands at h
  unfold Door.pressed Door.Stands
  cases state : D.state with
  | secured =>
    rw [state] at h
    obtain ⟨closed, free, hold, relock, mark⟩ := h
    simp_all [Door.requiresRelease, Door.releaseCause]
  | released c =>
    rw [state] at h
    obtain ⟨closed, required, cause, bar, hold, relock, mark⟩ := h
    simp_all [Door.requiresRelease, Door.releaseCause]
  | relocking =>
    rw [state] at h
    obtain ⟨closed, free, relock, hold, mark⟩ := h
    simp_all [Door.requiresRelease, Door.releaseCause]
  | opened c | held | fault =>
    rw [state] at h
    simpa [state] using h

/-- A bar let go releases no less than its egress timer does (R125, R126). -/
theorem Door.stands_barFree (h : D.Stands starting) {x : DebouncedInput} (free : x.level = false) :
    Door.Stands starting { D with pushBar := x } := by
  unfold Door.Stands at h ⊢
  cases state : D.state with
  | released c =>
    rw [state] at h
    obtain ⟨closed, required, cause, bar, hold, relock, mark⟩ := h
    refine ⟨closed, ?_, cause, fun pressed => absurd (free.symm.trans pressed) nofun, hold, relock, mark⟩
    unfold Door.requiresRelease at required ⊢
    cases pressed : D.pushBar.level with
    | false => simpa [pressed, free] using required
    | true => rcases bar pressed with started | runs <;> simp [*]
  | secured | relocking =>
    rw [state] at h
    simp_all [Door.requiresRelease]
  | opened c | held | fault =>
    rw [state] at h
    simpa [state] using h

/-- A door accepted as open (R124, R125, R129). -/
theorem Door.stands_opens (h : D.Stands starting) {x : DebouncedInput} (was : D.closed.level = true) (free : x.level = false) :
    ((Door.opens now { D with closed := x }).1).Stands starting := by
  unfold Door.Stands at h
  unfold Door.opens
  cases state : D.state with
  | secured =>
    rw [state] at h
    obtain ⟨-, -, -, -, mark⟩ := h
    exact stands_enterOpen now _ free mark
  | released c =>
    rw [state] at h
    obtain ⟨-, -, -, -, -, -, mark⟩ := h
    exact stands_enterOpen now _ free mark
  | relocking =>
    rw [state] at h
    obtain ⟨-, -, -, -, mark⟩ := h
    exact stands_enterOpen now _ free mark
  | opened c | held =>
    rw [state, was] at h
    exact nomatch h.1
  | fault =>
    rw [state] at h
    unfold Door.Stands
    simpa [state] using h

/-- A door accepted as closed (R129). -/
theorem Door.stands_closes (h : D.Stands starting) {x : DebouncedInput} (was : D.closed.level = false) (shut : x.level = true) :
    (Door.closes now starting { D with closed := x }).Stands starting := by
  unfold Door.Stands at h
  unfold Door.closes
  cases state : D.state with
  | opened c =>
    rw [state] at h
    obtain ⟨-, -, -, -, relock⟩ := h
    exact stands_shut now shut relock
  | held =>
    rw [state] at h
    obtain ⟨-, -, -, relock, -⟩ := h
    exact stands_shut now shut relock
  | secured | released c | relocking =>
    rw [state, was] at h
    exact nomatch h.1
  | fault =>
    rw [state] at h
    unfold Door.Stands
    simpa [state] using h

end

/-! ### Rules of a door -/

/-- A rule of a door, which stood in a node that was or was not STARTING, takes it from D to E: it stands again, under the
policy p, its lamp and, outside FAULT, its feedback timer as they stood. -/
structure Door.Obeys (was starting : Bool) (p : Policy) (D E : Door) : Prop where
  stands : D.Stands was → E.Stands starting
  policy : E.policy = p
  lamp : E.lamp = D.lamp
  lampTimer : E.lampTimer = D.lampTimer
  feedback : E.state ≠ .fault → E.feedbackTimer = D.feedbackTimer

theorem Door.Obeys.of_beside {was starting : Bool} {p : Policy} {D E : Door} (stands : D.Stands was → E.Stands starting)
    (beside : E.beside = (p, D.lamp, D.lampTimer, D.feedbackTimer)) : D.Obeys was starting p E := by
  obtain ⟨policy, lamp, lampTimer, feedback⟩ : E.policy = p ∧ E.lamp = D.lamp ∧ E.lampTimer = D.lampTimer ∧
      E.feedbackTimer = D.feedbackTimer := by simpa [Door.beside] using beside
  exact ⟨stands, policy, lamp, lampTimer, fun _ => feedback⟩

section
variable {D : Door} (now : Nat) {starting : Bool}

/-- An accepted change of an input with the edge event it makes (R120). -/
theorem Door.Obeys.debounced (i : DoorInput) :
    D.Obeys starting starting D.policy ((D.accept i).edgeEvent now starting i (!(D.input i).level)).1 := by
  cases i with
  | lockEngaged => exact .of_beside id rfl
  | pushBar =>
    cases level : (D.input .pushBar).level with
    | false =>
      refine .of_beside (fun h => stands_pressed now h) ?_
      show (Door.pressed now starting _).1.beside = _
      unfold Door.pressed
      split <;> rfl
    | true => exact .of_beside (fun h => stands_barFree h (by simp [level])) rfl
  | closed =>
    cases level : (D.input .closed).level with
    | false =>
      exact .of_beside (fun h => stands_closes now h level (by simp [level])) (beside_closes now (D := D.accept .closed))
    | true =>
      refine .of_beside (fun h => stands_opens now h level (by simp [level])) ?_
      show (Door.opens now _).1.beside = _
      unfold Door.opens
      split <;> rfl

theorem Door.Obeys.egressExpired : D.Obeys starting starting D.policy (D.egressExpired now starting) := by
  unfold Door.egressExpired
  split
  · exact .of_beside id rfl
  · rename_i runs
    split
    · refine .of_beside (fun h => ?_) rfl
      unfold Door.Stands at h ⊢
      cases state : D.state <;> simp_all [Door.requiresRelease, Door.releaseCause]
    · refine .of_beside (fun h => ?_) (beside_reevaluate now)
      unfold Door.Stands at h
      cases state : D.state with
      | released c =>
        rw [state] at h
        obtain ⟨closed, -, -, -, hold, relock, mark⟩ := h
        exact stands_reevaluate now closed hold relock mark
      | secured | relocking =>
        rw [state] at h
        exact absurd (egressTimer_of_unreleased h.2.1) runs
      | opened c | held | fault => simp_all

theorem Door.Obeys.holdExpires : D.Obeys starting starting D.policy D.holdExpires := by
  unfold Door.holdExpires
  split
  · exact .of_beside id rfl
  · rename_i runs
    have opened : D.Stands starting → ∃ c, D.state = .opened c := fun h => by
      unfold Door.Stands at h
      cases state : D.state <;> simp_all
    split
    · refine .of_beside (fun h => ?_) rfl
      obtain ⟨c, state⟩ := opened h
      simp_all [Door.Stands]
    · refine .of_beside (fun h => ?_) rfl
      obtain ⟨c, state⟩ := opened h
      simp_all [Door.Stands, Door.enterHeld]

theorem Door.Obeys.relockExpired : D.Obeys starting starting D.policy (D.relockExpired now starting) := by
  unfold Door.relockExpired
  split
  · exact .of_beside id rfl
  · rename_i runs
    refine .of_beside (fun h => ?_) (beside_reevaluate now)
    unfold Door.Stands at h
    cases state : D.state with
    | relocking =>
      rw [state] at h
      obtain ⟨closed, -, -, hold, mark⟩ := h
      exact stands_reevaluate now closed hold rfl mark
    | _ => simp_all

theorem Door.Obeys.feedbackExpired : D.Obeys starting starting D.policy D.feedbackExpired := by
  unfold Door.feedbackExpired
  split
  · exact .of_beside id rfl
  · exact ⟨fun _ => ⟨rfl, rfl, rfl, rfl⟩, rfl, rfl, rfl, fun up => absurd rfl up⟩

theorem Door.Obeys.reset : D.Obeys starting starting D.policy (D.reset now starting) := by
  unfold Door.reset
  split
  · rename_i fault
    have stopped : D.Stands starting → D.holdTimer = none ∧ D.relockTimer = none ∧ D.holdExpired = false := fun h => by
      unfold Door.Stands at h
      rw [fault] at h
      exact h.2
    split
    · rename_i closed
      refine .of_beside (fun h => ?_) (beside_reevaluate now)
      obtain ⟨hold, relock, mark⟩ := stopped h
      exact stands_reevaluate now closed hold relock mark
    · rename_i opened
      refine .of_beside (fun h => ?_) rfl
      obtain ⟨-, -, mark⟩ := stopped h
      exact stands_enterOpen now _ (Bool.eq_false_iff.mpr opened) mark
  · exact .of_beside id rfl

/-- A released door is re-evaluated where the node has left STARTING; no door is SECURED or RELOCKING before (R134). -/
theorem Door.Obeys.leaveStarting {was : Bool} : D.Obeys was false D.policy (D.leaveStarting now) := by
  have unreleased : ∀ {D : Door}, D.requiresRelease was = false → D.requiresRelease false = false := by
    simp_all [Door.requiresRelease]
  unfold Door.leaveStarting
  cases state : D.state with
  | released c =>
    refine .of_beside (fun h => ?_) (beside_reevaluate now)
    unfold Door.Stands at h
    rw [state] at h
    obtain ⟨closed, -, -, -, hold, relock, mark⟩ := h
    exact stands_reevaluate now closed hold relock mark
  | secured | relocking =>
    refine .of_beside (fun h => ?_) rfl
    unfold Door.Stands at h ⊢
    rw [state] at h ⊢
    exact ⟨h.1, unreleased h.2.1, h.2.2⟩
  | opened c | held | fault =>
    refine .of_beside (fun h => ?_) rfl
    unfold Door.Stands at h ⊢
    rw [state] at h ⊢
    exact h

theorem Door.beside_takePolicy : (D.takePolicy now starting).beside = D.beside := by
  unfold Door.takePolicy
  cases D.state with
  | released c =>
    dsimp only
    split
    · rfl
    · exact beside_reevaluate now
  | secured | relocking | opened c =>
    dsimp only
    split <;> rfl
  | held | fault => rfl

/-- A door takes a new policy by the rules of its state (R122 to R125, R127, R129). -/
theorem Door.stands_takePolicy (h : D.Stands starting) (p : Policy) :
    (Door.takePolicy now starting { D with policy := p }).Stands starting := by
  unfold Door.Stands at h
  unfold Door.takePolicy
  cases state : D.state with
  | released c =>
    rw [state] at h
    obtain ⟨closed, required, cause, bar, hold, relock, mark⟩ := h
    dsimp only
    split
    · rename_i isOpen
      exact ⟨closed, by simp [Door.requiresRelease, isOpen], rfl, bar, hold, relock, mark⟩
    · exact stands_reevaluate now closed hold relock mark
  | secured | relocking =>
    rw [state] at h
    dsimp only
    split <;> simp_all [Door.Stands, Door.requiresRelease, Door.releaseCause]
  | opened c =>
    rw [state] at h
    dsimp only
    split <;> simp_all [Door.Stands, Door.enterHeld]
  | held | fault =>
    rw [state] at h
    simpa [Door.Stands, state] using h

theorem Door.Obeys.policyChange (p : Policy) : D.Obeys starting starting p (D.policyChange now starting p) := by
  unfold Door.policyChange
  split
  · rename_i same
    exact same ▸ .of_beside id rfl
  · exact .of_beside (fun h => stands_takePolicy now h p) (beside_takePolicy now)

/-! ### The feedback comparison and the lamp -/

theorem Door.stands_supervise {old : Door} (h : D.Stands starting) : (D.supervise now old).Stands starting := by
  obtain ⟨timer, compared⟩ := supervise_eq D old now
  exact compared ▸ h

/-- After the comparison the feedback timer runs exactly while drive and report disagree outside FAULT (R130), where it ran so
before the rule. -/
theorem Door.Obeys.lawful {was : Bool} {p : Policy} {E : Door} (h : D.Obeys was starting p E) (law : D.Lawful was) :
    (E.supervise now D).Lawful starting := by
  obtain ⟨stands, feedback⟩ := lawful_iff.mp law
  refine lawful_iff.mpr ⟨stands_supervise now (h.stands stands), ?_⟩
  unfold Door.supervise
  split
  · rename_i quiet
    rcases quiet with fault | agrees
    · simp [fault]
    · have agrees : Door.agrees { E with feedbackTimer := none } = true := agrees
      simp [agrees]
  · rename_i loud
    obtain ⟨up, disagrees⟩ := not_or.mp loud
    have disagree : ∀ t : Timer, Door.agrees { E with feedbackTimer := t } = false := fun _ => Bool.eq_false_iff.mpr disagrees
    split
    · simp [up, disagree]
    · rename_i stays
      obtain ⟨disagreed, wasUp⟩ := not_or.mp stays
      rw [h.feedback up, feedback, disagree E.feedbackTimer, bne_iff_ne.mpr up, bne_iff_ne.mpr wasUp,
        Bool.eq_false_iff.mpr disagreed]

theorem Door.Lawful.takeLamp (law : D.Lawful starting) (old new : LampMode) : (D.takeLamp now old new).Lawful starting := by
  have parts := lawful_iff.mp law
  have lit : ∀ (lamp : Bool) (timer : Timer), Door.Lawful starting { D with lamp := lamp, lampTimer := timer } :=
    fun _ _ => lawful_iff.mpr parts
  unfold Door.takeLamp
  cases new with
  | off => exact lit _ _
  | steady => exact lit _ _
  | flash =>
    dsimp only
    split
    · exact law
    · exact lit _ _

theorem Door.Lawful.lampMatch (law : D.Lawful starting) : D.lampMatch.Lawful starting := by
  have parts := lawful_iff.mp law
  unfold Door.lampMatch
  split
  · exact law
  · exact lawful_iff.mpr parts

/-- A raw change moves no accepted level (R120). -/
theorem Door.Lawful.rawChange (law : D.Lawful starting) (t : Stamp) (i : DoorInput) (level : Bool) :
    (D.rawChange now t i level).Lawful starting := by
  have parts := lawful_iff.mp law
  have debouncing : ∀ (candidate : Option Stamp) (timer : Timer),
      (D.setInput i { D.input i with candidate := candidate, timer := timer }).Lawful starting := fun _ _ =>
    lawful_iff.mpr (by cases i <;> exact parts)
  unfold Door.rawChange
  dsimp only
  split
  · exact debouncing _ _
  · split
    · exact law
    · exact debouncing _ _

theorem DoorMove.lawful {E : Door} (move : DoorMove now starting D E) (law : D.Lawful starting) : E.Lawful starting := by
  cases move with
  | policy p => exact (Door.Obeys.policyChange now p).lawful now law
  | lamp old new => exact law.takeLamp now old new

theorem DoorReach.lawful {E : Door} (reach : DoorReach now starting D E) (law : D.Lawful starting) : E.Lawful starting := by
  induction reach with
  | refl => exact law
  | tail _ move ih => exact move.lawful now ih

end

end Sys2Proof.Machine
end

