-- ==== Sys2Proof/Proofs/LampMode.lean ====
section
/-! PROOFS. Proofs/LampMode.lean: the lamp mode is taken at a change of the stack alone (R133): for each operation that makes
none, that it leaves the mode as it stood. -/

namespace Sys2Proof.Machine

/-! ### What leaves the lamp mode as it stood -/

section
variable (s : State)

theorem Reported.lampMode {E : EntryId → Prop} {s t : State} (h : Reported E s t) : t.lampMode = s.lampMode :=
  (congrArg State.lampMode h.same : t.unreported.lampMode = s.unreported.lampMode)

@[simp] theorem lampMode_occurFrom (n : EntryId) (o : Nat) : (s.occurFrom n o).lampMode = s.lampMode :=
  (occurFrom_reported (E := anyEntry) trivial s n o trivial).lampMode

@[simp] theorem lampMode_occur (n : EntryId) : (s.occur n).lampMode = s.lampMode := lampMode_occurFrom s n _

@[simp] theorem lampMode_sendLocal (f : Frame) : (s.sendLocal f).lampMode = s.lampMode :=
  (sendLocal_reported (E := anyEntry) trivial s f).lampMode

@[simp] theorem lampMode_relay (p : Port) (f : Frame) : (s.relay p f).lampMode = s.lampMode :=
  (relay_reported (E := anyEntry) trivial s p f).lampMode

@[simp] theorem lampMode_reply (p : Port) (op : Byte) (r : Request) (a : Answer) :
    (s.reply p op r a).lampMode = s.lampMode := (offer_reported anyEntry s p .ll _).lampMode

@[simp] theorem lampMode_clearWithCode (n : EntryId) (code : Word) : (s.clearWithCode n code).lampMode = s.lampMode := by
  unfold State.clearWithCode
  split
  · exact (reportCleared_reported (E := anyEntry) trivial (s.markCleared n) n code).lampMode
  · rfl

@[simp] theorem lampMode_clearSource (n : EntryId) : (s.clearSource n).lampMode = s.lampMode := lampMode_clearWithCode s n _

@[simp] theorem lampMode_follow (n : EntryId) (was is : Bool) : (s.follow n was is).lampMode = s.lampMode := by
  cases was <;> cases is <;> simp [State.follow]

@[simp] theorem lampMode_occurIf (n : EntryId) (b : Bool) : (s.occurIf n b).lampMode = s.lampMode := by
  cases b <;> simp [State.occurIf]

/-- A fold of updates that each leave the lamp mode leaves it. -/
theorem lampMode_foldl {α : Type} (update : State → α → State) (h : ∀ s a, (update s a).lampMode = s.lampMode)
    (l : List α) :
    (l.foldl update s).lampMode = s.lampMode := by
  induction l generalizing s with
  | nil => rfl
  | cons a l ih => rw [List.foldl_cons, ih, h]

/-! The line -/

@[simp] theorem lampMode_superviseGood (p : Port) : (s.superviseGood p).lampMode = s.lampMode := by
  unfold State.superviseGood
  dsimp only
  split <;> simp

theorem lampMode_badFrame (p : Port) : (s.badFrame p).lampMode = s.lampMode := by
  unfold State.badFrame
  dsimp only
  split <;> simp

theorem lampMode_linkExpired (p : Port) : (s.linkExpired p).lampMode = s.lampMode := by
  unfold State.linkExpired
  dsimp only
  split_ifs <;> simp

theorem lampMode_fillExpired (p : Port) : (s.fillExpired p).lampMode = s.lampMode := by
  unfold State.fillExpired
  dsimp only
  split <;> simp

theorem lampMode_sent (p : Port) : (s.sent p).lampMode = s.lampMode := by
  unfold State.sent
  dsimp only
  split <;> simp

theorem lampMode_takeSample (p : Port) (f : SampleFields) : (s.takeSample p f).lampMode = s.lampMode := by
  have item : ∀ (s : State) (it : SampleItem), (State.tapItem f.origin.toNat s it).lampMode = s.lampMode := by
    intro s it
    unfold State.tapItem
    split
    · rfl
    · split <;> (try split) <;> (try split) <;> rfl
  have items : (s.tapItems f).lampMode = s.lampMode := lampMode_foldl s _ item _
  unfold State.takeSample
  dsimp only
  split <;> simp [items]

@[simp] theorem lampMode_relayCount (p : Port) (side : Side) (k : Byte) : (s.relayCount p side k).lampMode = s.lampMode := by
  unfold State.relayCount
  split <;> simp

@[simp] theorem lampMode_actTrigger (f : TriggerFields) : (s.actTrigger f).lampMode = s.lampMode := by
  unfold State.actTrigger
  split
  · split
    · rfl
    · split <;> simp
  · rfl

theorem lampMode_takeTrigger (p : Port) (f : TriggerFields) : (s.takeTrigger p f).lampMode = s.lampMode := by
  unfold State.takeTrigger
  dsimp only
  split <;> simp

theorem lampMode_takeTime (p : Port) (clock : BitVec 32) : (s.takeTime p clock).lampMode = s.lampMode := lampMode_relay _ p _

/-! Sensors, demand and the call point -/

theorem lampMode_conversion (c : ChannelId) (code : BitVec 12) : (s.conversion c code).lampMode = s.lampMode := by
  unfold State.conversion
  dsimp only
  split
  · rfl
  · exact lampMode_follow _ _ _ _

theorem lampMode_channelChanged (old : State) (c : ChannelId) : (State.channelChanged old s c).lampMode = s.lampMode :=
  lampMode_follow _ _ _ _

theorem lampMode_reportExpiry : s.reportExpiry.lampMode = s.lampMode := by
  unfold State.reportExpiry
  dsimp only
  split <;> simp

@[simp] theorem lampMode_failedChange (k : Kind) (was is : KindStatus) : (s.failedChange k was is).lampMode = s.lampMode := by
  unfold State.failedChange
  split_ifs <;> simp

@[simp] theorem lampMode_alarmChange (k : Kind) (was is : Bool) : (s.alarmChange k was is).lampMode = s.lampMode := by
  unfold State.alarmChange
  split
  · rfl
  · exact lampMode_follow s _ was is

@[simp] theorem lampMode_kindSources (old : Kinds) : (State.kindSources old s).lampMode = s.lampMode := by
  simp [State.kindSources]

theorem lampMode_kindHoldExpired (k : Kind) : (s.kindHoldExpired k).lampMode = s.lampMode := by
  unfold State.kindHoldExpired
  dsimp only
  split <;> simp

theorem lampMode_callPointAccepted : s.callPointAccepted.lampMode = s.lampMode := by
  unfold State.callPointAccepted
  split <;> simp

theorem lampMode_launchHoldExpired : s.launchHoldExpired.lampMode = s.lampMode := by
  unfold State.launchHoldExpired
  split <;> rfl

theorem lampMode_handOff : s.handOff.lampMode = s.lampMode := by rw [handOff_eq]

theorem lampMode_seeded : s.seeded.lampMode = s.lampMode := by
  unfold State.seeded
  split <;> rfl

@[simp] theorem lampMode_renew : s.renew.lampMode = s.lampMode := (lampMode_handOff _).trans (lampMode_seeded s)

theorem lampMode_passageFollows (was is : Bool) : (s.passageFollows was is).lampMode = s.lampMode := by
  unfold State.passageFollows
  split <;> rfl

@[simp] theorem lampMode_doorTo (d : DoorId) (D : Door) (egress : Bool) : (s.doorTo d D egress).lampMode = s.lampMode := by
  simp [State.doorTo, lampMode_passageFollows]

/-! Stored words and their effects -/

@[simp] theorem lampMode_putWord (T : Table) (e w : Nat) (v : Word) : (s.putWord T e w v).1.lampMode = s.lampMode := by
  unfold State.putWord
  cases T with
  | kind => exact setKind_lampMode s _ _
  | node | status | tap | latch | stack => rfl
  | _ =>
    dsimp only
    split <;> rfl

@[simp] theorem lampMode_putTableWords (T : Table) (a : Nat) (vs : List Word) :
    (s.putTableWords T a vs).1.lampMode = s.lampMode := by
  induction vs generalizing s a with
  | nil => rfl
  | cons v vs ih =>
    refine (ih _ (a + 1)).trans ?_
    unfold State.putTableWord
    split <;> simp

theorem lampMode_loadEntries (T : Table) (e n : Nat) (ws : List Word) : (s.loadEntries T e n ws).lampMode = s.lampMode := by
  induction n generalizing s e ws with
  | zero => rfl
  | succ n ih => exact (ih _ (e + 1) _).trans (lampMode_putTableWords s T _ _)

theorem lampMode_markWords (T : Table) (a n : Nat) : (s.markWords T a n).lampMode = s.lampMode := by
  induction n generalizing s a with
  | zero => rfl
  | succ n ih =>
    refine (ih _ _).trans ?_
    unfold State.markWord
    split
    · split <;> simp
    · rfl

theorem lampMode_flushTap : s.flushTap.lampMode = s.lampMode := by
  unfold State.flushTap
  dsimp only
  split <;> simp

theorem lampMode_lockChanged (l0 l1 : Nat) : (s.lockChanged l0 l1).lampMode = s.lampMode := by
  unfold State.lockChanged
  dsimp only
  split <;> simp

theorem lampMode_nodeChanged (old : State) : (s.nodeChanged old).lampMode = s.lampMode := by
  obtain ⟨u, timed, mode⟩ : ∃ u : State, s.nodeChanged old = (if u.node.effLock = old.node.effLock then u
      else u.lockChanged old.node.effLock u.node.effLock) ∧ u.lampMode = s.lampMode :=
    ⟨_, rfl, by split <;> split <;> rfl⟩
  rw [timed]
  split
  · exact mode
  · exact (lampMode_lockChanged u _ _).trans mode

theorem lampMode_withLatch (latch : Vector LatchEntry 51) (due : Bool) :
    State.lampMode { s with latch := latch, decisionDue := due } = s.lampMode := rfl

theorem lampMode_withDecision (due : Bool) : State.lampMode { s with decisionDue := due } = s.lampMode := rfl

theorem lampMode_revalidate (old : State) : (State.revalidate old s).lampMode = s.lampMode := lampMode_withLatch s _ _

theorem lampMode_changed (old : State) : (State.changed old s).lampMode = s.lampMode := by
  have channels : ((List.finRange 4).foldl (State.channelChanged old) s).lampMode = s.lampMode :=
    lampMode_foldl s _ (fun s c => lampMode_channelChanged s old c) _
  have lines : ∀ t : State, ((List.finRange 16).foldl (State.lineChanged old) t).lampMode = t.lampMode := fun t =>
    lampMode_foldl t _ (fun t i => by unfold State.lineChanged; split <;> simp) _
  unfold State.changed
  dsimp only
  refine (lampMode_revalidate _ old).trans ((lampMode_withDecision _ _).trans ((lines _).trans
    ((lampMode_nodeChanged _ old).trans ?_)))
  split
  · exact channels
  · exact (lampMode_kindSources _ _).trans channels

/-! The image store and the responder -/

theorem lampMode_withDirty (dirty : Vector Bool 15) : State.lampMode { s with dirty := dirty } = s.lampMode := rfl

theorem lampMode_failGroup (g : Fin 15) : (s.failGroup g).lampMode = s.lampMode := by
  unfold State.failGroup
  dsimp only
  split <;> simp [State.emptyLocked]

theorem lampMode_loadGroup (g : Fin 15) (data : List Word) : (s.loadGroup g data).lampMode = s.lampMode := by
  unfold State.loadGroup
  split
  · exact (lampMode_withDirty _ _).trans ((lampMode_changed _ s).trans (lampMode_loadEntries s _ _ _ _))
  · rfl

theorem lampMode_writeComplete (r : SerialAnswer) : (s.writeComplete r).lampMode = s.lampMode := by
  unfold State.writeComplete
  split <;> cases r <;> rfl

theorem lampMode_storeFrom (i : Nat) : (s.storeFrom i).lampMode = s.lampMode := by
  unfold State.storeFrom
  split <;> rfl

theorem lampMode_verifyComplete (r : SerialAnswer) : (s.verifyComplete r).lampMode = s.lampMode := by
  unfold State.verifyComplete State.verified
  split
  · rw [lampMode_storeFrom]
    dsimp only
    split_ifs <;> simp
  · dsimp only
    split <;> simp
  all_goals rfl

theorem lampMode_runTapLoad (r : Request) : (s.runTapLoad r).1.lampMode = s.lampMode := by
  unfold State.runTapLoad
  split
  · split
    · rfl
    · split
      · rfl
      · split
        · rfl
        · rename_i loaded
          obtain ⟨i, -, rfl⟩ := Option.map_eq_some_iff.mp loaded
          exact markDirty_lampMode _ _
  all_goals rfl

theorem lampMode_runAck (r : Request) : (s.runAck r).1.lampMode = s.lampMode := by
  unfold State.runAck
  split
  · dsimp only
    split <;> rfl
  all_goals rfl

theorem lampMode_runStore : s.runStore.1.lampMode = s.lampMode := by
  unfold State.runStore
  split <;> simp [lampMode_storeFrom]

theorem lampMode_runFlushPlans : s.runFlushPlans.1.lampMode = s.lampMode := by
  unfold State.runFlushPlans
  split
  · rfl
  · refine (lampMode_revalidate _ s).trans ?_
    exact lampMode_foldl _ _ (fun t i => by split; exacts [markDirty_lampMode t _, rfl]) _

end

end Sys2Proof.Machine
end

