-- ==== Sys2Proof/Proofs/DoorLaws.lean ====
section
/-! PROOFS. Proofs/DoorLaws.lean: every step keeps the laws of the doors (R121 to R130), the policies that the stack directs for
them (R122) and the lamps (R133). The doors move by their own rules; a change of the stack is followed by the forming of both
policies and of the lamps, whatever else its event has moved. -/

namespace Sys2Proof.Machine

/-! ### What the stack directs for the doors and their lamps (R122, R133) -/

/-- The most open policy of the steps that direct (R122). -/
def policyAt (d : DoorId) (l : List (PlanStep × Nat)) : Policy := l.foldr (fun p acc => (p.1.policyOf d).join acc) .normal

/-- The lamp mode of a first directing step (R133). -/
def lampOf : List (PlanStep × Nat) → LampMode
  | [] => .off
  | (p, _) :: _ => p.lamp

theorem effectivePolicy_eq (s : State) (d : DoorId) : s.effectivePolicy d = policyAt d s.directing := by
  simp [State.effectivePolicy, policyAt, State.directing, List.foldr_map]

theorem lampDirective_eq (s : State) : s.lampDirective = lampOf s.directing := by
  unfold State.lampDirective State.directing
  cases s.stack <;> rfl

theorem directing_of_stack {s t : State} (stack : t.stack = s.stack) (plan : t.plan = s.plan) : t.directing = s.directing := by
  unfold State.directing State.stepOf
  rw [stack, plan]

/-! ### The doors with what is directed for them -/

/-- The doors with all that their laws and their lamps' are read from. -/
structure Display where
  doors : Vector Door 2
  nodeState : NodeState
  directing : List (PlanStep × Nat)
  lampMode : LampMode

def State.display (s : State) : Display := ⟨s.doors, s.nodeState, s.directing, s.lampMode⟩

theorem display_of_plant {s t : State} (plant : t.plant = s.plant) (mode : t.lampMode = s.lampMode) :
    t.display = s.display := by
  unfold State.display
  rw [plant_doors plant, plant_nodeState plant, plant_directing plant, mode]

/-- What the laws make of a door's change, in a node that was and that is, or is not, STARTING. -/
structure Door.Keeps (was starting : Bool) (D E : Door) : Prop where
  lawful : D.Lawful was → E.Lawful starting
  policy : E.policy = D.policy
  lamp : E.lamp = D.lamp
  lampTimer : E.lampTimer = D.lampTimer

theorem Door.Keeps.refl {starting : Bool} (D : Door) : D.Keeps starting starting D := ⟨id, rfl, rfl, rfl⟩

theorem Door.Keeps.trans {a b c : Bool} {D E F : Door} (h : D.Keeps a b E) (g : E.Keeps b c F) : D.Keeps a c F :=
  ⟨g.lawful ∘ h.lawful, g.policy.trans h.policy, g.lamp.trans h.lamp, g.lampTimer.trans h.lampTimer⟩

theorem Door.Obeys.keeps {was starting : Bool} {D E : Door} (h : D.Obeys was starting D.policy E) (now : Nat) :
    D.Keeps was starting (E.supervise now D) := by
  obtain ⟨timer, compared⟩ := supervise_eq E D now
  refine ⟨h.lawful now, ?_, ?_, ?_⟩ <;> rw [compared]
  exacts [h.policy, h.lamp, h.lampTimer]

/-- The laws of the doors, of their policies and of their lamps go from s to t. -/
structure State.KeepsDoors (s t : State) : Prop where
  doors : s.DoorLaw → t.DoorLaw
  policies : s.PolicyLaw → t.PolicyLaw
  lamps : s.LampLaw → t.LampLaw

theorem State.DoorLaw.of_doors {s t : State} (law : s.DoorLaw)
    (doors : ∀ d : DoorId, s.doors[d].Keeps s.isStarting t.isStarting t.doors[d]) : t.DoorLaw :=
  fun d => (doors d).lawful (law d)

theorem State.DoorLaw.of_consequence {E : EntryId → Prop} {s t : State} (law : s.DoorLaw) (h : Consequence E s t) : t.DoorLaw :=
  fun d => h.isStarting ▸ (h.doors d).lawful s.now (law d)

namespace State.KeepsDoors

variable {s t r : State}

theorem refl (s : State) : s.KeepsDoors s := ⟨id, id, id⟩

theorem trans (h : s.KeepsDoors t) (g : t.KeepsDoors r) : s.KeepsDoors r :=
  ⟨g.doors ∘ h.doors, g.policies ∘ h.policies, g.lamps ∘ h.lamps⟩

/-- Doors that keep their laws, policies and lamps under the same directing steps. -/
theorem of_doors (doors : ∀ d : DoorId, s.doors[d].Keeps s.isStarting t.isStarting t.doors[d])
    (directing : t.directing = s.directing) (mode : t.lampMode = s.lampMode) : s.KeepsDoors t where
  doors law := law.of_doors doors
  policies law d := by rw [(doors d).policy, effectivePolicy_eq, directing, ← effectivePolicy_eq]; exact law d
  lamps law :=
    { mode := by rw [mode, lampDirective_eq, directing, ← lampDirective_eq]; exact law.mode
      off := fun off d => by rw [(doors d).lamp]; exact law.off (mode ▸ off) d
      steady := fun steady d => by rw [(doors d).lamp]; exact law.steady (mode ▸ steady) d
      timers := fun d => by rw [(doors d).lampTimer, mode]; exact law.timers d }

theorem of_display (h : t.display = s.display) : s.KeepsDoors t := by
  have doors : t.doors = s.doors := congrArg Display.doors h
  have starting : t.isStarting = s.isStarting := congrArg (fun x : Display => x.nodeState == .starting) h
  exact of_doors (fun d => by rw [doors, starting]; exact .refl _) (congrArg Display.directing h) (congrArg Display.lampMode h)

theorem of_plant (plant : t.plant = s.plant) (mode : t.lampMode = s.lampMode) : s.KeepsDoors t :=
  of_display (display_of_plant plant mode)

end State.KeepsDoors

open State.KeepsDoors (of_plant of_display of_doors)

/-! ### A door that goes to a new value -/

section
variable (s : State)

/-- A door's change leaves the plant as the door's new value does, but for the passage fan (R114). -/
theorem doorTo_follows (d : DoorId) (D : Door) (egress : Bool) :
    ∃ w : State, s.doorTo d D egress = w.passageFollows s.doors[d].isOpenState D.isOpenState ∧
      w.plant = (s.setDoor d (D.supervise s.now s.doors[d])).plant :=
  ⟨_, rfl, by simp⟩

theorem doorTo_door (d e : DoorId) (D : Door) (egress : Bool) :
    (s.doorTo d D egress).doors[e] = if e = d then D.supervise s.now s.doors[d] else s.doors[e] := by
  obtain ⟨w, follows, plant⟩ := doorTo_follows s d D egress
  rw [follows, passageFollows_doors, plant_doors plant]
  exact doors_setDoor s d e _

theorem passageFollows_directing (was is : Bool) : (s.passageFollows was is).directing = s.directing := by
  unfold State.passageFollows
  split <;> rfl

theorem doorTo_directing (d : DoorId) (D : Door) (egress : Bool) : (s.doorTo d D egress).directing = s.directing := by
  obtain ⟨w, follows, plant⟩ := doorTo_follows s d D egress
  rw [follows, passageFollows_directing, plant_directing plant]
  rfl

theorem doorTo_still (d : DoorId) (D : Door) (egress : Bool) : (s.doorTo d D egress).still = s.still := by
  have changed : Consequence anyEntry (s.setDoor d (D.supervise s.now s.doors[d])) (s.doorTo d D egress) := by
    refine Consequence.trans ?_ (passageFollows_consequence _ _ _ _)
    refine Consequence.trans ?_ (follow_consequence trivial _ _ _ _ trivial)
    refine Consequence.trans ?_ (follow_consequence trivial _ _ _ _ trivial)
    cases egress
    · exact .refl _ _
    · exact occur_consequence trivial _ _ trivial
  exact changed.still

theorem doorTo_now (d : DoorId) (D : Door) (egress : Bool) : (s.doorTo d D egress).now = s.now :=
  (congrArg State.now (doorTo_still s d D egress) : (s.doorTo d D egress).still.now = s.still.now)

theorem doorTo_isStarting (d : DoorId) (D : Door) (egress : Bool) : (s.doorTo d D egress).isStarting = s.isStarting :=
  (congrArg State.isStarting (doorTo_still s d D egress) : (s.doorTo d D egress).still.isStarting = s.still.isStarting)

theorem doorTo_keepsDoors {d : DoorId} {D : Door} (rule : s.doors[d].Obeys s.isStarting s.isStarting s.doors[d].policy D)
    (egress : Bool) : s.KeepsDoors (s.doorTo d D egress) := by
  refine of_doors (fun e => ?_) (doorTo_directing s d D egress) (lampMode_doorTo s d D egress)
  rw [doorTo_door, doorTo_isStarting]
  split
  · rename_i same
    exact same ▸ rule.keeps s.now
  · exact .refl _

theorem doorDebounced_keepsDoors (d : DoorId) (i : DoorInput) : s.KeepsDoors (s.doorDebounced d i) := by
  unfold State.doorDebounced
  dsimp only
  split
  · exact .refl s
  · exact doorTo_keepsDoors s (.debounced s.now i) _

theorem rawChange_keeps (D : Door) (starting : Bool) (now : Nat) (t : Stamp) (i : DoorInput) (level : Bool) :
    D.Keeps starting starting (D.rawChange now t i level) := by
  have same : (D.rawChange now t i level).beside = D.beside := by
    unfold Door.rawChange
    dsimp only
    split
    · cases i <;> rfl
    · split
      · rfl
      · cases i <;> rfl
  obtain ⟨policy, lamp, lampTimer, -⟩ : (D.rawChange now t i level).policy = D.policy ∧
      (D.rawChange now t i level).lamp = D.lamp ∧ (D.rawChange now t i level).lampTimer = D.lampTimer ∧ _ := by
    simpa [Door.beside] using same
  exact ⟨fun law => law.rawChange now t i level, policy, lamp, lampTimer⟩

theorem doorInput_keepsDoors (d : DoorId) (i : DoorInput) (level : Bool) : s.KeepsDoors (s.doorInput d i level) := by
  refine of_doors (fun e => ?_) rfl rfl
  show s.doors[e].Keeps s.isStarting s.isStarting (s.setDoor d _).doors[e]
  rw [doors_setDoor]
  split
  · rename_i same
    exact same ▸ rawChange_keeps _ _ _ _ i level
  · exact .refl _

theorem lampMatch_of_none {D : Door} (h : D.lampTimer = none) : D.lampMatch = D := by
  unfold Door.lampMatch
  rw [h]

/-- A compare match toggles a lamp in FLASH alone (R133). -/
theorem lampMatch_keepsDoors (d : DoorId) : s.KeepsDoors (s.setDoor d s.doors[d].lampMatch) := by
  cases timer : s.doors[d].lampTimer with
  | none =>
    rw [lampMatch_of_none timer, setDoor_self]
    exact .refl s
  | some t =>
    have flashing : s.LampLaw → s.lampMode = .flash := fun law => by
      have runs := law.timers d
      rw [timer] at runs
      exact beq_iff_eq.mp runs.symm
    have door : ∀ e : DoorId, (s.setDoor d s.doors[d].lampMatch).doors[e] =
        if e = d then s.doors[e].lampMatch else s.doors[e] := fun e => by
      rw [doors_setDoor]
      split
      · rename_i same
        rw [same]
      · rfl
    refine ⟨fun law e => ?_, fun law e => ?_, fun law => ⟨law.mode, fun off => ?_, fun steady => ?_, fun e => ?_⟩⟩
    · rw [door]
      split
      · exact (law e).lampMatch
      · exact law e
    · have policy : s.doors[e].lampMatch.policy = s.doors[e].policy := by
        unfold Door.lampMatch
        split <;> rfl
      rw [door, apply_ite Door.policy, policy, ite_self]
      exact law e
    · exact nomatch (flashing law).symm.trans off
    · exact nomatch (flashing law).symm.trans steady
    · have lampTimer : s.doors[e].lampMatch.lampTimer.isSome = s.doors[e].lampTimer.isSome := by
        unfold Door.lampMatch
        split <;> simp_all
      rw [door, apply_ite Door.lampTimer, apply_ite Option.isSome, lampTimer, ite_self]
      exact law.timers e

/-! ### A change of the stack -/

theorem display_renew : s.renew.display = s.display := by
  have renewed := renew_consequence anyEntry s
  unfold State.display
  rw [renew_doors, renewed.nodeState, directing_of_stack (renew_stack s) renewed.plan, lampMode_renew]

theorem renew_directing : s.renew.directing = s.directing := congrArg Display.directing (display_renew s)

theorem repolicyBoth_directing : s.repolicyBoth.directing = s.directing :=
  (doorTo_directing _ 1 _ false).trans (doorTo_directing s 0 _ false)

theorem afterStackChange_directing : s.afterStackChange.directing = s.directing :=
  directing_of_stack (afterStackChange_stack s) (afterStackChange_consequence (E := anyEntry) (fun _ _ => trivial) s).plan

theorem afterStackChange_door (d : DoorId) : s.afterStackChange.doors[d] =
    s.renew.repolicyBoth.doors[d].takeLamp s.renew.repolicyBoth.now s.renew.repolicyBoth.lampMode
      s.renew.repolicyBoth.lampDirective := by
  simp [State.afterStackChange, State.retakeLamp]

theorem policy_supervise (D old : Door) (now : Nat) : (D.supervise now old).policy = D.policy := by
  obtain ⟨timer, compared⟩ := supervise_eq D old now
  rw [compared]

theorem policy_takeLamp (D : Door) (now : Nat) (old new : LampMode) : (D.takeLamp now old new).policy = D.policy := by
  cases new with
  | off | steady => rfl
  | flash =>
    unfold Door.takeLamp
    dsimp only
    split <;> rfl

theorem repolicy_policy (d e : DoorId) :
    (s.repolicy d).doors[e].policy = if e = d then s.effectivePolicy e else s.doors[e].policy := by
  unfold State.repolicy
  rw [doorTo_door]
  split
  · rename_i same
    rw [policy_supervise, (Door.Obeys.policyChange (starting := s.isStarting) s.now (s.effectivePolicy d)).policy, same]
  · rfl

/-- Both doors take the most open policy of the stack (R122). -/
theorem repolicyBoth_policy (d : DoorId) : s.repolicyBoth.doors[d].policy = s.effectivePolicy d := by
  have directing : (s.repolicy 0).directing = s.directing := doorTo_directing s 0 _ false
  unfold State.repolicyBoth
  rw [repolicy_policy, repolicy_policy, effectivePolicy_eq, directing, ← effectivePolicy_eq]
  fin_cases d <;> rfl

theorem afterStackChange_policyLaw : s.afterStackChange.PolicyLaw := by
  intro d
  rw [afterStackChange_door, policy_takeLamp, repolicyBoth_policy, effectivePolicy_eq, effectivePolicy_eq, renew_directing,
    afterStackChange_directing]

theorem takeLamp_lampPart {D E : Door} (same : D.lampPart = E.lampPart) (now : Nat) (old new : LampMode) :
    (D.takeLamp now old new).lampPart = (E.takeLamp now old new).lampPart := by
  have flashHalf : D.cfg.flashHalf = E.cfg.flashHalf := congrArg (fun x : Bool × Timer × Nat => x.2.2) same
  unfold Door.takeLamp
  cases new with
  | off | steady => simp [Door.lampPart, flashHalf]
  | flash =>
    dsimp only
    split
    · exact same
    · simp [Door.lampPart, flashHalf]

theorem repolicyBoth_lampPart (d : DoorId) : s.repolicyBoth.doors[d].lampPart = s.doors[d].lampPart :=
  (repolicy_lampPart _ 1 d).trans (repolicy_lampPart s 0 d)

/-- What follows a change of the stack takes the mode that the stack directs, and the lamps as that mode asks (R133). -/
theorem afterStackChange_lamps : s.afterStackChange.lampMode = s.lampDirective ∧ ∀ d : DoorId,
    s.afterStackChange.doors[d].lampPart = (s.doors[d].takeLamp s.now s.lampMode s.lampDirective).lampPart := by
  have now : s.renew.repolicyBoth.now = s.now :=
    ((renew_consequence anyEntry s).trans (repolicyBoth_consequence (fun _ _ => trivial) _)).now
  have mode : s.renew.repolicyBoth.lampMode = s.lampMode :=
    (lampMode_doorTo _ 1 _ false).trans ((lampMode_doorTo _ 0 _ false).trans (lampMode_renew s))
  have directive : s.renew.repolicyBoth.lampDirective = s.lampDirective := by
    rw [lampDirective_eq, lampDirective_eq, repolicyBoth_directing, renew_directing]
  have lit : ∀ d : DoorId, s.renew.repolicyBoth.doors[d].lampPart = s.doors[d].lampPart := fun d => by
    rw [repolicyBoth_lampPart, renew_doors]
  refine ⟨directive, fun d => ?_⟩
  rw [afterStackChange_door, now, mode, directive]
  exact takeLamp_lampPart (lit d) _ _ _

/-- Lamps whose timers run in FLASH alone are lawful after a change of the stack (R133). -/
theorem afterStackChange_lampLaw (timers : ∀ d : DoorId, s.doors[d].lampTimer.isSome = (s.lampMode == .flash)) :
    s.afterStackChange.LampLaw := by
  obtain ⟨mode, lamps⟩ := afterStackChange_lamps s
  have lamp : ∀ d : DoorId, s.afterStackChange.doors[d].lamp = (s.doors[d].takeLamp s.now s.lampMode s.lampDirective).lamp :=
    fun d => congrArg Prod.fst (lamps d)
  have timer : ∀ d : DoorId, s.afterStackChange.doors[d].lampTimer =
      (s.doors[d].takeLamp s.now s.lampMode s.lampDirective).lampTimer :=
    fun d => congrArg (fun x : Bool × Timer × Nat => x.2.1) (lamps d)
  refine ⟨?_, fun off d => ?_, fun steady d => ?_, fun d => ?_⟩
  · rw [mode, lampDirective_eq, lampDirective_eq, afterStackChange_directing]
  · rw [lamp, mode.symm.trans off]
    rfl
  · rw [lamp, mode.symm.trans steady]
    rfl
  · rw [timer, mode]
    cases s.lampDirective with
    | off | steady => rfl
    | flash =>
      unfold Door.takeLamp
      dsimp only
      split
      · rename_i flashing
        rw [timers d, flashing]
      · rfl

/-- The doors and the lamp mode, which the plan unit leaves until its stack has changed. -/
def State.panel (s : State) : Vector Door 2 × LampMode := (s.doors, s.lampMode)

theorem Reported.panel {E : EntryId → Prop} {s t : State} (h : Reported E s t) : t.panel = s.panel :=
  (congrArg State.panel h.same : t.unreported.panel = s.unreported.panel)

@[simp] theorem panel_report (n : EntryId) (t : Transition) (i : Option (Fin 64)) : (s.report n t i).panel = s.panel :=
  (report_reported (E := anyEntry) trivial s n t i).panel

@[simp] theorem panel_setServe (n : EntryId) (v : Serve) : (s.setServe n v).panel = s.panel := rfl

@[simp] theorem panel_setStack (l : List Context) : (s.setStack l).panel = s.panel := rfl

@[simp] theorem panel_oweDecision : s.oweDecision.panel = s.panel := rfl

@[simp] theorem panel_recordDrop (c : Context) : (s.recordDrop c).panel = s.panel := rfl

@[simp] theorem panel_startHold : s.startHold.panel = s.panel := rfl

@[simp] theorem panel_occur (n : EntryId) : (s.occur n).panel = s.panel :=
  (occur_reported (E := anyEntry) trivial s n trivial).panel

@[simp] theorem panel_enterStep (i : Fin 64) : (s.enterStep i).panel = s.panel := by
  unfold State.enterStep State.spread
  split
  · rfl
  · split
    · rfl
    · exact (sendLocal_reported (E := anyEntry) trivial _ _).panel

@[simp] theorem panel_endContext : s.endContext.panel = s.panel := by
  unfold State.endContext
  split <;> simp [State.serveEnded]

@[simp] theorem panel_resume (k : Nat) : (State.resume k s).panel = s.panel := by
  induction k generalizing s with
  | zero => rfl
  | succ k ih =>
    unfold State.resume
    split
    · rfl
    · split
      · split <;> simp [ih]
      · rfl

@[simp] theorem panel_endActive : s.endActive.panel = s.panel := by simp [State.endActive]

theorem panel_endStep : s.endStep.panel = s.panel := by
  unfold State.endStep
  split
  · rfl
  · split <;> simp

theorem panel_endAll (k : Nat) : (State.endAll k s).panel = s.panel := by
  induction k generalizing s with
  | zero => rfl
  | succ k ih => exact (ih _).trans (panel_endContext s)

@[simp] theorem panel_saveActive : s.saveActive.panel = s.panel := by
  unfold State.saveActive
  split <;> rfl

@[simp] theorem panel_makeRoom : s.makeRoom.panel = s.panel := by
  unfold State.makeRoom State.dropOldest
  split
  · split <;> simp [State.serveDropped]
  · rfl

theorem panel_launch (n : EntryId) (i : Fin 64) : (s.launch n i).panel = s.panel := by
  simp [State.launch, State.pushContext]

/-- What follows a change of the stack restores the doors' policies and the lamps (R157, R159, R163). -/
theorem stackChanged_keepsDoors {s u : State} (moved : Consequence anyEntry s u) (panel : u.panel = s.panel) :
    s.KeepsDoors u.afterStackChange where
  doors law := law.of_consequence (moved.trans (afterStackChange_consequence (fun _ _ => trivial) u))
  policies _ := afterStackChange_policyLaw u
  lamps law := afterStackChange_lampLaw u fun d => by
    have doors : u.doors = s.doors := congrArg Prod.fst panel
    have mode : u.lampMode = s.lampMode := congrArg Prod.snd panel
    rw [doors, mode]
    exact law.timers d

theorem decideN_keepsDoors (k : Nat) : s.KeepsDoors (State.decideN k s) := by
  induction k generalizing s with
  | zero => exact .refl s
  | succ k ih =>
    unfold State.decideN
    split
    · exact .refl s
    · exact .trans (stackChanged_keepsDoors (launch_consequence (fun _ _ => trivial) s _ _) (panel_launch s _ _)) (ih _)

theorem settle_keepsDoors : s.KeepsDoors s.settle := by
  have step : s.KeepsDoors s.settleStep := by
    unfold State.settleStep
    split
    · exact .refl s
    · split
      · exact stackChanged_keepsDoors (endStep_consequence trivial s) (panel_endStep s)
      · exact .refl s
  refine step.trans ?_
  show s.settleStep.KeepsDoors s.settleStep.settleDecisions
  unfold State.settleDecisions
  split
  · exact .trans (decideN_keepsDoors _ 8) (of_display rfl)
  · exact .refl _

theorem stepExpired_keepsDoors : s.KeepsDoors s.stepExpired := by
  unfold State.stepExpired
  split
  · exact .refl s
  · split
    · exact stackChanged_keepsDoors (endStep_consequence trivial s) (panel_endStep s)
    · exact .refl s
    · exact .refl s

theorem runClearPlan_keepsDoors (r : Request) : s.KeepsDoors (s.runClearPlan r).1 := by
  unfold State.runClearPlan State.clearActive State.clearAll
  split
  · dsimp only
    split
    · exact .refl s
    · exact stackChanged_keepsDoors (endActive_consequence trivial s) (panel_endActive s)
  · split
    · dsimp only
      split
      · exact .refl s
      · exact stackChanged_keepsDoors (endAll_consequence trivial _ s) (panel_endAll s _)
    · exact .refl s

end

/-! ### Fans and the line -/

section
variable (s : State)

theorem display_setFan (f : FanId) (F : Fan) : (s.setFan f F).display = s.display := rfl

theorem display_reformJet (f : FanId) : (s.reformJet f).display = s.display := rfl

theorem display_reformPassage : s.reformPassage.display = s.display := rfl

theorem display_handOff : s.handOff.display = s.display := by rw [handOff_eq]; rfl

theorem display_occur (n : EntryId) : (s.occur n).display = s.display := display_of_plant (plant_occur s n) (lampMode_occur s n)

theorem display_clearSource (n : EntryId) : (s.clearSource n).display = s.display :=
  display_of_plant (plant_clearSource s n) (lampMode_clearSource s n)

theorem display_withPosition (k : Nat) : State.display { s with posA := k } = s.display := rfl

theorem display_withTap (tap : TapCache) : State.display { s with tap := tap } = s.display := rfl

theorem display_withDecision (due : Bool) : State.display { s with decisionDue := due } = s.display := rfl

theorem display_fanFault (f : FanId) : (s.fanFault f).display = s.display := display_occur _ _

theorem display_startExpired (f : FanId) : (s.startExpired f).display = s.display := by
  unfold State.startExpired
  split
  · rfl
  · exact display_fanFault s f

theorem display_stallExpired (f : FanId) : (s.stallExpired f).display = s.display := by
  unfold State.stallExpired
  split
  · rfl
  · exact display_fanFault s f

theorem display_dwellExpired (f : FanId) : (s.dwellExpired f).display = s.display := by
  unfold State.dwellExpired
  split <;> rfl

theorem display_isolatorAccepted (f : FanId) : (s.isolatorAccepted f).display = s.display := by
  unfold State.isolatorAccepted State.isolatorState
  dsimp only
  split
  · rfl
  · split
    · exact (display_occur _ _).trans (display_clearSource _ _)
    · exact display_clearSource _ _

theorem display_runFanReset (r : Request) : (s.runFanReset r).1.display = s.display := by
  unfold State.runFanReset State.fanReset
  split
  · dsimp only
    split
    · exact display_clearSource _ _
    · rfl
  · rfl

theorem display_controlExpired : s.controlExpired.display = s.display :=
  (display_handOff _).trans <| display_of_plant ((plant_kindSources _ _).trans (plant_withDemand s _ _ _ _ _))
    (lampMode_kindSources _ _)

theorem display_setPosA (k : Nat) : (s.setPosA k).display = s.display := by
  unfold State.setPosA State.guardRetest
  split
  · rfl
  · have moved : ((State.occur { s with posA := k } srcPosition).flushUnlocked).display = s.display :=
      (display_withTap _ _).trans ((display_occur _ _).trans (display_withPosition s k))
    split
    · exact moved
    · exact (display_reformJet _ _).trans ((display_reformJet _ _).trans moved)

theorem takeCount_keepsDoors (p : Port) (side : Side) (k : Byte) : s.KeepsDoors (s.takeCount p side k) := by
  unfold State.takeCount
  split
  · exact .trans (of_display (display_setPosA s _)) (of_plant (plant_relayCount _ _ _ k) (lampMode_relayCount _ _ _ k))
  · exact of_plant ((plant_relayCount _ _ _ k).trans rfl) ((lampMode_relayCount _ _ _ k).trans rfl)
  · exact of_display (display_occur s _)
  · exact of_display (display_occur s _)

theorem goodUp_keepsDoors (p : Port) (dispatch : State → State) (h : ∀ s : State, s.KeepsDoors (dispatch s)) :
    s.KeepsDoors (s.goodUp p dispatch) := by
  have supervised : s.KeepsDoors (s.superviseGood p).settle :=
    .trans (of_plant (plant_superviseGood s p) (lampMode_superviseGood s p)) (settle_keepsDoors _)
  unfold State.goodUp
  dsimp only
  split
  · exact supervised.trans ((h _).trans (settle_keepsDoors _))
  · exact supervised

theorem goodAny_keepsDoors (p : Port) (dispatch : State → State) (h : ∀ s : State, s.KeepsDoors (dispatch s)) :
    s.KeepsDoors (s.goodAny p dispatch) :=
  .trans (of_plant (plant_superviseGood s p) (lampMode_superviseGood s p)) <|
    (settle_keepsDoors _).trans ((h _).trans (settle_keepsDoors _))

theorem reply_keepsDoors (p : Port) (op : Byte) (r : Request) (a : Answer) : s.KeepsDoors (s.reply p op r a) :=
  of_plant (plant_reply s p op r a) (lampMode_reply s p op r a)

theorem respond_keepsDoors (p : Port) (op : Byte) (r : Request) (free : Bool) (run : State → State × Answer)
    (h : ∀ s : State, s.KeepsDoors (run s).1) : s.KeepsDoors (s.respond p op r free run) := by
  unfold State.respond
  split
  · exact reply_keepsDoors s p op r _
  · exact (h s).trans ((settle_keepsDoors _).trans (reply_keepsDoors _ p op r _))

theorem request_keepsDoors (p : Port) (op : Byte) (r : Request) (free : Bool) (run : State → State × Answer)
    (h : ∀ s : State, s.KeepsDoors (run s).1) : s.KeepsDoors (s.request p op r free run) := by
  refine goodUp_keepsDoors s p _ fun s => ?_
  split
  · exact respond_keepsDoors s p op r free run h
  · exact .refl s

theorem runDoorReset_keepsDoors (r : Request) : s.KeepsDoors (s.runDoorReset r).1 := by
  unfold State.runDoorReset
  split
  · exact doorTo_keepsDoors s (.reset s.now) false
  · exact .refl s

theorem runOpen_keepsDoors : s.KeepsDoors s.runOpen.1 := by
  unfold State.runOpen
  split
  · rename_i lockout
    refine .trans (of_doors (t := { s with nodeState := .operating }) (fun d => ?_) rfl rfl)
      (of_display ((display_withDecision _ true).trans (display_renew _)))
    have was : s.isStarting = false := by simp [State.isStarting, lockout]
    rw [was]
    exact .refl _
  · exact .refl s

/-! ### Stored configuration words -/

theorem putWord_keepsDoor (T : Table) (e w : Nat) (v : Word) (starting : Bool) (d : DoorId) :
    s.doors[d].Keeps starting starting (s.putWord T e w v).1.doors[d] := by
  have untouched : ∀ t : State, t.doors = s.doors → s.doors[d].Keeps starting starting t.doors[d] :=
    fun t same => same ▸ .refl _
  unfold State.putWord
  cases T with
  | door =>
    dsimp only
    split
    · rename_i he
      have stored : ∀ (D : Door) (cfg : DoorCfg), D.Keeps starting starting { D with cfg := cfg } := fun D cfg =>
        ⟨fun law => by have parts := Door.lawful_iff.mp law; exact Door.lawful_iff.mpr parts, rfl, rfl, rfl⟩
      show s.doors[d].Keeps starting starting (s.setDoor ⟨e, he⟩ _).doors[d]
      rw [doors_setDoor]
      split
      · rename_i same
        subst same
        exact stored _ _
      · exact .refl _
    · exact .refl _
  | kind => exact untouched _ (setKind_doors s _ _)
  | node | status | tap | latch | stack => exact .refl _
  | _ =>
    dsimp only
    split <;> exact .refl _

theorem putTableWords_keepsDoor (T : Table) (a : Nat) (vs : List Word) (starting : Bool) (d : DoorId) :
    s.doors[d].Keeps starting starting (s.putTableWords T a vs).1.doors[d] := by
  induction vs generalizing s a with
  | nil => exact .refl _
  | cons v vs ih =>
    refine .trans ?_ (ih _ (a + 1))
    unfold State.putTableWord
    split
    · exact putWord_keepsDoor s T _ _ v starting d
    · exact .refl _

theorem loadEntries_keepsDoor (T : Table) (e n : Nat) (ws : List Word) (starting : Bool) (d : DoorId) :
    s.doors[d].Keeps starting starting (s.loadEntries T e n ws).doors[d] := by
  induction n generalizing s e ws with
  | zero => exact .refl _
  | succ n ih => exact (putTableWords_keepsDoor s T _ _ starting d).trans (ih _ (e + 1) _)

/-- Stored words that leave the contexts' current steps. -/
theorem State.StoresFields.keepsDoors {s t : State} (h : s.StoresFields t)
    (doors : ∀ d : DoorId, s.doors[d].Keeps s.isStarting s.isStarting t.doors[d]) (mode : t.lampMode = s.lampMode)
    (current : ∀ c ∈ s.stack, t.plan[c.step] = s.plan[c.step]) : s.KeepsDoors t := by
  have starting : t.isStarting = s.isStarting := by
    unfold State.isStarting
    rw [h.nodeState]
  refine of_doors (fun d => starting.symm ▸ doors d) ?_ mode
  unfold State.directing State.stepOf
  rw [h.stack]
  exact List.map_congr_left fun c mem => by rw [current c mem]

/-- A WRITE that its checks let pass covers no current step (R151). -/
theorem runWrite_keepsDoors (r : Request) : s.KeepsDoors (s.runWrite r).1 := by
  unfold State.runWrite
  split
  · exact .refl s
  · rename_i T _
    dsimp only
    split
    · exact .refl s
    · split
      · exact .refl s
      · split
        · exact .refl s
        · rename_i uncovered
          refine .trans ((putTableWords_stores s T _ r.data).keepsDoors (putTableWords_keepsDoor s T _ _ _)
              (lampMode_putTableWords s T _ _) fun c mem => ?_)
            (of_plant ((plant_changed _ s).trans (plant_markWords _ T _ _))
              ((lampMode_changed _ s).trans (lampMode_markWords _ T _ _)))
          refine putTableWords_step s T _ _ _ fun plan => ?_
          have free : s.coversCurrent r.index.toNat r.data.length = false :=
            Bool.eq_false_iff.mpr fun covers => uncovered ⟨plan, covers⟩
          have apart := List.any_eq_false.mp free c mem
          simp only [Bool.and_eq_true, decide_eq_true_eq, not_and_or, not_lt] at apart
          omega

/-! ### The image load -/

/-- Loaded entries leave the steps before them. -/
theorem loadEntries_step (T : Table) (e n : Nat) (ws : List Word) (i : Fin 64) (before : T = .plan → i.val < e) :
    (s.loadEntries T e n ws).plan[i] = s.plan[i] := by
  induction n generalizing s e ws with
  | zero => rfl
  | succ n ih =>
    refine (ih _ (e + 1) _ fun plan => ?_).trans (putTableWords_step s T _ _ i fun plan => .inr ?_)
    · have := before plan
      omega
    · have earlier := before plan
      subst plan
      show (i.val + 1) * 17 ≤ e * 17
      omega

/-- The PLAN groups hold sixteen steps each (R173). -/
theorem groupTable_plan {g : Fin 15} {e n : Nat} (h : groupTable g = some (.plan, e, n)) : e + 144 = 16 * g.val := by
  fin_cases g <;> simp [groupTable] at h ⊢ <;> omega

theorem display_withTaplock (tap : TapCache) (dirty : Vector Bool 15) :
    State.display { s with tap := tap, dirty := dirty } = s.display := rfl

/-- A group that is read keeps the doors' laws, and their policies and lamps where the contexts' steps are of groups before it
(R166). -/
theorem loadGroup_keepsDoors (g : Fin 15) (data : List Word) (current : ∀ c ∈ s.stack, (groupOfStep c.step).val < g.val) :
    s.KeepsDoors (s.loadGroup g data) := by
  unfold State.loadGroup
  split
  · rename_i T e n group
    refine .trans ((loadEntries_stores s T e n data).keepsDoors (loadEntries_keepsDoor s T e n data _)
        (lampMode_loadEntries s T e n data) fun c mem => ?_)
      (of_plant ((plant_withDirty _ _).trans (plant_changed _ s)) ((lampMode_withDirty _ _).trans (lampMode_changed _ s)))
    refine loadEntries_step s T e n data c.step fun plan => ?_
    have place := groupTable_plan (plan ▸ group)
    have before : 9 + c.step.val / 16 < g.val := current c mem
    omega
  · exact of_display (display_withTaplock s _ _)

theorem loadGroup_doorLaw (g : Fin 15) (data : List Word) (law : s.DoorLaw) : (s.loadGroup g data).DoorLaw := by
  unfold State.loadGroup
  split
  · rename_i T e n _
    have starting : (s.loadEntries T e n data).isStarting = s.isStarting := by
      unfold State.isStarting
      rw [(loadEntries_stores s T e n data).nodeState]
    refine (of_plant ((plant_withDirty _ _).trans (plant_changed _ s))
      ((lampMode_withDirty _ _).trans (lampMode_changed _ s))).doors (law.of_doors fun d => ?_)
    rw [starting]
    exact loadEntries_keepsDoor s T e n data _ d
  · exact (of_display (display_withTaplock s _ _)).doors law

theorem doorsLeaveStarting_door (d : DoorId) :
    s.doorsLeaveStarting.doors[d] = (s.doors[d].leaveStarting s.now).supervise s.now s.doors[d] := by
  have now : (s.doorLeavesStarting 0).now = s.now := doorTo_now s 0 _ false
  have first : ∀ e : DoorId, (s.doorLeavesStarting 0).doors[e] =
      if e = 0 then (s.doors[0].leaveStarting s.now).supervise s.now s.doors[0] else s.doors[e] :=
    fun e => doorTo_door s 0 e _ false
  unfold State.doorsLeaveStarting
  have second := doorTo_door (s.doorLeavesStarting 0) 1 d
    ((s.doorLeavesStarting 0).doors[(1 : DoorId)].leaveStarting (s.doorLeavesStarting 0).now) false
  refine second.trans ?_
  rw [first, first, now]
  fin_cases d <;> rfl

/-- The node leaves STARTING at the end of the load, and its doors by their rule (R134, R181). -/
theorem endLoad_keepsDoors (locked : Bool) : s.KeepsDoors (s.endLoad locked) := by
  obtain ⟨u, hu⟩ : ∃ u : State, u = State.reformPassage (State.reformJet (State.reformJet
    { s with loading := .done, nodeState := if locked then .lockout else .operating } jet1) jet2) := ⟨_, rfl⟩
  have doors : u.doors = s.doors := hu ▸ rfl
  have ended : s.endLoad locked = { u.doorsLeaveStarting.renew with decisionDue := true } := by rw [hu]; rfl
  have leaves : s.KeepsDoors u.doorsLeaveStarting := by
    have starting : u.doorsLeaveStarting.isStarting = false := by
      refine (doorTo_isStarting _ 1 _ false).trans ((doorTo_isStarting u 0 _ false).trans ?_)
      rw [hu]
      cases locked <;> rfl
    refine of_doors (fun d => ?_) ?_ ?_
    · rw [starting, doorsLeaveStarting_door, doors]
      exact (Door.Obeys.leaveStarting u.now).keeps u.now
    · exact (doorTo_directing _ 1 _ false).trans ((doorTo_directing u 0 _ false).trans (hu ▸ rfl))
    · exact (lampMode_doorTo _ 1 _ false).trans ((lampMode_doorTo u 0 _ false).trans (hu ▸ rfl))
  rw [ended]
  exact leaves.trans (of_display ((display_withDecision _ true).trans (display_renew _)))

theorem lampMode_emptyLocked : s.emptyLocked.lampMode = s.lampMode := by dsimp only [State.emptyLocked]

theorem nextGroup_keepsDoors (i : Nat) (locked : Bool) (count : Nat) : s.KeepsDoors (s.nextGroup i locked count) := by
  unfold State.nextGroup
  split
  · split
    · exact of_display rfl
    · have skipped : s.KeepsDoors s.emptyLocked := of_plant (plant_emptyLocked s) (lampMode_emptyLocked s)
      exact skipped.trans (endLoad_keepsDoors s.emptyLocked locked)
  · exact endLoad_keepsDoors s locked

theorem display_withLoading (l : LoadState) : State.display { s with loading := l } = s.display := rfl

theorem headerRead_keepsDoors (r : SerialAnswer) : s.KeepsDoors (s.headerRead r) := by
  unfold State.headerRead
  split
  · split
    · exact .trans (of_display ((display_occur _ _).trans (display_withLoading s _))) (endLoad_keepsDoors _ true)
    · exact nextGroup_keepsDoors s _ _ _
  all_goals exact .refl s

theorem failGroup_keepsDoors (g : Fin 15) : s.KeepsDoors (s.failGroup g) :=
  of_plant (plant_failGroup s g) (lampMode_failGroup s g)

theorem groupRead_keepsDoors (r : SerialAnswer) (current : ∀ c ∈ s.stack, s.stepLoaded c.step) :
    s.KeepsDoors (s.groupRead r) := by
  unfold State.groupRead
  split
  · rename_i g locked count loading
    refine .trans ?_ (nextGroup_keepsDoors _ _ _ _)
    split
    · refine loadGroup_keepsDoors s g _ fun c mem => ?_
      have loaded := current c mem
      unfold State.stepLoaded at loaded
      rwa [loading] at loaded
    · exact failGroup_keepsDoors s g
  all_goals exact .refl s

theorem groupRead_doorLaw (r : SerialAnswer) (law : s.DoorLaw) : (s.groupRead r).DoorLaw := by
  unfold State.groupRead
  split
  · refine (nextGroup_keepsDoors _ _ _ _).doors ?_
    split
    · exact loadGroup_doorLaw s _ _ law
    · exact (failGroup_keepsDoors s _).doors law
  all_goals exact law

/-! ### Resets and time -/

theorem resetDoor_lawful (pins : Pins) (now : Nat) (d : DoorId) : (resetDoor pins now d).Lawful true := by
  refine Door.lawful_iff.mpr ?_
  unfold Door.Stands resetDoor
  generalize pins.door[d] = p
  obtain ⟨closed, lockEngaged, bar⟩ := p
  cases closed <;> cases lockEngaged <;> simp [Door.agrees, Door.lockDrive, Door.requiresRelease, Door.releaseCause]

/-- Doors at their reset values in a STARTING node with an empty stack have all the laws (R134). -/
theorem reset_keepsDoors {t : State} {pins : Pins} {now : Nat} (doors : t.doors = Vector.ofFn (resetDoor pins now))
    (starting : t.nodeState = .starting) (stack : t.stack = []) (mode : t.lampMode = .off) : s.KeepsDoors t := by
  have door : ∀ d : DoorId, t.doors[d] = resetDoor pins now d := fun d => by rw [doors]; simp
  refine ⟨fun _ d => ?_, fun _ d => ?_, fun _ => ⟨?_, fun _ d => ?_, fun steady => ?_, fun d => ?_⟩⟩
  · have started : t.isStarting = true := by simp [State.isStarting, starting]
    rw [door, started]
    exact resetDoor_lawful pins now d
  · rw [door, State.effectivePolicy, stack]
    rfl
  · rw [mode, State.lampDirective, stack]
  · rw [door]
    rfl
  · exact nomatch mode.symm.trans steady
  · rw [door, mode]
    rfl

theorem firstEvaluation_keepsDoors : s.KeepsDoors s.firstEvaluation := by
  have found : ∀ (n : EntryId) (b : Bool) (s : State), (s.firstFound n b).lampMode = s.lampMode := by
    intro n b s
    cases b
    · rfl
    · exact lampMode_occur s n
  refine of_plant (plant_firstEvaluation s) ?_
  unfold State.firstEvaluation
  dsimp only
  simp only [found]

theorem hardReset_keepsDoors (cause : ResetCause) : s.KeepsDoors (s.hardReset cause) :=
  .trans (reset_keepsDoors s (t := s.fresh 0 cause) rfl rfl rfl rfl) (firstEvaluation_keepsDoors _)

theorem restarted_keepsDoors : s.KeepsDoors s.restarted := by
  unfold State.restarted
  exact .trans (reset_keepsDoors s (pins := s.pins) (now := s.now) rfl rfl rfl rfl) (firstEvaluation_keepsDoors _)

end

theorem display_withAgeing (s : State) (timer : Timer) (tap : TapCache) :
    State.display { s with ageTimer := timer, tap := tap } = s.display := rfl

/-! ### Every command -/

/-- Every command keeps the laws, a group read where the contexts' steps are of groups that the load has passed (R166). -/
theorem exec_keepsDoors (c : Instr) (s : State)
    (load : ∀ r, c = .imageGroupRead r → ∀ x ∈ s.stack, s.stepLoaded x.step) :
    ∃ t, exec c s = .next t ∧ s.KeepsDoors t := by
  have settled : ∀ {t : State}, s.KeepsDoors t → s.KeepsDoors t.settle := fun h => h.trans (settle_keepsDoors _)
  have leaves : ∀ {t : State}, t.plant = s.plant → t.lampMode = s.lampMode → s.KeepsDoors t.settle :=
    fun plant mode => settled (of_plant plant mode)
  have relayed : ∀ (p : Port) (f : Frame) (b : Bool) (s : State), s.KeepsDoors (if b then s.relay p f else s) := by
    intro p f b s
    cases b
    · exact .refl s
    · exact of_plant (plant_relay s p f) (lampMode_relay s p f)
  cases c with
  | powerOnReset => exact ⟨_, rfl, hardReset_keepsDoors s .powerOn⟩
  | pinReset => exact ⟨_, rfl, hardReset_keepsDoors s .pin⟩
  | badFrame p => exact ⟨_, rfl, leaves (plant_badFrame s p) (lampMode_badFrame s p)⟩
  | fill p => exact ⟨_, rfl, goodAny_keepsDoors s p _ .refl⟩
  | count p side k => exact ⟨_, rfl, goodAny_keepsDoors s p _ fun s => takeCount_keepsDoors s p side k⟩
  | sample p f =>
    refine ⟨_, rfl, goodUp_keepsDoors s p _ fun s => ?_⟩
    split
    · exact of_plant (plant_takeSample s p f) (lampMode_takeSample s p f)
    · exact .refl s
  | event p f => exact ⟨_, rfl, goodUp_keepsDoors s p _ (relayed p _ true)⟩
  | trigger p f =>
    exact ⟨_, rfl, goodUp_keepsDoors s p _ fun s => of_plant (plant_takeTrigger s p f) (lampMode_takeTrigger s p f)⟩
  | mgmtReply p f => exact ⟨_, rfl, goodUp_keepsDoors s p _ (relayed p _ _)⟩
  | mgmtReqRelay p f => exact ⟨_, rfl, goodUp_keepsDoors s p _ (relayed p _ _)⟩
  | time p clock =>
    exact ⟨_, rfl, goodUp_keepsDoors s p _ fun s => of_plant (plant_takeTime s p clock) (lampMode_takeTime s p clock)⟩
  | unknownFrame p => exact ⟨_, rfl, goodUp_keepsDoors s p _ .refl⟩
  | read p r => exact ⟨_, rfl, request_keepsDoors s p 1 r _ _ fun s => by rw [runRead_state]; exact .refl s⟩
  | write p r => exact ⟨_, rfl, request_keepsDoors s p 2 r _ _ fun s => runWrite_keepsDoors s r⟩
  | tapLoad p r =>
    exact ⟨_, rfl, request_keepsDoors s p 3 r _ _ fun s => of_plant (plant_runTapLoad s r) (lampMode_runTapLoad s r)⟩
  | flushTap p r =>
    exact ⟨_, rfl, request_keepsDoors s p 4 r _ _ fun s => of_plant (plant_flushTap s) (lampMode_flushTap s)⟩
  | flushPlans p r =>
    exact ⟨_, rfl, request_keepsDoors s p 5 r _ _ fun s => of_plant (plant_runFlushPlans s) (lampMode_runFlushPlans s)⟩
  | ack p r => exact ⟨_, rfl, request_keepsDoors s p 6 r _ _ fun s => of_plant (plant_runAck s r) (lampMode_runAck s r)⟩
  | clearPlan p r => exact ⟨_, rfl, request_keepsDoors s p 7 r _ _ fun s => runClearPlan_keepsDoors s r⟩
  | setMask p r => exact ⟨_, rfl, request_keepsDoors s p 8 r _ _ fun s => of_display rfl⟩
  | fanReset p r => exact ⟨_, rfl, request_keepsDoors s p 9 r _ _ fun s => of_display (display_runFanReset s r)⟩
  | doorReset p r => exact ⟨_, rfl, request_keepsDoors s p 10 r _ _ fun s => runDoorReset_keepsDoors s r⟩
  | openNode p r => exact ⟨_, rfl, request_keepsDoors s p 11 r _ _ runOpen_keepsDoors⟩
  | store p r => exact ⟨_, rfl, request_keepsDoors s p 12 r _ _ fun s => of_plant (plant_runStore s) (lampMode_runStore s)⟩
  | restart p r =>
    refine ⟨_, rfl, goodUp_keepsDoors s p _ fun s => ?_⟩
    split
    · split
      · exact reply_keepsDoors s p 13 r _
      · exact restarted_keepsDoors s
    · exact .refl s
  | badOpRequest p op r =>
    refine ⟨_, rfl, goodUp_keepsDoors s p _ fun s => ?_⟩
    split
    · exact respond_keepsDoors s p op r false _ .refl
    · exact .refl s
  | linkTimerExpiry p => exact ⟨_, rfl, leaves (plant_linkExpired s p) (lampMode_linkExpired s p)⟩
  | fillTimerExpiry p => exact ⟨_, rfl, of_plant (plant_fillExpired s p) (lampMode_fillExpired s p)⟩
  | transmissionCompletion p => exact ⟨_, rfl, of_plant (plant_sent s p) (lampMode_sent s p)⟩
  | conversionCompletion ch code => exact ⟨_, rfl, leaves (plant_conversion s ch code) (lampMode_conversion s ch code)⟩
  | reportTimerExpiry => exact ⟨_, rfl, leaves (plant_reportExpiry s) (lampMode_reportExpiry s)⟩
  | tapAgeingExpiry => exact ⟨_, rfl, of_display (display_withAgeing s _ _)⟩
  | controlTimerExpiry => exact ⟨_, rfl, settled (of_display (display_controlExpired s))⟩
  | kindHoldExpiry k => exact ⟨_, rfl, leaves (plant_kindHoldExpired s k) (lampMode_kindHoldExpired s k)⟩
  | tachEdge f e => exact ⟨_, rfl, of_display rfl⟩
  | tachOverflow f => exact ⟨_, rfl, of_display rfl⟩
  | periodStart f => exact ⟨_, rfl, of_display rfl⟩
  | startTimerExpiry f => exact ⟨_, rfl, settled (of_display (display_startExpired s f))⟩
  | stallTimerExpiry f => exact ⟨_, rfl, settled (of_display (display_stallExpired s f))⟩
  | dwellTimerExpiry f => exact ⟨_, rfl, of_display (display_dwellExpired s f)⟩
  | isolatorInputChange f isOpen => exact ⟨_, rfl, of_display rfl⟩
  | isolatorAccepted f => exact ⟨_, rfl, settled (of_display (display_isolatorAccepted s f))⟩
  | doorInputChange d i active => exact ⟨_, rfl, doorInput_keepsDoors s d i active⟩
  | doorDebounceExpiry d i => exact ⟨_, rfl, settled (doorDebounced_keepsDoors s d i)⟩
  | egressTimerExpiry d => exact ⟨_, rfl, settled (doorTo_keepsDoors s (.egressExpired s.now) false)⟩
  | holdTimerExpiry d => exact ⟨_, rfl, settled (doorTo_keepsDoors s .holdExpires false)⟩
  | relockTimerExpiry d => exact ⟨_, rfl, settled (doorTo_keepsDoors s (.relockExpired s.now) false)⟩
  | feedbackTimerExpiry d => exact ⟨_, rfl, settled (doorTo_keepsDoors s .feedbackExpired false)⟩
  | lampCompareMatch d => exact ⟨_, rfl, lampMatch_keepsDoors s d⟩
  | callPointInputChange active => exact ⟨_, rfl, of_display rfl⟩
  | callPointAccepted => exact ⟨_, rfl, leaves (plant_callPointAccepted s) (lampMode_callPointAccepted s)⟩
  | launchHoldExpiry => exact ⟨_, rfl, leaves (plant_launchHoldExpired s) (lampMode_launchHoldExpired s)⟩
  | stepTimerExpiry => exact ⟨_, rfl, settled (stepExpired_keepsDoors s)⟩
  | imageHeaderRead r => exact ⟨_, rfl, settled (headerRead_keepsDoors s r)⟩
  | imageGroupRead r => exact ⟨_, rfl, settled (groupRead_keepsDoors s r (load r rfl))⟩
  | storeWriteComplete r => exact ⟨_, rfl, of_plant (plant_writeComplete s r) (lampMode_writeComplete s r)⟩
  | storeVerifyComplete r => exact ⟨_, rfl, leaves (plant_verifyComplete s r) (lampMode_verifyComplete s r)⟩

/-- Every step keeps the laws where the contexts' steps are of groups that the load has passed (R166). -/
theorem step_keepsDoors {s t : State} (load : s.LoadLaw) (h : step s = .next t) : s.KeepsDoors t := by
  unfold step at h
  split at h
  · cases h
    exact of_display rfl
  · rename_i c rest _
    obtain ⟨u, hu, keeps⟩ := exec_keepsDoors c { s with pending := rest } fun _ _ => load.current
    rw [hu] at h
    cases h
    have queued : s.KeepsDoors { s with pending := rest } := of_display rfl
    exact queued.trans keeps

theorem exec_doorLaw (c : Instr) {s : State} (law : s.DoorLaw) : ∃ t, exec c s = .next t ∧ t.DoorLaw := by
  by_cases group : ∃ r, c = .imageGroupRead r
  · obtain ⟨r, rfl⟩ := group
    exact ⟨_, rfl, (settle_keepsDoors _).doors (groupRead_doorLaw s r law)⟩
  · obtain ⟨t, next, keeps⟩ := exec_keepsDoors c s fun r same => absurd ⟨r, same⟩ group
    exact ⟨t, next, keeps.doors law⟩

theorem step_doorLaw {s t : State} (law : s.DoorLaw) (h : step s = .next t) : t.DoorLaw := by
  unfold step at h
  split at h
  · cases h
    exact law
  · rename_i c rest _
    obtain ⟨u, hu, kept⟩ := exec_doorLaw c (s := { s with pending := rest }) law
    rw [hu] at h
    cases h
    exact kept

/-- Settles O54: the doors move by their own rules and by their policies, and every change of the stack takes the lamps with
it. -/
theorem stepsKeepTheDoorLaw : Obligations.StepsKeepTheDoorLaw :=
  ⟨fun _ _ law h => step_doorLaw law h, fun _ _ load law h => (step_keepsDoors load h).lamps law⟩

/-! ### What the policies secure (R122, R123) -/

theorem join_eq_normal {p q : Policy} : p.join q = .normal ↔ p = .normal ∧ q = .normal := by
  cases p <;> cases q <;> simp [Policy.join]

/-- The most open policy is NORMAL where every context directs NORMAL (R122). -/
theorem effectivePolicy_normal (s : State) (d : DoorId) :
    s.effectivePolicy d = .normal ↔ ∀ c ∈ s.stack, (s.stepOf c).policyOf d = .normal := by
  unfold State.effectivePolicy
  induction s.stack with
  | nil => simp
  | cons c l ih => simp [join_eq_normal, ih]

/-- A SECURED door stands under NORMAL, outside STARTING (R123). -/
theorem Door.Lawful.of_secured {D : Door} {starting : Bool} (law : D.Lawful starting) (secured : D.state = .secured) :
    starting = false ∧ D.policy = .normal := by
  obtain ⟨-, free⟩ := law.secured secured
  unfold Door.requiresRelease at free
  simp only [Bool.or_eq_false_iff] at free
  obtain ⟨⟨⟨started, shut⟩, -⟩, -⟩ := free
  refine ⟨started, ?_⟩
  cases policy : D.policy with
  | normal => rfl
  | release | holdOpen => exact nomatch (policy ▸ shut)

/-- Settles O55: every change of the stack forms both policies anew, and a SECURED door needs no release. -/
theorem openPoliciesNeverSecure : Obligations.OpenPoliciesNeverSecure := by
  refine ⟨fun _ _ load law h => (step_keepsDoors load h).policies law, fun s d doors policies secured => ?_⟩
  obtain ⟨started, normal⟩ := (doors d).of_secured secured
  rw [policies d] at normal
  exact ⟨beq_eq_false_iff_ne.mp started, (effectivePolicy_normal s d).mp normal⟩

end Sys2Proof.Machine
end

