-- ==== Sys2Proof/Proofs/DoorEvents.lean ====
section
/-! PROOFS. Proofs/DoorEvents.lean: the door after a change that no level source follows, its inputs under the debounce rule
(R120, R130). -/

namespace Sys2Proof.Machine

/-! ### What a door's change brings about in a settled node -/

theorem srcEgress_ne_srcOverrun (d : DoorId) : srcEgress d ≠ srcOverrun := by revert d; decide

theorem srcHeld_ne_srcOverrun (d : DoorId) : srcHeld d ≠ srcOverrun := by revert d; decide

/-- A door's state that no level source follows: neither FAULT nor HELD. -/
def DoorState.Plain (x : DoorState) : Prop := x ≠ .fault ∧ x ≠ .held

theorem DoorState.plain_secured : DoorState.secured.Plain := ⟨nofun, nofun⟩

theorem DoorState.plain_released (c : ReleaseCause) : (DoorState.released c).Plain := ⟨nofun, nofun⟩

theorem DoorState.plain_opened (c : OpenCause) : (DoorState.opened c).Plain := ⟨nofun, nofun⟩

theorem DoorState.plain_relocking : DoorState.relocking.Plain := ⟨nofun, nofun⟩

/-- The comparison leaves a door whose drive and report agree as they did (R130). -/
theorem Door.Lawful.supervise_steady {D E : Door} {starting : Bool} (law : D.Lawful starting) (up : E.state ≠ .fault)
    (wasUp : D.state ≠ .fault) (agrees : E.agrees = D.agrees) (timer : E.feedbackTimer = D.feedbackTimer) (now : Nat) :
    E.supervise now D = E := by
  have feedback := law.feedback
  unfold Door.supervise
  cases agreed : D.agrees with
  | true =>
    have stopped : E.feedbackTimer = none := by simpa [agreed, timer] using feedback
    rw [if_pos (.inr (agrees.trans agreed)), ← stopped]
  | false => rw [if_neg (by simp [up, agrees, agreed]), if_neg (by simp [wasUp])]

section
variable {s : State} {d : DoorId} {D : Door}

/-- A door's change outside FAULT and HELD: its egress source counts, where it is an occurrence, and no other follows. -/
theorem doorTo_unfaulted (egress : Bool) (was : s.doors[d].state.Plain) (is : D.state.Plain) :
    s.doorTo d D egress = ((s.setDoor d (D.supervise s.now s.doors[d])).occurIf (srcEgress d) egress).passageFollows
      s.doors[d].isOpenState D.isOpenState := by
  obtain ⟨wasUp, wasFree⟩ := was
  obtain ⟨up, free⟩ := is
  unfold State.doorTo
  rw [beq_eq_false_iff_ne.mpr wasUp, beq_eq_false_iff_ne.mpr up, beq_eq_false_iff_ne.mpr wasFree,
    beq_eq_false_iff_ne.mpr free, follow_same, follow_same]

theorem occur_settled (hs : s.Settled) {n : EntryId} (idle : s.planValid n = false) (overrun : s.planValid srcOverrun = false) :
    (s.occur n).Settled :=
  settled_of_reported hs (occur_reported (E := fun m => m = n ∨ m = srcOverrun) (.inr rfl) s n (.inl rfl)) fun m only => by
    rcases only with rfl | rfl
    · exact idle
    · exact overrun

theorem setDoor_settled (hs : s.Settled) : (s.setDoor d D).Settled := settled_of_same hs rfl rfl

/-- The change that makes no occurrence leaves the latch and the plan unit as they stood. -/
theorem doorTo_silently (hs : s.Settled) (was : s.doors[d].state.Plain) (is : D.state.Plain) :
    ∃ t, (s.doorTo d D false).settle = t ∧ t.doors[d] = D.supervise s.now s.doors[d] ∧ t.latch = s.latch ∧
      t.stack = s.stack := by
  have moved := doorTo_unfaulted false was is
  have settled : (s.doorTo d D false).Settled := moved ▸ passageFollows_settled (setDoor_settled hs) _ _
  refine ⟨_, settle_of_settled _ settled, (doorTo_door s d d D false).trans (if_pos rfl), ?_, ?_⟩
  · rw [moved, passageFollows_latch]
    rfl
  · rw [moved, passageFollows_stack]
    rfl

/-- The change that is an occurrence of the egress source, which launches no plan (R124). -/
theorem doorTo_counting (hs : s.Settled) (was : s.doors[d].state.Plain) (is : D.state.Plain)
    (idle : s.planValid (srcEgress d) = false) (overrun : s.planValid srcOverrun = false) :
    ∃ t, (s.doorTo d D true).settle = t ∧ t.doors[d] = D.supervise s.now s.doors[d] ∧
      LatchEntry.CountedOnce (srcEgress d) s.stamp s.posA s.latch[srcEgress d] t.latch[srcEgress d] := by
  obtain ⟨u, hu⟩ : ∃ u, u = s.setDoor d (D.supervise s.now s.doors[d]) := ⟨_, rfl⟩
  have moved : s.doorTo d D true = (u.occur (srcEgress d)).passageFollows s.doors[d].isOpenState D.isOpenState :=
    hu ▸ doorTo_unfaulted true was is
  have counted := occurFrom_counted u (srcEgress d) u.posA (srcEgress_ne_srcOverrun d)
  have settled : (s.doorTo d D true).Settled := by
    rw [moved]
    exact passageFollows_settled (occur_settled (hu ▸ setDoor_settled hs) (hu ▸ idle) (hu ▸ overrun)) _ _
  refine ⟨_, settle_of_settled _ settled, (doorTo_door s d d D true).trans (if_pos rfl), ?_⟩
  rw [moved, passageFollows_latch]
  rw [hu] at counted ⊢
  exact counted

/-- The change out of HELD, or of a door that was not HELD: the held source is clear after it (R128). -/
theorem doorTo_clearing (hs : s.Settled) (up : s.doors[d].state ≠ .fault) (is : D.state.Plain)
    (apart : ∀ c ∈ s.stack, c.source ≠ srcHeld d) (overrun : s.planValid srcOverrun = false) :
    ∃ t, (s.doorTo d D false).settle = t ∧ t.doors[d] = D.supervise s.now s.doors[d] ∧ t.stack = s.stack ∧
      (s.doors[d].state = .held → t.latch[srcHeld d].asserted = false) := by
  by_cases was : s.doors[d].state = .held
  · obtain ⟨u, hu⟩ : ∃ u, u = s.setDoor d (D.supervise s.now s.doors[d]) := ⟨_, rfl⟩
    have moved : s.doorTo d D false = (u.clearSource (srcHeld d)).passageFollows s.doors[d].isOpenState D.isOpenState := by
      unfold State.doorTo
      rw [beq_eq_false_iff_ne.mpr up, beq_eq_false_iff_ne.mpr is.1, follow_same, was, beq_eq_false_iff_ne.mpr is.2, hu]
      rfl
    have apart : ∀ c ∈ u.stack, c.source ≠ srcHeld d := hu ▸ apart
    have settled : (s.doorTo d D false).Settled := by
      rw [moved]
      exact passageFollows_settled (clearSource_settled (hu ▸ setDoor_settled hs) apart (hu ▸ overrun)) _ _
    refine ⟨_, settle_of_settled _ settled, (doorTo_door s d d D false).trans (if_pos rfl), ?_, fun _ => ?_⟩
    · rw [moved, passageFollows_stack]
      refine (clearWithCode_reported (E := anyEntry) trivial u (srcHeld d) _ trivial apart).stack.trans ?_
      rw [hu]
      rfl
    · rw [moved, passageFollows_latch]
      exact clearWithCode_asserted u _ _ (srcHeld_ne_srcOverrun d)
  · obtain ⟨t, settled, door, -, stack⟩ := doorTo_silently hs ⟨up, was⟩ is
    exact ⟨t, settled, door, stack, fun isHeld => absurd isHeld was⟩

end

/-! ### Raw changes and their acceptance (R120) -/

section
variable {D : Door} (now : Nat)

theorem input_setInput (D : Door) (i : DoorInput) (x : DebouncedInput) : (D.setInput i x).input i = x := by cases i <;> rfl

theorem setInput_input (D : Door) (i : DoorInput) : D.setInput i (D.input i) = D := by cases i <;> rfl

/-- A raw change moves its input's debounce interval alone. -/
theorem rawChange_debounces (D : Door) (t : Stamp) (i : DoorInput) (level : Bool) :
    ∃ x, D.rawChange now t i level = D.setInput i x ∧ x.level = (D.input i).level ∧ x.lastEdge = (D.input i).lastEdge ∧
      (level = (D.input i).level → x.timer = none ∧ x.candidate = none) ∧
      (level ≠ (D.input i).level → (D.input i).timer = none →
        x.timer = some (now + D.cfg.debounce * 1000) ∧ x.candidate = some t) ∧
      (level ≠ (D.input i).level → (D.input i).timer.isSome = true → x = D.input i) := by
  unfold Door.rawChange
  dsimp only
  by_cases same : level = (D.input i).level
  · exact ⟨_, if_pos same, rfl, rfl, fun _ => ⟨rfl, rfl⟩, fun differs => absurd same differs,
      fun differs => absurd same differs⟩
  · rw [if_neg same]
    by_cases runs : (D.input i).timer.isSome = true
    · refine ⟨D.input i, ?_, rfl, rfl, fun equal => absurd equal same, fun _ stopped => ?_, fun _ _ => rfl⟩
      · rw [if_pos runs, setInput_input]
      · simp [stopped] at runs
    · exact ⟨_, if_neg runs, rfl, rfl, fun equal => absurd equal same, fun _ _ => ⟨rfl, rfl⟩,
        fun _ some => absurd some runs⟩

/-- The inputs of a door, which its rules read and only a debounce interval moves. -/
def Door.inputs (D : Door) : DebouncedInput × DebouncedInput × DebouncedInput := (D.closed, D.lockEngaged, D.pushBar)

theorem input_of_inputs {D E : Door} (same : E.inputs = D.inputs) (i : DoorInput) : E.input i = D.input i := by
  cases i with
  | closed => exact congrArg Prod.fst same
  | lockEngaged => exact congrArg (fun x : DebouncedInput × DebouncedInput × DebouncedInput => x.2.1) same
  | pushBar => exact congrArg (fun x : DebouncedInput × DebouncedInput × DebouncedInput => x.2.2) same

theorem inputs_reevaluate (starting : Bool) : (D.reevaluate now starting).inputs = D.inputs := by
  unfold Door.reevaluate Door.placed
  split <;> rfl

theorem inputs_edgeEvent (starting : Bool) (i : DoorInput) (level : Bool) :
    (D.edgeEvent now starting i level).1.inputs = D.inputs := by
  cases i with
  | lockEngaged => rfl
  | pushBar =>
    unfold Door.edgeEvent Door.pressed
    cases level with
    | false => rfl
    | true => cases D.state <;> rfl
  | closed =>
    have shut : (D.shut now starting).inputs = D.inputs := by
      unfold Door.shut
      dsimp only
      split
      · exact inputs_reevaluate now starting
      · rfl
    unfold Door.edgeEvent Door.opens Door.closes
    cases level with
    | false => cases D.state <;> rfl
    | true =>
      cases D.state with
      | opened c | held => exact shut
      | secured | released c | relocking | fault => rfl

theorem inputs_supervise (D old : Door) : (D.supervise now old).inputs = D.inputs := by
  obtain ⟨timer, compared⟩ := supervise_eq D old now
  rw [compared]
  rfl

theorem inputs_policyChange (starting : Bool) (p : Policy) : (D.policyChange now starting p).inputs = D.inputs := by
  unfold Door.policyChange Door.takePolicy Door.enterHeld
  split
  · rfl
  · cases D.state with
    | released c =>
      dsimp only
      split
      · rfl
      · exact inputs_reevaluate now starting
    | secured | relocking | opened c =>
      dsimp only
      split <;> rfl
    | held | fault => rfl

theorem inputs_takeLamp (old new : LampMode) : (D.takeLamp now old new).inputs = D.inputs := by
  cases new with
  | off | steady => rfl
  | flash =>
    unfold Door.takeLamp
    dsimp only
    split <;> rfl

/-- A change of the stack moves no input. -/
theorem DoorReach.inputs {starting : Bool} {E : Door} (reach : DoorReach now starting D E) : E.inputs = D.inputs := by
  induction reach with
  | refl => rfl
  | tail _ move ih =>
    refine Eq.trans ?_ ih
    cases move with
    | policy p => exact (inputs_supervise now _ _).trans (inputs_policyChange now starting p)
    | lamp old new => exact inputs_takeLamp now old new

end

section
variable {s : State} {d : DoorId} {i : DoorInput}

theorem doorDebounced_accepts (runs : (s.doors[d].input i).timer.isSome = true) :
    s.doorDebounced d i =
      s.doorTo d ((s.doors[d].accept i).edgeEvent s.now s.isStarting i (!(s.doors[d].input i).level)).1
        ((s.doors[d].accept i).edgeEvent s.now s.isStarting i (!(s.doors[d].input i).level)).2 :=
  if_neg (Option.isSome_iff_ne_none.mp runs)

/-- At the end of its interval the input's level is accepted with the candidate time as the last edge time. -/
theorem doorDebounced_input (runs : (s.doors[d].input i).timer.isSome = true) :
    ((s.doorDebounced d i).settle.doors[d].input i) =
        { level := !(s.doors[d].input i).level, candidate := none, timer := none
          lastEdge := (s.doors[d].input i).candidate } ∧
      (s.doorDebounced d i).settle.still = s.still := by
  have after := settle_consequence (s.doorDebounced d i)
  refine ⟨?_, after.still.trans ?_⟩
  · rw [input_of_inputs ((after.doors d).inputs _) i, doorDebounced_accepts runs, doorTo_door, if_pos rfl,
      input_of_inputs (inputs_supervise s.now _ _) i, input_of_inputs (inputs_edgeEvent s.now _ i _) i]
    exact input_setInput _ i _
  · rw [doorDebounced_accepts runs, doorTo_still]

end

end Sys2Proof.Machine
end

