-- ==== Sys2Proof/Proofs/DoorInputs.lean ====
section
/-! PROOFS. Proofs/DoorInputs.lean: presses, openings and closings of a door (R124, R125, R128, R129); O41. -/

namespace Sys2Proof.Machine

/-! ### The door after the feedback comparison -/

section
variable (D old : Door) (now : Nat)

@[simp] theorem state_supervise : (D.supervise now old).state = D.state := by
  obtain ⟨timer, compared⟩ := supervise_eq D old now
  rw [compared]

@[simp] theorem egressTimer_supervise : (D.supervise now old).egressTimer = D.egressTimer := by
  obtain ⟨timer, compared⟩ := supervise_eq D old now
  rw [compared]

@[simp] theorem holdTimer_supervise : (D.supervise now old).holdTimer = D.holdTimer := by
  obtain ⟨timer, compared⟩ := supervise_eq D old now
  rw [compared]

@[simp] theorem relockTimer_supervise : (D.supervise now old).relockTimer = D.relockTimer := by
  obtain ⟨timer, compared⟩ := supervise_eq D old now
  rw [compared]

@[simp] theorem holdExpired_supervise : (D.supervise now old).holdExpired = D.holdExpired := by
  obtain ⟨timer, compared⟩ := supervise_eq D old now
  rw [compared]

end

/-! ### Presses, openings and closings (R124, R125, R128, R129) -/

section
variable {s : State} {d : DoorId}

theorem exec_doorDebounceExpiry {i : DoorInput} {u t : State} (moved : s.doorDebounced d i = u) (settled : u.settle = t) :
    exec (.doorDebounceExpiry d i) s = .next t := by
  rw [← settled, ← moved]
  rfl

theorem doorDebounced_presses (free : s.doors[d].pushBar.level = false) (runs : s.doors[d].pushBar.timer.isSome = true) :
    s.doorDebounced d .pushBar = s.doorTo d ((s.doors[d].accept .pushBar).pressed s.now s.isStarting).1
      ((s.doors[d].accept .pushBar).pressed s.now s.isStarting).2 := by
  have level : (s.doors[d].input .pushBar).level = false := free
  rw [doorDebounced_accepts (i := .pushBar) runs, level]
  rfl

theorem doorDebounced_opens (shut : s.doors[d].closed.level = true) (runs : s.doors[d].closed.timer.isSome = true) :
    s.doorDebounced d .closed = s.doorTo d ((s.doors[d].accept .closed).opens s.now).1
      ((s.doors[d].accept .closed).opens s.now).2 := by
  have level : (s.doors[d].input .closed).level = true := shut
  rw [doorDebounced_accepts (i := .closed) runs, level]
  rfl

theorem doorDebounced_closes (opened : s.doors[d].closed.level = false) (runs : s.doors[d].closed.timer.isSome = true) :
    s.doorDebounced d .closed = s.doorTo d ((s.doors[d].accept .closed).closes s.now s.isStarting) false := by
  have level : (s.doors[d].input .closed).level = false := opened
  rw [doorDebounced_accepts (i := .closed) runs, level]
  rfl

/-- A bar pressed on a SECURED or RELOCKING door releases it as an occurrence of its egress source (R124, R129). -/
theorem bar_releases (hs : s.Settled) (locked : s.doors[d].state = .secured ∨ s.doors[d].state = .relocking)
    (idle : s.planValid (srcEgress d) = false) (overrun : s.planValid srcOverrun = false)
    (free : s.doors[d].pushBar.level = false) (runs : s.doors[d].pushBar.timer.isSome = true) :
    ∃ t, exec (.doorDebounceExpiry d .pushBar) s = .next t ∧ t.doors[d].state = .released .egress ∧
      t.doors[d].egressTimer = some (s.now + s.doors[d].cfg.egressTime * 1000000) ∧
      (s.doors[d].state = .relocking → t.doors[d].relockTimer = none) ∧
      LatchEntry.CountedOnce (srcEgress d) s.stamp s.posA s.latch[srcEgress d] t.latch[srcEgress d] := by
  obtain ⟨E, presses, state, egress, relock⟩ : ∃ E, (s.doors[d].accept .pushBar).pressed s.now s.isStarting = (E, true) ∧
      E.state = .released .egress ∧ E.egressTimer = some (s.now + s.doors[d].cfg.egressTime * 1000000) ∧
      (s.doors[d].state = .relocking → E.relockTimer = none) := by
    have kept : (s.doors[d].accept .pushBar).state = s.doors[d].state := rfl
    unfold Door.pressed
    rw [kept]
    rcases locked with secured | relocking
    · rw [secured]
      exact ⟨_, rfl, rfl, rfl, nofun⟩
    · rw [relocking]
      exact ⟨_, rfl, rfl, rfl, fun _ => rfl⟩
  have moved := doorDebounced_presses free runs
  rw [presses] at moved
  have was : s.doors[d].state.Plain := by
    rcases locked with secured | relocking
    · exact secured ▸ DoorState.plain_secured
    · exact relocking ▸ DoorState.plain_relocking
  obtain ⟨t, settled, door, counted⟩ := doorTo_counting hs was (state ▸ DoorState.plain_released _) idle overrun
  refine ⟨t, exec_doorDebounceExpiry moved settled, ?_⟩
  rw [door, state_supervise, egressTimer_supervise, relockTimer_supervise]
  exact ⟨state, egress, relock, counted⟩

/-- A bar pressed on a RELEASED door starts its egress timer anew (R125). -/
theorem bar_prolongs (hs : s.Settled) (law : s.DoorLaw) {c : ReleaseCause} (released : s.doors[d].state = .released c)
    (free : s.doors[d].pushBar.level = false) (runs : s.doors[d].pushBar.timer.isSome = true) :
    ∃ t, exec (.doorDebounceExpiry d .pushBar) s = .next t ∧ t.latch = s.latch ∧ t.stack = s.stack ∧
      t.doors[d].state = .released c ∧
      t.doors[d].egressTimer = some (s.now + s.doors[d].cfg.egressTime * 1000000) := by
  obtain ⟨-, -, cause⟩ := (law d).released c released
  obtain ⟨E, presses, state, egress⟩ : ∃ E, (s.doors[d].accept .pushBar).pressed s.now s.isStarting = (E, false) ∧
      E.state = .released c ∧ E.egressTimer = some (s.now + s.doors[d].cfg.egressTime * 1000000) := by
    have kept : (s.doors[d].accept .pushBar).state = s.doors[d].state := rfl
    unfold Door.pressed
    rw [kept, released, cause]
    exact ⟨_, rfl, rfl, rfl⟩
  have moved := doorDebounced_presses free runs
  rw [presses] at moved
  obtain ⟨t, settled, door, latch, stack⟩ :=
    doorTo_silently hs (released ▸ DoorState.plain_released c) (state ▸ DoorState.plain_released c)
  refine ⟨t, exec_doorDebounceExpiry moved settled, latch, stack, ?_⟩
  rw [door, state_supervise, egressTimer_supervise]
  exact ⟨state, egress⟩

/-- A SECURED door that opens is forced (R124). -/
theorem opening_forces (hs : s.Settled) (secured : s.doors[d].state = .secured) (idle : s.planValid (srcEgress d) = false)
    (overrun : s.planValid srcOverrun = false) (shut : s.doors[d].closed.level = true)
    (runs : s.doors[d].closed.timer.isSome = true) :
    ∃ t, exec (.doorDebounceExpiry d .closed) s = .next t ∧ t.doors[d].state = .opened .forced ∧
      t.doors[d].holdTimer = some (s.now + s.doors[d].cfg.holdLimit * 1000000) ∧
      LatchEntry.CountedOnce (srcEgress d) s.stamp s.posA s.latch[srcEgress d] t.latch[srcEgress d] := by
  obtain ⟨E, opens, state, hold⟩ : ∃ E, (s.doors[d].accept .closed).opens s.now = (E, true) ∧
      E.state = .opened .forced ∧ E.holdTimer = some (s.now + s.doors[d].cfg.holdLimit * 1000000) := by
    have kept : (s.doors[d].accept .closed).state = s.doors[d].state := rfl
    unfold Door.opens
    rw [kept, secured]
    exact ⟨_, rfl, rfl, rfl⟩
  have moved := doorDebounced_opens shut runs
  rw [opens] at moved
  obtain ⟨t, settled, door, counted⟩ :=
    doorTo_counting hs (secured ▸ DoorState.plain_secured) (state ▸ DoorState.plain_opened _) idle overrun
  refine ⟨t, exec_doorDebounceExpiry moved settled, ?_⟩
  rw [door, state_supervise, holdTimer_supervise]
  exact ⟨state, hold, counted⟩

theorem toOpen_eq (c : ReleaseCause) : (if c = .policy then .policy else .egress) = c.toOpen := by cases c <;> rfl

/-- A RELEASED door opens with its cause and a RELOCKING one by egress, neither as an occurrence (R125, R129). -/
theorem opening_follows (hs : s.Settled) (law : s.DoorLaw) (shut : s.doors[d].closed.level = true)
    (runs : s.doors[d].closed.timer.isSome = true) {cause : OpenCause}
    (waits : (∃ c, s.doors[d].state = .released c ∧ cause = if c = .policy then .policy else .egress) ∨
      (s.doors[d].state = .relocking ∧ cause = .egress)) :
    ∃ t, exec (.doorDebounceExpiry d .closed) s = .next t ∧ t.doors[d].state = .opened cause ∧
      t.doors[d].holdTimer = some (s.now + s.doors[d].cfg.holdLimit * 1000000) ∧ t.doors[d].egressTimer = none ∧
      t.doors[d].relockTimer = none ∧ t.doors[d].holdExpired = false ∧ t.latch = s.latch ∧ t.stack = s.stack := by
  obtain ⟨opens, was, unopened⟩ : (s.doors[d].accept .closed).opens s.now =
      ((s.doors[d].accept .closed).enterOpen s.now cause, false) ∧ s.doors[d].state.Plain ∧
      ¬∃ c, s.doors[d].state = .opened c := by
    have kept : (s.doors[d].accept .closed).state = s.doors[d].state := rfl
    unfold Door.opens
    rw [kept]
    rcases waits with ⟨c, released, rfl⟩ | ⟨relocking, rfl⟩
    · rw [released, toOpen_eq]
      exact ⟨rfl, DoorState.plain_released c, nofun⟩
    · rw [relocking]
      exact ⟨rfl, DoorState.plain_relocking, nofun⟩
  have unmarked : s.doors[d].holdExpired = false := Bool.eq_false_iff.mpr fun mark => unopened ((law d).expired mark).1
  have moved := doorDebounced_opens shut runs
  rw [opens] at moved
  obtain ⟨t, settled, door, latch, stack⟩ :=
    doorTo_silently (D := (s.doors[d].accept .closed).enterOpen s.now cause) hs was (DoorState.plain_opened cause)
  refine ⟨t, exec_doorDebounceExpiry moved settled, ?_⟩
  rw [door, state_supervise, holdTimer_supervise, egressTimer_supervise, relockTimer_supervise, holdExpired_supervise]
  exact ⟨rfl, rfl, rfl, rfl, unmarked, latch, stack⟩

end

/-! ### An OPEN or HELD door that closes (R128, R129) -/

/-- What its closing makes of an OPEN or HELD door: D before, E after. -/
structure Door.Shut (now : Nat) (starting : Bool) (D E : Door) : Prop where
  hold : E.holdTimer = none
  mark : E.holdExpired = false
  free : starting = false → D.policy = .normal → D.pushBar.level = false →
    E.state = .relocking ∧ E.egressTimer = none ∧ E.relockTimer = some (now + D.cfg.relockDelay * 1000000)
  required : starting = true ∨ D.policy ≠ .normal ∨ D.pushBar.level = true →
    E.state = .released (if starting = true ∨ D.policy ≠ .normal then .policy else .egress) ∧ E.relockTimer = none ∧
      E.egressTimer = if D.pushBar.level = true then some (now + D.cfg.egressTime * 1000000) else none

theorem Door.Shut.plain {now : Nat} {starting : Bool} {D E : Door} (h : D.Shut now starting E) : E.state.Plain := by
  by_cases need : starting = true ∨ D.policy ≠ .normal ∨ D.pushBar.level = true
  · exact (h.required need).1 ▸ DoorState.plain_released _
  · obtain ⟨started, rest⟩ := not_or.mp need
    obtain ⟨normal, bar⟩ := not_or.mp rest
    have free := h.free (Bool.eq_false_iff.mpr started) (not_not.mp normal) (Bool.eq_false_iff.mpr bar)
    exact free.1 ▸ DoorState.plain_relocking

theorem isOpen_iff {p : Policy} : p.isOpen = true ↔ p ≠ .normal := by cases p <;> simp [Policy.isOpen]

theorem releaseCause_eq (starting : Bool) (D : Door) :
    D.releaseCause starting = if starting = true ∨ D.policy ≠ .normal then .policy else .egress := by
  simp [Door.releaseCause, isOpen_iff]

theorem Door.shut_shut {D : Door} (now : Nat) (starting : Bool) (egress : D.egressTimer = none) (relock : D.relockTimer = none) :
    D.Shut now starting (D.shut now starting) := by
  obtain ⟨E, hE⟩ : ∃ E : Door, E = { D with holdTimer := none, holdExpired := false } := ⟨_, rfl⟩
  have required : E.requiresRelease starting = true ↔ starting = true ∨ D.policy ≠ .normal ∨ D.pushBar.level = true := by
    simp [hE, Door.requiresRelease, egress, isOpen_iff, or_assoc]
  have shut : D.shut now starting = if E.requiresRelease starting then E.reevaluate now starting
      else { E with state := .relocking, relockTimer := some (now + D.cfg.relockDelay * 1000000) } := by
    rw [hE]
    rfl
  by_cases need : E.requiresRelease starting = true
  · rw [shut, if_pos need, reevaluate_required now need]
    have timer : E.barTimer now = if D.pushBar.level = true then some (now + D.cfg.egressTime * 1000000) else none := by
      simp [hE, Door.barTimer, egress, usOfSec]
    refine ⟨hE ▸ rfl, hE ▸ rfl, fun started normal free => ?_, fun _ => ⟨?_, ?_, timer⟩⟩
    · exact absurd (required.mp need) (by simp [started, normal, free])
    · exact congrArg DoorState.released (hE ▸ releaseCause_eq starting D)
    · exact hE ▸ relock
  · rw [shut, if_neg need]
    exact ⟨hE ▸ rfl, hE ▸ rfl, fun _ _ _ => ⟨rfl, hE ▸ egress, rfl⟩, fun must => absurd (required.mpr must) need⟩

/-- An OPEN or HELD door that closes (R128, R129). -/
theorem closing_shuts {s : State} {d : DoorId} (hs : s.Settled) (law : s.DoorLaw)
    (apart : ∀ c ∈ s.stack, c.source ≠ srcHeld d) (overrun : s.planValid srcOverrun = false)
    (runs : s.doors[d].closed.timer.isSome = true)
    (unshut : (∃ c, s.doors[d].state = .opened c) ∨ s.doors[d].state = .held) :
    ∃ t E, exec (.doorDebounceExpiry d .closed) s = .next t ∧ t.stack = s.stack ∧
      t.doors[d] = E.supervise s.now s.doors[d] ∧ s.doors[d].Shut s.now s.isStarting E ∧
      (s.doors[d].state = .held → t.latch[srcHeld d].asserted = false) := by
  obtain ⟨E, hE⟩ : ∃ E, E = (s.doors[d].accept .closed).shut s.now s.isStarting := ⟨_, rfl⟩
  obtain ⟨level, egress, relock, up, closes⟩ : s.doors[d].closed.level = false ∧ s.doors[d].egressTimer = none ∧
      s.doors[d].relockTimer = none ∧ s.doors[d].state ≠ .fault ∧
      (s.doors[d].accept .closed).closes s.now s.isStarting = E := by
    have stands := (law d).stands
    have kept : (s.doors[d].accept .closed).state = s.doors[d].state := rfl
    unfold Door.Stands at stands
    unfold Door.closes
    rw [kept]
    rcases unshut with ⟨c, opened⟩ | held
    · rw [opened] at stands ⊢
      obtain ⟨level, -, -, egress, relock⟩ := stands
      exact ⟨level, egress, relock, nofun, hE.symm⟩
    · rw [held] at stands ⊢
      obtain ⟨level, egress, -, relock, -⟩ := stands
      exact ⟨level, egress, relock, nofun, hE.symm⟩
  have shut : s.doors[d].Shut s.now s.isStarting E := by
    obtain ⟨hold, mark, free, required⟩ :=
      hE ▸ Door.shut_shut (D := s.doors[d].accept .closed) s.now s.isStarting egress relock
    exact ⟨hold, mark, free, required⟩
  have moved := closes ▸ doorDebounced_closes level runs
  obtain ⟨t, settled, door, stack, cleared⟩ := doorTo_clearing (D := E) hs up shut.plain apart overrun
  exact ⟨t, E, exec_doorDebounceExpiry moved settled, stack, door, shut, cleared⟩

/-- Settles O41: each clause is what the door's own rule makes of the accepted input, carried by what a door's change brings
about in a settled node. -/
theorem doorInputsAreDebounced : Obligations.DoorInputsAreDebounced := by
  refine ⟨fun d i level s => ?_, fun d i s runs => ?_, fun d s hs secured idle overrun => ⟨fun free runs => ?_, ?_⟩,
    fun d s hs law shut runs cause waits => opening_follows hs law shut runs waits,
    fun d s hs law free runs => ⟨fun c released => bar_prolongs hs law released free runs, fun relocking idle overrun => ?_⟩,
    fun d s hs law apart overrun runs unshut => ?_⟩
  · obtain ⟨x, change, kept⟩ := rawChange_debounces s.now s.doors[d] s.stamp i level
    refine ⟨s.doorInput d i level, rfl, rfl, ?_⟩
    have door : (s.doorInput d i level).doors[d] = s.doors[d].setInput i x := (doors_setDoor_self ..).trans change
    rw [door, input_setInput]
    exact ⟨by rw [← change]; rfl, rfl, kept⟩
  · obtain ⟨input, still⟩ := doorDebounced_input runs
    exact ⟨_, rfl, input, still⟩
  · obtain ⟨t, next, state, egress, -, counted⟩ := bar_releases hs (.inl secured) idle overrun free runs
    exact ⟨t, next, state, egress, counted⟩
  · exact fun shut runs => opening_forces hs secured idle overrun shut runs
  · obtain ⟨t, next, state, egress, relock, counted⟩ := bar_releases hs (.inr relocking) idle overrun free runs
    exact ⟨t, next, state, egress, relock relocking, counted⟩
  · obtain ⟨t, E, next, stack, door, shut, cleared⟩ := closing_shuts hs law apart overrun runs unshut
    have starting : s.isStarting = true ↔ s.nodeState = .starting := beq_iff_eq
    have started : s.isStarting = false ↔ s.nodeState ≠ .starting := beq_eq_false_iff_ne
    have required := shut.required
    simp only [starting] at required
    refine ⟨t, next, stack, ?_⟩
    rw [door, state_supervise, egressTimer_supervise, holdTimer_supervise, relockTimer_supervise, holdExpired_supervise]
    exact ⟨shut.hold, shut.mark, cleared, fun up => shut.free (started.mpr up), required⟩

end Sys2Proof.Machine
end

