-- ==== Sys2Proof/Proofs/DoorTimers.lean ====
section
/-! PROOFS. Proofs/DoorTimers.lean: the egress, hold, relock and feedback timers of a door and its lamp (R126 to R130, R133); O42. -/

namespace Sys2Proof.Machine

/-! ### The egress, hold and relock timers (R126, R127, R129) -/

section
variable {D : Door} (now : Nat) (starting : Bool)

theorem plain_reevaluate : (D.reevaluate now starting).state.Plain := by
  unfold Door.reevaluate Door.placed
  split
  · exact DoorState.plain_released _
  · exact DoorState.plain_secured

theorem lockDrive_of_secured (secured : D.state = .secured) : D.lockDrive = true := beq_iff_eq.mpr secured

theorem egressExpired_pressed (runs : D.egressTimer.isSome = true) (pressed : D.pushBar.level = true) :
    D.egressExpired now starting = { D with egressTimer := some (now + D.cfg.egressTime * 1000000) } := by
  unfold Door.egressExpired
  rw [if_neg (Option.isSome_iff_ne_none.mp runs), if_pos pressed]
  rfl

theorem egressExpired_free (runs : D.egressTimer.isSome = true) (free : D.pushBar.level = false) :
    D.egressExpired now starting = Door.reevaluate now starting { D with egressTimer := none } := by
  unfold Door.egressExpired
  rw [if_neg (Option.isSome_iff_ne_none.mp runs), if_neg (Bool.eq_false_iff.mp free)]

/-- The door whose egress timer expires with its bar free is SECURED where nothing else releases it (R126). -/
theorem egressExpired_secures (runs : D.egressTimer.isSome = true) (free : D.pushBar.level = false)
    (started : starting = false) (normal : D.policy = .normal) :
    (D.egressExpired now starting).state = .secured ∧ (D.egressExpired now starting).egressTimer = none := by
  have unreleased : Door.requiresRelease starting { D with egressTimer := none } = false := by
    simp [Door.requiresRelease, started, normal, free, Policy.isOpen]
  rw [egressExpired_free now starting runs free, Door.reevaluate_free now unreleased]
  exact ⟨rfl, rfl⟩

/-- The door whose egress timer expires with its bar free stays RELEASED by STARTING or an open policy (R126). -/
theorem egressExpired_yields (runs : D.egressTimer.isSome = true) (free : D.pushBar.level = false)
    (must : starting = true ∨ D.policy ≠ .normal) :
    (D.egressExpired now starting).state = .released .policy ∧ (D.egressExpired now starting).egressTimer = none := by
  obtain ⟨E, hE⟩ : ∃ E : Door, E = { D with egressTimer := none } := ⟨_, rfl⟩
  have required : E.requiresRelease starting = true := by
    rcases must with started | opens
    · simp [Door.requiresRelease, started]
    · simp [hE, Door.requiresRelease, isOpen_iff.mpr opens]
  have cause : E.releaseCause starting = .policy := (releaseCause_eq starting E).trans (if_pos (hE ▸ must))
  rw [egressExpired_free now starting runs free, ← hE, Door.reevaluate_required now required, cause]
  exact ⟨rfl, by simp [hE, Door.barTimer, free]⟩

theorem relockExpired_secures (runs : D.relockTimer.isSome = true) (free : D.requiresRelease starting = false) :
    D.relockExpired now starting = { D with state := .secured, egressTimer := none, relockTimer := none } := by
  unfold Door.relockExpired
  rw [if_neg (Option.isSome_iff_ne_none.mp runs)]
  exact Door.reevaluate_free (D := { D with relockTimer := none }) now free

end

section
variable {s : State} {d : DoorId}

/-- An expired egress timer acts on its door alone (R126). -/
theorem egress_expires (hs : s.Settled) (law : s.DoorLaw) (runs : s.doors[d].egressTimer.isSome = true) :
    ∃ t, exec (.egressTimerExpiry d) s = .next t ∧ t.latch = s.latch ∧ t.stack = s.stack ∧ s.doors[d].state.Plain ∧
      t.doors[d] = (s.doors[d].egressExpired s.now s.isStarting).supervise s.now s.doors[d] := by
  obtain ⟨c, released⟩ := (law d).egress runs
  have was : s.doors[d].state.Plain := released ▸ DoorState.plain_released c
  have is : (s.doors[d].egressExpired s.now s.isStarting).state.Plain := by
    cases bar : s.doors[d].pushBar.level with
    | true => rw [egressExpired_pressed _ _ runs bar]; exact was
    | false => rw [egressExpired_free _ _ runs bar]; exact plain_reevaluate _ _
  obtain ⟨t, settled, door, latch, stack⟩ := doorTo_silently hs was is
  exact ⟨t, congrArg Host.Outcome.next settled, latch, stack, was, door⟩

/-- An expired relock timer secures its door (R129). -/
theorem relock_expires (hs : s.Settled) (law : s.DoorLaw) (runs : s.doors[d].relockTimer.isSome = true) :
    ∃ t, exec (.relockTimerExpiry d) s = .next t ∧ t.latch = s.latch ∧ t.stack = s.stack ∧
      t.doors[d].state = .secured ∧ t.doors[d].lockDrive = true ∧ t.doors[d].relockTimer = none := by
  have relocking := (law d).relock runs
  obtain ⟨-, free, -⟩ := (law d).relocking relocking
  obtain ⟨E, hE⟩ : ∃ E, E = s.doors[d].relockExpired s.now s.isStarting := ⟨_, rfl⟩
  obtain ⟨state, relock⟩ : E.state = .secured ∧ E.relockTimer = none := by
    rw [hE, relockExpired_secures _ _ runs free]
    exact ⟨rfl, rfl⟩
  obtain ⟨t, settled, door, latch, stack⟩ :=
    doorTo_silently hs (relocking ▸ DoorState.plain_relocking) (state ▸ DoorState.plain_secured)
  have secured : t.doors[d].state = .secured := by rw [door, state_supervise, state]
  refine ⟨t, congrArg Host.Outcome.next (hE ▸ settled), latch, stack, secured, lockDrive_of_secured secured, ?_⟩
  rw [door, relockTimer_supervise, relock]

/-- The hold timer of a door under HOLD_OPEN marks it (R127). -/
theorem hold_marks (hs : s.Settled) (law : s.DoorLaw) (runs : s.doors[d].holdTimer.isSome = true)
    (holdOpen : s.doors[d].policy = .holdOpen) : exec (.holdTimerExpiry d) s =
      .next (s.setDoor d { s.doors[d] with holdTimer := none, holdExpired := true }) := by
  obtain ⟨c, opened⟩ := (law d).hold runs
  have was : s.doors[d].state.Plain := opened ▸ DoorState.plain_opened c
  obtain ⟨E, hE⟩ : ∃ E : Door, E = { s.doors[d] with holdTimer := none, holdExpired := true } := ⟨_, rfl⟩
  have expires : s.doors[d].holdExpires = E := by
    unfold Door.holdExpires
    rw [if_neg (Option.isSome_iff_ne_none.mp runs), if_pos holdOpen, hE]
  have is : E.state.Plain := hE ▸ was
  have steady : E.supervise s.now s.doors[d] = E := (law d).supervise_steady is.1 was.1 (hE ▸ rfl) (hE ▸ rfl) s.now
  have moved : s.doorTo d E false = s.setDoor d E := by
    rw [doorTo_unfaulted false was is, steady]
    exact if_pos (hE ▸ rfl)
  show Host.Outcome.next (s.doorTo d s.doors[d].holdExpires false).settle = _
  rw [expires, moved, settle_of_settled _ (setDoor_settled hs), hE]

/-- The hold timer of a door under another policy takes it to HELD, an occurrence of its held source (R127, R128). -/
theorem hold_holds (hs : s.Settled) (law : s.DoorLaw) (runs : s.doors[d].holdTimer.isSome = true)
    (policy : s.doors[d].policy ≠ .holdOpen) (idle : s.planValid (srcHeld d) = false) (overrun : s.planValid srcOverrun = false) :
    ∃ t, exec (.holdTimerExpiry d) s = .next t ∧
      t.doors[d] = { s.doors[d] with state := .held, holdTimer := none, holdExpired := false } ∧
      LatchEntry.CountedOnce (srcHeld d) s.stamp s.posA s.latch[srcHeld d] t.latch[srcHeld d] := by
  obtain ⟨c, opened⟩ := (law d).hold runs
  obtain ⟨E, hE⟩ : ∃ E, E = s.doors[d].enterHeld := ⟨_, rfl⟩
  have expires : s.doors[d].holdExpires = E := by
    unfold Door.holdExpires
    rw [if_neg (Option.isSome_iff_ne_none.mp runs), if_neg policy, hE]
  have agrees : E.agrees = s.doors[d].agrees := by
    unfold Door.agrees Door.lockDrive
    rw [opened, hE]
    rfl
  have steady : E.supervise s.now s.doors[d] = E :=
    (law d).supervise_steady (hE ▸ nofun) (opened ▸ nofun) agrees (hE ▸ rfl) s.now
  obtain ⟨u, hu⟩ : ∃ u, u = s.setDoor d E := ⟨_, rfl⟩
  have moved : s.doorTo d E false = u.occur (srcHeld d) := by
    unfold State.doorTo Door.isOpenState
    rw [steady, opened, ← hu, hE]
    rfl
  have settled : (u.occur (srcHeld d)).Settled := occur_settled (hu ▸ setDoor_settled hs) (hu ▸ idle) (hu ▸ overrun)
  have counted := occurFrom_counted u (srcHeld d) u.posA (srcHeld_ne_srcOverrun d)
  refine ⟨u.occur (srcHeld d), ?_, ?_, ?_⟩
  · show Host.Outcome.next (s.doorTo d s.doors[d].holdExpires false).settle = _
    rw [expires, moved, settle_of_settled _ settled]
  · rw [plant_doors (plant_occur u _), hu, doors_setDoor_self, hE]
    rfl
  · rw [hu] at counted ⊢
    exact counted

end

/-! ### The feedback timer (R130) -/

/-- A door at its entry to FAULT, and while it is out. -/
structure Door.Faulted (D : Door) : Prop where
  state : D.state = .fault
  egress : D.egressTimer = none
  hold : D.holdTimer = none
  relock : D.relockTimer = none
  feedback : D.feedbackTimer = none
  mark : D.holdExpired = false

section
variable {D E : Door} {now : Nat}

theorem Door.Faulted.supervise (h : D.Faulted) (old : Door) : (D.supervise now old).Faulted := by
  unfold Door.supervise
  rw [if_pos (.inl h.state)]
  exact ⟨h.state, h.egress, h.hold, h.relock, rfl, h.mark⟩

/-- No change of the stack moves a door out of FAULT (R130, R131). -/
theorem DoorReach.faulted {starting : Bool} (reach : DoorReach now starting D E) (h : D.Faulted) : E.Faulted := by
  induction reach with
  | refl => exact h
  | tail _ move ih =>
    rename_i D _
    obtain ⟨state, egress, hold, relock, feedback, mark⟩ := ih
    cases move with
    | policy p =>
      refine Door.Faulted.supervise ?_ _
      unfold Door.policyChange Door.takePolicy
      rw [state]
      split
      · exact ⟨state, egress, hold, relock, feedback, mark⟩
      · exact ⟨rfl, egress, hold, relock, feedback, mark⟩
    | lamp old new =>
      unfold Door.takeLamp
      cases new with
      | off | steady => exact ⟨state, egress, hold, relock, feedback, mark⟩
      | flash =>
        dsimp only
        split <;> exact ⟨state, egress, hold, relock, feedback, mark⟩

theorem feedbackExpired_faults (runs : D.feedbackTimer.isSome = true) : D.feedbackExpired.Faulted := by
  unfold Door.feedbackExpired
  rw [if_neg (Option.isSome_iff_ne_none.mp runs)]
  exact ⟨rfl, rfl, rfl, rfl, rfl, rfl⟩

end

theorem srcDoorFault_not_side (d : DoorId) : ¬ settleSide (srcDoorFault d) := by
  revert d; unfold settleSide; decide

theorem srcHeld_ne_srcDoorFault (d : DoorId) : srcHeld d ≠ srcDoorFault d := by revert d; decide

section
variable {s : State} {d : DoorId}

/-- A door that enters FAULT has its fault source count; the clearing of its held source is no other occurrence of it. -/
theorem doorTo_faults {D : Door} (up : s.doors[d].state ≠ .fault) (fault : D.state = .fault) :
    LatchEntry.CountedOnce (srcDoorFault d) s.stamp s.posA s.latch[srcDoorFault d] (s.doorTo d D false).latch[srcDoorFault d] := by
  obtain ⟨u, hu⟩ : ∃ u, u = s.setDoor d (D.supervise s.now s.doors[d]) := ⟨_, rfl⟩
  have apart : srcOverrun ≠ srcDoorFault d := fun same => srcDoorFault_not_side d (.inl same.symm)
  have counted := occurFrom_counted u (srcDoorFault d) u.posA apart.symm
  have after : Consequence (· ≠ srcDoorFault d) (u.occur (srcDoorFault d)) (s.doorTo d D false) := by
    unfold State.doorTo
    rw [← hu, beq_eq_false_iff_ne.mpr up, fault]
    exact (follow_consequence (E := (· ≠ srcDoorFault d)) apart _ _ _ _ (srcHeld_ne_srcDoorFault d)).trans
      (passageFollows_consequence _ _ _ _)
  have counted := counted.trans_same (after.latch _ (not_not.mpr rfl))
  rw [hu] at counted
  exact counted

/-- An expired feedback timer takes its door to FAULT (R130). -/
theorem feedback_faults (runs : s.doors[d].feedbackTimer.isSome = true) (up : s.doors[d].state ≠ .fault) :
    ∃ t, exec (.feedbackTimerExpiry d) s = .next t ∧ t.doors[d].Faulted ∧
      LatchEntry.CountedOnce (srcDoorFault d) s.stamp s.posA s.latch[srcDoorFault d] t.latch[srcDoorFault d] ∧
      t.still = s.still := by
  have faulted := feedbackExpired_faults runs
  have after := settle_consequence (s.doorTo d s.doors[d].feedbackExpired false)
  have door : (s.doorTo d s.doors[d].feedbackExpired false).doors[d].Faulted := by
    rw [doorTo_door, if_pos rfl]
    exact faulted.supervise _
  exact ⟨_, rfl, (after.doors d).faulted door,
    (doorTo_faults up faulted.state).trans_same (after.latch _ (srcDoorFault_not_side d)),
    after.still.trans (doorTo_still s d _ false)⟩

end

/-! ### The lamps (R133) -/

theorem lampMatch_of_some {D : Door} {u : Nat} (timer : D.lampTimer = some u) :
    D.lampMatch = { D with lamp := !D.lamp, lampTimer := some (u + D.cfg.flashHalf * 1000) } := by
  unfold Door.lampMatch
  rw [timer]
  rfl

theorem lampDirective_of_empty {s : State} (empty : s.stack = []) : s.lampDirective = .off := by
  unfold State.lampDirective
  rw [empty]

theorem lampDirective_of_active {s : State} {c : Context} (active : s.active = some c) :
    s.lampDirective = s.plan[c.step].lamp := by
  obtain ⟨rest, stack⟩ := List.head?_eq_some_iff.mp active
  unfold State.lampDirective
  rw [stack]
  rfl

theorem afterStackChange_lamp (s : State) (d : DoorId) :
    s.afterStackChange.doors[d].lamp = (s.doors[d].takeLamp s.now s.lampMode s.lampDirective).lamp ∧
      s.afterStackChange.doors[d].lampTimer = (s.doors[d].takeLamp s.now s.lampMode s.lampDirective).lampTimer := by
  obtain ⟨-, lit⟩ := afterStackChange_lamps s
  exact ⟨congrArg Prod.fst (lit d), congrArg (fun x : Bool × Timer × Nat => x.2.1) (lit d)⟩

/-- Settles O42: each timer's clause is the rule of its door, carried by what a door's change brings about; the lamps are those
that the forming of the lamp mode leaves. -/
theorem doorTimersAct : Obligations.DoorTimersAct := by
  refine ⟨fun d s hs law runs => ?_, fun d s hs law runs => ⟨hold_marks hs law runs, hold_holds hs law runs⟩,
    fun d s hs law runs => relock_expires hs law runs, fun d s runs up => ?_, fun d s u timer => ?_,
    fun s => ⟨lampDirective_of_empty, fun c => lampDirective_of_active, (afterStackChange_lamps s).1, fun d D after => ?_⟩⟩
  · obtain ⟨t, next, latch, stack, up, door⟩ := egress_expires hs law runs
    have started : s.isStarting = false ↔ s.nodeState ≠ .starting := beq_eq_false_iff_ne
    have starting : s.isStarting = true ↔ s.nodeState = .starting := beq_iff_eq
    refine ⟨t, next, latch, stack, fun pressed => ?_, fun free running normal => ?_, fun free must => ?_⟩
    · rw [door, egressExpired_pressed _ _ runs pressed]
      refine (law d).supervise_steady ?_ up.1 ?_ ?_ s.now
      · exact up.1
      · rfl
      · rfl
    · obtain ⟨state, egress⟩ := egressExpired_secures s.now s.isStarting runs free (started.mpr running) normal
      have secured : t.doors[d].state = .secured := by rw [door, state_supervise, state]
      exact ⟨secured, lockDrive_of_secured secured, by rw [door, egressTimer_supervise, egress]⟩
    · rw [door, state_supervise, egressTimer_supervise]
      exact egressExpired_yields s.now s.isStarting runs free (must.imp_left starting.mpr)
  · obtain ⟨t, next, out, counted, still⟩ := feedback_faults runs up
    have undriven : t.doors[d].lockDrive = false ∧ t.doors[d].operatorDrive = false := by
      unfold Door.lockDrive Door.operatorDrive
      rw [out.state]
      exact ⟨rfl, Bool.and_false _⟩
    exact ⟨t, next, out.state, undriven.1, undriven.2, out.egress, out.hold, out.relock, out.feedback, out.mark, counted, still⟩
  · show Host.Outcome.next (s.setDoor d s.doors[d].lampMatch) = _
    rw [lampMatch_of_some timer]
  · obtain ⟨lamp, timer⟩ := afterStackChange_lamp s d
    rw [after, lamp, timer]
    refine ⟨fun off => ?_, fun steady => ?_, fun flash was => ?_, fun flash was => ?_⟩
    · rw [off]
      exact ⟨rfl, rfl⟩
    · rw [steady]
      exact ⟨rfl, rfl⟩
    · rw [flash, was]
      exact ⟨rfl, rfl⟩
    · rw [flash]
      unfold Door.takeLamp
      dsimp only
      rw [if_neg was]
      exact ⟨rfl, rfl⟩

end Sys2Proof.Machine
end

