-- ==== Sys2Proof/Proofs/LatchMoves.lean ====
section
/-! PROOFS. Proofs/LatchMoves.lean: what the events of every block but the plan unit do to the latch and the stack: an
occurrence makes an IDLE entry of a valid step PENDING (R141), a clearing takes an entry that is not SERVED to IDLE and marks
contexts (R143, R161), a changed validity moves entries between IDLE and PENDING (R145). None of them takes an entry to SERVED
or from it, or an unacknowledged flag away. -/

namespace Sys2Proof.Machine

/-! ### One entry -/

/-- What occurrences, clearings and re-evaluations make of an entry whose source's plan step is, or is not, valid. -/
structure LatchEntry.Moved (valid : Bool) (e e' : LatchEntry) : Prop where
  served : e'.serve = .served ↔ e.serve = .served
  pending : e'.serve = .pending → e.serve = .pending ∨ valid = true
  unack : e.unack = true → e'.unack = true

namespace LatchEntry.Moved

variable {valid : Bool} {e e' e'' : LatchEntry}

theorem refl (valid : Bool) (e : LatchEntry) : e.Moved valid e := ⟨.rfl, .inl, id⟩

theorem trans (h : e.Moved valid e') (g : e'.Moved valid e'') : e.Moved valid e'' :=
  ⟨g.served.trans h.served, fun pending => (g.pending pending).elim h.pending .inr, g.unack ∘ h.unack⟩

end LatchEntry.Moved

/-- An occurrence makes an IDLE entry of a valid step PENDING (R141, step 6). -/
theorem LatchEntry.occurred_serve (n : EntryId) (t : Stamp) (origin : Nat) (valid : Bool) (e : LatchEntry) :
    (e.occurred n t origin valid).serve = if e.serve = .idle ∧ valid = true then .pending else e.serve := by
  simp [LatchEntry.occurred]

theorem LatchEntry.occurred_moved (n : EntryId) (t : Stamp) (origin : Nat) (valid : Bool) (e : LatchEntry) :
    e.Moved valid (e.occurred n t origin valid) := by
  have serve := e.occurred_serve n t origin valid
  by_cases starts : e.serve = .idle ∧ valid = true
  · rw [if_pos starts] at serve
    exact ⟨by simp [serve, starts.1], fun _ => .inr starts.2, fun _ => rfl⟩
  · rw [if_neg starts] at serve
    exact ⟨by rw [serve], fun waits => .inl (serve ▸ waits), fun _ => rfl⟩

theorem LatchEntry.cleared_moved (valid : Bool) (e : LatchEntry) :
    e.Moved valid { e with asserted := false, serve := e.serve.cleared } := by
  refine ⟨?_, ?_, id⟩ <;> cases h : e.serve <;> simp [Serve.cleared]

theorem LatchEntry.revalidate_moved (n : EntryId) (was is : Bool) (e : LatchEntry) : e.Moved is (e.revalidate n was is) := by
  unfold LatchEntry.revalidate
  split
  · rename_i lost
    have waiting : e.serve = .pending := by simp at lost; exact lost.2
    exact ⟨by simp [waiting], nofun, id⟩
  · split
    · rename_i found
      have idle : e.serve = .idle ∧ is = true := by simp at found; exact ⟨found.1.1.2, found.1.1.1.2⟩
      exact ⟨by simp [idle.1], fun _ => .inr idle.2, id⟩
    · exact .refl is e

/-- Where each entry that waited before or now has, or had, a valid step, none waits without one after the re-evaluation
(R145). -/
theorem LatchEntry.revalidate_pending (n : EntryId) {was is : Bool} {e : LatchEntry}
    (due : e.serve = .pending → was = true ∨ is = true) (h : (e.revalidate n was is).serve = .pending) : is = true := by
  unfold LatchEntry.revalidate at h
  cases is
  · split at h
    · cases h
    · rename_i kept
      have waits : e.serve = .pending := by simpa using h
      simp [waits, (due waits).resolve_right Bool.false_ne_true] at kept
  · rfl

/-! ### The state -/

/-- A context but for its clear seen mark, which a clearing sets (R161). -/
def Context.unmarked (c : Context) : Context := { c with clearSeen := false }

/-- What the validity of a source's step is read from (R145), with the node state and the load's progress. -/
structure Planning where
  plan : Vector PlanStep 64
  sources : Vector SourceCfg 35
  lines : Vector LineMapEntry 16
  nodeState : NodeState
  loading : LoadState

def State.planning (s : State) : Planning := ⟨s.plan, s.sources, s.lines, s.nodeState, s.loading⟩

theorem planValid_congr {s t : State} (plan : t.plan = s.plan) (sources : t.sources = s.sources) (lines : t.lines = s.lines)
    (n : EntryId) : t.planValid n = s.planValid n := by
  unfold State.planValid State.sourceCfg
  simp only [plan, sources, lines]

/-- t follows from s by what moves entries as `LatchEntry.Moved` says, and marks contexts alone. -/
structure State.Raised (s t : State) : Prop where
  planning : t.planning = s.planning
  contexts : t.stack.map Context.unmarked = s.stack.map Context.unmarked
  latch : ∀ n : EntryId, s.latch[n].Moved (s.planValid n) t.latch[n]

namespace State.Raised

variable {s t r : State}

theorem plan (h : s.Raised t) : t.plan = s.plan := congrArg Planning.plan h.planning
theorem sources (h : s.Raised t) : t.sources = s.sources := congrArg Planning.sources h.planning
theorem lines (h : s.Raised t) : t.lines = s.lines := congrArg Planning.lines h.planning
theorem nodeState (h : s.Raised t) : t.nodeState = s.nodeState := congrArg Planning.nodeState h.planning
theorem loading (h : s.Raised t) : t.loading = s.loading := congrArg Planning.loading h.planning

theorem planValid (h : s.Raised t) (n : EntryId) : t.planValid n = s.planValid n :=
  planValid_congr h.plan h.sources h.lines n

theorem refl (s : State) : s.Raised s := ⟨rfl, rfl, fun _ => .refl _ _⟩

theorem trans (h : s.Raised t) (g : t.Raised r) : s.Raised r where
  planning := g.planning.trans h.planning
  contexts := g.contexts.trans h.contexts
  latch n := (h.latch n).trans (h.planValid n ▸ g.latch n)

/-- An update of nothing that is read here. -/
theorem of_same (planning : t.planning = s.planning) (stack : t.stack = s.stack) (latch : t.latch = s.latch) : s.Raised t :=
  ⟨planning, by rw [stack], fun n => by rw [latch]; exact .refl _ _⟩

/-- Such an update, and what comes after it. -/
theorem after (h : t.Raised r) (planning : t.planning = s.planning) (stack : t.stack = s.stack) (latch : t.latch = s.latch) :
    s.Raised r :=
  (of_same planning stack latch).trans h

/-- A frame's offers count no occurrence of themselves. -/
theorem of_offers (h : Reported (fun _ => False) s t) : s.Raised t :=
  ⟨(congrArg State.planning h.same : t.unreported.planning = s.unreported.planning), by rw [h.stack],
    fun n => by rw [h.latch n id]; exact .refl _ _⟩

theorem foldl {α : Type} (update : State → α → State) (h : ∀ (s : State) (a : α), s.Raised (update s a)) :
    ∀ (l : List α) (s : State), s.Raised (l.foldl update s)
  | [], s => refl s
  | a :: l, s => (h s a).trans (foldl update h l (update s a))

/-- A change that a condition holds off. -/
theorem heldOff (h : s.Raised t) (b : Prop) [Decidable b] : s.Raised (if b then s else t) := by
  split
  · exact refl s
  · exact h

/-- A change that a condition calls for. -/
theorem calledFor (h : s.Raised t) (b : Prop) [Decidable b] : s.Raised (if b then t else s) := by
  split
  · exact h
  · exact refl s

end State.Raised

open State.Raised (of_same of_offers)

/-! ### Occurrences, clearings and frames -/

section
variable (s : State)

theorem countOccurrence_raised (n : EntryId) (o : Nat) : s.Raised (s.countOccurrence n o) := by
  refine ⟨rfl, rfl, fun m => ?_⟩
  show LatchEntry.Moved _ _ (s.setLatch n _).latch[m]
  rw [latch_setLatch]
  split
  · rename_i same
    subst same
    exact LatchEntry.occurred_moved _ _ _ _ _
  · exact .refl _ _

theorem reportOverrun_raised : s.Raised s.reportOverrun := of_offers (reportOverrun_reported _ s)

theorem overrun_raised : s.Raised s.overrun := (countOccurrence_raised s _ _).trans (reportOverrun_raised _)

theorem overruns_raised (k : Nat) : s.Raised (State.overruns k s) := by
  induction k generalizing s with
  | zero => exact .refl s
  | succ k ih => exact (overrun_raised s).trans (ih _)

theorem sendLocal_raised (f : Frame) : s.Raised (s.sendLocal f) :=
  (of_offers (offerBoth_reported _ s f)).trans (overruns_raised _ _)

theorem relay_raised (p : Port) (f : Frame) : s.Raised (s.relay p f) := by
  have offered : s.Raised (s.offer p.opposite (relayQueue f) f).1 := of_offers (offer_reported _ s _ _ f)
  unfold State.relay
  dsimp only
  split
  · exact offered.trans (overrun_raised _)
  · exact offered

theorem reply_raised (p : Port) (op : Byte) (r : Request) (a : Answer) : s.Raised (s.reply p op r a) :=
  of_offers (offer_reported _ s p .ll _)

theorem report_raised (n : EntryId) (t : Transition) (i : Option (Fin 64)) : s.Raised (s.report n t i) :=
  sendLocal_raised s _

theorem occurFrom_raised (n : EntryId) (o : Nat) : s.Raised (s.occurFrom n o) := by
  have reported : ∀ t : State, t.Raised (t.reportOccurred n) := fun t => (report_raised t _ _ _).calledFor _
  exact (countOccurrence_raised s n o).trans (reported _)

theorem occur_raised (n : EntryId) : s.Raised (s.occur n) := occurFrom_raised s n _

theorem markCleared_raised (n : EntryId) : s.Raised (s.markCleared n) := by
  refine ⟨rfl, ?_, fun m => ?_⟩
  · show (s.stack.map (Context.sourceCleared n)).map Context.unmarked = _
    rw [List.map_map]
    refine List.map_congr_left fun c _ => ?_
    show (c.sourceCleared n).unmarked = c.unmarked
    unfold Context.sourceCleared
    split <;> rfl
  · show LatchEntry.Moved _ _ (s.setLatch n _).latch[m]
    rw [latch_setLatch]
    split
    · rename_i same
      subst same
      exact LatchEntry.cleared_moved _ _
    · exact .refl _ _

theorem clearWithCode_raised (n : EntryId) (code : Word) : s.Raised (s.clearWithCode n code) := by
  have sent : ∀ t : State, t.Raised (t.reportCleared n code) := fun t => by
    unfold State.reportCleared
    exact (sendLocal_raised t _).calledFor _
  unfold State.clearWithCode
  exact ((markCleared_raised s n).trans (sent _)).calledFor _

theorem clearSource_raised (n : EntryId) : s.Raised (s.clearSource n) := clearWithCode_raised s n _

theorem follow_raised (n : EntryId) (was is : Bool) : s.Raised (s.follow n was is) := by
  unfold State.follow
  split
  · exact occur_raised s n
  · exact (clearSource_raised s n).calledFor _

theorem occurIf_raised (n : EntryId) (b : Bool) : s.Raised (s.occurIf n b) := (occur_raised s n).calledFor _

theorem withLatch_raised (latch : Vector LatchEntry 51) (due : Bool)
    (moved : ∀ n : EntryId, s.latch[n].Moved (s.planValid n) latch[n]) :
    s.Raised { s with latch := latch, decisionDue := due } := ⟨rfl, rfl, moved⟩

theorem revalidate_raised (old : State) : s.Raised (State.revalidate old s) := by
  refine withLatch_raised s _ _ fun n => ?_
  simp only [Fin.getElem_fin, Vector.getElem_ofFn]
  exact LatchEntry.revalidate_moved _ _ _ _

/-! ### The line -/

theorem setPort_raised (p : Port) (P : LinePort) : s.Raised (s.setPort p P) := by cases p <;> exact of_same rfl rfl rfl

theorem superviseGood_raised (p : Port) : s.Raised (s.superviseGood p) := by
  unfold State.superviseGood
  exact (setPort_raised s p _).trans ((clearSource_raised _ _).calledFor _)

theorem badFrame_raised (p : Port) : s.Raised (s.badFrame p) := by
  unfold State.badFrame
  exact ((setPort_raised s p _).calledFor _).trans (occur_raised _ _)

theorem linkExpired_raised (p : Port) : s.Raised (s.linkExpired p) := by
  unfold State.linkExpired
  dsimp only
  split
  · exact .refl s
  · split
    · exact (setPort_raised s p _).trans (occur_raised _ _)
    · exact setPort_raised s p _

theorem fillExpired_raised (p : Port) : s.Raised (s.fillExpired p) := by
  unfold State.fillExpired
  exact (setPort_raised s p _).heldOff _

theorem sent_raised (p : Port) : s.Raised (s.sent p) := by
  unfold State.sent
  exact (setPort_raised s p _).heldOff _

theorem takeSample_raised (p : Port) (f : SampleFields) : s.Raised (s.takeSample p f) := by
  have item : ∀ (s : State) (it : SampleItem), s.Raised (State.tapItem f.origin.toNat s it) := fun s it => by
    unfold State.tapItem
    split
    · exact .refl s
    · split
      · exact of_same rfl rfl rfl
      · split
        · split
          · exact of_same rfl rfl rfl
          · exact .refl s
        · exact .refl s
  have tapped : s.Raised (s.tapItems f) := .foldl _ item _ s
  unfold State.takeSample
  exact tapped.trans ((relay_raised _ p _).calledFor _)

theorem setFan_raised (f : FanId) (F : Fan) : s.Raised (s.setFan f F) := of_same rfl rfl rfl

theorem reformJet_raised (f : FanId) : s.Raised (s.reformJet f) := setFan_raised s f _

theorem reformPassage_raised : s.Raised s.reformPassage := setFan_raised s _ _

theorem withTap_raised (tap : TapCache) : s.Raised { s with tap := tap } := of_same rfl rfl rfl

theorem setPosA_raised (k : Nat) : s.Raised (s.setPosA k) := by
  have moved : s.Raised (State.occur { s with posA := k } srcPosition) := .after (occur_raised _ _) rfl rfl rfl
  have retested : ∀ (t : State) (was : Bool), t.Raised (t.guardRetest was) := fun t was =>
    ((reformJet_raised t jet1).trans (reformJet_raised _ jet2)).heldOff _
  unfold State.setPosA
  exact (moved.trans ((withTap_raised _ _).trans (retested _ _))).heldOff _

theorem relayCount_raised (p : Port) (side : Side) (k : Byte) : s.Raised (s.relayCount p side k) := by
  unfold State.relayCount
  exact (relay_raised s p _).calledFor _

theorem takeCount_raised (p : Port) (side : Side) (k : Byte) : s.Raised (s.takeCount p side k) := by
  unfold State.takeCount
  split
  · exact (setPosA_raised s _).trans (relayCount_raised _ _ _ k)
  · exact .after (relayCount_raised _ _ _ k) rfl rfl rfl
  · exact occur_raised s _
  · exact occur_raised s _

theorem takeTrigger_raised (p : Port) (f : TriggerFields) : s.Raised (s.takeTrigger p f) := by
  have acted : s.Raised (s.actTrigger f) := by
    unfold State.actTrigger
    split
    · split
      · exact .refl s
      · split
        · exact occurFrom_raised s _ _
        · exact clearSource_raised s _
    · exact .refl s
  unfold State.takeTrigger
  exact acted.trans ((relay_raised _ p _).calledFor _)

theorem takeTime_raised (p : Port) (clock : BitVec 32) : s.Raised (s.takeTime p clock) :=
  .after (relay_raised _ p _) rfl rfl rfl

/-! ### Sensors, demand and the call point -/

theorem conversion_raised (c : ChannelId) (code : BitVec 12) : s.Raised (s.conversion c code) := by
  have set : ∀ C : Channel, s.Raised (s.setChannel c C) := fun _ => of_same rfl rfl rfl
  unfold State.conversion
  dsimp only
  split
  · exact set _
  · exact (set _).trans (follow_raised _ _ _ _)

theorem channelChanged_raised (old : State) (c : ChannelId) : s.Raised (State.channelChanged old s c) :=
  .after (t := s.setChannel c _) (follow_raised _ _ _ _) rfl rfl rfl

theorem reportExpiry_raised : s.Raised s.reportExpiry := by
  unfold State.reportExpiry
  exact .after (t := { s with reportTimer := s.startSec s.node.reportPeriod }) ((sendLocal_raised _ _).heldOff _) rfl rfl rfl

theorem failedChange_raised (k : Kind) (was is : KindStatus) : s.Raised (s.failedChange k was is) := by
  unfold State.failedChange
  split
  · exact occur_raised s _
  · exact (clearSource_raised s _).calledFor _

theorem alarmChange_raised (k : Kind) (was is : Bool) : s.Raised (s.alarmChange k was is) := by
  unfold State.alarmChange
  split
  · exact .refl s
  · exact follow_raised s _ was is

theorem kindSources_raised (old : Kinds) : s.Raised (State.kindSources old s) := by
  unfold State.kindSources
  exact (failedChange_raised s _ _ _).trans <| (failedChange_raised _ _ _ _).trans <|
    (failedChange_raised _ _ _ _).trans <| (failedChange_raised _ _ _ _).trans <|
    (alarmChange_raised _ _ _ _).trans <| (alarmChange_raised _ _ _ _).trans (alarmChange_raised _ _ _ _)

theorem kindHoldExpired_raised (k : Kind) : s.Raised (s.kindHoldExpired k) := by
  have set : ∀ K : KindUnit, s.Raised (s.setKind k K) := fun _ => by cases k <;> exact of_same rfl rfl rfl
  unfold State.kindHoldExpired
  exact ((set _).trans (failedChange_raised _ k _ _)).heldOff _

theorem termsChanged_raised : s.Raised s.termsChanged := .after (kindSources_raised _ _) rfl rfl rfl

theorem handOff_raised : s.Raised s.handOff := by
  unfold State.handOff State.handJet State.handPassage
  exact (setFan_raised s _ _).trans <| (setFan_raised _ _ _).trans <| (setFan_raised _ _ _).trans (reformPassage_raised _)

theorem renew_raised : s.Raised s.renew := by
  have seeded : s.Raised s.seeded := by
    unfold State.seeded
    split
    · exact of_same rfl rfl rfl
    all_goals exact .refl s
  exact seeded.trans (handOff_raised _)

theorem controlExpired_raised : s.Raised s.controlExpired :=
  .after ((kindSources_raised _ _).trans (handOff_raised _)) rfl rfl rfl

theorem callPointAccepted_raised : s.Raised s.callPointAccepted := by
  have accepted : s.Raised (State.follow srcCallPoint s.callPoint (!s.callPoint)
      { s with callPoint := !s.callPoint, callTimer := none }) := .after (follow_raised _ _ _ _) rfl rfl rfl
  exact accepted.heldOff _

theorem launchHoldExpired_raised : s.Raised s.launchHoldExpired := by
  have expired : s.Raised (State.oweDecision { s with launchHold := none }) := of_same rfl rfl rfl
  exact expired.heldOff _

/-! ### Fans and doors -/

theorem fanFault_raised (f : FanId) : s.Raised (s.fanFault f) := (setFan_raised s f _).trans (occur_raised _ _)

theorem startExpired_raised (f : FanId) : s.Raised (s.startExpired f) := (fanFault_raised s f).heldOff _

theorem stallExpired_raised (f : FanId) : s.Raised (s.stallExpired f) := (fanFault_raised s f).heldOff _

theorem dwellExpired_raised (f : FanId) : s.Raised (s.dwellExpired f) := (setFan_raised s f _).heldOff _

theorem isolatorAccepted_raised (f : FanId) : s.Raised (s.isolatorAccepted f) := by
  unfold State.isolatorAccepted State.isolatorState
  refine State.Raised.heldOff ?_ _
  dsimp only
  split
  · exact (setFan_raised s f _).trans <| (clearSource_raised _ _).trans (occur_raised _ _)
  · exact (setFan_raised s f _).trans (clearSource_raised _ _)

theorem runFanReset_raised (r : Request) : s.Raised (s.runFanReset r).1 := by
  unfold State.runFanReset State.fanReset
  split
  · exact ((setFan_raised s _ _).trans (clearSource_raised _ _)).calledFor _
  · exact .refl s

theorem doorTo_raised (d : DoorId) (D : Door) (egress : Bool) : s.Raised (s.doorTo d D egress) := by
  have set : s.Raised (s.setDoor d (D.supervise s.now s.doors[d])) := of_same rfl rfl rfl
  unfold State.doorTo
  exact set.trans <| (occurIf_raised _ _ egress).trans <| (follow_raised _ _ _ _).trans <|
    (follow_raised _ _ _ _).trans ((reformPassage_raised _).heldOff _)

theorem doorDebounced_raised (d : DoorId) (i : DoorInput) : s.Raised (s.doorDebounced d i) := by
  unfold State.doorDebounced
  exact (doorTo_raised s d _ _).heldOff _

theorem runDoorReset_raised (r : Request) : s.Raised (s.runDoorReset r).1 := by
  unfold State.runDoorReset
  split
  · exact doorTo_raised s _ _ false
  · exact .refl s

theorem doorsLeaveStarting_raised : s.Raised s.doorsLeaveStarting :=
  (doorTo_raised s 0 _ false).trans (doorTo_raised _ 1 _ false)

/-- What follows a change of the stack moves entries as the blocks' events do (R157, R159, R163). -/
theorem afterStackChange_raised : s.Raised s.afterStackChange := by
  have lamps : ∀ t : State, t.Raised t.retakeLamp := fun _ => of_same rfl rfl rfl
  unfold State.afterStackChange State.repolicyBoth State.repolicy
  exact (renew_raised s).trans <| (doorTo_raised _ 0 _ false).trans <| (doorTo_raised _ 1 _ false).trans (lamps _)

/-! ### The tap cache and the image store -/

theorem markDirty_raised (g : Fin 15) : s.Raised (s.markDirty g) := of_same rfl rfl rfl

theorem flushTap_raised : s.Raised s.flushTap := by
  unfold State.flushTap
  dsimp only
  split
  · exact (withTap_raised s _).trans (markDirty_raised _ _)
  · exact withTap_raised s _

theorem lockChanged_raised (l0 l1 : Nat) : s.Raised (s.lockChanged l0 l1) := by
  unfold State.lockChanged
  dsimp only
  split
  · exact (withTap_raised s _).trans (markDirty_raised _ _)
  · exact withTap_raised s _

theorem runTapLoad_raised (r : Request) : s.Raised (s.runTapLoad r).1 := by
  unfold State.runTapLoad
  split
  · split
    · exact .refl s
    · split
      · exact .refl s
      · split
        · exact .refl s
        · rename_i loaded
          obtain ⟨i, -, rfl⟩ := Option.map_eq_some_iff.mp loaded
          exact (withTap_raised s _).trans (markDirty_raised _ _)
  all_goals exact .refl s

theorem writeComplete_raised (r : SerialAnswer) : s.Raised (s.writeComplete r) := by
  unfold State.writeComplete
  split
  · cases r <;> exact of_same rfl rfl rfl
  · cases r <;> exact of_same rfl rfl rfl
  all_goals exact .refl s

theorem storeFrom_raised (i : Nat) : s.Raised (s.storeFrom i) := by
  unfold State.storeFrom
  split <;> exact of_same rfl rfl rfl

theorem runStore_raised : s.Raised s.runStore.1 := by
  unfold State.runStore
  split
  · exact storeFrom_raised s 0
  · exact .refl s

theorem verified_raised (g : Fin 15) (good : Bool) : s.Raised (s.verified g good) := by
  unfold State.verified
  split
  · split
    · exact .refl s
    · exact of_same rfl rfl rfl
  · exact occur_raised s _

theorem verifyComplete_raised (r : SerialAnswer) : s.Raised (s.verifyComplete r) := by
  have shown : ∀ serial : Memory, s.Raised { s with serial := serial } := fun _ => of_same rfl rfl rfl
  have done : ∀ serial : Memory, s.Raised { s with serial := serial, storing := .idle } := fun _ => of_same rfl rfl rfl
  unfold State.verifyComplete
  split
  · exact (shown _).trans ((verified_raised _ _ _).trans (storeFrom_raised _ _))
  · exact (done _).trans ((occur_raised _ _).heldOff _)
  all_goals exact .refl s

/-! ### The effects of a change, and a group that failed -/

theorem nodeChanged_raised (old : State) : s.Raised (s.nodeChanged old) := by
  have report : ∀ (t : State) (timer : Timer), t.Raised { t with reportTimer := timer } := fun _ _ => of_same rfl rfl rfl
  have control : ∀ (t : State) (timer : Timer), t.Raised { t with controlTimer := timer } := fun _ _ => of_same rfl rfl rfl
  unfold State.nodeChanged
  exact ((report s _).heldOff _).trans (((control _ _).heldOff _).trans ((lockChanged_raised _ _ _).heldOff _))

theorem lineChanged_raised (old : State) (i : Fin 16) : s.Raised (State.lineChanged old s i) := by
  unfold State.lineChanged
  exact (clearWithCode_raised s _ _).heldOff _

theorem withDecision_raised (due : Bool) : s.Raised { s with decisionDue := due } := of_same rfl rfl rfl

/-- The effects of stored words, up to the re-evaluation of the entries (R145). -/
theorem changed_eq (old : State) : ∃ u : State, s.Raised u ∧ State.changed old s = State.revalidate old u := by
  refine ⟨_, ?_, rfl⟩
  exact (State.Raised.foldl _ (fun s c => channelChanged_raised s old c) _ s).trans <|
    ((termsChanged_raised _).heldOff _).trans <| (nodeChanged_raised _ old).trans <|
    (State.Raised.foldl _ (fun s i => lineChanged_raised s old i) _ _).trans (withDecision_raised _ _)

theorem changed_raised (old : State) : s.Raised (State.changed old s) := by
  obtain ⟨u, raised, changed⟩ := changed_eq s old
  rw [changed]
  exact raised.trans (revalidate_raised u old)

theorem markWords_raised (T : Table) (a n : Nat) : s.Raised (s.markWords T a n) := by
  have word : ∀ (s : State) (a : Nat), s.Raised (s.markWord T a) := fun s a => by
    unfold State.markWord
    split
    · split
      · exact .refl s
      · exact markDirty_raised s _
    · exact .refl s
  induction n generalizing s a with
  | zero => exact .refl s
  | succ n ih => exact (word s a).trans (ih _ _)

theorem markFlushed_raised (old : Vector PlanStep 64) : s.Raised (s.markFlushed old) := by
  unfold State.markFlushed
  exact .foldl _ (fun s i => (markDirty_raised s _).calledFor _) _ s

theorem failGroup_raised (g : Fin 15) : s.Raised (s.failGroup g) := by
  have emptied : s.Raised s.emptyLocked := withTap_raised s _
  have failed : ∀ (t : State) (dirty : Vector Bool 15) (k : Nat), t.Raised { t with dirty := dirty, lastFailing := k } :=
    fun _ _ _ => of_same rfl rfl rfl
  unfold State.failGroup
  exact (emptied.calledFor _).trans ((failed _ _ _).trans (occur_raised _ _))

theorem firstEvaluation_raised : s.Raised s.firstEvaluation := by
  have found : ∀ (t : State) (n : EntryId) (b : Bool), t.Raised (t.firstFound n b) :=
    fun t n b => (occur_raised t n).calledFor _
  unfold State.firstEvaluation
  exact (found s _ _).trans <| (found _ _ _).trans <| (found _ _ _).trans <| (found _ _ _).trans <|
    (found _ _ _).trans (found _ _ _)

end

end Sys2Proof.Machine
end

