-- ==== Sys2Proof/Proofs/ContextStack.lean ====
section
/-! PROOFS. Proofs/ContextStack.lean: what the plan unit does to the laws of the stack (R144, R152) and of the plans that the
load has brought (R145, R166): step entries and ends, the ends of contexts with the resumption, the launch with its drop, and
the decisions. Between a context's end and the resumption the ACTIVE context's timer stands frozen, so the laws of the stack
are carried without that of this timer, which each operation that ends with a step entry or a resumption restores. -/

namespace Sys2Proof.Machine

/-! ### The laws of the stack but for the ACTIVE context's timer -/

/-- What a context's place on the stack is judged by. -/
def Context.place (c : Context) : EntryId × Nat := (c.source, c.level)

/-- The laws of the stack but for the ACTIVE context's timer. -/
structure State.Stacked (s : State) : Prop where
  depth : s.stack.length ≤ 3
  rising : s.stack.Pairwise fun c d => d.level < c.level
  single : s.stack.Pairwise fun c d => c.source ≠ d.source
  served : ∀ n : EntryId, s.latch[n].serve = .served ↔ ∃ c ∈ s.stack, c.source = n
  saved : ∀ c ∈ s.stack.tail, c.timer.isRunning = false

/-- The ACTIVE context's step timer is not frozen (R152). -/
def State.Runs (s : State) : Prop := ∀ c, s.active = some c → c.timer.isFrozen = false

theorem stackLaw_iff {s : State} : s.StackLaw ↔ s.Stacked ∧ s.Runs :=
  ⟨fun ⟨depth, rising, single, served, active, saved⟩ => ⟨⟨depth, rising, single, served, saved⟩, active⟩,
    fun ⟨⟨depth, rising, single, served, saved⟩, active⟩ => ⟨depth, rising, single, served, active, saved⟩⟩

theorem exists_source_iff {l : List Context} {n : EntryId} :
    (∃ c ∈ l, c.source = n) ↔ n ∈ (l.map Context.place).map Prod.fst := by
  simp [Context.place]

/-- Contexts in the same places, with the same entries SERVED. -/
theorem State.Stacked.of_places {s t : State} (h : s.Stacked) (places : t.stack.map Context.place = s.stack.map Context.place)
    (served : ∀ n : EntryId, t.latch[n].serve = .served ↔ s.latch[n].serve = .served)
    (saved : ∀ c ∈ t.stack.tail, c.timer.isRunning = false) : t.Stacked where
  depth := by
    have same := congrArg List.length places
    rw [List.length_map, List.length_map] at same
    exact same ▸ h.depth
  rising := by
    have rising : (s.stack.map Context.place).Pairwise fun x y => y.2 < x.2 := List.pairwise_map.mpr h.rising
    exact List.pairwise_map.mp (places ▸ rising)
  single := by
    have single : (s.stack.map Context.place).Pairwise (fun x y => x.1 ≠ y.1) := List.pairwise_map.mpr h.single
    rw [← places] at single
    exact (List.pairwise_map (f := Context.place) (R := fun x y => x.1 ≠ y.1)).mp single
  served n := by rw [served, h.served, exists_source_iff, exists_source_iff, places]
  saved := saved

/-- A context leaves the stack, and its entry is SERVED no more. -/
theorem State.Stacked.remove {s t : State} (h : s.Stacked) {c : Context} (sub : t.stack.Sublist s.stack)
    (left : ∀ d, d ∈ s.stack ↔ d = c ∨ d ∈ t.stack) (apart : ∀ d ∈ t.stack, d.source ≠ c.source)
    (served : ∀ n : EntryId, t.latch[n].serve = .served ↔ s.latch[n].serve = .served ∧ n ≠ c.source)
    (saved : ∀ d ∈ t.stack.tail, d.timer.isRunning = false) : t.Stacked where
  depth := sub.length_le.trans h.depth
  rising := h.rising.sublist sub
  single := h.single.sublist sub
  served n := by
    rw [served, h.served]
    constructor
    · rintro ⟨⟨d, mem, rfl⟩, other⟩
      exact ⟨d, ((left d).mp mem).resolve_left fun same => other (same ▸ rfl), rfl⟩
    · rintro ⟨d, mem, rfl⟩
      exact ⟨⟨d, (left d).mpr (.inr mem), rfl⟩, apart d mem⟩
  saved := saved

namespace State.Raised

variable {s t : State}

/-- Blocks' events leave every context in its place with its timer. -/
theorem map_eq {α : Type} (h : s.Raised t) (f : Context → α) (reads : ∀ c, f c.unmarked = f c) :
    t.stack.map f = s.stack.map f := by
  have same := congrArg (List.map f) h.contexts
  rw [List.map_map, List.map_map] at same
  have unmarked : f ∘ Context.unmarked = f := funext reads
  rwa [unmarked] at same

theorem stacked (h : s.Raised t) (law : s.Stacked) : t.Stacked := by
  refine law.of_places (h.map_eq _ fun _ => rfl) (fun n => (h.latch n).served) fun c mem => ?_
  have timers : t.stack.tail.map Context.timer = s.stack.tail.map Context.timer := by
    rw [List.map_tail, h.map_eq Context.timer fun _ => rfl, List.map_tail]
  have timer : c.timer ∈ s.stack.tail.map Context.timer := timers ▸ List.mem_map_of_mem mem
  obtain ⟨d, before, same⟩ := List.mem_map.mp timer
  exact same ▸ law.saved d before

theorem runs (h : s.Raised t) (law : s.Runs) : t.Runs := by
  intro c active
  have timers : t.active.map Context.timer = s.active.map Context.timer := by
    unfold State.active
    rw [← List.head?_map, h.map_eq Context.timer fun _ => rfl, List.head?_map]
  rw [active, Option.map_some] at timers
  obtain ⟨d, before, same⟩ := Option.map_eq_some_iff.mp timers.symm
  exact same ▸ law d before

theorem stackLaw (h : s.Raised t) (law : s.StackLaw) : t.StackLaw :=
  stackLaw_iff.mpr ((stackLaw_iff.mp law).imp h.stacked h.runs)

end State.Raised

/-! ### The laws of the plans, within the steps that the load has brought -/

/-- A PENDING entry's plan step is valid (R145), and the valid steps and the contexts' steps lie in L (R166). -/
structure State.PlansWithin (L : Fin 64 → Prop) (s : State) : Prop where
  pending : ∀ n : EntryId, s.latch[n].serve = .pending → s.planValid n = true
  valid : ∀ i : Fin 64, s.plan[i].valid = true → L i
  current : ∀ c ∈ s.stack, L c.step

theorem loadLaw_iff {s : State} :
    s.LoadLaw ↔ (s.nodeState = .starting ↔ s.loading ≠ .done) ∧ s.PlansWithin s.stepLoaded :=
  ⟨fun ⟨starting, pending, valid, current⟩ => ⟨starting, pending, valid, current⟩,
    fun ⟨starting, pending, valid, current⟩ => ⟨starting, pending, valid, current⟩⟩

theorem stepLoaded_congr {s t : State} (h : t.loading = s.loading) : t.stepLoaded = s.stepLoaded := by
  funext i
  unfold State.stepLoaded
  rw [h]

namespace State.PlansWithin

variable {L M : Fin 64 → Prop} {s t : State}

theorem mono (h : s.PlansWithin L) (sub : ∀ i, L i → M i) : s.PlansWithin M :=
  ⟨h.pending, fun i valid => sub i (h.valid i valid), fun c mem => sub _ (h.current c mem)⟩

/-- The same steps and sources, entries PENDING where they were or with a valid step, and contexts at steps of L. -/
theorem of_entries (h : s.PlansWithin L) (plan : t.plan = s.plan) (valid : ∀ n, t.planValid n = s.planValid n)
    (pending : ∀ n : EntryId, t.latch[n].serve = .pending → s.latch[n].serve = .pending ∨ s.planValid n = true)
    (current : ∀ c ∈ t.stack, L c.step) : t.PlansWithin L :=
  ⟨fun n waits => (valid n).trans ((pending n waits).elim (h.pending n) id), fun i => by rw [plan]; exact h.valid i, current⟩

/-- Other contexts, of steps within L. -/
theorem of_stack (h : s.PlansWithin L) (plan : t.plan = s.plan) (sources : t.sources = s.sources)
    (lines : t.lines = s.lines) (latch : t.latch = s.latch) (current : ∀ c ∈ t.stack, L c.step) : t.PlansWithin L :=
  h.of_entries plan (planValid_congr plan sources lines) (fun _ waits => .inl (latch ▸ waits)) current

theorem setStack (h : s.PlansWithin L) {l : List Context} (current : ∀ c ∈ l, L c.step) : (s.setStack l).PlansWithin L :=
  h.of_stack rfl rfl rfl rfl current

/-- An entry's serve state set, to PENDING with a valid step alone. -/
theorem setServe (h : s.PlansWithin L) (n : EntryId) {v : Serve} (due : v = .pending → s.planValid n = true) :
    (s.setServe n v).PlansWithin L := by
  refine h.of_entries rfl (fun _ => rfl) (fun m waits => ?_) h.current
  rw [latch_setServe] at waits
  split at waits
  · rename_i same
    exact .inr (same ▸ due waits)
  · exact .inl waits

end State.PlansWithin

theorem State.Raised.plansWithin {L : Fin 64 → Prop} {s t : State} (h : s.Raised t) (law : s.PlansWithin L) :
    t.PlansWithin L := by
  refine law.of_entries h.plan h.planValid (fun n => (h.latch n).pending) fun c mem => ?_
  have step : c.step ∈ s.stack.map Context.step := (h.map_eq Context.step fun _ => rfl) ▸ List.mem_map_of_mem mem
  obtain ⟨d, before, same⟩ := List.mem_map.mp step
  exact same ▸ law.current d before

theorem State.Raised.loadLaw {s t : State} (h : s.Raised t) (law : s.LoadLaw) : t.LoadLaw := by
  obtain ⟨starting, plans⟩ := loadLaw_iff.mp law
  refine loadLaw_iff.mpr ⟨by rw [h.nodeState, h.loading]; exact starting, ?_⟩
  rw [stepLoaded_congr h.loading]
  exact h.plansWithin plans

theorem oweDecision_raised (s : State) : s.Raised s.oweDecision := .of_same rfl rfl rfl

theorem startHold_raised (s : State) : s.Raised s.startHold := .of_same rfl rfl rfl

/-! ### What a part of the plan unit keeps -/

/-- The laws go from s to t, that of the ACTIVE context's timer apart. -/
structure State.KeepsStacked (s t : State) : Prop where
  stacked : s.Stacked → t.Stacked
  plans : ∀ L, s.PlansWithin L → t.PlansWithin L

namespace State.KeepsStacked

variable {s t r : State}

theorem refl (s : State) : s.KeepsStacked s := ⟨id, fun _ => id⟩

theorem trans (h : s.KeepsStacked t) (g : t.KeepsStacked r) : s.KeepsStacked r :=
  ⟨g.stacked ∘ h.stacked, fun L => g.plans L ∘ h.plans L⟩

theorem of_raised (h : s.Raised t) : s.KeepsStacked t := ⟨h.stacked, fun _ => h.plansWithin⟩

end State.KeepsStacked

/-- The ACTIVE context changed in its step, timer and marks. -/
theorem State.Stacked.withActive {s : State} (h : s.Stacked) {c d : Context} {rest : List Context} (stack : s.stack = c :: rest)
    (place : d.place = c.place) : (s.setStack (d :: rest)).Stacked := by
  refine h.of_places ?_ (fun _ => .rfl) fun x mem => h.saved x ?_
  · rw [stack]
    exact congrArg (· :: rest.map Context.place) place
  · rw [stack]
    exact mem

section
variable (s : State)

theorem entered_unfrozen (i : Fin 64) (c : Context) : (s.entered i c).timer.isFrozen = false := by
  unfold State.entered State.entryTimer
  cases s.plan[i].endCond with
  | timer | held => rfl
  | sourceClear =>
    dsimp only
    split
    · dsimp only
      split <;> rfl
    · rfl

theorem spread_raised (p : PlanStep) : s.Raised (s.spread p) := by
  unfold State.spread
  exact (sendLocal_raised s _).heldOff _

theorem enterStep_runs (i : Fin 64) : (s.enterStep i).Runs := by
  unfold State.enterStep
  split
  · rename_i empty
    intro c active
    simp [State.active, empty] at active
  · rename_i c rest _
    refine (spread_raised _ _).runs fun d active => ?_
    cases active
    exact entered_unfrozen s i c

theorem enterStep_stacked {s : State} (h : s.Stacked) (i : Fin 64) : (s.enterStep i).Stacked := by
  unfold State.enterStep
  split
  · exact h
  · rename_i stack
    exact (spread_raised _ _).stacked (h.withActive stack rfl)

/-- A valid step lies within what the load has brought (R166). -/
theorem enterStep_plansWithin {L : Fin 64 → Prop} {s : State} (h : s.PlansWithin L) {i : Fin 64}
    (valid : s.plan[i].valid = true) : (s.enterStep i).PlansWithin L := by
  unfold State.enterStep
  split
  · exact h
  · rename_i c rest stack
    refine (spread_raised _ _).plansWithin (h.setStack fun d mem => ?_)
    rcases List.mem_cons.mp mem with rfl | mem
    · exact h.valid i valid
    · exact h.current d (stack ▸ List.mem_cons_of_mem c mem)

theorem enterStep_keepsStacked {i : Fin 64} (valid : s.plan[i].valid = true) : s.KeepsStacked (s.enterStep i) :=
  ⟨fun h => enterStep_stacked h i, fun _ h => enterStep_plansWithin h valid⟩

theorem nextStep_isValid {s : State} {c : Context} {j : Fin 64} (h : s.nextStep c = some j) : s.plan[j].valid = true :=
  (Option.filter_eq_some_iff.mp h).2

/-! ### The end of a context, and the resumption (R160 to R164) -/

/-- An entry taken off SERVED, by the serve state of each entry. -/
theorem served_setServe {n m : EntryId} {v : Serve} (off : v ≠ .served) :
    (s.setServe n v).latch[m].serve = .served ↔ s.latch[m].serve = .served ∧ m ≠ n := by
  rw [latch_setServe]
  split
  · rename_i same
    simp [same, off]
  · rename_i other
    simp [other]

theorem afterEnd_off (n : EntryId) (e : LatchEntry) : e.afterEnd n ≠ .served ∧ e.afterEnd n ≠ .pending := by
  unfold LatchEntry.afterEnd
  split <;> simp

theorem endContext_keepsStacked : s.KeepsStacked s.endContext := by
  unfold State.endContext
  split
  · exact .refl s
  · rename_i c rest stack
    have reported := report_raised s c.source .ended (some c.step)
    have same : (s.report c.source .ended (some c.step)).stack = c :: rest :=
      (report_reported (E := anyEntry) trivial s _ _ _).stack.trans stack
    have off := afterEnd_off c.source (s.report c.source .ended (some c.step)).latch[c.source]
    refine .trans (.of_raised reported) ⟨fun h => ?_, fun L h => ?_⟩
    · refine h.remove (c := c) ?_ (fun d => ?_) ?_ (fun n => served_setServe _ off.1) fun d mem => h.saved d ?_
      · rw [same]
        exact List.sublist_cons_self c rest
      · rw [same]
        exact List.mem_cons
      · intro d mem
        have apart := h.single
        rw [same] at apart
        exact ((List.pairwise_cons.mp apart).1 d mem).symm
      · rw [same]
        exact List.mem_of_mem_tail mem
    · have ended : ((s.report c.source .ended (some c.step)).serveEnded c.source).PlansWithin L :=
        h.setServe c.source fun waits => absurd waits off.2
      exact (oweDecision_raised _).plansWithin
        (ended.setStack fun d mem => h.current d (same ▸ List.mem_cons_of_mem c mem))

theorem thaw_unfrozen (now : Nat) (t : StepTimer) : (t.thaw now).isFrozen = false := by cases t <;> rfl

theorem resume_keepsStacked (k : Nat) : s.KeepsStacked (State.resume k s) := by
  induction k generalizing s with
  | zero => exact .refl s
  | succ k ih =>
    unfold State.resume
    split
    · exact .refl s
    · rename_i c rest stack
      split
      · split
        · rename_i next
          exact enterStep_keepsStacked s (nextStep_isValid next)
        · exact (endContext_keepsStacked s).trans (ih _)
      · refine ⟨fun h => h.withActive stack rfl, fun L h => h.setStack fun d mem => ?_⟩
        rcases List.mem_cons.mp mem with rfl | mem
        · exact h.current c (stack ▸ List.mem_cons_self)
        · exact h.current d (stack ▸ List.mem_cons_of_mem c mem)

/-- A resumption that may go through the whole stack ends with a timer that runs, or none. -/
theorem resume_runs (k : Nat) (room : s.stack.length < k) : (State.resume k s).Runs := by
  induction k generalizing s with
  | zero => exact absurd room (Nat.not_lt_zero _)
  | succ k ih =>
    unfold State.resume
    split
    · rename_i empty
      intro c active
      simp [State.active, empty] at active
    · rename_i c rest stack
      split
      · split
        · exact enterStep_runs s _
        · refine ih _ ?_
          rw [endContext_rest stack]
          rw [stack, List.length_cons] at room
          omega
      · intro d active
        cases active
        exact thaw_unfrozen _ _

theorem endActive_keepsStacked : s.KeepsStacked s.endActive := (endContext_keepsStacked s).trans (resume_keepsStacked _ _)

theorem endActive_runs {s : State} (h : s.stack ≠ []) : s.endActive.Runs := by
  refine resume_runs _ _ ?_
  rw [endContext_stack, List.length_tail]
  have := List.length_pos_of_ne_nil h
  omega

theorem endStep_keepsStacked : s.KeepsStacked s.endStep := by
  unfold State.endStep
  split
  · exact .refl s
  · split
    · rename_i next
      exact enterStep_keepsStacked s (nextStep_isValid next)
    · exact endActive_keepsStacked s

theorem endStep_runs : s.endStep.Runs := by
  unfold State.endStep
  split
  · rename_i empty
    intro c active
    simp [State.active, empty] at active
  · rename_i stack
    split
    · exact enterStep_runs s _
    · exact endActive_runs (stack ▸ List.cons_ne_nil _ _)

theorem endAll_keepsStacked (k : Nat) : s.KeepsStacked (State.endAll k s) := by
  induction k generalizing s with
  | zero => exact .refl s
  | succ k ih => exact (endContext_keepsStacked s).trans (ih _)

/-- Every context ends (R164). -/
theorem endAll_stack (k : Nat) : (State.endAll k s).stack = s.stack.drop k := by
  induction k generalizing s with
  | zero => rfl
  | succ k ih => exact (ih _).trans (by rw [endContext_stack, List.drop_tail])

/-! ### The launch and the drop (R157, R158) -/

theorem freeze_notRunning (now : Nat) (t : StepTimer) : (t.freeze now).isRunning = false := by cases t <;> rfl

theorem saveActive_keepsStacked : s.KeepsStacked s.saveActive := by
  unfold State.saveActive
  split
  · exact .refl s
  · rename_i c rest stack
    refine ⟨fun h => h.withActive stack rfl, fun L h => h.setStack fun d mem => ?_⟩
    rcases List.mem_cons.mp mem with rfl | mem
    · exact h.current c (stack ▸ List.mem_cons_self)
    · exact h.current d (stack ▸ List.mem_cons_of_mem c mem)

/-- With the ACTIVE context saved no timer of the stack runs (R157). -/
theorem saveActive_saved {s : State} (h : s.Stacked) : ∀ c ∈ s.saveActive.stack, c.timer.isRunning = false := by
  intro c mem
  cases stack : s.stack with
  | nil =>
    rw [saveActive_empty s stack] at mem
    cases mem
  | cons a rest =>
    rw [saveActive_stack s stack] at mem
    rcases List.mem_cons.mp mem with rfl | mem
    · exact freeze_notRunning _ _
    · exact h.saved c (stack ▸ mem)

theorem saveActive_places : s.saveActive.stack.map Context.place = s.stack.map Context.place := by
  cases stack : s.stack with
  | nil => rw [saveActive_empty s stack]
  | cons a rest =>
    rw [saveActive_stack s stack]
    rfl

theorem serveAfterDrop_cases (n : EntryId) :
    s.serveAfterDrop n ≠ .served ∧ (s.serveAfterDrop n = .pending → s.planValid n = true) := by
  unfold State.serveAfterDrop
  split
  · rename_i again
    exact ⟨nofun, fun _ => (Bool.and_eq_true_iff.mp again).2⟩
  · exact ⟨nofun, nofun⟩

/-- The oldest context leaves, and its entry goes back to PENDING or IDLE (R158). -/
theorem dropOldest_keepsStacked : s.KeepsStacked s.dropOldest := by
  unfold State.dropOldest
  split
  · exact .refl s
  · rename_i c last
    have parts : s.stack = s.stack.dropLast ++ [c] := (List.dropLast_append_getLast? c last).symm
    obtain ⟨u, hu⟩ : ∃ u, u = (s.recordDrop c).report c.source .dropped (some c.step) := ⟨_, rfl⟩
    have reported : (s.recordDrop c).Raised u := hu ▸ report_raised _ _ _ _
    have stack : u.stack = s.stack.dropLast := hu ▸ (report_reported (E := anyEntry) trivial (s.recordDrop c) _ _ _).stack
    obtain ⟨off, due⟩ := serveAfterDrop_cases u c.source
    rw [← hu]
    refine .trans (t := (u.serveDropped c.source).oweDecision) ⟨fun h => ?_, fun L h => ?_⟩ (.of_raised (occur_raised _ _))
    · have kept : u.stack.Sublist s.stack := stack ▸ List.dropLast_sublist s.stack
      refine h.remove (c := c) kept (fun d => ?_) (fun d mem => ?_) (fun n => ?_) fun d mem => ?_
      · show d ∈ s.stack ↔ d = c ∨ d ∈ u.stack
        rw [stack, parts, List.dropLast_concat, List.mem_append, List.mem_singleton, or_comm]
      · have single := h.single
        rw [parts] at single
        exact (List.pairwise_append.mp single).2.2 d (stack ▸ mem) c (List.mem_singleton_self c)
      · exact (served_setServe u off).trans (and_congr_left' (reported.latch n).served)
      · exact h.saved d ((kept.tail).mem mem)
    · have recorded : (s.recordDrop c).PlansWithin L :=
        h.of_stack rfl rfl rfl rfl fun d mem => h.current d (List.mem_of_mem_dropLast mem)
      have taken : (u.serveDropped c.source).PlansWithin L := (reported.plansWithin recorded).setServe c.source due
      exact (oweDecision_raised _).plansWithin taken

theorem dropOldest_stack : s.dropOldest.stack = s.stack.dropLast := by
  unfold State.dropOldest
  split
  · rename_i empty
    rw [List.getLast?_eq_none_iff.mp empty, List.dropLast_nil]
  · exact (occur_reported (E := anyEntry) trivial _ _ trivial).stack.trans <| (takenBack_stack _ _).trans
      (report_reported (E := anyEntry) trivial (s.recordDrop _) _ _ _).stack

theorem roomMade_keepsStacked : s.KeepsStacked s.roomMade := by
  refine (saveActive_keepsStacked s).trans ?_
  show s.saveActive.KeepsStacked s.saveActive.makeRoom
  unfold State.makeRoom
  split
  · exact dropOldest_keepsStacked _
  · exact .refl _

/-- Room on the stack: two contexts at most, all of them saved before (R157). -/
theorem roomMade_sublist {s : State} (h : s.Stacked) :
    s.roomMade.stack.Sublist s.saveActive.stack ∧ s.roomMade.stack.length ≤ 2 := by
  have depth := h.depth
  have length := saveActive_length s
  show s.saveActive.makeRoom.stack.Sublist _ ∧ s.saveActive.makeRoom.stack.length ≤ 2
  unfold State.makeRoom
  split
  · rw [dropOldest_stack]
    exact ⟨List.dropLast_sublist _, by rw [List.length_dropLast]; omega⟩
  · exact ⟨List.Sublist.refl _, by omega⟩

/-- An entry that is not SERVED stays so while room is made. -/
theorem roomMade_unserved {s : State} (h : s.Stacked) {n : EntryId} (waits : s.latch[n].serve = .pending) :
    ∀ c ∈ s.roomMade.stack, c.source ≠ n := by
  intro c mem same
  have saved : c ∈ s.saveActive.stack := (roomMade_sublist h).1.mem mem
  have source : ∃ d ∈ s.stack, d.source = n := by
    rw [exists_source_iff, ← saveActive_places, ← exists_source_iff]
    exact ⟨c, saved, same⟩
  exact Serve.noConfusion (waits.symm.trans ((h.served n).mpr source))

/-- The levels of the stack do not exceed CL (R152). -/
theorem State.Stacked.level_le {s : State} (h : s.Stacked) : ∀ c ∈ s.stack, c.level ≤ s.currentLevel := by
  intro c mem
  unfold State.currentLevel
  cases stack : s.stack with
  | nil =>
    rw [stack] at mem
    cases mem
  | cons a rest =>
    have rising := h.rising
    rw [stack] at mem rising
    rcases List.mem_cons.mp mem with rfl | mem
    · exact le_refl _
    · exact ((List.pairwise_cons.mp rising).1 c mem).le

theorem roomMade_level {s : State} (h : s.Stacked) : ∀ c ∈ s.roomMade.stack, c.level ≤ s.currentLevel := by
  intro c mem
  have place : c.place ∈ s.stack.map Context.place :=
    saveActive_places s ▸ List.mem_map_of_mem ((roomMade_sublist h).1.mem mem)
  obtain ⟨d, before, same⟩ := List.mem_map.mp place
  have level : d.level = c.level := congrArg Prod.snd same
  exact level ▸ h.level_le d before

/-- The new context comes above the saved ones, and its entry is SERVED (R157). -/
theorem pushContext_stacked {s : State} (h : s.Stacked) {n : EntryId} (i : Fin 64) (room : s.stack.length ≤ 2)
    (saved : ∀ c ∈ s.stack, c.timer.isRunning = false) (above : ∀ c ∈ s.stack, c.level < s.effLevel n)
    (apart : ∀ c ∈ s.stack, c.source ≠ n) : (s.pushContext n i).Stacked where
  depth := Nat.succ_le_succ room
  rising := List.pairwise_cons.mpr ⟨above, h.rising⟩
  single := List.pairwise_cons.mpr ⟨fun c mem same => apart c mem same.symm, h.single⟩
  served m := by
    have others : (∃ c ∈ (s.pushContext n i).stack, c.source = m) ↔ n = m ∨ ∃ c ∈ s.stack, c.source = m :=
      List.exists_mem_cons_iff _ _ _
    rw [others, pushContext_latch, ← h.served]
    split
    · rename_i same
      simp [same]
    · rename_i other
      simp [Ne.symm other]
  saved := saved

theorem launch_runs (n : EntryId) (i : Fin 64) : (s.launch n i).Runs := by
  rw [launch_eq]
  exact (startHold_raised _).runs (enterStep_runs _ i)

/-- A launch of a PENDING entry above CL (R153, R157). -/
theorem launch_stacked {s : State} (h : s.Stacked) {n : EntryId} (waits : s.latch[n].serve = .pending)
    (above : s.currentLevel < s.effLevel n) (i : Fin 64) : (s.launch n i).Stacked := by
  have room := roomMade_sublist h
  have pushed : (s.roomMade.pushContext n i).Stacked := by
    refine pushContext_stacked ((roomMade_keepsStacked s).stacked h) i room.2 (fun c mem => ?_) (fun c mem => ?_)
      (roomMade_unserved h waits)
    · exact saveActive_saved h c (room.1.mem mem)
    · rw [(roomMade_consequence s).effLevel]
      exact (roomMade_level h c mem).trans_lt above
  have reported := report_raised (s.roomMade.pushContext n i) n .launched (some i)
  rw [launch_eq]
  exact (startHold_raised _).stacked (enterStep_stacked (reported.stacked pushed) i)

theorem launch_plansWithin {L : Fin 64 → Prop} {s : State} (h : s.PlansWithin L) (n : EntryId) {i : Fin 64}
    (valid : s.plan[i].valid = true) : (s.launch n i).PlansWithin L := by
  have room := (roomMade_keepsStacked s).plans L h
  have pushed : (s.roomMade.pushContext n i).PlansWithin L := by
    have stacked : (s.roomMade.setStack (s.roomMade.newContext n i :: s.roomMade.stack)).PlansWithin L :=
      room.setStack (List.forall_mem_cons.mpr ⟨h.valid i valid, room.current⟩)
    exact stacked.setServe n nofun
  have reported := report_raised (s.roomMade.pushContext n i) n .launched (some i)
  have kept : (s.announced n i).plan[i].valid = true := by rw [(announced_consequence s n i).plan]; exact valid
  rw [launch_eq]
  exact (startHold_raised _).plansWithin (enterStep_plansWithin (reported.plansWithin pushed) kept)

end

end Sys2Proof.Machine
end

