-- ==== Sys2Proof/Proofs/PlanLaws.lean ====
section
/-! PROOFS. Proofs/PlanLaws.lean: every command keeps the laws of the stack (R144, R152) and those of the plans and of the load
(R145, R166, R181, R183), and leaves every unacknowledged flag but that which an ACK of equal count names (R146); the resets
begin anew. A WRITE is refused while the load runs (R169), and a group that is read brings steps of its own alone. -/

namespace Sys2Proof.Machine

/-! ### What a part of a command keeps -/

theorem State.StackLaw.of_serves {s t : State} (law : s.StackLaw) (stack : t.stack = s.stack)
    (serves : ∀ n : EntryId, t.latch[n].serve = s.latch[n].serve) : t.StackLaw := by
  obtain ⟨depth, rising, single, served, active, saved⟩ := law
  unfold State.active at active
  rw [← stack] at depth rising single active saved
  exact ⟨depth, rising, single, fun n => by rw [serves, served, stack], active, saved⟩

theorem State.LoadLaw.of_serves {s t : State} (law : s.LoadLaw) (planning : t.planning = s.planning) (stack : t.stack = s.stack)
    (serves : ∀ n : EntryId, t.latch[n].serve = s.latch[n].serve) : t.LoadLaw := by
  obtain ⟨starting, plans⟩ := loadLaw_iff.mp law
  have plan : t.plan = s.plan := congrArg Planning.plan planning
  have sources : t.sources = s.sources := congrArg Planning.sources planning
  have lines : t.lines = s.lines := congrArg Planning.lines planning
  have nodeState : t.nodeState = s.nodeState := congrArg Planning.nodeState planning
  have loading : t.loading = s.loading := congrArg Planning.loading planning
  refine loadLaw_iff.mpr ⟨by rw [nodeState, loading]; exact starting, ?_⟩
  rw [stepLoaded_congr loading]
  exact plans.of_entries plan (planValid_congr plan sources lines) (fun n waits => .inl (serves n ▸ waits))
    (by rw [stack]; exact plans.current)

/-- The laws of the stack go from s to t, and every unacknowledged flag stands. -/
structure State.KeepsLatch (s t : State) : Prop where
  stack : s.StackLaw → t.StackLaw
  unack : ∀ n : EntryId, s.latch[n].unack = true → t.latch[n].unack = true

namespace State.KeepsLatch

variable {s t r : State}

theorem refl (s : State) : s.KeepsLatch s := ⟨id, fun _ => id⟩

theorem trans (h : s.KeepsLatch t) (g : t.KeepsLatch r) : s.KeepsLatch r :=
  ⟨g.stack ∘ h.stack, fun n => g.unack n ∘ h.unack n⟩

theorem of_raised (h : s.Raised t) : s.KeepsLatch t := ⟨h.stackLaw, fun n => (h.latch n).unack⟩

theorem of_same (latch : t.latch = s.latch) (stack : t.stack = s.stack) : s.KeepsLatch t :=
  ⟨fun law => law.of_serves stack fun n => by rw [latch], fun n => by rw [latch]; exact id⟩

end State.KeepsLatch

/-- The laws of the stack and of the load go from s to t, and the unacknowledged flags stand but for those of E. -/
structure State.KeepsPlans (E : EntryId → Prop) (s t : State) : Prop where
  stack : s.StackLaw → t.StackLaw
  load : s.LoadLaw → t.LoadLaw
  unack : ∀ n : EntryId, ¬E n → s.latch[n].unack = true → t.latch[n].unack = true

namespace State.KeepsPlans

variable {E : EntryId → Prop} {s t r : State}

theorem refl (E : EntryId → Prop) (s : State) : s.KeepsPlans E s := ⟨id, id, fun _ _ => id⟩

theorem trans (h : s.KeepsPlans E t) (g : t.KeepsPlans E r) : s.KeepsPlans E r :=
  ⟨g.stack ∘ h.stack, g.load ∘ h.load, fun n other => g.unack n other ∘ h.unack n other⟩

theorem of_latch (h : s.KeepsLatch t) (load : s.LoadLaw → t.LoadLaw) : s.KeepsPlans E t :=
  ⟨h.stack, load, fun n _ => h.unack n⟩

theorem of_raised (h : s.Raised t) : s.KeepsPlans E t := of_latch (.of_raised h) h.loadLaw

/-- An update of nothing that the laws read. -/
theorem of_same (planning : t.planning = s.planning) (stack : t.stack = s.stack) (latch : t.latch = s.latch) :
    s.KeepsPlans E t := of_raised (.of_same planning stack latch)

/-- Consequences of an event that keep the laws of the stack and of the plans. -/
theorem of_consequence (h : Consequence anyEntry s t) (stack : s.StackLaw → t.StackLaw)
    (plans : ∀ L, s.PlansWithin L → t.PlansWithin L) : s.KeepsPlans E t := by
  refine ⟨stack, fun law => ?_, fun n _ => h.unack n⟩
  obtain ⟨starting, within⟩ := loadLaw_iff.mp law
  refine loadLaw_iff.mpr ⟨by rw [h.nodeState, h.stillBut.loading]; exact starting, ?_⟩
  rw [stepLoaded_congr h.stillBut.loading]
  exact plans _ within

end State.KeepsPlans

open State.KeepsPlans (of_raised of_latch)

/-! ### The plan unit -/

section
variable {E : EntryId → Prop} (s : State)

/-- What follows a change of the stack that leaves the ACTIVE context's timer running, or none. -/
theorem stackChanged_keepsPlans {s u : State} (moved : Consequence anyEntry s u) (kept : s.KeepsStacked u) (runs : u.Runs) :
    s.KeepsPlans E u.afterStackChange := by
  have follows := afterStackChange_raised u
  exact .of_consequence (moved.trans (afterStackChange_consequence (fun _ _ => trivial) u))
    (fun law => follows.stackLaw (stackLaw_iff.mpr ⟨kept.stacked (stackLaw_iff.mp law).1, runs⟩))
    fun L h => follows.plansWithin (kept.plans L h)

/-- The step at which an accepted entry starts is valid (R145). -/
theorem accepted_step_valid {L : Fin 64 → Prop} {s : State} (h : s.PlansWithin L) {n : EntryId} {i : Fin 64}
    (accepted : s.accepted = some (n, i)) : s.plan[i].valid = true := by
  obtain ⟨step, eligible, -⟩ := accepted_wins accepted
  have valid := h.pending n (eligible_iff.mp eligible).1
  unfold State.planValid at valid
  rwa [step] at valid

theorem decideN_stackLaw (k : Nat) {s : State} (law : s.StackLaw) : (State.decideN k s).StackLaw := by
  induction k generalizing s with
  | zero => exact law
  | succ k ih =>
    cases accepted : s.accepted with
    | none => rw [decideN_none accepted]; exact law
    | some launched =>
      obtain ⟨n, i⟩ := launched
      obtain ⟨waits, above, -⟩ := eligible_iff.mp (accepted_wins accepted).2.1
      rw [decideN_some accepted]
      refine ih ((afterStackChange_raised _).stackLaw (stackLaw_iff.mpr ⟨?_, launch_runs s n i⟩))
      exact launch_stacked (stackLaw_iff.mp law).1 waits above i

theorem decideN_plansWithin {L : Fin 64 → Prop} (k : Nat) {s : State} (h : s.PlansWithin L) :
    (State.decideN k s).PlansWithin L := by
  induction k generalizing s with
  | zero => exact h
  | succ k ih =>
    cases accepted : s.accepted with
    | none => rw [decideN_none accepted]; exact h
    | some launched =>
      obtain ⟨n, i⟩ := launched
      rw [decideN_some accepted]
      exact ih ((afterStackChange_raised _).plansWithin (launch_plansWithin h n (accepted_step_valid h accepted)))

theorem settle_keepsPlans : s.KeepsPlans E s.settle := by
  have step : s.KeepsPlans E s.settleStep := by
    unfold State.settleStep
    split
    · exact .refl E s
    · split
      · exact stackChanged_keepsPlans (endStep_consequence trivial s) (endStep_keepsStacked s) (endStep_runs s)
      · exact .refl E s
  refine step.trans ?_
  show s.settleStep.KeepsPlans E s.settleStep.settleDecisions
  unfold State.settleDecisions
  split
  · have done : ∀ t : State, t.Raised t.settledDecision := fun _ => .of_same rfl rfl rfl
    exact .trans (.of_consequence (decideN_consequence (fun _ _ => trivial) 8 _) (decideN_stackLaw 8)
      fun _ => decideN_plansWithin 8) (of_raised (done _))
  · exact .refl E _

theorem stepExpired_keepsPlans : s.KeepsPlans E s.stepExpired := by
  unfold State.stepExpired
  split
  · exact .refl E s
  · split
    · exact stackChanged_keepsPlans (endStep_consequence trivial s) (endStep_keepsStacked s) (endStep_runs s)
    all_goals exact .refl E s

theorem runs_of_empty {s : State} (h : s.stack = []) : s.Runs := by
  intro c active
  rw [State.active, h] at active
  cases active

theorem runClearPlan_keepsPlans (r : Request) : s.KeepsPlans E (s.runClearPlan r).1 := by
  unfold State.runClearPlan State.clearActive State.clearAll
  split
  · dsimp only
    split
    · exact .refl E s
    · rename_i stack
      exact stackChanged_keepsPlans (endActive_consequence trivial s) (endActive_keepsStacked s) (endActive_runs stack)
  · split
    · dsimp only
      split
      · exact .refl E s
      · refine stackChanged_keepsPlans (endAll_consequence trivial _ s) (endAll_keepsStacked s _) (runs_of_empty ?_)
        rw [endAll_stack, List.drop_length]
    · exact .refl E s

/-! ### Stored configuration words -/

/-- What stored configuration words leave. -/
structure Underway where
  latch : Vector LatchEntry 51
  stack : List Context
  nodeState : NodeState
  loading : LoadState

def State.underway (s : State) : Underway := ⟨s.latch, s.stack, s.nodeState, s.loading⟩

theorem putWord_underway (T : Table) (e w : Nat) (v : Word) : (s.putWord T e w v).1.underway = s.underway := by
  unfold State.putWord
  cases T with
  | kind => cases kindAt e <;> rfl
  | node | status | tap | latch | stack => rfl
  | _ =>
    dsimp only
    split <;> rfl

theorem putTableWords_underway (T : Table) (a : Nat) (vs : List Word) :
    (s.putTableWords T a vs).1.underway = s.underway := by
  induction vs generalizing s a with
  | nil => rfl
  | cons v vs ih =>
    refine (ih _ (a + 1)).trans ?_
    unfold State.putTableWord
    split
    · exact putWord_underway s T _ _ v
    · rfl

theorem loadEntries_underway (T : Table) (e n : Nat) (ws : List Word) : (s.loadEntries T e n ws).underway = s.underway := by
  induction n generalizing s e ws with
  | zero => rfl
  | succ n ih => exact (ih _ (e + 1) _).trans (putTableWords_underway s T _ _)

theorem markWords_underway (T : Table) (a n : Nat) : (s.markWords T a n).underway = s.underway := by
  have word : ∀ (s : State) (a : Nat), (s.markWord T a).underway = s.underway := fun s a => by
    unfold State.markWord
    split
    · split <;> rfl
    · rfl
  induction n generalizing s a with
  | zero => rfl
  | succ n ih => exact (ih _ _).trans (word s a)

theorem markFlushed_underway (old : Vector PlanStep 64) : (s.markFlushed old).underway = s.underway := by
  unfold State.markFlushed
  induction List.finRange 64 generalizing s with
  | nil => rfl
  | cons i l ih =>
    refine (ih _).trans ?_
    dsimp only
    split <;> rfl

theorem keepsLatch_of_underway {s t : State} (h : t.underway = s.underway) : s.KeepsLatch t :=
  .of_same (congrArg Underway.latch h) (congrArg Underway.stack h)

/-- The re-evaluation that stored words are followed by leaves no entry PENDING without a valid step (R145). -/
theorem revalidate_plansWithin {L M : Fin 64 → Prop} {old u v : State} (h : old.PlansWithin L)
    (same : u.underway = old.underway) (raised : u.Raised v) (valid : ∀ i : Fin 64, u.plan[i].valid = true → M i)
    (sub : ∀ i, L i → M i) : (State.revalidate old v).PlansWithin M := by
  have latch : u.latch = old.latch := congrArg Underway.latch same
  have stack : u.stack = old.stack := congrArg Underway.stack same
  have evaluated := revalidate_raised v old
  refine ⟨fun n waits => ?_, fun i => ?_, fun c mem => ?_⟩
  · rw [evaluated.planValid]
    simp only [State.revalidate, Fin.getElem_fin, Vector.getElem_ofFn] at waits
    refine LatchEntry.revalidate_pending n (fun waited => ?_) waits
    rcases (raised.latch n).pending waited with before | now
    · exact .inl (h.pending n (latch ▸ before))
    · exact .inr ((raised.planValid n).trans now)
  · rw [evaluated.plan, raised.plan]
    exact valid i
  · have steps := (raised.trans evaluated).map_eq Context.step fun _ => rfl
    have step : c.step ∈ u.stack.map Context.step := steps ▸ List.mem_map_of_mem mem
    obtain ⟨d, before, at_d⟩ := List.mem_map.mp step
    exact at_d ▸ sub _ (h.current d (stack ▸ before))

/-- Stored words and their effects, with the valid steps they leave. -/
theorem changed_plansWithin {L M : Fin 64 → Prop} {old u : State} (h : old.PlansWithin L) (same : u.underway = old.underway)
    (valid : ∀ i : Fin 64, u.plan[i].valid = true → M i) (sub : ∀ i, L i → M i) :
    (State.changed old u).PlansWithin M := by
  obtain ⟨v, raised, changed⟩ := changed_eq u old
  rw [changed]
  exact revalidate_plansWithin h same raised valid sub

theorem stepLoaded_of_done {s : State} (h : s.loading = .done) (i : Fin 64) : s.stepLoaded i := by
  unfold State.stepLoaded
  rw [h]
  trivial

/-- The load laws of a node whose load is done. -/
theorem loadLaw_of_done {L : Fin 64 → Prop} {s : State} (done : s.loading = .done) (started : s.nodeState ≠ .starting)
    (plans : s.PlansWithin L) : s.LoadLaw :=
  loadLaw_iff.mpr ⟨by simp [done, started], plans.mono fun i _ => stepLoaded_of_done done i⟩

theorem State.LoadLaw.done {s : State} (law : s.LoadLaw) (started : s.nodeState ≠ .starting) : s.loading = .done :=
  Classical.not_not.mp fun running => started (law.starting.mpr running)

/-- A WRITE is executed outside STARTING alone (R169), where the load is done. -/
theorem writeTable_keepsPlans (T : Table) (a : Nat) (ws : List Word) (started : s.nodeState ≠ .starting) :
    s.KeepsPlans E (s.writeTable T a ws).1 := by
  obtain ⟨u, hu⟩ : ∃ u, u = (s.putTableWords T a ws).1.markWords T a ws.length := ⟨_, rfl⟩
  have same : u.underway = s.underway := hu ▸ (markWords_underway _ T a _).trans (putTableWords_underway s T a ws)
  have written : (s.writeTable T a ws).1 = State.changed s u := by rw [hu]; rfl
  have after := changed_raised u s
  rw [written]
  refine of_latch ((keepsLatch_of_underway same).trans (.of_raised after)) fun law => ?_
  have plans := changed_plansWithin (loadLaw_iff.mp law).2 same (fun _ _ => trivial) fun _ _ => trivial
  refine loadLaw_of_done (L := fun _ => True) ?_ ?_ plans
  · rw [after.loading, show u.loading = s.loading from congrArg Underway.loading same]
    exact law.done started
  · rw [after.nodeState, show u.nodeState = s.nodeState from congrArg Underway.nodeState same]
    exact started

theorem runWrite_keepsPlans (r : Request) (started : s.nodeState ≠ .starting) : s.KeepsPlans E (s.runWrite r).1 := by
  unfold State.runWrite
  split
  · exact .refl E s
  · dsimp only
    split
    · exact .refl E s
    · split
      · exact .refl E s
      · split
        · exact .refl E s
        · exact writeTable_keepsPlans s _ _ _ started

theorem flushed_valid {p : PlanStep} {spare : Bool} (h : (p.flushed spare).valid = true) : p.valid = true := by
  unfold PlanStep.flushed at h
  split at h
  · exact h
  · cases h

/-- FLUSH_PLANS makes no step valid (R175). -/
theorem runFlushPlans_keepsPlans : s.KeepsPlans E s.runFlushPlans.1 := by
  unfold State.runFlushPlans
  split
  · exact .refl E s
  · obtain ⟨plan, hplan⟩ : ∃ plan : Vector PlanStep 64, plan = Vector.ofFn fun i => s.plan[i].flushed s.node.planProtect :=
      ⟨_, rfl⟩
    obtain ⟨u, hu⟩ : ∃ u : State, u = State.markFlushed s.plan { s with plan := plan } := ⟨_, rfl⟩
    have same : u.underway = s.underway := hu ▸ markFlushed_underway _ _
    have steps : u.plan = plan := hu ▸ (markFlushed_raised _ _).plan
    have after := revalidate_raised u s
    show s.KeepsPlans E (State.revalidate s (State.markFlushed s.plan { s with plan := _ }))
    rw [← hplan, ← hu]
    refine of_latch ((keepsLatch_of_underway same).trans (.of_raised after)) fun law => ?_
    obtain ⟨starting, plans⟩ := loadLaw_iff.mp law
    have loading : (State.revalidate s u).loading = s.loading := after.loading.trans (congrArg Underway.loading same)
    have nodeState : (State.revalidate s u).nodeState = s.nodeState := after.nodeState.trans (congrArg Underway.nodeState same)
    refine loadLaw_iff.mpr ⟨by rw [loading, nodeState]; exact starting, ?_⟩
    rw [stepLoaded_congr loading]
    refine revalidate_plansWithin plans same (.refl u) (fun i valid => plans.valid i ?_) fun _ => id
    rw [steps, hplan] at valid
    simp only [Fin.getElem_fin, Vector.getElem_ofFn] at valid
    exact flushed_valid valid

/-! ### The load (R183) -/

/-- Loaded entries of the table leave the steps after them. -/
theorem loadEntries_later (T : Table) (e n : Nat) (ws : List Word) (i : Fin 64) (after : T = .plan → e + n ≤ i.val) :
    (s.loadEntries T e n ws).plan[i] = s.plan[i] := by
  induction n generalizing s e ws with
  | zero => rfl
  | succ n ih =>
    refine (ih _ (e + 1) _ fun plan => ?_).trans (putTableWords_step s T _ _ i fun plan => .inl ?_)
    · have := after plan
      omega
    · have later := after plan
      subst plan
      have words : (ws.take Table.plan.cfgWords).length ≤ 17 := List.length_take_le _ _
      show e * 17 + _ ≤ i.val * 17
      omega

/-- A group of the table holds sixteen steps. -/
theorem groupTable_plan_size {g : Fin 15} {e n : Nat} (h : groupTable g = some (.plan, e, n)) : n = 16 := by
  fin_cases g <;> simp [groupTable] at h ⊢ <;> omega

/-- The valid steps after a group's load are those before it, and the group's own (R166). -/
theorem loadEntries_valid {g : Fin 15} {T : Table} {e n : Nat} (group : groupTable g = some (T, e, n)) (data : List Word)
    {i : Fin 64} (outside : g.val < (groupOfStep i).val) : (s.loadEntries T e n data).plan[i] = s.plan[i] := by
  refine loadEntries_later s T e n data i fun plan => ?_
  subst plan
  have place := groupTable_plan group
  have size := groupTable_plan_size group
  have later : g.val < 9 + i.val / 16 := outside
  omega

theorem withTaplock_raised (tap : TapCache) (dirty : Vector Bool 15) : s.Raised { s with tap := tap, dirty := dirty } :=
  .of_same rfl rfl rfl

theorem withDirty_raised (dirty : Vector Bool 15) : s.Raised { s with dirty := dirty } := .of_same rfl rfl rfl

theorem loadGroup_keepsLatch (g : Fin 15) (data : List Word) : s.KeepsLatch (s.loadGroup g data) := by
  unfold State.loadGroup
  split
  · exact (keepsLatch_of_underway (loadEntries_underway s _ _ _ _)).trans
      (.of_raised ((changed_raised _ s).trans (withDirty_raised _ _)))
  · exact .of_raised (withTaplock_raised s _ _)

theorem loadGroup_nodeState (g : Fin 15) (data : List Word) : (s.loadGroup g data).nodeState = s.nodeState := by
  unfold State.loadGroup
  split
  · exact ((changed_raised _ s).trans (withDirty_raised _ _)).nodeState.trans
      (congrArg Underway.nodeState (loadEntries_underway s _ _ _ _))
  · rfl

/-- A group that is read brings valid steps of its own alone (R166, R183). -/
theorem loadGroup_plansWithin {s : State} {g : Fin 15} (h : s.PlansWithin fun i => (groupOfStep i).val < g.val)
    (data : List Word) : (s.loadGroup g data).PlansWithin fun i => (groupOfStep i).val < g.val + 1 := by
  unfold State.loadGroup
  split
  · rename_i T e n group
    refine (withDirty_raised _ _).plansWithin (changed_plansWithin h (loadEntries_underway s T e n data)
      (fun i valid => ?_) fun i => Nat.lt_succ_of_lt)
    refine Nat.lt_succ_of_le (Nat.not_lt.mp fun outside => ?_)
    rw [loadEntries_valid s group data outside] at valid
    exact absurd (h.valid i valid) (Nat.not_lt.mpr outside.le)
  · exact (withTaplock_raised s _ _).plansWithin (h.mono fun i => Nat.lt_succ_of_lt)

theorem endLoad_raised (locked : Bool) :
    State.Raised { s with loading := .done, nodeState := loadedState locked } (s.endLoad locked) := by
  unfold State.endLoad
  exact (reformJet_raised _ _).trans <| (reformJet_raised _ _).trans <| (reformPassage_raised _).trans <|
    (doorsLeaveStarting_raised _).trans <| (renew_raised _).trans (withDecision_raised _ _)

theorem withLoad_keepsLatch (l : LoadState) (n : NodeState) : s.KeepsLatch { s with loading := l, nodeState := n } :=
  .of_same rfl rfl

theorem withLoading_keepsLatch (l : LoadState) : s.KeepsLatch { s with loading := l } := .of_same rfl rfl

theorem State.PlansWithin.withLoad {L : Fin 64 → Prop} {s : State} (h : s.PlansWithin L) (l : LoadState) (n : NodeState) :
    State.PlansWithin L { s with loading := l, nodeState := n } := h.of_stack rfl rfl rfl rfl h.current

theorem endLoad_keepsLatch (locked : Bool) : s.KeepsLatch (s.endLoad locked) :=
  (withLoad_keepsLatch s _ _).trans (.of_raised (endLoad_raised s locked))

/-- The load's end takes the node out of STARTING (R181). -/
theorem endLoad_loadLaw {L : Fin 64 → Prop} {s : State} (h : s.PlansWithin L) (locked : Bool) : (s.endLoad locked).LoadLaw := by
  refine (endLoad_raised s locked).loadLaw (loadLaw_of_done rfl ?_ (h.withLoad .done (loadedState locked)))
  cases locked <;> exact nofun

theorem emptyLocked_raised : s.Raised s.emptyLocked := withTap_raised s _

theorem nextGroup_keepsLatch (i : Nat) (locked : Bool) (count : Nat) : s.KeepsLatch (s.nextGroup i locked count) := by
  unfold State.nextGroup
  split
  · split
    · exact withLoading_keepsLatch s _
    · exact .trans (.of_raised (emptyLocked_raised s)) (endLoad_keepsLatch _ locked)
  · exact endLoad_keepsLatch s locked

/-- The load goes on to the next group in STARTING, or ends (R181, R183). -/
theorem nextGroup_loadLaw {s : State} {i : Nat} (starting : s.nodeState = .starting)
    (h : s.PlansWithin fun j => (groupOfStep j).val < i) (locked : Bool) (count : Nat) :
    (s.nextGroup i locked count).LoadLaw := by
  unfold State.nextGroup
  split
  · split
    · exact loadLaw_iff.mpr ⟨iff_of_true starting nofun, h.withLoad _ s.nodeState⟩
    · exact endLoad_loadLaw ((emptyLocked_raised s).plansWithin h) locked
  · exact endLoad_loadLaw h locked

theorem headerRead_keepsPlans (r : SerialAnswer) : s.KeepsPlans E (s.headerRead r) := by
  unfold State.headerRead
  split
  · rename_i header
    split
    · refine of_latch (.trans (t := { s with loading := .done }) (withLoading_keepsLatch s _)
        (.trans (.of_raised (occur_raised _ _)) (endLoad_keepsLatch _ true))) fun law => ?_
      exact endLoad_loadLaw ((occur_raised _ _).plansWithin ((loadLaw_iff.mp law).2.withLoad .done s.nodeState)) true
    · refine of_latch (nextGroup_keepsLatch s _ _ _) fun law => ?_
      have starting : s.nodeState = .starting := law.starting.mpr (by rw [header]; nofun)
      refine nextGroup_loadLaw starting ((loadLaw_iff.mp law).2.mono fun i loaded => ?_) _ _
      unfold State.stepLoaded at loaded
      rw [header] at loaded
      exact loaded.elim
  all_goals exact .refl E s

/-- What reads a group to its end: the load goes on to the next one (R164). -/
theorem groupLoaded_keepsPlans {u : State} {g : Fin 15} {locked : Bool} {count : Nat}
    (reading : s.loading = .group g locked count)
    (kept : s.KeepsLatch u) (nodeState : u.nodeState = s.nodeState)
    (plans : (s.PlansWithin fun i => (groupOfStep i).val < g.val) → u.PlansWithin fun i => (groupOfStep i).val < g.val + 1) :
    s.KeepsPlans E (u.nextGroup (g.val + 1) locked count) := by
  refine of_latch (kept.trans (nextGroup_keepsLatch u _ _ _)) fun law => ?_
  have starting : s.nodeState = .starting := law.starting.mpr (by rw [reading]; nofun)
  refine nextGroup_loadLaw (nodeState.trans starting) (plans ((loadLaw_iff.mp law).2.mono fun i loaded => ?_)) _ _
  unfold State.stepLoaded at loaded
  rwa [reading] at loaded

theorem groupRead_keepsPlans (r : SerialAnswer) : s.KeepsPlans E (s.groupRead r) := by
  unfold State.groupRead
  split
  · rename_i g locked count reading
    dsimp only
    split
    · exact groupLoaded_keepsPlans s reading (loadGroup_keepsLatch s g _) (loadGroup_nodeState s g _)
        (loadGroup_plansWithin · _)
    · have failed := failGroup_raised s g
      exact groupLoaded_keepsPlans s reading (.of_raised failed) failed.nodeState fun h =>
        failed.plansWithin (h.mono fun _ => Nat.lt_succ_of_lt)
  all_goals exact .refl E s

/-! ### The other operations of the responder -/

/-- OPEN leaves STARTING as it is (R176). -/
theorem runOpen_keepsPlans : s.KeepsPlans E s.runOpen.1 := by
  unfold State.runOpen
  split
  · rename_i lockout
    have opened := (renew_raised { s with nodeState := .operating }).trans (withDecision_raised _ true)
    refine of_latch (.trans (withLoad_keepsLatch s s.loading .operating) (.of_raised opened)) fun law => ?_
    have done := law.done (by rw [lockout]; nofun)
    exact opened.loadLaw (loadLaw_of_done done nofun ((loadLaw_iff.mp law).2.withLoad s.loading .operating))
  · exact .refl E s

/-- The entry that an ACK acknowledges: the one it names, by a count equal to its own (R146). -/
def ackedBy (r : Request) (s : State) (n : EntryId) : Prop :=
  r.index.toNat = n.val + 1 ∧ ∃ w rest, r.data = w :: rest ∧ w.toNat = s.latch[n].count.toNat

theorem entryOf_eq_some {w : Word} {n : EntryId} : entryOf w = some n ↔ w.toNat = n.val + 1 := by
  unfold entryOf
  constructor
  · intro h
    split at h
    · cases h
      show w.toNat = w.toNat - 1 + 1
      omega
    · cases h
  · intro h
    rw [dif_pos (by omega)]
    exact congrArg some (Fin.ext (by show w.toNat - 1 = n.val; omega))

theorem runAck_keepsPlans (r : Request) : s.KeepsPlans (ackedBy r s) (s.runAck r).1 := by
  unfold State.runAck
  split
  · rename_i n w rest named data
    dsimp only
    split
    · rename_i equal
      have serves : ∀ m : EntryId, (s.setLatch n { s.latch[n] with unack := false }).latch[m].serve = s.latch[m].serve := by
        intro m
        rw [latch_setLatch]
        split
        · rename_i same
          rw [same]
        · rfl
      refine ⟨fun law => law.of_serves rfl serves, fun law => law.of_serves rfl rfl serves, fun m other unack => ?_⟩
      rw [latch_setLatch, if_neg]
      · exact unack
      · rintro rfl
        exact other ⟨entryOf_eq_some.mp named, w, rest, data, equal⟩
    · exact .refl _ s
  all_goals exact .refl _ s

/-! ### Resets -/

/-- A node at its reset values has the laws (R149, R166, R181). -/
theorem reset_keepsPlans {t : State} (latch : t.latch = Vector.replicate 51 {}) (stack : t.stack = [])
    (plan : t.plan = Vector.replicate 64 {}) (nodeState : t.nodeState = .starting) (loading : t.loading = .header) :
    s.KeepsPlans anyEntry t := by
  have idle : ∀ n : EntryId, t.latch[n].serve = .idle := fun n => by rw [latch]; simp
  have invalid : ∀ i : Fin 64, t.plan[i].valid = false := fun i => by rw [plan]; simp
  refine ⟨fun _ => ?_, fun _ => ?_, fun _ other => absurd trivial other⟩
  · refine stackLaw_iff.mpr ⟨⟨?_, ?_, ?_, fun n => ?_, ?_⟩, runs_of_empty stack⟩
    case refine_4 =>
      rw [idle]
      simp [stack]
    all_goals simp [stack]
  · refine ⟨by simp [nodeState, loading], fun n waits => ?_, fun i valid => ?_, fun c mem => ?_⟩
    · exact Serve.noConfusion ((idle n).symm.trans waits)
    · exact Bool.noConfusion ((invalid i).symm.trans valid)
    · rw [stack] at mem
      cases mem

theorem hardReset_keepsPlans (cause : ResetCause) : s.KeepsPlans anyEntry (s.hardReset cause) :=
  .trans (reset_keepsPlans s (t := s.fresh 0 cause) rfl rfl rfl rfl rfl) (of_raised (firstEvaluation_raised _))

theorem restarted_keepsPlans : s.KeepsPlans anyEntry s.restarted := by
  unfold State.restarted
  exact .trans (reset_keepsPlans s rfl rfl rfl rfl rfl) (of_raised (firstEvaluation_raised _))

/-! ### Every command -/

theorem withAgeing_raised (timer : Timer) (tap : TapCache) :
    s.Raised { s with ageTimer := timer, tap := tap } :=
  .of_same rfl rfl rfl


theorem goodUp_keepsPlans (p : Port) (dispatch : State → State)
    (h : (s.superviseGood p).settle.KeepsPlans E (dispatch (s.superviseGood p).settle)) :
    s.KeepsPlans E (s.goodUp p dispatch) := by
  have supervised : s.KeepsPlans E (s.superviseGood p).settle :=
    .trans (of_raised (superviseGood_raised s p)) (settle_keepsPlans _)
  unfold State.goodUp
  dsimp only
  split
  · exact supervised.trans (h.trans (settle_keepsPlans _))
  · exact supervised

theorem goodAny_keepsPlans (p : Port) (dispatch : State → State) (h : ∀ s : State, s.Raised (dispatch s)) :
    s.KeepsPlans E (s.goodAny p dispatch) :=
  .trans (of_raised (superviseGood_raised s p)) <| (settle_keepsPlans _).trans <|
    .trans (of_raised (h _)) (settle_keepsPlans _)

theorem respond_keepsPlans (p : Port) (op : Byte) (r : Request) (free : Bool) (run : State → State × Answer)
    (h : free = true ∨ s.nodeState ≠ .starting → s.KeepsPlans E (run s).1) :
    s.KeepsPlans E (s.respond p op r free run) := by
  unfold State.respond
  split
  · exact of_raised (reply_raised s p op r _)
  · rename_i executed
    refine .trans (h ?_) ((settle_keepsPlans _).trans (of_raised (reply_raised _ p op r _)))
    have parts : s.isStarting = true → free = true := by simpa using executed
    exact or_iff_not_imp_right.mpr fun starting => parts (beq_iff_eq.mpr (Classical.not_not.mp starting))

theorem request_keepsPlans (p : Port) (op : Byte) (r : Request) (free : Bool) (run : State → State × Answer)
    (h : ∀ u : State, u = (s.superviseGood p).settle → free = true ∨ u.nodeState ≠ .starting →
      u.KeepsPlans E (run u).1) :
    s.KeepsPlans E (s.request p op r free run) := by
  refine goodUp_keepsPlans s p _ ?_
  split
  · exact respond_keepsPlans _ p op r free run (h _ rfl)
  · exact .refl E _

end

/-- The entries whose unacknowledged flag a command may clear. -/
def releases (s : State) : Instr → EntryId → Prop
  | .powerOnReset => anyEntry
  | .pinReset => anyEntry
  | .restart _ _ => anyEntry
  | .ack p r => ackedBy r (s.superviseGood p).settle
  | _ => fun _ => False

/-- Every command keeps the laws of the stack and of the load. -/
theorem exec_keepsPlans (c : Instr) (s : State) : ∃ t, exec c s = .next t ∧ s.KeepsPlans (releases s c) t := by
  have settled : ∀ {t : State}, s.Raised t → ∀ {E : EntryId → Prop}, s.KeepsPlans E t.settle :=
    fun h => .trans (of_raised h) (settle_keepsPlans _)
  have relayed : ∀ (p : Port) (f : Frame) (b : Bool) (s : State), s.Raised (if b then s.relay p f else s) :=
    fun p f b s => (relay_raised s p f).calledFor _
  cases c with
  | powerOnReset => exact ⟨_, rfl, hardReset_keepsPlans s .powerOn⟩
  | pinReset => exact ⟨_, rfl, hardReset_keepsPlans s .pin⟩
  | badFrame p => exact ⟨_, rfl, settled (badFrame_raised s p)⟩
  | fill p => exact ⟨_, rfl, goodAny_keepsPlans s p _ .refl⟩
  | count p side k => exact ⟨_, rfl, goodAny_keepsPlans s p _ fun s => takeCount_raised s p side k⟩
  | sample p f => exact ⟨_, rfl, goodUp_keepsPlans s p _ (of_raised ((takeSample_raised _ p f).calledFor _))⟩
  | event p f => exact ⟨_, rfl, goodUp_keepsPlans s p _ (of_raised (relay_raised _ p _))⟩
  | trigger p f => exact ⟨_, rfl, goodUp_keepsPlans s p _ (of_raised (takeTrigger_raised _ p f))⟩
  | mgmtReply p f => exact ⟨_, rfl, goodUp_keepsPlans s p _ (of_raised (relayed p _ _ _))⟩
  | mgmtReqRelay p f => exact ⟨_, rfl, goodUp_keepsPlans s p _ (of_raised (relayed p _ _ _))⟩
  | time p clock => exact ⟨_, rfl, goodUp_keepsPlans s p _ (of_raised (takeTime_raised _ p clock))⟩
  | unknownFrame p => exact ⟨_, rfl, goodUp_keepsPlans s p _ (.refl _ _)⟩
  | read p r => exact ⟨_, rfl, request_keepsPlans s p 1 r _ _ fun u _ _ => by rw [runRead_state]; exact .refl _ u⟩
  | write p r =>
    refine ⟨_, rfl, request_keepsPlans s p 2 r _ _ fun u _ executed => runWrite_keepsPlans u r ?_⟩
    exact executed.resolve_left Bool.false_ne_true
  | tapLoad p r => exact ⟨_, rfl, request_keepsPlans s p 3 r _ _ fun u _ _ => of_raised (runTapLoad_raised u r)⟩
  | flushTap p r => exact ⟨_, rfl, request_keepsPlans s p 4 r _ _ fun u _ _ => of_raised (flushTap_raised u)⟩
  | flushPlans p r => exact ⟨_, rfl, request_keepsPlans s p 5 r _ _ fun u _ _ => runFlushPlans_keepsPlans u⟩
  | ack p r => exact ⟨_, rfl, request_keepsPlans s p 6 r _ _ fun u at_u _ => at_u ▸ runAck_keepsPlans u r⟩
  | clearPlan p r => exact ⟨_, rfl, request_keepsPlans s p 7 r _ _ fun u _ _ => runClearPlan_keepsPlans u r⟩
  | setMask p r => exact ⟨_, rfl, request_keepsPlans s p 8 r _ _ fun u _ _ => .of_same rfl rfl rfl⟩
  | fanReset p r => exact ⟨_, rfl, request_keepsPlans s p 9 r _ _ fun u _ _ => of_raised (runFanReset_raised u r)⟩
  | doorReset p r => exact ⟨_, rfl, request_keepsPlans s p 10 r _ _ fun u _ _ => of_raised (runDoorReset_raised u r)⟩
  | openNode p r => exact ⟨_, rfl, request_keepsPlans s p 11 r _ _ fun u _ _ => runOpen_keepsPlans u⟩
  | store p r => exact ⟨_, rfl, request_keepsPlans s p 12 r _ _ fun u _ _ => of_raised (runStore_raised u)⟩
  | restart p r =>
    refine ⟨_, rfl, goodUp_keepsPlans s p _ ?_⟩
    split
    · split
      · exact of_raised (reply_raised _ p 13 r _)
      · exact restarted_keepsPlans _
    · exact .refl _ _
  | badOpRequest p op r =>
    refine ⟨_, rfl, goodUp_keepsPlans s p _ ?_⟩
    split
    · exact respond_keepsPlans _ p op r false _ fun _ => .refl _ _
    · exact .refl _ _
  | linkTimerExpiry p => exact ⟨_, rfl, settled (linkExpired_raised s p)⟩
  | fillTimerExpiry p => exact ⟨_, rfl, of_raised (fillExpired_raised s p)⟩
  | transmissionCompletion p => exact ⟨_, rfl, of_raised (sent_raised s p)⟩
  | conversionCompletion ch code => exact ⟨_, rfl, settled (conversion_raised s ch code)⟩
  | reportTimerExpiry => exact ⟨_, rfl, settled (reportExpiry_raised s)⟩
  | controlTimerExpiry => exact ⟨_, rfl, settled (controlExpired_raised s)⟩
  | kindHoldExpiry k => exact ⟨_, rfl, settled (kindHoldExpired_raised s k)⟩
  | startTimerExpiry f => exact ⟨_, rfl, settled (startExpired_raised s f)⟩
  | stallTimerExpiry f => exact ⟨_, rfl, settled (stallExpired_raised s f)⟩
  | dwellTimerExpiry f => exact ⟨_, rfl, of_raised (dwellExpired_raised s f)⟩
  | isolatorAccepted f => exact ⟨_, rfl, settled (isolatorAccepted_raised s f)⟩
  | doorDebounceExpiry d i => exact ⟨_, rfl, settled (doorDebounced_raised s d i)⟩
  | egressTimerExpiry d | holdTimerExpiry d | relockTimerExpiry d | feedbackTimerExpiry d =>
    exact ⟨_, rfl, settled (doorTo_raised s d _ false)⟩
  | tapAgeingExpiry => exact ⟨_, rfl, of_raised (withAgeing_raised s _ _)⟩
  | tachEdge _ _ | tachOverflow _ | periodStart _ | isolatorInputChange _ _ | doorInputChange _ _ _
  | lampCompareMatch _ | callPointInputChange _ => exact ⟨_, rfl, .of_same rfl rfl rfl⟩
  | callPointAccepted => exact ⟨_, rfl, settled (callPointAccepted_raised s)⟩
  | launchHoldExpiry => exact ⟨_, rfl, settled (launchHoldExpired_raised s)⟩
  | stepTimerExpiry => exact ⟨_, rfl, .trans (stepExpired_keepsPlans s) (settle_keepsPlans _)⟩
  | imageHeaderRead r => exact ⟨_, rfl, .trans (headerRead_keepsPlans s r) (settle_keepsPlans _)⟩
  | imageGroupRead r => exact ⟨_, rfl, .trans (groupRead_keepsPlans s r) (settle_keepsPlans _)⟩
  | storeWriteComplete r => exact ⟨_, rfl, of_raised (writeComplete_raised s r)⟩
  | storeVerifyComplete r => exact ⟨_, rfl, settled (verifyComplete_raised s r)⟩

/-- A step is a tick or the front command. -/
theorem step_keepsPlans {s t : State} (h : step s = .next t) : s.KeepsPlans anyEntry t := by
  unfold step at h
  split at h
  · cases h
    exact .of_same rfl rfl rfl
  · rename_i c rest _
    obtain ⟨u, hu, kept⟩ := exec_keepsPlans c { s with pending := rest }
    rw [hu] at h
    cases h
    have queued : s.KeepsPlans anyEntry { s with pending := rest } := .of_same rfl rfl rfl
    exact ⟨kept.stack ∘ queued.stack, kept.load ∘ queued.load, fun _ other => absurd trivial other⟩

/-- Settles O56: the blocks' events leave every context in its place, and the plan unit moves contexts with their entries. -/
theorem stepsKeepTheStackLaw : Obligations.StepsKeepTheStackLaw := fun _ _ law h => (step_keepsPlans h).stack law

/-- Settles O57: entries wait with valid steps alone, and words are stored outside STARTING or by the load's own groups. -/
theorem stepsKeepTheLoadLaw : Obligations.StepsKeepTheLoadLaw := fun _ _ law h => (step_keepsPlans h).load law

/-- Settles O58: no command but an ACK, and no reset aside, takes an unacknowledged flag away. -/
theorem onlyAMatchingAckClearsUnacknowledged : Obligations.OnlyAMatchingAckClearsUnacknowledged := by
  intro c n s t running next unack cleared
  obtain ⟨u, executed, kept⟩ := exec_keepsPlans c s
  cases executed.symm.trans next
  have released : releases s c n := by
    by_contra other
    exact Bool.noConfusion ((kept.unack n other unack).symm.trans cleared)
  cases c with
  | ack p r =>
    obtain ⟨named, w, rest, data, equal⟩ := released
    refine ⟨p, r, w, rest, rfl, named, data, equal, fun hears => ?_⟩
    rw [equal, superviseGood_up hears.2, settle_of_settled _ (heard_settled hears.1), State.heard, setPort_latch]
  | powerOnReset | pinReset | restart => cases running
  | _ => exact released.elim

end Sys2Proof.Machine
end

