-- ==== Sys2Proof/Proofs/AcksAndEnds.lean ====
section
/-! PROOFS. Proofs/AcksAndEnds.lean: the answers of ACK, CLEAR_PLAN and SET_MASK, and what an end leaves of the stack and of its
source's entry (R146, R154, R156, R163, R164). O29, O30. -/

namespace Sys2Proof.Machine

/-! ### ACK (R146) -/

section
variable {s : State} {r : Request}

theorem entryOf_eq_none {w : Word} : entryOf w = none ↔ w.toNat = 0 ∨ 51 < w.toNat := by
  rw [Option.eq_none_iff_forall_ne_some]
  constructor
  · intro none_named
    by_contra inside
    exact none_named ⟨w.toNat - 1, by omega⟩ (entryOf_eq_some.mpr (by show w.toNat = w.toNat - 1 + 1; omega))
  · intro outside n named
    have := entryOf_eq_some.mp named
    have := n.isLt
    omega

/-- An ACK that names no entry or gives no count is BAD_INDEX. -/
theorem runAck_badIndex (h : entryOf r.index = none ∨ r.data = []) : s.runAck r = (s, { status := 5 }) := by
  unfold State.runAck
  split
  · rename_i n c rest named data
    rcases h with unnamed | empty
    · cases named.symm.trans unnamed
    · cases data.symm.trans empty
  all_goals rfl

theorem runAck_named {n : EntryId} {c : Word} {rest : List Word} (named : entryOf r.index = some n)
    (data : r.data = c :: rest) :
    s.runAck r = if c.toNat = s.latch[n].count.toNat then (s.setLatch n { s.latch[n] with unack := false }, { status := 0 })
      else (s, { status := 9, data := [BitVec.ofNat 16 s.latch[n].count.toNat] }) := by
  unfold State.runAck
  rw [named, data]
  rfl

end

theorem heard_latch (s : State) (p : Port) : (s.heard p).latch = s.latch := setPort_latch s p _

theorem setLatch_settled {s : State} (h : s.Settled) (n : EntryId) (e : LatchEntry) : (s.setLatch n e).Settled := h

/-- An executed request that leaves a settled state is answered at once. -/
theorem request_answers {s u : State} {p : Port} {r : Request} {a : Answer} (h : s.Serves p r) (op : Byte) (free : Bool)
    {run : State → State × Answer} (ran : run (s.heard p) = (u, a)) (settled : u.Settled) :
    s.request p op r free run = u.reply p op r a := by
  rw [request_serves h, ran, settle_of_settled u settled]

/-- Settles O29, by the three answers of an ACK: each leaves a settled state. -/
theorem acksMatchTheCount : Obligations.AcksMatchTheCount := by
  intro p r s serves
  have settled : (s.heard p).Settled := heard_settled serves.1.1
  have answers : ∀ {u : State} {a : Answer}, (s.heard p).runAck r = (u, a) → u.Settled →
      exec (.ack p r) s = .next (u.reply p 6 r a) := fun ran stays =>
    congrArg Host.Outcome.next (request_answers (run := State.runAck r) serves 6 false ran stays)
  refine ⟨fun bad => answers (runAck_badIndex ?_) settled, fun n c rest index data => ?_⟩
  · rw [entryOf_eq_none]
    tauto
  · have ran := runAck_named (s := s.heard p) (entryOf_eq_some.mpr index) data
    rw [heard_latch] at ran
    refine ⟨fun equal => ?_, fun differs => ?_⟩
    · exact answers (ran.trans (if_pos equal)) (setLatch_settled settled n _)
    · exact answers (ran.trans (if_neg differs)) settled

/-! ### CLEAR_PLAN (R163, R164) -/

section
variable {s : State} {c : Context} {rest : List Context}

theorem clearActive_empty (h : s.stack = []) : s.clearActive = s := if_pos h

theorem clearAll_empty (h : s.stack = []) : s.clearAll = s := if_pos h

theorem clearActive_nonempty (h : s.stack ≠ []) : s.clearActive = s.endActive.afterStackChange := if_neg h

theorem clearAll_nonempty (h : s.stack ≠ []) : s.clearAll = (State.endAll s.stack.length s).afterStackChange := if_neg h

theorem clearAll_stack : s.clearAll.stack = [] := by
  by_cases empty : s.stack = []
  · rw [clearAll_empty empty, empty]
  · rw [clearAll_nonempty empty, afterStackChange_stack, endAll_stack, List.drop_length]

theorem endAll_due : ∀ (k : Nat) (s : State), s.decisionDue = true → (State.endAll k s).decisionDue = true
  | 0, _, h => h
  | k + 1, s, h => endAll_due k _ (endContext_due s (.inr h))

theorem endAll_length_due (h : s.stack ≠ []) : (State.endAll s.stack.length s).decisionDue = true := by
  obtain ⟨c, rest, stack⟩ := List.exists_cons_of_ne_nil h
  rw [stack, List.length_cons]
  exact endAll_due rest.length _ (endContext_due s (.inl h))

theorem clearActive_due (h : s.stack ≠ []) : s.clearActive.decisionDue = true := by
  rw [clearActive_nonempty h]
  exact afterStackChange_due _ (endActive_due s h)

theorem clearAll_due (h : s.stack ≠ []) : s.clearAll.decisionDue = true := by
  rw [clearAll_nonempty h]
  exact afterStackChange_due _ (endAll_length_due h)

/-- The entry of a context that ended; the report of the end may touch QUEUE_OVERRUN's alone. -/
theorem endContext_serve (h : s.stack = c :: rest) (other : c.source ≠ srcOverrun) :
    s.endContext.latch[c.source].serve = s.latch[c.source].afterEnd c.source := by
  have reported := (report_reported (E := overrunOnly) rfl s c.source .ended (some c.step)).latch c.source other
  have ended : s.endContext.latch = ((s.report c.source .ended (some c.step)).serveEnded c.source).latch := by
    rw [endContext_eq h]
    rfl
  rw [ended, State.serveEnded, latch_setServe, if_pos rfl, reported]

theorem index_eq_zero {w : Word} (h : w.toNat = 0) : w = 0 := BitVec.eq_of_toNat_eq h

theorem index_eq_one {w : Word} (h : w.toNat = 1) : w = 1 := BitVec.eq_of_toNat_eq h

theorem runClearPlan_active {r : Request} (h : r.index.toNat = 0) :
    s.runClearPlan r = (s.clearActive, { status := 0 }) := if_pos (index_eq_zero h)

theorem runClearPlan_all {r : Request} (h : r.index.toNat = 1) : s.runClearPlan r = (s.clearAll, { status := 0 }) := by
  unfold State.runClearPlan
  rw [index_eq_one h]
  rfl

theorem runClearPlan_badIndex {r : Request} (h : 1 < r.index.toNat) : s.runClearPlan r = (s, { status := 5 }) := by
  unfold State.runClearPlan
  rw [if_neg, if_neg]
  · rfl
  all_goals
    intro index
    rw [index] at h
    exact absurd h (by decide)

/-- On an empty stack either selector is OK and ends nothing. -/
theorem runClearPlan_empty {r : Request} (h : r.index.toNat ≤ 1) (empty : s.stack = []) :
    s.runClearPlan r = (s, { status := 0 }) := by
  rcases Nat.le_one_iff_eq_zero_or_eq_one.mp h with active | all
  · rw [runClearPlan_active active, clearActive_empty empty]
  · rw [runClearPlan_all all, clearAll_empty empty]

end

/-! ### SET_MASK (R154, R156) -/

theorem clampNat_to_seven (m : Nat) : clampNat 0 7 m = min m 7 := by
  unfold clampNat
  split
  · omega
  · split <;> omega

theorem okClamped_eq (m : Nat) : okClamped (decide (7 < m)) = { status := if 7 < m then 1 else 0 } := by
  by_cases above : 7 < m
  · rw [decide_eq_true above, if_pos above]
    rfl
  · rw [decide_eq_false above, if_neg above]
    rfl

/-- A state whose level M is `mask`, and whether it owes an acceptance decision. -/
def State.masked (s : State) (mask : Nat) (due : Bool) : State := { s with mask := mask, decisionDue := due }

theorem runSetMask_eq (s : State) (r : Request) (notDue : s.decisionDue = false) :
    s.runSetMask r = (s.masked (min r.index.toNat 7) (decide (min r.index.toNat 7 < s.mask)),
      { status := if 7 < r.index.toNat then 1 else 0 }) := by
  unfold State.runSetMask
  dsimp only
  rw [clampNat_to_seven, okClamped_eq, notDue, Bool.false_or]
  rfl

theorem masked_still (s : State) (mask : Nat) (due : Bool) : (s.masked mask due).still = { s.still with mask := mask } := rfl

theorem masked_not_due (s : State) (mask : Nat) (h : s.decisionDue = false) : s.masked mask false = { s with mask := mask } := by
  unfold State.masked
  rw [← h]

theorem masked_settled {s : State} (h : s.Settled) (mask : Nat) : (s.masked mask false).Settled := ⟨rfl, h.2⟩

theorem heard_mask (s : State) (p : Port) : (s.heard p).mask = s.mask := by cases p <;> rfl

/-- What settling takes and the reply touch none of the fields that an event's consequences leave alone. -/
theorem settle_reply_still (s : State) (p : Port) (op : Byte) (r : Request) (a : Answer) :
    (s.settle.reply p op r a).still = s.still :=
  (offer_consequence settleSide s.settle p .ll _ rfl).still.trans (settle_consequence s).still

section
variable {p : Port} {r : Request} {s : State}

/-- SET_MASK stores the level, settles what a lower one owes, and replies. -/
theorem exec_setMask (serves : s.Serves p r) :
    exec (.setMask p r) s = .next
      (((s.heard p).masked (min r.index.toNat 7) (decide (min r.index.toNat 7 < s.mask))).settle.reply p 8 r
        { status := if 7 < r.index.toNat then 1 else 0 }) := by
  have notDue : (s.heard p).decisionDue = false := (heard_settled serves.1.1).1
  show Host.Outcome.next (s.request p 8 r false (State.runSetMask r)) = _
  rw [request_serves serves, runSetMask_eq _ r notDue, heard_mask]

theorem exec_setMask_not_lower (serves : s.Serves p r) (notLower : s.mask ≤ min r.index.toNat 7) :
    exec (.setMask p r) s = .next ({ s.heard p with mask := min r.index.toNat 7 }.reply p 8 r
      { status := if 7 < r.index.toNat then 1 else 0 }) := by
  have settled : (s.heard p).Settled := heard_settled serves.1.1
  rw [exec_setMask serves, decide_eq_false (Nat.not_lt.mpr notLower), settle_of_settled _ (masked_settled settled _),
    masked_not_due _ _ settled.1]

end

/-- CLEAR_PLAN's answers and what its ends leave. -/
theorem clearPlan_answers (p : Port) (r : Request) (s : State) (serves : s.Serves p r) :
    (1 < r.index.toNat → exec (.clearPlan p r) s = .next ((s.heard p).reply p 7 r { status := 5 })) ∧
    (r.index.toNat ≤ 1 → s.stack = [] → exec (.clearPlan p r) s = .next ((s.heard p).reply p 7 r { status := 0 })) ∧
    (r.index.toNat = 0 →
      exec (.clearPlan p r) s = .next ((s.heard p).clearActive.settle.reply p 7 r { status := 0 })) ∧
    (r.index.toNat = 1 →
      exec (.clearPlan p r) s = .next ((s.heard p).clearAll.settle.reply p 7 r { status := 0 })) := by
  have settled : (s.heard p).Settled := heard_settled serves.1.1
  have executes : exec (.clearPlan p r) s = .next (((s.heard p).runClearPlan r).1.settle.reply p 7 r
      ((s.heard p).runClearPlan r).2) := congrArg Host.Outcome.next (request_serves serves 7 false (State.runClearPlan r))
  refine ⟨fun above => ?_, fun selector empty => ?_, fun active => ?_, fun all => ?_⟩
  · rw [executes, runClearPlan_badIndex above, settle_of_settled _ settled]
  · have none : (s.heard p).stack = [] := (setPort_stack s p _).trans empty
    rw [executes, runClearPlan_empty selector none, settle_of_settled _ settled]
  · rw [executes, runClearPlan_active active]
  · rw [executes, runClearPlan_all all]

/-- Settles O30, by the operations' results and the laws of a context's end. -/
theorem clearPlanEndsContextsAndSetMaskStores : Obligations.ClearPlanEndsContextsAndSetMaskStores := by
  refine ⟨clearPlan_answers, fun _ => clearAll_stack, fun s c stack => ?_, fun s c d rest stack goesOn => ?_,
    fun s c d rest stack kept => ?_, fun s some => ⟨clearActive_due some, clearAll_due some⟩,
    fun s c rest stack other => ⟨endContext_rest stack, endContext_serve stack other⟩, fun p r s serves => ⟨?_, ?_, ?_⟩⟩
  · rw [clearActive_nonempty (stack ▸ List.cons_ne_nil c []), afterStackChange_stack, endActive_empty stack,
      endContext_rest stack]
  · rw [clearActive_nonempty (stack ▸ List.cons_ne_nil c _), afterStackChange_stack, endActive_thaws stack goesOn]
    rfl
  · rw [clearActive_nonempty (stack ▸ List.cons_ne_nil c _), endActive_moves_on stack (endPending_eq_true kept)]
  · exact exec_setMask_not_lower serves
  · intro lower
    rw [exec_setMask serves, decide_eq_true lower]
    rfl
  · refine ⟨_, exec_setMask serves, ?_⟩
    rw [settle_reply_still, masked_still]

end Sys2Proof.Machine
end

