-- ==== Sys2Proof/Proofs/CallPoint.lean ====
section
/-! PROOFS. Proofs/CallPoint.lean: the call point's debounce (R137), and what an occurrence and a clearing of any source make of
its entry, of the contexts that await it and, with room, of the ports (R141, R143, R147, R148, R161). O43. -/

namespace Sys2Proof.Machine

/-! ### The frame of a source (R136, R147) -/

theorem effLevel_eq {cfg : SourceCfg} (h : cfg.level ≤ 7) :
    cfg.effLevel = if cfg.cls = .life then 7 else max 1 (min 6 cfg.level) := by
  have clamped : (if cfg.level = 0 then 1 else if cfg.level = 7 then 6 else cfg.level) = max 1 (min 6 cfg.level) := by
    split
    · omega
    · split <;> omega
  unfold SourceCfg.effLevel
  cases cfg.cls with
  | life => rfl
  | advisory => exact clamped
  | alarm => exact clamped

theorem stepCode_eq (i : Option (Fin 64)) : stepCode i = i.elim 255 Fin.val := by cases i <;> rfl

theorem timeFlag_byte (set : Bool) : BitVec.ofNat 8 (timeFlag set) = if set then 2 else 1 := by cases set <;> rfl

theorem eventFrame_eq (s : State) (n : EntryId) (kind : Transition) (code : Word) (i : Option (Fin 64))
    (h : (s.sourceCfg n).level ≤ 7) :
    s.eventFrame n kind code i = .event
      { origin := BitVec.ofNat 8 s.posA, transition := kind, code := code, count := s.latch[n].count
        cls := (s.sourceCfg n).cls
        level := BitVec.ofNat 8 (if (s.sourceCfg n).cls = .life then 7 else max 1 (min 6 (s.sourceCfg n).level))
        step := BitVec.ofNat 8 (i.elim 255 Fin.val), clock := s.clock, flag := if s.clockSet then 2 else 1 } := by
  rw [State.eventFrame, State.effLevel, State.effClass, effLevel_eq h, stepCode_eq, timeFlag_byte]

theorem sourceCode_device (s : State) {n : EntryId} (h : n.val < 35) :
    s.sourceCode n = BitVec.ofNat 16 (32 * (n.val + 1)) := dif_pos h

theorem sourceCode_line (s : State) (i : Fin 16) : s.sourceCode (srcLine i) = s.lines[i].code := by
  have place : (srcLine i).val - 35 = i.val := Nat.add_sub_cancel_left 35 i.val
  have past : ¬ (srcLine i).val < 35 := Nat.not_lt.mpr (Nat.le_add_right 35 i.val)
  unfold State.sourceCode
  rw [dif_neg past]
  simp only [place, Fin.getElem_fin]

/-! ### A report with room (R148) -/

/-- t is s after the frame `f`, if `sent`, has come to wait at each port that is UP. -/
structure State.Awaits (s t : State) (sent : Bool) (f : Frame) : Prop where
  port : ∀ p, t.port p = if sent = true then (s.port p).waits s.now f else s.port p
  rest : t = { s with ports := t.ports }

theorem State.RoomFor.awaits {k : Nat} {s : State} (room : s.RoomFor (k + 1)) (sent : Bool) (f : Frame) :
    s.Awaits (if sent = true then s.sendLocal f else s) sent f := by
  cases sent with
  | false => exact ⟨fun _ => rfl, rfl⟩
  | true =>
    rw [if_pos rfl, room.sendLocal]
    exact ⟨port_awaiting s f, rfl⟩

theorem State.Awaits.latch {s t : State} {sent : Bool} {f : Frame} (h : s.Awaits t sent f) : t.latch = s.latch := by
  have same := congrArg State.latch h.rest
  exact same

/-! ### An occurrence (R141) -/

theorem occurred_countedOnce (e : LatchEntry) (n : EntryId) (t : Stamp) (origin : Nat) (valid : Bool) :
    LatchEntry.CountedOnce n t origin e (e.occurred n t origin valid) := by
  refine ⟨rfl, rfl, ?_, rfl, rfl, Bool.or_comm _ _⟩
  unfold LatchEntry.occurred
  cases e.first <;> rfl

theorem countOccurrence_eq (s : State) (n : EntryId) (origin : Nat) :
    s.countOccurrence n origin =
      { s with
        latch := s.latch.set n (s.latch[n].occurred n s.stamp origin (s.planValid n))
        decisionDue := s.decisionDue || decide (s.latch[n].serve = .idle ∧ s.planValid n = true) } := by
  have owed : (s.latch[n].serve == .idle && s.planValid n) = decide (s.latch[n].serve = .idle ∧ s.planValid n = true) := by
    rw [Bool.decide_and, Bool.decide_eq_true]
    rfl
  rw [State.countOccurrence, owed]
  rfl

section
variable {k : Nat} {s : State}

theorem occurFrom_awaits (room : s.RoomFor (k + 1)) (n : EntryId) (origin : Nat) :
    (s.countOccurrence n origin).Awaits (s.occurFrom n origin) (s.sourceCfg n).report (s.occurredFrame n) := by
  have counted : (s.countOccurrence n origin).RoomFor (k + 1) := room.of_ports rfl
  rw [← countOccurrence_eventFrame s n origin]
  exact counted.awaits _ _

/-- With room an occurrence is the counting of its entry and its frame's wait. -/
theorem occurFrom_counts (room : s.RoomFor (k + 1)) {t : State} {n : EntryId} {origin : Nat} (h : t = s.occurFrom n origin) :
    LatchEntry.CountedOnce n s.stamp origin s.latch[n] t.latch[n] ∧
    t.latch[n].serve = (if s.latch[n].serve = .idle ∧ s.planValid n = true then .pending else s.latch[n].serve) ∧
    (∀ p, t.port p =
      if (s.sourceCfg n).report = true then (s.port p).waits s.now (s.occurredFrame n) else s.port p) ∧
    t =
      { s with
        ports := t.ports, latch := s.latch.set n t.latch[n]
        decisionDue := s.decisionDue || decide (s.latch[n].serve = .idle ∧ s.planValid n = true) } := by
  have sent : (s.countOccurrence n origin).Awaits t (s.sourceCfg n).report (s.occurredFrame n) :=
    h ▸ occurFrom_awaits room n origin
  have entry : t.latch[n] = s.latch[n].occurred n s.stamp origin (s.planValid n) := by
    rw [sent.latch]
    exact latch_setLatch_self s n _
  refine ⟨?_, ?_, sent.port, ?_⟩
  · rw [entry]
    exact occurred_countedOnce _ n _ origin _
  · rw [entry]
    exact LatchEntry.occurred_serve n _ origin _ _
  · have rest := sent.rest
    rw [countOccurrence_eq] at rest
    rw [entry]
    exact rest

/-! ### A clearing (R143, R161) -/

theorem cleared_eq (v : Serve) : v.cleared = if v = .served then .served else .idle := by cases v <;> rfl

theorem clearWithCode_unasserted {n : EntryId} (clear : s.latch[n].asserted = false) (code : Word) :
    s.clearWithCode n code = s := if_neg (ne_true_of_eq_false clear)

theorem markCleared_latch (s : State) (n : EntryId) :
    (s.markCleared n).latch[n] = { s.latch[n] with asserted := false, serve := s.latch[n].serve.cleared } :=
  latch_setLatch_self s n _

theorem clearWithCode_awaits (room : s.RoomFor (k + 1)) {n : EntryId} (asserted : s.latch[n].asserted = true)
    (code : Word) :
    (s.markCleared n).Awaits (s.clearWithCode n code) (s.sourceCfg n).report
      (s.eventFrame n .cleared code (s.sourceCfg n).step) := by
  have marked : (s.markCleared n).RoomFor (k + 1) := room.of_ports rfl
  have frame : (s.markCleared n).eventFrame n .cleared code (s.sourceCfg n).step =
      s.eventFrame n .cleared code (s.sourceCfg n).step :=
    eventFrame_congr (s := s) (t := s.markCleared n) rfl rfl rfl rfl (by rw [markCleared_latch]) _ _ _
  rw [State.clearWithCode, if_pos asserted, ← frame]
  exact marked.awaits _ _

/-- With room a clearing is the marking of its entry and of the contexts that await it, and its frame's wait. -/
theorem clearWithCode_clears (room : s.RoomFor (k + 1)) {t : State} {n : EntryId} {code : Word}
    (h : t = s.clearWithCode n code) (asserted : s.latch[n].asserted = true) :
    t.latch[n] =
      { s.latch[n] with asserted := false, serve := if s.latch[n].serve = .served then .served else .idle } ∧
    (∀ p, t.port p =
      if (s.sourceCfg n).report = true then
        (s.port p).waits s.now (s.eventFrame n .cleared code (s.sourceCfg n).step)
      else s.port p) ∧
    t =
      { s with
        ports := t.ports, latch := s.latch.set n t.latch[n]
        stack := s.stack.map fun c => if c.source = n ∧ c.waiting = true then { c with clearSeen := true } else c } := by
  have sent : (s.markCleared n).Awaits t (s.sourceCfg n).report
      (s.eventFrame n .cleared code (s.sourceCfg n).step) := h ▸ clearWithCode_awaits room asserted code
  have entry : t.latch[n] = { s.latch[n] with asserted := false, serve := s.latch[n].serve.cleared } := by
    rw [sent.latch, markCleared_latch]
  refine ⟨?_, sent.port, ?_⟩
  · rw [entry, cleared_eq]
  · rw [entry]
    exact sent.rest

end

/-! ### The call point (R137) -/

theorem callPointInput_eq (s : State) (active : Bool) :
    s.callPointInput active =
      { s with
        pins := { s.pins with callPoint := active }
        callTimer := if active = s.callPoint then none else some (s.callTimer.getD (s.now + 20000)) } := by
  have started : (if s.callTimer.isSome then s.callTimer else s.startMs 20) = some (s.callTimer.getD (s.now + 20000)) := by
    cases s.callTimer <;> rfl
  rw [State.callPointInput, started]

/-- The state with a level of the call point accepted and its timer stopped. -/
def State.withCallPoint (s : State) (level : Bool) : State := { s with callPoint := level, callTimer := none }

section
variable {s : State}

theorem callPointAccepted_eq (running : s.callTimer.isSome = true) :
    s.callPointAccepted = (s.withCallPoint (!s.callPoint)).follow srcCallPoint s.callPoint (!s.callPoint) := by
  rw [State.callPointAccepted, if_neg (Option.isSome_iff_ne_none.mp running)]
  rfl

theorem callPointAccepted_occurs (running : s.callTimer.isSome = true) (level : s.callPoint = false) :
    s.callPointAccepted = (s.withCallPoint true).occur srcCallPoint := by
  rw [callPointAccepted_eq running, level]
  rfl

theorem callPointAccepted_clears (running : s.callTimer.isSome = true) (level : s.callPoint = true) :
    s.callPointAccepted = (s.withCallPoint false).clearSource srcCallPoint := by
  rw [callPointAccepted_eq running, level]
  rfl

theorem callPoint_not_side : ¬ settleSide srcCallPoint := by
  unfold settleSide
  decide

/-- The accepted level's transition leaves what an event's consequences leave. -/
theorem callPointAccepted_still (running : s.callTimer.isSome = true) :
    s.callPointAccepted.settle.still = { s.still with callPoint := !s.callPoint, callTimer := none } := by
  rw [callPointAccepted_eq running]
  have followed := follow_consequence (E := anyEntry) trivial (s.withCallPoint (!s.callPoint)) srcCallPoint s.callPoint
    (!s.callPoint) trivial
  exact (settle_consequence _).still.trans followed.still

theorem callPointAccepted_asserts (running : s.callTimer.isSome = true) (level : s.callPoint = false) :
    LatchEntry.CountedOnce srcCallPoint s.stamp s.posA s.latch[srcCallPoint] s.callPointAccepted.settle.latch[srcCallPoint] := by
  rw [callPointAccepted_occurs running level]
  exact (occur_settle (s.withCallPoint true) callPoint_not_side).2

theorem callPointAccepted_releases (running : s.callTimer.isSome = true) (level : s.callPoint = true) :
    s.callPointAccepted.settle.latch[srcCallPoint].asserted = false := by
  rw [callPointAccepted_clears running level]
  exact (clearSource_settle (s.withCallPoint false) callPoint_not_side).2

end

/-- Settles O43, by the rules of an occurrence and of a clearing. -/
theorem theCallPointIsDebounced : Obligations.TheCallPointIsDebounced := by
  refine ⟨fun active s => congrArg Host.Outcome.next (callPointInput_eq s active), fun s running => ?_, eventFrame_eq,
    fun s n => ⟨sourceCode_device s, fun i at_line => at_line ▸ sourceCode_line s i⟩,
    fun s t n origin room h => occurFrom_counts room.roomFor h,
    fun s t n code room h => ⟨fun clear => h.trans (clearWithCode_unasserted clear code),
      clearWithCode_clears room.roomFor h⟩⟩
  have still := callPointAccepted_still running
  refine ⟨_, rfl, congrArg State.callPoint still, congrArg State.callTimer still, still, fun level => ?_, fun level => ?_⟩
  · exact ⟨callPointAccepted_asserts running level, congrArg State.settle (callPointAccepted_occurs running level)⟩
  · exact ⟨callPointAccepted_releases running level, congrArg State.settle (callPointAccepted_clears running level)⟩

end Sys2Proof.Machine
end

