-- ==== Sys2Proof/Proofs/WriteRefusals.lean ====
section
/-! PROOFS. Proofs/WriteRefusals.lean: the tables by their numbers, the checks of a WRITE in their order, and that a refused
request is a reply alone (R151, R169, R172, R178). O25. -/

namespace Sys2Proof.Machine

/-! ### The tables by number (R169, R178) -/

theorem ofNumber_eq_none_iff {n : Nat} : Table.ofNumber n = none ↔ 12 < n := by
  by_cases above : 12 < n
  · obtain ⟨k, rfl⟩ := Nat.exists_eq_add_of_le' above
    exact iff_of_true rfl above
  · have named : ∀ i : Fin 13, Table.ofNumber i.val ≠ none := by decide
    exact iff_of_false (named ⟨n, by omega⟩) above

theorem tableLengths_getElem? (n : Nat) : tableLengths[n]? = (Table.ofNumber n).map Table.length := by
  by_cases above : 12 < n
  · rw [ofNumber_eq_none_iff.mpr above]
    exact List.getElem?_eq_none above
  · have listed : ∀ i : Fin 13, tableLengths[i.val]? = (Table.ofNumber i.val).map Table.length := by decide
    exact listed ⟨n, by omega⟩

theorem readOnly_iff {n : Nat} {T : Table} (named : Table.ofNumber n = some T) :
    T.readOnly = true ↔ n ∈ [0, 9, 11, 12] := by
  unfold Table.ofNumber at named
  split at named
  case h_14 => cases named
  all_goals
    cases named
    decide

/-! ### The checks of a WRITE (R151, R169, R172) -/

section
variable {s : State}

theorem coversCurrent_iff {a n : Nat} (some_word : 0 < n) :
    s.coversCurrent a n = true ↔ ∃ c ∈ s.stack, ∃ w, a ≤ w ∧ w < a + n ∧ w / 17 = c.step.val := by
  simp only [State.coversCurrent, List.any_eq_true, Bool.and_eq_true, decide_eq_true_eq]
  refine exists_congr fun c => and_congr_right fun _ => ⟨fun ⟨starts, ends⟩ => ?_, fun ⟨w, first, last, step⟩ => ?_⟩
  · exact ⟨max a (c.step.val * 17), by omega, by omega, by omega⟩
  · omega

variable {r : Request} {T : Table}

theorem runWrite_badTable (unnamed : Table.ofNumber r.table.toNat = none) : s.runWrite r = (s, { status := 4 }) := by
  unfold State.runWrite
  rw [unnamed]
  rfl

/-- The checks that follow BAD_TABLE, in their order. -/
theorem runWrite_named (named : Table.ofNumber r.table.toNat = some T) :
    s.runWrite r =
      if T.readOnly then (s, { status := 6 })
      else if r.count.toNat ≠ r.data.length ∨ r.data.length = 0 ∨ T.length < r.index.toNat + r.data.length then
        (s, { status := 5 })
      else if T = .plan ∧ s.coversCurrent r.index.toNat r.data.length then (s, { status := 7 })
      else ((s.writeTable T r.index.toNat r.data).1, okClamped (s.writeTable T r.index.toNat r.data).2) := by
  unfold State.runWrite
  rw [named]
  rfl

theorem runWrite_readOnly (named : Table.ofNumber r.table.toNat = some T) (readOnly : T.readOnly = true) :
    s.runWrite r = (s, { status := 6 }) :=
  (runWrite_named named).trans (if_pos readOnly)

theorem runWrite_badIndex (named : Table.ofNumber r.table.toNat = some T) (writable : ¬ T.readOnly = true)
    (bad : r.count.toNat ≠ r.data.length ∨ r.data.length = 0 ∨ T.length < r.index.toNat + r.data.length) :
    s.runWrite r = (s, { status := 5 }) := by
  rw [runWrite_named named, if_neg writable, if_pos bad]

theorem runWrite_inUse (named : Table.ofNumber r.table.toNat = some .plan)
    (good : ¬ (r.count.toNat ≠ r.data.length ∨ r.data.length = 0 ∨ Table.plan.length < r.index.toNat + r.data.length))
    (covers : s.coversCurrent r.index.toNat r.data.length = true) : s.runWrite r = (s, { status := 7 }) := by
  rw [runWrite_named named, if_neg (by decide), if_neg good, if_pos ⟨rfl, covers⟩]

/-- A WRITE refused by its checks: the reply alone. -/
theorem exec_write_refused {p : Port} {a : Answer} (serves : s.Serves p r)
    (refused : (s.heard p).runWrite r = (s.heard p, a)) : exec (.write p r) s = .next ((s.heard p).reply p 2 r a) :=
  congrArg Host.Outcome.next
    (request_answers (run := State.runWrite r) serves 2 false refused (heard_settled serves.1.1))

end

/-- Settles O25, check by check in R169's order: each refusal leaves the state that heard the request. -/
theorem writesAreRefusedUnchanged : Obligations.WritesAreRefusedUnchanged := by
  intro p r s serves
  refine ⟨fun above => ?_, fun listed => ?_, fun len length writable => ?_⟩
  · exact exec_write_refused serves (runWrite_badTable (ofNumber_eq_none_iff.mpr above))
  · obtain ⟨T, named⟩ : ∃ T, Table.ofNumber r.table.toNat = some T := by
      refine Option.ne_none_iff_exists'.mp fun unnamed => ?_
      have above := ofNumber_eq_none_iff.mp unnamed
      simp only [List.mem_cons, List.not_mem_nil, or_false] at listed
      omega
    exact exec_write_refused serves (runWrite_readOnly named ((readOnly_iff named).mpr listed))
  · rw [tableLengths_getElem?, Option.map_eq_some_iff] at length
    obtain ⟨T, named, rfl⟩ := length
    refine ⟨fun bad => ?_, fun count words inside plan covered => ?_⟩
    · rw [← List.length_eq_zero_iff] at bad
      exact exec_write_refused serves (runWrite_badIndex named (mt (readOnly_iff named).mp writable) bad)
    · have some_word : 0 < r.data.length := List.length_pos_iff.mpr words
      rw [plan] at named
      obtain rfl : Table.plan = T := Option.some.inj named
      rw [← heard_stack (p := p), ← coversCurrent_iff some_word] at covered
      exact exec_write_refused serves (runWrite_inUse (plan ▸ named) (by omega) covered)

end Sys2Proof.Machine
end

