-- ==== Sys2Proof/Proofs/Requests.lean ====
section
/-! PROOFS. Proofs/Requests.lean: the first checks of a management request and its reply (R168, R169), OPEN (R176) and the start
of a STORE (R177, R184). O23, O32. -/

namespace Sys2Proof.Machine

/-! ### The first checks of a request (R169) -/

section
variable {s : State} {p : Port} {op : Byte} {r : Request}

/-- A good frame whose dispatch on the heard state is a reply alone. -/
theorem goodUp_replies (hears : s.Hears p) {a : Answer} {dispatch : State → State}
    (replies : dispatch (s.heard p) = (s.heard p).reply p op r a) : s.goodUp p dispatch = (s.heard p).reply p op r a := by
  rw [goodUp_hears hears, replies]
  exact settle_of_settled _ (offer_settled (heard_settled hears.1) _ _ _)

theorem isStarting_iff : s.isStarting = true ↔ s.nodeState = .starting := beq_iff_eq

theorem heard_starting (starting : s.nodeState = .starting) (p : Port) : (s.heard p).isStarting = true :=
  (heard_isStarting s p).trans (isStarting_iff.mpr starting)

theorem respond_busy (starting : s.isStarting = true) (run : State → State × Answer) :
    s.respond p op r false run = s.reply p op r { status := 2 } := by
  unfold State.respond
  rw [starting]
  rfl

/-- In STARTING a request that is not free is answered BUSY, whatever its operation. -/
theorem request_busy (hears : s.Hears p) (passes : r.wf = true) (starting : s.nodeState = .starting)
    (run : State → State × Answer) : s.request p op r false run = (s.heard p).reply p op r { status := 2 } := by
  refine goodUp_replies hears ?_
  rw [if_pos passes, respond_busy (heard_starting starting p)]

/-- A good bad-op request: the responder runs an operation that changes nothing. -/
theorem exec_badOp (hears : s.Hears p) (passes : (Instr.badOpRequest p op r).wf = true) {a : Answer}
    (answers : (s.heard p).respond p op r false (fun s => (s, { status := stBadOp })) = (s.heard p).reply p op r a) :
    exec (.badOpRequest p op r) s = .next ((s.heard p).reply p op r a) := by
  refine congrArg Host.Outcome.next (goodUp_replies hears ?_)
  exact (if_pos passes).trans answers

theorem exec_restart_busy (hears : s.Hears p) (passes : r.wf = true) (starting : s.nodeState = .starting) :
    exec (.restart p r) s = .next ((s.heard p).reply p 13 r { status := 2 }) := by
  refine congrArg Host.Outcome.next (goodUp_replies hears ?_)
  rw [if_pos passes, if_pos (heard_starting starting p)]
  rfl

/-- The requests in STARTING, command by command: twelve share the responder's check, RESTART and an unknown op have theirs. -/
theorem exec_request_busy {c : Instr} (request : requestOf c = some (p, op, r)) (passes : c.wf = true) (hears : s.Hears p)
    (starting : s.nodeState = .starting) (notStatus : op = 1 → r.table ≠ 0) :
    exec c s = .next ((s.heard p).reply p op r { status := 2 }) := by
  unfold requestOf at request
  split at request <;> cases request
  case h_1 =>
    have other : (r.table == 0) = false := beq_eq_false_iff_ne.mpr (notStatus rfl)
    show Host.Outcome.next (s.request p 1 r (r.table == 0) _) = _
    rw [other, request_busy hears passes starting]
  case h_13 => exact exec_restart_busy hears passes starting
  case h_14 => exact exec_badOp hears passes (respond_busy (heard_starting starting p) _)
  all_goals exact congrArg Host.Outcome.next (request_busy hears passes starting _)

/-- Outside STARTING an op that names no operation (R169). -/
theorem exec_badOp_serves (serves : s.Serves p r) (unknown : op.toNat = 0 ∨ 13 < op.toNat) :
    exec (.badOpRequest p op r) s = .next ((s.heard p).reply p op r { status := 3 }) := by
  obtain ⟨hears, started, passes⟩ := serves
  refine exec_badOp hears ?_ ?_
  · have outside : ¬ (1 ≤ op.toNat ∧ op.toNat ≤ 13) := by omega
    simp [Instr.wf, passes, ← Bool.decide_and, outside]
  · have running : (s.heard p).isStarting = false := by rwa [heard_isStarting, ← Bool.not_eq_true, isStarting_iff]
    unfold State.respond
    rw [running]
    exact congrArg (State.reply · p op r _) (settle_of_settled _ (heard_settled hears.1))

end

/-- Settles O23: BUSY and BAD_OP are a lemma each, and the reply is an offer by its definition. -/
theorem requestsMeetTheFirstChecks : Obligations.RequestsMeetTheFirstChecks :=
  ⟨fun _ _ _ _ _ request passes hears starting notStatus => exec_request_busy request passes hears starting notStatus,
    fun _ _ _ _ serves unknown => exec_badOp_serves serves unknown, fun _ _ _ _ _ => rfl⟩

/-! ### OPEN (R176) -/

theorem withDecision_still (s : State) (due : Bool) : ({ s with decisionDue := due } : State).still = s.still := rfl

theorem withNodeState_still (s : State) (n : NodeState) :
    ({ s with nodeState := n } : State).still = { s.still with nodeState := n } := rfl

theorem heard_nodeState (s : State) (p : Port) : (s.heard p).nodeState = s.nodeState := setPort_nodeState s p _

theorem runOpen_operating {s : State} (operating : s.nodeState = .operating) : s.runOpen = (s, { status := 0 }) :=
  if_neg (by rw [operating]; decide)

theorem runOpen_lockout {s : State} (lockout : s.nodeState = .lockout) :
    s.runOpen = ({ { s with nodeState := .operating }.renew with decisionDue := true }, { status := 0 }) := if_pos lockout

section
variable {s : State} {p : Port} {r : Request}

theorem exec_open_operating (serves : s.Serves p r) (operating : s.nodeState = .operating) :
    exec (.openNode p r) s = .next ((s.heard p).reply p 11 r { status := 0 }) :=
  congrArg Host.Outcome.next (request_answers (run := State.runOpen) serves 11 false
    (runOpen_operating ((heard_nodeState s p).trans operating)) (heard_settled serves.1.1))

theorem exec_open_lockout (serves : s.Serves p r) (lockout : s.nodeState = .lockout) :
    exec (.openNode p r) s = .next
      ((State.settle { { s.heard p with nodeState := .operating }.renew with decisionDue := true }).reply p 11 r
        { status := 0 }) := by
  show Host.Outcome.next (s.request p 11 r false State.runOpen) = _
  rw [request_serves serves, runOpen_lockout ((heard_nodeState s p).trans lockout)]

/-! ### The start of a STORE (R177, R184) -/

theorem runStore_busy (running : s.storing ≠ .idle) : s.runStore = (s, { status := 2 }) := if_neg running

theorem runStore_idle (idle : s.storing = .idle) : s.runStore = (s.storeFrom 0, { status := 0 }) := if_pos idle

theorem firstDirty_zero_eq_some {g : Fin 15} (marked : s.dirty[g] = true) (lowest : ∀ h : Fin 15, s.dirty[h] = true → g ≤ h) :
    s.firstDirty 0 = some g := by
  unfold State.firstDirty
  rw [List.find?_eq_some_iff_getElem]
  refine ⟨by simpa using marked, g.val, by simp, by simp, fun j below => ?_⟩
  have inside : j < 15 := by omega
  have clean : ¬ s.dirty[(⟨j, inside⟩ : Fin 15)] = true := fun dirty => by
    have := lowest _ dirty
    exact absurd below (not_lt_of_ge this)
  simpa using clean

theorem firstDirty_eq_none (i : Nat) (clean : ∀ g : Fin 15, s.dirty[g] = false) : s.firstDirty i = none :=
  List.find?_eq_none.mpr fun g _ => by simp only [clean, Bool.and_false]; decide

theorem storeFrom_group {i : Nat} {g : Fin 15} (first : s.firstDirty i = some g) : s.storeFrom i = s.startCopy g := by
  unfold State.storeFrom
  rw [first]

theorem storeFrom_header {i : Nat} (none_left : s.firstDirty i = none) : s.storeFrom i = s.startHeader := by
  unfold State.storeFrom
  rw [none_left]

/-- The content of a group is configuration and cache, which hearing a frame leaves. -/
theorem heard_groupContent (s : State) (p : Port) (g : Fin 15) : (s.heard p).groupContent g = s.groupContent g := by
  cases p <;> rfl

theorem exec_store_busy (serves : s.Serves p r) (running : s.storing ≠ .idle) :
    exec (.store p r) s = .next ((s.heard p).reply p 12 r { status := 2 }) :=
  congrArg Host.Outcome.next (request_answers (run := State.runStore) serves 12 false
    (runStore_busy (by rwa [heard_storing])) (heard_settled serves.1.1))

/-- A STORE that starts owes the plan unit nothing. -/
theorem exec_store_starts {u : State} (serves : s.Serves p r) (idle : s.storing = .idle)
    (starts : (s.heard p).storeFrom 0 = u) (settled : u.Settled) :
    exec (.store p r) s = .next (u.reply p 12 r { status := 0 }) :=
  congrArg Host.Outcome.next (request_answers (run := State.runStore) serves 12 false
    ((runStore_idle ((heard_storing s p).trans idle)).trans (by rw [starts])) settled)

theorem exec_store_group (serves : s.Serves p r) (idle : s.storing = .idle) {g : Fin 15} (marked : s.dirty[g] = true)
    (lowest : ∀ h : Fin 15, s.dirty[h] = true → g ≤ h) :
    exec (.store p r) s = .next
      ({ s.heard p with
          rewritten := s.rewritten.set g false
          storing := .group g .writing (groupRecord g (s.groupContent g)) }.reply p 12 r { status := 0 }) := by
  refine exec_store_starts serves idle ?_ (heard_settled serves.1.1)
  rw [storeFrom_group (firstDirty_zero_eq_some (g := g) (by rwa [heard_dirty]) (by rwa [heard_dirty]))]
  unfold State.startCopy
  rw [heard_rewritten, heard_groupContent]

theorem exec_store_header (serves : s.Serves p r) (idle : s.storing = .idle) (clean : ∀ g : Fin 15, s.dirty[g] = false) :
    exec (.store p r) s = .next
      ({ s.heard p with storing := .header .writing (headerRecord (decide (s.nodeState = NodeState.lockout))) }.reply p 12 r
        { status := 0 }) := by
  refine exec_store_starts serves idle ?_ (heard_settled serves.1.1)
  have locked : ((s.heard p).nodeState == NodeState.lockout) = decide (s.nodeState = NodeState.lockout) := by
    rw [heard_nodeState, beq_eq_decide]
  rw [storeFrom_header (firstDirty_eq_none 0 (by rwa [heard_dirty]))]
  exact congrArg (fun b => ({ s.heard p with storing := .header .writing (headerRecord b) } : State)) locked

end

/-- Settles O32, by the two answers of OPEN and the three of STORE. -/
theorem openAndStore : Obligations.OpenAndStore := by
  intro p r s serves
  refine ⟨exec_open_operating serves, fun lockout => ⟨_, exec_open_lockout serves lockout, ?_, ?_, rfl⟩,
    exec_store_busy serves, fun idle => ⟨fun g => exec_store_group serves idle, exec_store_header serves idle⟩⟩
  · rw [settle_reply_still, withDecision_still, (renew_consequence anyEntry _).still, withNodeState_still]
  · exact (offer_settled (settle_settled _) _ _ _).1

end Sys2Proof.Machine
end

