-- ==== Sys2Proof/Proofs/FlushPlans.lean ====
section
/-! PROOFS. Proofs/FlushPlans.lean: the dirty marks that a change sets, several at once (R173, R185), and FLUSH_PLANS, which
takes validity from steps and gives it to none (R145, R175). O28. -/

namespace Sys2Proof.Machine

/-! ### Several groups marked in turn (R173, R185) -/

/-- The groups of a list marked in turn. -/
def State.markAll (s : State) (gs : List (Fin 15)) : State := gs.foldl State.markDirty s

theorem getElem_set_true {n : Nat} (v : Vector Bool n) (g h : Fin n) : (v.set g true)[h] = (v[h] || decide (h = g)) := by
  by_cases same : h = g
  · subst same
    simp
  · have apart : g.val ≠ h.val := fun e => same (Fin.ext e.symm)
    simp [same, Vector.getElem_set_ne _ _ apart]

theorem markDirty_dirty (s : State) (g h : Fin 15) : (s.markDirty g).dirty[h] = (s.dirty[h] || decide (h = g)) :=
  getElem_set_true s.dirty g h

theorem markDirty_rewritten (s : State) (g h : Fin 15) :
    (s.markDirty g).rewritten[h] = (s.rewritten[h] || (decide (s.storing.inHand = some h) && decide (h = g))) := by
  by_cases inHand : s.storing.inHand = some g
  · have set : (s.markDirty g).rewritten = s.rewritten.set g true := if_pos inHand
    rw [set, getElem_set_true]
    by_cases same : h = g
    · simp [same, inHand]
    · simp [same]
  · have kept : (s.markDirty g).rewritten = s.rewritten := if_neg inHand
    rw [kept]
    by_cases same : h = g
    · simp [same, inHand]
    · simp [same]

section
variable (s : State) (gs : List (Fin 15))

/-- Marks change the marks alone. -/
theorem markAll_eq :
    s.markAll gs = { s with dirty := (s.markAll gs).dirty, rewritten := (s.markAll gs).rewritten } := by
  induction gs generalizing s with
  | nil => rfl
  | cons g gs ih => exact ih (s.markDirty g)

theorem markAll_plan : (s.markAll gs).plan = s.plan := by rw [markAll_eq]

theorem markAll_latch : (s.markAll gs).latch = s.latch := by rw [markAll_eq]

theorem markAll_sourceCfg (n : EntryId) : (s.markAll gs).sourceCfg n = s.sourceCfg n := by
  have sources : (s.markAll gs).sources = s.sources := by rw [markAll_eq]
  have lines : (s.markAll gs).lines = s.lines := by rw [markAll_eq]
  unfold State.sourceCfg
  rw [sources, lines]

theorem markAll_dirty (g : Fin 15) : (s.markAll gs).dirty[g] = (s.dirty[g] || decide (g ∈ gs)) := by
  induction gs generalizing s with
  | nil => simp [State.markAll]
  | cons g' gs ih =>
    have rest := ih (s.markDirty g')
    rw [markDirty_dirty] at rest
    simpa [State.markAll, Bool.or_assoc] using rest

theorem markAll_rewritten (g : Fin 15) :
    (s.markAll gs).rewritten[g] = (s.rewritten[g] || (decide (s.storing.inHand = some g) && decide (g ∈ gs))) := by
  induction gs generalizing s with
  | nil => simp [State.markAll]
  | cons g' gs ih =>
    have rest := ih (s.markDirty g')
    rw [markDirty_rewritten, markDirty_storing] at rest
    simpa [State.markAll, Bool.or_assoc, Bool.and_or_distrib_left] using rest

end

/-! ### FLUSH_PLANS (R175) -/

/-- The groups of the steps that went from valid to invalid. -/
def flushedGroups (old new : Vector PlanStep 64) : List (Fin 15) :=
  ((List.finRange 64).filter fun i => old[i].valid && !new[i].valid).map groupOfStep

theorem markFlushed_eq (old : Vector PlanStep 64) (s : State) :
    s.markFlushed old = s.markAll (flushedGroups old s.plan) := by
  unfold State.markFlushed State.markAll flushedGroups
  induction List.finRange 64 generalizing s with
  | nil => rfl
  | cons i l ih =>
    rw [List.foldl_cons, ih, List.filter_cons]
    split <;> simp

theorem decide_mem_flushedGroups (old new : Vector PlanStep 64) (g : Fin 15) :
    decide (g ∈ flushedGroups old new) =
      (List.finRange 64).any fun i => decide (groupOfStep i = g) && old[i].valid && !new[i].valid := by
  rw [Bool.eq_iff_iff, decide_eq_true_iff]
  simp [flushedGroups, and_comm, and_assoc]

theorem flushed_eq (spare : Bool) (p : PlanStep) :
    p.flushed spare = if p.isProtected = true ∧ spare = true then p else { p with valid := false } := by
  unfold PlanStep.flushed
  simp only [Bool.and_eq_true]

/-- A re-evaluation where no step became valid only takes PENDING entries to IDLE (R145). -/
theorem LatchEntry.revalidate_of_lost (n : EntryId) {was is : Bool} (lost : is = true → was = true) (e : LatchEntry) :
    e.revalidate n was is =
      if e.serve = .pending ∧ was = true ∧ is = false then { e with serve := .idle } else e := by
  unfold LatchEntry.revalidate
  cases was <;> cases is <;> simp at lost ⊢

theorem revalidate_plan (old s : State) : (State.revalidate old s).plan = s.plan := (revalidate_raised s old).plan

theorem revalidate_dirty (old s : State) : (State.revalidate old s).dirty = s.dirty := by
  simp only [State.revalidate]

theorem revalidate_rewritten (old s : State) : (State.revalidate old s).rewritten = s.rewritten := by
  simp only [State.revalidate]

theorem revalidate_latch (old s : State) (n : EntryId) :
    (State.revalidate old s).latch[n] = s.latch[n].revalidate n (old.planValid n) (s.planValid n) := by
  simp [State.revalidate]

/-- Where no step became valid the re-evaluation changes the latch alone: it owes no decision. -/
theorem revalidate_of_lost {old s : State} (lost : ∀ n, s.planValid n = true → old.planValid n = true) :
    State.revalidate old s = { s with latch := (State.revalidate old s).latch } := by
  have quiet : ((List.finRange 51).any fun n =>
      s.latch[n].serve != .pending && (State.revalidate old s).latch[n].serve == .pending) = false := by
    rw [List.any_eq_false]
    intro n _
    rw [revalidate_latch, LatchEntry.revalidate_of_lost n (lost n)]
    split <;> simp
  have due : (State.revalidate old s).decisionDue = s.decisionDue :=
    (congrArg (s.decisionDue || ·) quiet).trans (Bool.or_false _)
  conv_rhs => rw [← due]
  rfl

/-- The node with other steps. -/
def State.withPlan (s : State) (plan : Vector PlanStep 64) : State := { s with plan := plan }

section
variable (s : State) (plan : Vector PlanStep 64)

theorem withPlan_plan : (s.withPlan plan).plan = plan := rfl

theorem withPlan_latch : (s.withPlan plan).latch = s.latch := rfl

theorem withPlan_dirty : (s.withPlan plan).dirty = s.dirty := rfl

theorem withPlan_rewritten : (s.withPlan plan).rewritten = s.rewritten := rfl

theorem withPlan_storing : (s.withPlan plan).storing = s.storing := rfl

theorem withPlan_sourceCfg (n : EntryId) : (s.withPlan plan).sourceCfg n = s.sourceCfg n := rfl

/-- Other steps, and groups marked. -/
theorem withPlan_markAll (gs : List (Fin 15)) :
    (s.withPlan plan).markAll gs =
      { s with
        plan := plan, dirty := ((s.withPlan plan).markAll gs).dirty
        rewritten := ((s.withPlan plan).markAll gs).rewritten } := markAll_eq (s.withPlan plan) gs

end

/-- `t` differs from `s` in the steps, the marks and the latch alone. -/
def State.Flushes (s t : State) : Prop :=
  t = { s with plan := t.plan, dirty := t.dirty, rewritten := t.rewritten, latch := t.latch }

theorem State.Flushes.withLatch {s t : State} (h : s.Flushes t) (latch : Vector LatchEntry 51) :
    s.Flushes { t with latch := latch } :=
  congrArg (fun u : State => ({ u with latch := latch } : State)) h

theorem State.Flushes.settled {s t : State} (h : s.Flushes t) (hs : s.Settled) : t.Settled := by
  rw [h]
  exact hs

/-- The steps after FLUSH_PLANS, and the state with them and their groups marked. -/
def State.flushedSteps (s : State) : Vector PlanStep 64 := Vector.ofFn fun i => s.plan[i].flushed s.node.planProtect
def State.flushedPlans (s : State) : State := (s.withPlan s.flushedSteps).markAll (flushedGroups s.plan s.flushedSteps)

theorem flushedSteps_getElem (s : State) (i : Fin 64) : s.flushedSteps[i] = s.plan[i].flushed s.node.planProtect := by
  simp [State.flushedSteps]

section
variable (s : State)

theorem runFlushPlans_inUse (held : s.stack ≠ []) : s.runFlushPlans = (s, { status := 7 }) := if_pos held

theorem runFlushPlans_empty (empty : s.stack = []) :
    s.runFlushPlans = (State.revalidate s s.flushedPlans, { status := 0 }) := by
  unfold State.runFlushPlans
  rw [if_neg (not_not_intro empty)]
  dsimp only
  rw [markFlushed_eq]
  rfl

theorem flushedPlans_latch : s.flushedPlans.latch = s.latch := by
  rw [State.flushedPlans, markAll_latch, withPlan_latch]

theorem flushedPlans_plan : s.flushedPlans.plan = s.flushedSteps := by
  rw [State.flushedPlans, markAll_plan, withPlan_plan]

/-- Flushing makes no source's step valid. -/
theorem flushedPlans_planValid (n : EntryId) (valid : s.flushedPlans.planValid n = true) : s.planValid n = true := by
  have cfg : s.flushedPlans.sourceCfg n = s.sourceCfg n := by
    rw [State.flushedPlans, markAll_sourceCfg, withPlan_sourceCfg]
  unfold State.planValid at valid ⊢
  rw [cfg, flushedPlans_plan] at valid
  cases step : (s.sourceCfg n).step with
  | none => rw [step] at valid; exact valid
  | some i =>
    rw [step] at valid
    dsimp only at valid
    rw [flushedSteps_getElem] at valid
    exact flushed_valid valid

theorem flushedPlans_flushes : s.Flushes s.flushedPlans := by
  have marked := withPlan_markAll s s.flushedSteps (flushedGroups s.plan s.flushedSteps)
  unfold State.Flushes
  rw [flushedPlans_plan, flushedPlans_latch]
  exact marked

/-- What the flush and the re-evaluation change. -/
theorem revalidate_flushedPlans_flushes : s.Flushes (State.revalidate s s.flushedPlans) := by
  have lost := revalidate_of_lost (flushedPlans_planValid s)
  rw [lost]
  exact (flushedPlans_flushes s).withLatch _

end

theorem reply_plan (s : State) (p : Port) (op : Byte) (r : Request) (a : Answer) : (s.reply p op r a).plan = s.plan :=
  (congrArg State.plan (reply_still s p op r a) : (s.reply p op r a).still.plan = s.still.plan)

theorem reply_entries (s : State) (p : Port) (op : Byte) (r : Request) (a : Answer) : (s.reply p op r a).latch = s.latch :=
  Vector.ext fun i hi => reply_latch s p op r a ⟨i, hi⟩

theorem heard_plan (s : State) (p : Port) : (s.heard p).plan = s.plan := setPort_plan s p _

theorem heard_flushedSteps (s : State) (p : Port) : (s.heard p).flushedSteps = s.flushedSteps := by
  rw [State.flushedSteps, heard_plan, heard_node]
  rfl

section
variable {s : State} {p : Port} {r : Request}

theorem exec_flushPlans_inUse (serves : s.Serves p r) (held : s.stack ≠ []) :
    exec (.flushPlans p r) s = .next ((s.heard p).reply p 5 r { status := 7 }) :=
  congrArg Host.Outcome.next (request_answers (run := State.runFlushPlans) serves 5 false
    (runFlushPlans_inUse _ (by rwa [heard_stack])) (heard_settled serves.1.1))

theorem exec_flushPlans_empty (serves : s.Serves p r) (empty : s.stack = []) :
    exec (.flushPlans p r) s =
      .next ((State.revalidate (s.heard p) (s.heard p).flushedPlans).reply p 5 r { status := 0 }) := by
  refine congrArg Host.Outcome.next (request_answers (run := State.runFlushPlans) serves 5 false
    (runFlushPlans_empty _ ((heard_stack s p).trans empty)) ?_)
  exact (revalidate_flushedPlans_flushes _).settled (heard_settled serves.1.1)

/-- What the reply leaves of such a change. -/
theorem State.Flushes.reply {t : State} (h : s.Flushes t) (op : Byte) (a : Answer) :
    t.reply p op r a =
      State.reply
        { s with
          plan := (t.reply p op r a).plan, dirty := (t.reply p op r a).dirty, rewritten := (t.reply p op r a).rewritten
          latch := (t.reply p op r a).latch }
        p op r a := by
  rw [reply_plan, reply_dirty, reply_rewritten, reply_entries]
  exact congrArg (State.reply · p op r a) h

end

/-- Settles O28: the steps that protection does not spare, their groups, and the entries that waited for them. -/
theorem flushPlansInvalidatesSteps : Obligations.FlushPlansInvalidatesSteps := by
  intro p r s serves
  refine ⟨exec_flushPlans_inUse serves, fun empty => ?_⟩
  obtain ⟨h, heard⟩ : ∃ h, h = s.heard p := ⟨_, rfl⟩
  have steps : h.flushedSteps = s.flushedSteps := by rw [heard, heard_flushedSteps]
  have run := exec_flushPlans_empty serves empty
  have moves := (revalidate_flushedPlans_flushes h).reply (p := p) (r := r) 5 { status := 0 }
  rw [← heard] at run ⊢
  obtain ⟨t, ht⟩ : ∃ t, t = (State.revalidate h h.flushedPlans).reply p 5 r { status := 0 } := ⟨_, rfl⟩
  rw [← ht] at run moves
  have plan : t.plan = s.flushedSteps := by rw [ht, reply_plan, revalidate_plan, flushedPlans_plan, steps]
  have dirty : t.dirty = h.flushedPlans.dirty := by rw [ht, reply_dirty, revalidate_dirty]
  have rewritten : t.rewritten = h.flushedPlans.rewritten := by rw [ht, reply_rewritten, revalidate_rewritten]
  have latch : t.latch = (State.revalidate h h.flushedPlans).latch := by rw [ht, reply_entries]
  have groups : flushedGroups h.plan h.flushedSteps = flushedGroups s.plan t.plan := by rw [steps, plan, heard, heard_plan]
  have valid : ∀ n, t.planValid n = h.flushedPlans.planValid n := fun n => by
    rw [ht, (reply_raised _ p 5 r _).planValid, (revalidate_raised _ _).planValid]
  refine ⟨t, run, fun i => ?_, fun g => ?_, fun g => ?_, fun n => ?_, moves⟩
  · rw [plan, flushedSteps_getElem, flushed_eq]
  · rw [dirty, State.flushedPlans, markAll_dirty, groups, decide_mem_flushedGroups, withPlan_dirty, heard, heard_dirty]
  · rw [rewritten, State.flushedPlans, markAll_rewritten, groups, decide_mem_flushedGroups, withPlan_rewritten,
      withPlan_storing, heard, heard_rewritten, heard_storing]
  · rw [latch, revalidate_latch, LatchEntry.revalidate_of_lost n (flushedPlans_planValid h n), ← valid,
      flushedPlans_latch, heard, heard_latch, heard_planValid]

end Sys2Proof.Machine
end

