-- ==== Sys2Proof/Proofs/TableReads.lean ====
section
/-! PROOFS. Proofs/TableReads.lean: the words that a READ returns (R171): every table's entries by R180's layout and R179's
encodings, and the checks of a READ. O24. -/

namespace Sys2Proof.Machine

/-! ### Encodings (R179) -/

theorem natW_optKindCode (k : Option Kind) : natW (optKindCode k) = kindRead k := by
  rcases k with _ | k
  · rfl
  · cases k <;> rfl

theorem natW_kindCode (k : Kind) : natW (kindCode k) = kindRead (some k) := natW_optKindCode (some k)

theorem natW_optDirectionCode (d : Option Direction) : natW (optDirectionCode d) = dirRead d := by
  rcases d with _ | d
  · rfl
  · cases d <;> rfl

theorem natW_directionCode (d : Direction) : natW (directionCode d) = dirRead (some d) := natW_optDirectionCode (some d)

theorem natW_classCode (c : EventClass) : natW (classCode c) = classRead c := by cases c <;> rfl

theorem natW_policyCode (p : Policy) : natW (policyCode p) = policyRead p := by cases p <;> rfl

theorem natW_stepCode (i : Option (Fin 64)) : natW (stepCode i) = stepRead i := by cases i <;> rfl

theorem natW_nodeStateCode (n : NodeState) : natW (nodeStateCode n) = codeIn [.starting, .lockout, .operating] n := by
  cases n <;> rfl

theorem natW_resetCauseCode (c : ResetCause) : natW (resetCauseCode c) = codeIn [.powerOn, .pin, .restart] c := by
  cases c <;> rfl

theorem natW_portStateCode (p : PortState) : natW (portStateCode p) = codeIn [.down, .probing, .up] p := by cases p <;> rfl

theorem natW_convOutcomeCode (c : ConvOutcome) :
    natW (convOutcomeCode c) = codeIn [.none, .good, .clamped, .low, .high] c := by cases c <;> rfl

theorem natW_termSourceCode (x : TermSource) : natW (termSourceCode x) = codeIn [.loc, .tap] x := by cases x <;> rfl

theorem natW_kindStatusCode (x : KindStatus) : natW (kindStatusCode x) = codeIn [.unused, .ok, .degraded, .failed] x := by
  cases x <;> rfl

theorem natW_endCondCode (x : EndCond) : natW (endCondCode x) = codeIn [.timer, .sourceClear, .held] x := by cases x <;> rfl

theorem natW_jetCode (x : JetKind) : natW (jetCode x) = codeIn [.auto, .off, .fixed, .velocity, .holdLast] x := by
  cases x <;> rfl

theorem natW_passageCode (x : PassageDir) : natW (passageCode x) = codeIn [.autoDoor, .on, .off] x := by cases x <;> rfl

theorem natW_lampCode (x : LampMode) : natW (lampCode x) = codeIn [.off, .steady, .flash] x := by cases x <;> rfl

theorem natW_modeCode (x : TriggerMode) : natW (modeCode x) = codeIn [.set, .clear] x := by cases x <;> rfl

theorem natW_serveCode (x : Serve) : natW (serveCode x) = codeIn [.idle, .pending, .served, .spent] x := by cases x <;> rfl

theorem fanState_read (x : FanState) : [natW (fanStateCode x), natW (optDirectionCode (fanStateDir x))] = x.read := by
  cases x with
  | stopped | fault | disabled => rfl
  | starting d | running d => cases d <;> rfl
  | stopping d => rcases d with _ | d <;> [rfl; (cases d <;> rfl)]

theorem doorState_read (x : DoorState) : [natW (doorStateCode x), natW (doorCauseCode x)] = x.read := by
  cases x with
  | released c | opened c => cases c <;> rfl
  | _ => rfl

/-- The two words of a 32-bit number, most significant first. -/
theorem extractLsb'_high (v : BitVec 32) : v.extractLsb' 16 16 = natW (v.toNat / 65536) := by
  refine BitVec.eq_of_toNat_eq ?_
  simp [natW, BitVec.extractLsb'_toNat, Nat.shiftRight_eq_div_pow]

theorem extractLsb'_low (v : BitVec 32) : v.extractLsb' 0 16 = natW (v.toNat % 65536) := by
  refine BitVec.eq_of_toNat_eq ?_
  simp [natW, BitVec.extractLsb'_toNat]

theorem natW_mod (n : Nat) : natW (n % 65536) = natW n := by
  refine BitVec.eq_of_toNat_eq ?_
  simp [natW]

theorem stampWords_eq (t : Option Stamp) : stampWords t = timeRead t := by
  rcases t with _ | t
  · rfl
  · show [_, _, _] = [_, _, _]
    rw [extractLsb'_high, extractLsb'_low]
    cases t.set <;> rfl

theorem left_eq (s : State) (t : Timer) : s.left t = secondsRead s.now t := by
  cases t with
  | none => exact (by decide : natW ((0 + 999999) / 1000000) = 0)
  | some u => rfl

theorem sourceWords_eq (c : SourceCfg) : c.words = sourceRead c := by
  unfold SourceCfg.words sourceRead
  rw [natW_classCode, natW_stepCode]

theorem dirtyWord_eq (s : State) :
    s.dirtyWord = natW ((List.finRange 15).map fun g => if s.dirty[g] = true then 2 ^ g.val else 0).sum := by
  unfold State.dirtyWord
  rw [List.sum_eq_foldl, List.foldl_map]

theorem periods_eq (F : Fan) : F.periods = F.pNew.toList.length + F.pPrev.toList.length := by
  unfold Fan.periods
  cases F.pNew <;> cases F.pPrev <;> rfl

/-! ### The words of an entry are those that a READ returns (R170, R171) -/

section
variable (s : State)

theorem length_stampWords (t : Option Stamp) : (stampWords t).length = 3 := by cases t <;> rfl

theorem length_contextWords (x : Option (Context × Option Stamp)) : (s.contextWords x).length = 21 := by
  rcases x with _ | ⟨c, drop⟩
  · rfl
  · simp [State.contextWords, length_stampWords, natWords, Cmd.words]

/-- An entry within its table has as many words as R180 gives it; a place of STACK always. -/
theorem length_entryWords (T : Table) {e : Nat} (he : e < T.entries) : (s.entryWords T e).length = T.size := by
  cases T with
  | status => rfl
  | channel => simp only [State.entryWords, dif_pos (show e < 4 from he)]; rfl
  | terms => simp only [State.entryWords, dif_pos (show e < 32 from he)]; rfl
  | kind => rfl
  | fan => simp only [State.entryWords, dif_pos (show e < 3 from he)]; rfl
  | door =>
    simp only [State.entryWords, dif_pos (show e < 2 from he), State.doorWords, List.length_append, length_stampWords]
    rfl
  | source => simp only [State.entryWords, dif_pos (show e < 35 from he)]; rfl
  | linemap => simp only [State.entryWords, dif_pos (show e < 16 from he)]; rfl
  | plan => simp only [State.entryWords, dif_pos (show e < 64 from he)]; rfl
  | tap =>
    simp only [State.entryWords, dif_pos (show e < 128 from he), State.tapWords]
    split <;> rfl
  | node => rfl
  | latch =>
    simp only [State.entryWords, dif_pos (show e < 51 from he), State.latchWords, List.length_append, length_stampWords]
    rfl
  | stack => exact length_contextWords s _

theorem entryRead_eq (T : Table) {e : Nat} (he : e < T.entries) : s.entryRead T e = s.entryWords T e := by
  have length := length_entryWords s T he
  refine List.ext_getElem (by simp [State.entryRead, length]) fun w inside within => ?_
  have hw : w < T.size := length ▸ within
  simp only [State.entryRead, List.getElem_map, List.getElem_range]
  rw [State.tableWord, address_entry hw, address_word hw,
    List.getD_eq_getElem?_getD, List.getElem?_eq_getElem within, Option.getD_some]

theorem contextWords_eq (c : Context) (drop : Option Stamp) : s.contextWords (some (c, drop)) = contextRead s.now c drop := by
  simp only [State.contextWords, contextRead, StepTimer.left, natWords, Cmd.words, stampWords_eq, natW_classCode,
    natW_optDirectionCode, natW_mod]
  cases c.timer <;> rfl

/-! ### Every table's entries (R180) -/

theorem currentLevel_eq : s.currentLevel = (s.stack.head?.map Context.level).getD 0 := by
  unfold State.currentLevel
  cases s.stack <;> rfl

theorem bne_passage (f : FanId) (guard : Bool) : (f != passage && guard) = decide (f ≠ passage ∧ guard = true) := by
  rw [Bool.eq_iff_iff]
  simp

theorem lockDrive_eq (D : Door) : D.lockDrive = decide (D.state = .secured) := beq_eq_decide _ _

theorem operatorDrive_eq (D : Door) : D.operatorDrive = decide (D.policy = .holdOpen ∧ D.state ≠ .fault) := by
  rw [Bool.eq_iff_iff]
  simp [Door.operatorDrive]

theorem stackPlace_of_lt {e : Nat} (saved : e < 3) : s.stackPlace e = s.stack[e]?.map fun c => (c, none) := if_pos saved

theorem stackPlace_dropped : s.stackPlace 3 = s.dropped.map fun d => (d.1, some d.2) := rfl

/-- The words of every table's entries: each field by its encoding. -/
theorem tablesRead : TablesRead s where
  status := by
    rw [entryRead_eq s .status (by decide)]
    simp only [State.entryWords, State.statusWords, natW_nodeStateCode, natW_resetCauseCode, natW_portStateCode, stampWords_eq,
      dirtyWord_eq, currentLevel_eq]
    cases s.storing <;> rfl
  channel := by
    rintro c C rfl
    rw [entryRead_eq s .channel c.isLt]
    simp only [State.entryWords, dif_pos c.isLt, Channel.words, natW_optKindCode, natW_convOutcomeCode]
    rfl
  terms := by
    rintro i x rfl
    rw [entryRead_eq s .terms i.isLt]
    simp only [State.entryWords, dif_pos i.isLt, Term.words, natW_termSourceCode]
    rfl
  kind := by
    rintro k K rfl
    have place : [Kind.co, .no2, .opac, .vel].idxOf k < Table.kind.entries := by cases k <;> decide
    have named : kindAt ([Kind.co, .no2, .opac, .vel].idxOf k) = k := by cases k <;> rfl
    rw [entryRead_eq s .kind place]
    simp only [State.entryWords, named, State.kindWords, natW_kindStatusCode, left_eq]
  fan := by
    rintro f F rfl
    rw [entryRead_eq s .fan f.isLt, ← fanState_read]
    simp only [State.entryWords, dif_pos f.isLt, State.fanWords, FanCfg.words, Cmd.words, natW_optDirectionCode, left_eq,
      periods_eq, bne_passage]
    rfl
  door := by
    rintro d D rfl
    rw [entryRead_eq s .door d.isLt, ← doorState_read, ← lockDrive_eq, ← operatorDrive_eq]
    simp only [State.entryWords, dif_pos d.isLt, State.doorWords, DoorCfg.words, stampWords_eq, natW_policyCode, left_eq]
    rfl
  source i := by
    rw [entryRead_eq s .source i.isLt]
    simp only [State.entryWords, dif_pos i.isLt, sourceWords_eq]
    rfl
  linemap i := by
    rw [entryRead_eq s .linemap i.isLt]
    simp only [State.entryWords, dif_pos i.isLt, LineMapEntry.words, sourceWords_eq]
    rfl
  plan := by
    rintro i P rfl
    rw [entryRead_eq s .plan i.isLt]
    simp only [State.entryWords, dif_pos i.isLt, PlanStep.words, natW_stepCode, natW_endCondCode, natW_jetCode,
      natW_directionCode, natW_passageCode, natW_policyCode, natW_lampCode, natW_modeCode]
    rfl
  tap i := by
    rw [entryRead_eq s .tap i.isLt]
    simp only [State.entryWords, dif_pos i.isLt, State.tapWords, wayLocked, natW_kindCode, flagsCode]
    cases s.tap[i] <;> rfl
  node := by
    rintro N rfl
    rw [entryRead_eq s .node (by decide)]
    simp only [State.entryWords, NodeCfg.words, natW_directionCode]
    rfl
  latch := by
    rintro n e rfl
    rw [entryRead_eq s .latch n.isLt]
    simp only [State.entryWords, dif_pos n.isLt, State.latchWords, stampWords_eq, natW_serveCode, natW_classCode]
  stack e saved := by
    rw [entryRead_eq s .stack (Nat.lt_succ_of_lt saved), State.entryWords, stackPlace_of_lt s saved]
    cases s.stack[e]? with
    | none => rfl
    | some c => exact contextWords_eq s c none
  dropped := by
    rw [entryRead_eq s .stack (by decide), State.entryWords, stackPlace_dropped]
    cases s.dropped with
    | none => rfl
    | some d => exact contextWords_eq s d.1 (some d.2)

end

/-! ### READ (R171) -/

section
variable {s : State} {r : Request} {T : Table}

theorem runRead_badTable (unnamed : Table.ofNumber r.table.toNat = none) : s.runRead r = (s, { status := 4 }) := by
  unfold State.runRead
  rw [unnamed]
  rfl

theorem runRead_named (named : Table.ofNumber r.table.toNat = some T) :
    s.runRead r =
      if 16 < r.count.toNat ∨ T.length < r.index.toNat + r.count.toNat then (s, { status := 5 })
      else (s, { status := 0, data := s.tableWords T r.index.toNat r.count.toNat }) := by
  unfold State.runRead
  rw [named]
  rfl

/-- A READ in STARTING is answered where it is of table 0. -/
theorem request_read {p : Port} {a : Answer} (hears : s.Hears p) (passes : r.wf = true)
    (status : s.nodeState = .starting → r.table = 0) (ran : (s.heard p).runRead r = (s.heard p, a)) :
    exec (.read p r) s = .next ((s.heard p).reply p 1 r a) := by
  have settled := heard_settled (p := p) hears.1
  refine congrArg Host.Outcome.next (goodUp_replies hears ((if_pos passes).trans ?_))
  have served : ¬ ((s.heard p).isStarting && !(r.table == 0)) = true := by
    rw [heard_isStarting]
    intro busy
    simp only [Bool.and_eq_true, isStarting_iff, Bool.not_eq_true', beq_eq_false_iff_ne] at busy
    exact busy.2 (status busy.1)
  unfold State.respond
  rw [if_neg served, ran]
  exact congrArg (State.reply · p 1 r a) (settle_of_settled _ settled)

/-- Hearing a frame leaves every table's words: no table shows a link timer. -/
theorem heard_tableWord (s : State) (p : Port) (T : Table) (a : Nat) : (s.heard p).tableWord T a = s.tableWord T a := by
  have entry : ∀ e, (s.heard p).entryWords T e = s.entryWords T e := fun e => by
    cases T <;> cases p <;> rfl
  unfold State.tableWord
  rw [entry]

end

/-- Settles O24: the tables' words entry by entry, and the checks of a READ in their order. -/
theorem readsAnswerTheTablesWords : Obligations.ReadsAnswerTheTablesWords := by
  refine ⟨tablesRead, fun p r s hears passes status => ⟨fun above => ?_, fun len T length named => ?_⟩⟩
  · exact request_read hears passes status (runRead_badTable (ofNumber_eq_none_iff.mpr above))
  · rw [tableLengths_getElem?, named, Option.map_some, Option.some.injEq] at length
    subst length
    have ran := runRead_named (s := s.heard p) named
    refine ⟨fun beyond => ?_, fun few inside => ?_⟩
    · exact request_read hears passes status (ran.trans (if_pos beyond))
    · have words : (s.heard p).tableWords T r.index.toNat r.count.toNat =
          (List.range r.count.toNat).map fun i => s.tableWord T (r.index.toNat + i) :=
        List.map_congr_left fun i _ => heard_tableWord s p T _
      rw [← words]
      exact request_read hears passes status (ran.trans (if_neg (by omega)))

end Sys2Proof.Machine
end

