-- ==== Sys2Proof/Proofs/Restart.lean ====
section
/-! PROOFS. Proofs/Restart.lean: a RESTART (R177). Its first evaluation reports into queues that the reset has emptied, so the
reports stand in them in turn, the first of them in transmission where the port was UP and idle. O5. -/

namespace Sys2Proof.Machine

/-! ### A port after a RESTART, report by report (R24, R41, R50, R54) -/

/-- The reports that wait in a local queue. -/
def waitingIn (now : Nat) (q : QueueId) (fs : List Frame) : List Queued :=
  (fs.filter fun f => localQueue f == q).map fun f => ⟨f, now⟩

theorem waitingIn_append (now : Nat) (q : QueueId) (fs : List Frame) (f : Frame) :
    waitingIn now q (fs ++ [f]) = waitingIn now q fs ++ if q = localQueue f then [⟨f, now⟩] else [] := by
  unfold waitingIn
  rw [List.filter_append, List.map_append]
  by_cases own : q = localQueue f
  · simp [own]
  · have other : ¬ localQueue f = q := fun e => own e.symm
    simp [own, other]

theorem length_waitingIn_le (now : Nat) (q : QueueId) (fs : List Frame) : (waitingIn now q fs).length ≤ fs.length := by
  unfold waitingIn
  rw [List.length_map]
  exact List.length_filter_le _ _

/-- A port with the given reports waiting, all it held before lost. -/
def LinePort.withWaiting (P : LinePort) (now : Nat) (fs : List Frame) : LinePort :=
  { P with rh := [], lh := waitingIn now .lh fs, rl := [], ll := waitingIn now .ll fs }

theorem withWaiting_queue (P : LinePort) (now : Nat) (fs : List Frame) (f : Frame) :
    (P.withWaiting now fs).queue (localQueue f) = waitingIn now (localQueue f) fs := by
  rcases localQueue_local f with q | q <;> rw [q] <;> rfl

/-- A report that joins its queue is the last of those waiting. -/
theorem withWaiting_setQueue (P : LinePort) (now : Nat) (fs : List Frame) (f : Frame) :
    (P.withWaiting now fs).setQueue (localQueue f) (waitingIn now (localQueue f) fs ++ [⟨f, now⟩]) =
      P.withWaiting now (fs ++ [f]) := by
  unfold LinePort.withWaiting
  rw [waitingIn_append, waitingIn_append]
  rcases localQueue_local f with q | q <;> rw [q] <;> simp [LinePort.setQueue]

theorem afterRestart_down {P : LinePort} (now : Nat) (down : P.isUp = false) (fs : List Frame) :
    P.afterRestart now fs = P.restarted := by
  refine if_neg (c := P.isUp = true) ?_
  rw [down]
  exact Bool.false_ne_true

/-- At an UP port that transmits every report waits. -/
theorem afterRestart_busy {P : LinePort} (now : Nat) (up : P.isUp = true) (busy : P.tx ≠ none) (fs : List Frame) :
    P.afterRestart now fs = P.restarted.withWaiting now fs := by
  refine (if_pos up).trans ?_
  obtain ⟨state, probe, linkTimer, fillTimer, tx, rh, lh, rl, ll, high, low⟩ := P
  cases tx with
  | none => exact absurd rfl busy
  | some f => rfl

theorem afterRestart_nil (now : Nat) (P : LinePort) : P.afterRestart now [] = P.restarted := by
  cases up : P.isUp with
  | false => exact afterRestart_down now up []
  | true =>
    refine (if_pos up).trans ?_
    obtain ⟨state, probe, linkTimer, fillTimer, tx, rh, lh, rl, ll, high, low⟩ := P
    cases tx <;> rfl

/-- At an idle UP port the first report is in transmission. -/
theorem afterRestart_idle {P : LinePort} (now : Nat) (up : P.isUp = true) (idle : P.tx = none) (f : Frame)
    (fs : List Frame) :
    P.afterRestart now (f :: fs) =
      LinePort.withWaiting
        { P.restarted with
          tx := some f, fillTimer := none, high := highAfter (localQueue f), low := lowAfter .rl (localQueue f) }
        now fs := by
  refine (if_pos up).trans ?_
  obtain ⟨state, probe, linkTimer, fillTimer, tx, rh, lh, rl, ll, high, low⟩ := P
  subst idle
  rfl

theorem afterRestart_isUp (now : Nat) (P : LinePort) (fs : List Frame) : (P.afterRestart now fs).isUp = P.isUp := by
  cases up : P.isUp with
  | false =>
    rw [afterRestart_down now up]
    exact up
  | true =>
    by_cases idle : P.tx = none
    · cases fs with
      | nil =>
        rw [afterRestart_nil]
        exact up
      | cons f fs =>
        rw [afterRestart_idle now up idle]
        exact up
    · rw [afterRestart_busy now up idle]
      exact up

/-! ### One report more -/

/-- A report offered to a busy UP port with few waiting joins them (R42). -/
theorem offer_withWaiting {s : State} {p : Port} {P : LinePort} {fs : List Frame} (at_p : s.port p = P.withWaiting s.now fs)
    (up : P.isUp = true) (busy : P.tx ≠ none) (few : fs.length < 8) (f : Frame) :
    s.offer p (localQueue f) f = (s.setPort p (P.withWaiting s.now (fs ++ [f])), false) := by
  have queue : (s.port p).queue (localQueue f) = waitingIn s.now (localQueue f) fs := by rw [at_p, withWaiting_queue]
  have room : (waitingIn s.now (localQueue f) fs).length < (localQueue f).capacity := by
    have few' := Nat.lt_of_le_of_lt (length_waitingIn_le s.now (localQueue f) fs) few
    rcases localQueue_local f with q | q <;> rw [q] at few' ⊢
    · exact few'
    · exact Nat.lt_trans few' (by decide)
  have taken : assign (localQueue f) ⟨f, s.now⟩ ((s.port p).queue (localQueue f)) =
      (waitingIn s.now (localQueue f) fs ++ [⟨f, s.now⟩], .appended) := by rw [queue, assign_room room]
  rw [offer_appended_busy (by rw [at_p]; exact up) (by rw [at_p]; exact busy) taken, at_p, withWaiting_setQueue]

/-- A report offered to a restarted port, few others before it. -/
theorem offer_afterRestart {s : State} {p : Port} {P : LinePort} {fs : List Frame}
    (at_p : s.port p = P.afterRestart s.now fs) (few : fs.length < 8) (f : Frame) :
    s.offer p (localQueue f) f = (s.setPort p (P.afterRestart s.now (fs ++ [f])), false) := by
  cases up : P.isUp with
  | false =>
    rw [offer_down (by rw [at_p, afterRestart_isUp, up]), afterRestart_down _ up, ← afterRestart_down s.now up fs, ← at_p,
      setPort_port_self]
  | true =>
    by_cases idle : P.tx = none
    · cases fs with
      | nil =>
        rw [afterRestart_nil] at at_p
        have empty : ∀ q, (s.port p).queue q = [] := fun q => by rw [at_p]; cases q <;> rfl
        have room : ((s.port p).queue (localQueue f)).length < (localQueue f).capacity := by
          rw [empty]
          cases localQueue f <;> decide
        rw [offer_appended (by rw [at_p]; exact up) (assign_room room _), empty, List.nil_append,
          LinePort.decide_first (by rw [at_p]; exact up) (by rw [at_p]; exact idle) empty, List.nil_append,
          afterRestart_idle _ up idle, at_p]
        rfl
      | cons g gs =>
        rw [List.cons_append, afterRestart_idle _ up idle]
        rw [afterRestart_idle _ up idle] at at_p
        exact offer_withWaiting at_p up (Option.some_ne_none g) (Nat.lt_of_succ_lt few) f
    · rw [afterRestart_busy _ up idle]
      rw [afterRestart_busy _ up idle] at at_p
      exact offer_withWaiting at_p up idle few f

/-! ### The first evaluation (R141) -/

/-- A state amid its first evaluation: the latch, and the reports sent so far. -/
def State.evaluating (s : State) (P Q : LinePort) (latch : Vector LatchEntry 51) (fs : List Frame) : State :=
  { s with latch := latch, ports := { a := P.afterRestart s.now fs, b := Q.afterRestart s.now fs } }

/-- The report of a source's first occurrence. -/
def State.firstReport (s : State) (n : EntryId) : Frame :=
  .event
    { origin := BitVec.ofNat 8 s.posA, transition := .occurred, code := s.sourceCode n, count := 1, cls := s.effClass n
      level := BitVec.ofNat 8 (s.effLevel n), step := BitVec.ofNat 8 (stepCode (s.sourceCfg n).step), clock := s.clock
      flag := BitVec.ofNat 8 (timeFlag s.clockSet) }

section
variable (s : State) (P Q : LinePort) {latch : Vector LatchEntry 51} {fs : List Frame}

theorem sendLocal_evaluating (few : fs.length < 8) (f : Frame) :
    (s.evaluating P Q latch fs).sendLocal f = s.evaluating P Q latch (fs ++ [f]) := by
  have a := offer_afterRestart (s := s.evaluating P Q latch fs) (p := .a) (P := P) rfl few f
  have b := offer_afterRestart (s := (s.evaluating P Q latch fs).setPort .a (P.afterRestart s.now (fs ++ [f]))) (p := .b)
    (P := Q) rfl few f
  unfold State.sendLocal State.offerBoth
  rw [a]
  dsimp only
  rw [show (s.evaluating P Q latch fs).now = s.now from rfl, b]
  rfl

/-- A source found asserted for the first time counts and reports; its step is not valid, so nothing is owed. -/
theorem firstFound_evaluating {n : EntryId} (idle : s.planValid n = false) (reports : (s.sourceCfg n).report = true)
    (few : fs.length < 8) (first : latch[n].count = 0) (b : Bool) :
    State.firstFound n b (s.evaluating P Q latch fs) =
      s.evaluating P Q (foundIn s.stamp s.posA latch (n, b)) (fs ++ if b = true then [s.firstReport n] else []) := by
  cases b with
  | false => exact congrArg (s.evaluating P Q latch) (List.append_nil fs).symm
  | true =>
    have counted : (s.evaluating P Q latch fs).countOccurrence n s.posA =
        s.evaluating P Q (foundIn s.stamp s.posA latch (n, true)) fs := by
      have valid : (s.evaluating P Q latch fs).planValid n = false := idle
      have due : (s.evaluating P Q latch fs).decisionDue = s.decisionDue := rfl
      unfold State.countOccurrence
      rw [valid, due, Bool.and_false, Bool.or_false]
      rfl
    have entry : (foundIn s.stamp s.posA latch (n, true))[n].count = 1 := by
      rw [getElem_foundIn, if_pos ⟨rfl, rfl⟩]
      show latch[n].count + 1 = 1
      rw [first]
      rfl
    have frame : (s.evaluating P Q (foundIn s.stamp s.posA latch (n, true)) fs).eventFrame n .occurred (s.sourceCode n)
        (s.sourceCfg n).step = s.firstReport n := by
      unfold State.firstReport
      rw [← entry]
      rfl
    show ((s.evaluating P Q latch fs).countOccurrence n s.posA).reportOccurred n = _
    rw [counted]
    refine (if_pos reports).trans ?_
    show State.sendLocal _ (State.eventFrame _ n .occurred (s.sourceCode n) (s.sourceCfg n).step) = _
    rw [frame, sendLocal_evaluating s P Q few]
    rfl

end

/-- The tests of the first evaluation, each read from the state that the test before it left (R141). -/
def firstTests : List (EntryId × (State → Bool)) :=
  [(srcLinkDown .a, fun s => !s.ports.a.isUp), (srcLinkDown .b, fun s => !s.ports.b.isUp),
    (srcIsolated jet1, fun s => s.fans[jet1].isoOpen), (srcIsolated jet2, fun s => s.fans[jet2].isoOpen),
    (srcIsolated passage, fun s => s.fans[passage].isoOpen), (srcCallPoint, fun s => s.callPoint)]

theorem firstEvaluation_eq_foldl (s : State) :
    s.firstEvaluation = firstTests.foldl (fun s x => s.firstFound x.1 (x.2 s)) s := rfl

/-- Tests that no report and no occurrence disturbs, each of an entry that has not occurred yet. -/
theorem foldl_firstFound_evaluating (s : State) (P Q : LinePort) (flag : EntryId → Bool) (idle : ∀ n, s.planValid n = false)
    (reports : ∀ n : EntryId, n.val < 35 → (s.sourceCfg n).report = true) :
    ∀ (l : List (EntryId × (State → Bool))) (latch : Vector LatchEntry 51) (fs : List Frame),
      (l.map Prod.fst).Nodup → (∀ x ∈ l, x.1.val < 35 ∧ latch[x.1].count = 0) → fs.length + l.length ≤ 8 →
      (∀ x ∈ l, ∀ latch fs, x.2 (s.evaluating P Q latch fs) = flag x.1) →
      l.foldl (fun s x => s.firstFound x.1 (x.2 s)) (s.evaluating P Q latch fs) =
        s.evaluating P Q (((l.map Prod.fst).map fun n => (n, flag n)).foldl (foundIn s.stamp s.posA) latch)
          (fs ++ ((l.map Prod.fst).filter flag).map s.firstReport)
  | [], latch, fs, _, _, _, _ => by simp
  | x :: l, latch, fs, distinct, device, few, steady => by
    obtain ⟨apart, distinct⟩ := List.nodup_cons.mp distinct
    obtain ⟨small, first⟩ := device x List.mem_cons_self
    rw [List.length_cons] at few
    have found := firstFound_evaluating s P Q (idle x.1) (reports x.1 small) (fs := fs) (by omega) first (flag x.1)
    have later : ∀ y ∈ l, y.1.val < 35 ∧ (foundIn s.stamp s.posA latch (x.1, flag x.1))[y.1].count = 0 := fun y mem => by
      have other : y.1 ≠ x.1 := fun same => apart (same ▸ List.mem_map_of_mem mem)
      rw [getElem_foundIn, if_neg fun h => other h.1]
      exact device y (List.mem_cons_of_mem x mem)
    have room : (fs ++ if flag x.1 = true then [s.firstReport x.1] else []).length + l.length ≤ 8 := by
      split <;> simp <;> omega
    rw [List.foldl_cons, steady x List.mem_cons_self, found,
      foldl_firstFound_evaluating s P Q flag idle reports l _ _ distinct later room fun y mem =>
        steady y (List.mem_cons_of_mem x mem)]
    rw [List.map_cons, List.map_cons, List.foldl_cons, List.filter_cons, List.append_assoc]
    cases flag x.1 <;> rfl

/-! ### The sources tested (R141) -/

/-- The level sources that the first evaluation tests. -/
def testedSources : List EntryId := [0, 1, 21, 22, 23, 30]

theorem firstTests_fst : firstTests.map Prod.fst = testedSources := rfl

theorem assertedAtReset_tested {s : State} {down : Port → Bool} {n : EntryId} (h : s.assertedAtReset down n = true) :
    n ∈ testedSources := by
  simp only [State.assertedAtReset, Bool.or_eq_true, Bool.and_eq_true, beq_iff_eq] at h
  simp only [testedSources, List.mem_cons, List.not_mem_nil, or_false, Fin.ext_iff]
  have v : ((21 : EntryId).val = 21 ∧ (22 : EntryId).val = 22 ∧ (23 : EntryId).val = 23 ∧ (30 : EntryId).val = 30) := by decide
  omega

/-- In index order they are the sources found asserted. -/
theorem filter_assertedAtReset (s : State) (down : Port → Bool) :
    (List.finRange 51).filter (s.assertedAtReset down) = testedSources.filter (s.assertedAtReset down) := by
  have tested : (List.finRange 51).filter (fun n => decide (n ∈ testedSources)) = testedSources := by decide
  conv_rhs => rw [← tested, List.filter_filter]
  refine List.filter_congr fun n _ => ?_
  cases asserted : s.assertedAtReset down n with
  | false => rfl
  | true => simp [assertedAtReset_tested asserted]

/-! ### The state after a RESTART -/

/-- What a RESTART keeps, before the first evaluation and without the ports (R177). -/
def State.keeping (s : State) : State :=
  { s.fresh s.now .restart with
    clock := s.clock, clockSet := s.clockSet, msPhase := s.msPhase, posA := s.posA, posB := s.posB }

/-- A port is not UP. -/
def State.down (s : State) (p : Port) : Bool := !(s.port p).isUp

section
variable (s : State)

theorem keeping_sourceCfg {n : EntryId} (device : n.val < 35) : s.keeping.sourceCfg n = defaultSource ⟨n.val, device⟩ := by
  unfold State.sourceCfg
  rw [dif_pos device]
  exact Vector.getElem_ofFn _

theorem keeping_planValid (n : EntryId) : s.keeping.planValid n = false :=
  (planValid_congr rfl rfl rfl n).trans (fresh_planValid s s.now .restart n)

theorem defaultSource_report (n : Fin 35) : (defaultSource n).report = true := by
  unfold defaultSource
  split
  · rfl
  · split <;> rfl

theorem firstReport_keeping {n : EntryId} (tested : n ∈ testedSources) : s.keeping.firstReport n = s.resetReport n := by
  have device : ∀ n ∈ testedSources, n.val < 35 := by decide
  have cls : ∀ n ∈ testedSources, ∀ h, (defaultSource ⟨n.val, h⟩).cls = if n = srcCallPoint then .life else .advisory := by
    decide
  have level : ∀ n ∈ testedSources, ∀ h, (defaultSource ⟨n.val, h⟩).effLevel = if n = srcCallPoint then 7 else 1 := by
    decide
  have small := device n tested
  unfold State.firstReport State.resetReport State.effClass State.effLevel
  rw [keeping_sourceCfg s small, cls n tested, level n tested, defaultSource_step, sourceCode_device _ small, timeFlag_byte]
  by_cases call : n = srcCallPoint
  · simp only [if_pos call]
    rfl
  · simp only [if_neg call]
    rfl

theorem keeping_isoOpen (f : FanId) : s.keeping.fans[f].isoOpen = s.pins.isolatorOpen[f] := by
  simp [State.keeping, State.fresh, resetFan_isoOpen]

/-- No test is disturbed by a report or an occurrence. -/
theorem firstTests_steady : ∀ x ∈ firstTests, ∀ latch fs,
    x.2 (s.keeping.evaluating s.ports.a s.ports.b latch fs) = s.assertedAtReset s.down x.1 := by
  intro x tested latch fs
  have iso : ∀ f : FanId, (s.keeping.evaluating s.ports.a s.ports.b latch fs).fans[f].isoOpen = s.pins.isolatorOpen[f] :=
    keeping_isoOpen s
  have callPoint : (s.keeping.evaluating s.ports.a s.ports.b latch fs).callPoint = s.pins.callPoint := rfl
  have a : (s.keeping.evaluating s.ports.a s.ports.b latch fs).ports.a.isUp = s.ports.a.isUp := afterRestart_isUp _ _ fs
  have b : (s.keeping.evaluating s.ports.a s.ports.b latch fs).ports.b.isUp = s.ports.b.isUp := afterRestart_isUp _ _ fs
  simp only [firstTests, List.mem_cons, List.not_mem_nil, or_false] at tested
  rcases tested with rfl | rfl | rfl | rfl | rfl | rfl
  · exact (congrArg not a).trans (by simp [State.assertedAtReset, srcLinkDown, State.down, State.port])
  · exact (congrArg not b).trans (by simp [State.assertedAtReset, srcLinkDown, State.down, State.port])
  · exact (iso jet1).trans (by simp [State.assertedAtReset, srcIsolated, jet1])
  · exact (iso jet2).trans (by simp [State.assertedAtReset, srcIsolated, jet2])
  · exact (iso passage).trans (by simp [State.assertedAtReset, srcIsolated, passage])
  · exact callPoint.trans (by simp [State.assertedAtReset, srcCallPoint])

/-- The first evaluation of a RESTART. -/
theorem restarted_evaluating :
    s.restarted = s.keeping.evaluating s.ports.a s.ports.b
      ((testedSources.map fun n => (n, s.assertedAtReset s.down n)).foldl (foundIn s.stamp s.posA) (Vector.replicate 51 {}))
      (((List.finRange 51).filter (s.assertedAtReset s.down)).map s.resetReport) := by
  have begins : s.restarted = (s.keeping.evaluating s.ports.a s.ports.b (Vector.replicate 51 {}) []).firstEvaluation := by
    unfold State.evaluating
    rw [afterRestart_nil, afterRestart_nil]
    rfl
  have reports : ∀ n : EntryId, n.val < 35 → (s.keeping.sourceCfg n).report = true := fun n device => by
    rw [keeping_sourceCfg s device, defaultSource_report]
  have device : ∀ x ∈ firstTests, x.1.val < 35 ∧ (Vector.replicate 51 ({} : LatchEntry))[x.1].count = 0 := fun x tested => by
    have small : ∀ n ∈ testedSources, n.val < 35 := by decide
    exact ⟨small x.1 (firstTests_fst ▸ List.mem_map_of_mem tested), by simp⟩
  have evaluated := foldl_firstFound_evaluating s.keeping s.ports.a s.ports.b (s.assertedAtReset s.down)
    (keeping_planValid s) reports firstTests (Vector.replicate 51 {}) [] (by rw [firstTests_fst]; decide) device
    (by decide) (firstTests_steady s)
  rw [begins, firstEvaluation_eq_foldl, evaluated, firstTests_fst, filter_assertedAtReset, List.nil_append]
  congr 1
  exact List.map_congr_left fun n mem => firstReport_keeping s (List.mem_of_mem_filter mem)

/-- The latch after a RESTART: one occurrence for each level source found asserted. -/
theorem restarted_latch :
    (testedSources.map fun n => (n, s.assertedAtReset s.down n)).foldl (foundIn s.stamp s.posA) (Vector.replicate 51 {}) =
      (s.blocksReset s.now s.down s.stamp s.posA).latch := by
  refine Vector.ext fun i hi => ?_
  have names : (testedSources.map fun n => (n, s.assertedAtReset s.down n)).map Prod.fst = testedSources := rfl
  have found := getElem_foldl_foundIn s.stamp s.posA (testedSources.map fun n => (n, s.assertedAtReset s.down n))
    (by rw [names]; decide) (Vector.replicate 51 {}) ⟨i, hi⟩
  have mem : ((⟨i, hi⟩ : EntryId), true) ∈ (testedSources.map fun n => (n, s.assertedAtReset s.down n)) ↔
      s.assertedAtReset s.down ⟨i, hi⟩ = true := by
    simp only [List.mem_map, Prod.mk.injEq]
    constructor
    · rintro ⟨n, -, rfl, asserted⟩
      exact asserted
    · exact fun asserted => ⟨_, assertedAtReset_tested asserted, rfl, asserted⟩
  simp only [mem, Fin.getElem_fin, Vector.getElem_replicate] at found
  simp only [found, State.blocksReset, Vector.getElem_ofFn]
  split
  · rename_i asserted
    simp [LatchEntry.occurred, assertedAtReset_level asserted]
  · rfl

/-- A RESTART: every block at its reset value but for what it keeps and what the first evaluation reports. -/
theorem restarted_eq :
    s.restarted =
      { s.blocksReset s.now s.down s.stamp s.posA with
        resetCause := .restart, clock := s.clock, clockSet := s.clockSet, msPhase := s.msPhase
        posA := s.posA, posB := s.posB
        ports :=
          { a := s.ports.a.afterRestart s.now (((List.finRange 51).filter (s.assertedAtReset s.down)).map s.resetReport)
            b := s.ports.b.afterRestart s.now (((List.finRange 51).filter (s.assertedAtReset s.down)).map s.resetReport) }
        serial := s.cutShort.1, freeCount := s.cutShort.2 } := by
  rw [restarted_evaluating, restarted_latch]
  rfl

end

/-! ### The request (R177) -/

section
variable (s : State) (p : Port)

theorem heard_down : (s.heard p).down = s.down := by
  funext q
  have same : ((s.heard p).port q).state = (s.port q).state := by cases p <;> cases q <;> rfl
  simp only [State.down, LinePort.isUp, same]

theorem heard_blocksReset (now : Nat) (down : Port → Bool) (t : Stamp) (origin : Nat) :
    (s.heard p).blocksReset now down t origin = s.blocksReset now down t origin := by cases p <;> rfl

theorem heard_resetReport : (s.heard p).resetReport = s.resetReport := by cases p <;> rfl

theorem heard_assertedAtReset (down : Port → Bool) : (s.heard p).assertedAtReset down = s.assertedAtReset down := by
  cases p <;> rfl

theorem heard_cutShort : (s.heard p).cutShort = s.cutShort := by cases p <;> rfl

theorem restarted_settled : s.restarted.Settled := by
  rw [restarted_eq]
  exact ⟨rfl, nofun⟩

/-- The reports of the first evaluation after a RESTART (R141, R147). -/
def State.resetReports : List Frame := ((List.finRange 51).filter (s.assertedAtReset s.down)).map s.resetReport

theorem heard_restarted :
    (s.heard p).restarted =
      { s.blocksReset s.now s.down s.stamp s.posA with
        resetCause := .restart, clock := s.clock, clockSet := s.clockSet, msPhase := s.msPhase
        posA := s.posA, posB := s.posB
        ports :=
          { a := ((s.heard p).port .a).afterRestart s.now s.resetReports
            b := ((s.heard p).port .b).afterRestart s.now s.resetReports }
        serial := s.cutShort.1, freeCount := s.cutShort.2 } := by
  have kept : (s.heard p).clock = s.clock ∧ (s.heard p).clockSet = s.clockSet ∧ (s.heard p).msPhase = s.msPhase ∧
      (s.heard p).posA = s.posA ∧ (s.heard p).posB = s.posB := by cases p <;> exact ⟨rfl, rfl, rfl, rfl, rfl⟩
  obtain ⟨clock, clockSet, msPhase, posA, posB⟩ := kept
  rw [restarted_eq, heard_blocksReset, heard_down, heard_stamp, heard_now, heard_resetReport, heard_assertedAtReset,
    heard_cutShort, clock, clockSet, msPhase, posA, posB]
  rfl

end

theorem exec_restart_serves {s : State} {p : Port} {r : Request} (serves : s.Serves p r) :
    exec (.restart p r) s = .next (s.heard p).restarted := by
  obtain ⟨hears, started, passes⟩ := serves
  have running : ¬ (s.heard p).isStarting = true := by rwa [heard_isStarting, isStarting_iff]
  refine congrArg Host.Outcome.next ((goodUp_hears hears _).trans ?_)
  rw [if_pos passes, if_neg running, settle_of_settled _ (restarted_settled _)]

/-- Settles O5: the state after the first evaluation, and the serial memory apart. -/
theorem restartKeepsPositionsClockAndLinks : Obligations.RestartKeepsPositionsClockAndLinks := by
  intro p r s serves
  have after := heard_restarted s p
  have serial : (s.heard p).restarted.serial = s.cutShort.1 := by rw [after]
  have freeCount : (s.heard p).restarted.freeCount = s.cutShort.2 := by rw [after]
  refine ⟨(s.heard p).restarted, exec_restart_serves serves, cutShort_of_serial serial, ?_⟩
  rw [serial, freeCount]
  exact after

end Sys2Proof.Machine
end

