-- ==== Sys2Proof/Proofs/SourceMoves.lean ====
section
/-! PROOFS. Proofs/SourceMoves.lean: sources that follow their conditions one after the other (R141, R143). Each entry but
QUEUE_OVERRUN's is moved by its own source alone, so what a list of moves makes of it is read from the list; an entry that
becomes PENDING owes a decision (R154). -/

namespace Sys2Proof.Machine

/-! ### One source follows its condition -/

/-- A source's condition went from `was` to `is`. -/
structure SourceMove where
  source : EntryId
  was : Bool
  is : Bool

/-- A source follows its condition, its clearing reported with the given code. -/
def State.followAs (s : State) (m : SourceMove) (code : Word) : State :=
  if m.is && !m.was then s.occur m.source else if m.was && !m.is then s.clearWithCode m.source code else s

/-- What that makes of the source's own entry. -/
def LatchEntry.follows (n : EntryId) (t : Stamp) (origin : Nat) (valid was is : Bool) (e : LatchEntry) : LatchEntry :=
  if is && !was then e.occurred n t origin valid
  else if was && !is && e.asserted then { e with asserted := false, serve := e.serve.cleared }
  else e

section
variable {n : EntryId} {t : Stamp} {origin : Nat} {valid was is : Bool} {e : LatchEntry}

theorem LatchEntry.follows_same (b : Bool) : e.follows n t origin valid b b = e := by
  cases b <;> rfl

theorem LatchEntry.follows_falls_asserted : (e.follows n t origin valid true false).asserted = false := by
  cases asserted : e.asserted <;> simp [LatchEntry.follows, asserted]

theorem LatchEntry.follows_falls (b : Bool) :
    SameRecord { e with asserted := e.asserted && !b } (e.follows n t origin valid b false) := by
  unfold LatchEntry.follows
  cases b <;> cases asserted : e.asserted <;> exact ⟨by simp [asserted], rfl, rfl, rfl, rfl, rfl⟩

/-- An IDLE entry stays IDLE or becomes PENDING. -/
theorem LatchEntry.follows_of_idle (idle : e.serve = .idle) :
    (e.follows n t origin valid was is).serve = .idle ∨ (e.follows n t origin valid was is).serve = .pending := by
  unfold LatchEntry.follows
  split
  · rw [LatchEntry.occurred_serve]
    split
    · exact .inr rfl
    · exact .inl idle
  · split
    · exact .inl (by rw [idle]; rfl)
    · exact .inl idle

/-- A PENDING entry that is as asserted as before still waits: only a clearing could have taken it. -/
theorem LatchEntry.follows_of_pending (waits : e.serve = .pending)
    (same : (e.follows n t origin valid was is).asserted = e.asserted) :
    (e.follows n t origin valid was is).serve = .pending := by
  unfold LatchEntry.follows at same ⊢
  split
  · rw [LatchEntry.occurred_serve, waits, if_neg fun h => nomatch h.1]
  · rename_i falls
    rw [if_neg falls] at same
    split
    · rename_i clears
      rw [if_pos clears] at same
      simp only [Bool.and_eq_true] at clears
      exact absurd (same.trans clears.2) Bool.false_ne_true
    · exact waits

end

/-! ### Sources that follow in turn -/

/-- What a list of moves makes of an entry: its own are taken in turn. -/
def LatchEntry.trail (n : EntryId) (t : Stamp) (origin : Nat) (valid : Bool) (ms : List SourceMove) (e : LatchEntry) :
    LatchEntry :=
  ms.foldl (fun e m => if m.source = n then e.follows n t origin valid m.was m.is else e) e

section
variable {n : EntryId} {t : Stamp} {origin : Nat} {valid : Bool} {ms : List SourceMove}

/-- An entry that no move names stands. -/
theorem LatchEntry.trail_of_not_mem (away : n ∉ ms.map SourceMove.source) (e : LatchEntry) :
    e.trail n t origin valid ms = e := by
  induction ms with
  | nil => rfl
  | cons m ms ih =>
    rw [List.map_cons, List.mem_cons, not_or] at away
    show LatchEntry.trail n t origin valid ms (if m.source = n then _ else e) = e
    rw [if_neg fun h => away.1 h.symm, ih away.2]

/-- Nor does one whose conditions stand move. -/
theorem LatchEntry.trail_of_still (still : ∀ m ∈ ms, m.was = m.is) (e : LatchEntry) : e.trail n t origin valid ms = e := by
  induction ms with
  | nil => rfl
  | cons m ms ih =>
    have stands : (if m.source = n then e.follows n t origin valid m.was m.is else e) = e := by
      rw [still m List.mem_cons_self, follows_same, ite_self]
    show LatchEntry.trail n t origin valid ms (if m.source = n then _ else e) = e
    rw [stands, ih fun m' mem => still m' (List.mem_cons_of_mem m mem)]

/-- Where each source moves once, an entry follows its own move. -/
theorem LatchEntry.trail_of_mem (once : (ms.map SourceMove.source).Nodup) {m : SourceMove} (mem : m ∈ ms) (own : m.source = n)
    (e : LatchEntry) : e.trail n t origin valid ms = e.follows n t origin valid m.was m.is := by
  induction ms generalizing e with
  | nil => exact absurd mem List.not_mem_nil
  | cons m' ms ih =>
    obtain ⟨apart, once⟩ := List.nodup_cons.mp once
    rcases List.mem_cons.mp mem with rfl | later
    · show LatchEntry.trail n t origin valid ms (if m.source = n then _ else e) = _
      rw [if_pos own, trail_of_not_mem (own ▸ apart)]
    · have other : m'.source ≠ n := fun same => apart (same.trans own.symm ▸ List.mem_map_of_mem later)
      show LatchEntry.trail n t origin valid ms (if m'.source = n then _ else e) = _
      rw [if_neg other, ih once later]

/-- So each entry follows one move at most. -/
theorem LatchEntry.trail_eq_follows (once : (ms.map SourceMove.source).Nodup) (e : LatchEntry) :
    ∃ was is, e.trail n t origin valid ms = e.follows n t origin valid was is := by
  by_cases named : n ∈ ms.map SourceMove.source
  · obtain ⟨m, mem, own⟩ := List.mem_map.mp named
    exact ⟨_, _, trail_of_mem once mem own e⟩
  · exact ⟨false, false, (trail_of_not_mem named e).trans (follows_same false).symm⟩

end

/-- t follows from s by the given moves of sources, and by frames and occurrences of QUEUE_OVERRUN. -/
structure State.Follows (ms : List SourceMove) (s t : State) : Prop where
  planning : t.planning = s.planning
  stamp : t.stamp = s.stamp
  posA : t.posA = s.posA
  latch : ∀ n : EntryId, n ≠ srcOverrun → t.latch[n] = s.latch[n].trail n s.stamp s.posA (s.planValid n) ms
  overrun : s.latch[srcOverrun].serve = .pending → t.latch[srcOverrun].serve = .pending
  due : s.decisionDue = true → t.decisionDue = true
  owed : ∀ n : EntryId, t.latch[n].serve = .pending → s.latch[n].serve ≠ .pending → t.decisionDue = true

namespace State.Follows

variable {ms ms' : List SourceMove} {s t r : State}

theorem planValid (h : State.Follows ms s t) (n : EntryId) : t.planValid n = s.planValid n :=
  planValid_congr (congrArg Planning.plan h.planning) (congrArg Planning.sources h.planning)
    (congrArg Planning.lines h.planning) n

/-- An update of nothing that is read here. -/
theorem of_same (planning : t.planning = s.planning) (stamp : t.stamp = s.stamp) (posA : t.posA = s.posA)
    (latch : t.latch = s.latch) (due : t.decisionDue = s.decisionDue) : State.Follows [] s t where
  planning := planning
  stamp := stamp
  posA := posA
  latch _ _ := by rw [latch]; rfl
  overrun waits := by rwa [latch]
  due owed := by rwa [due]
  owed n waits not := absurd (latch ▸ waits) not

theorem refl (s : State) : State.Follows [] s s := of_same rfl rfl rfl rfl rfl

/-- Moves between equal conditions move nothing. -/
theorem of_still (still : ∀ m ∈ ms, m.was = m.is) (s : State) : State.Follows ms s s :=
  { refl s with latch := fun _ _ => (LatchEntry.trail_of_still still _).symm }

theorem trans (h : State.Follows ms s t) (g : State.Follows ms' t r) : State.Follows (ms ++ ms') s r where
  planning := g.planning.trans h.planning
  stamp := g.stamp.trans h.stamp
  posA := g.posA.trans h.posA
  latch n other := by
    rw [g.latch n other, h.stamp, h.posA, h.planValid, h.latch n other]
    exact List.foldl_append.symm
  overrun waits := g.overrun (h.overrun waits)
  due owed := g.due (h.due owed)
  owed n waits not := by
    by_cases between : t.latch[n].serve = .pending
    · exact g.due (h.owed n between not)
    · exact g.owed n waits between

theorem of_offers (h : Reported (fun _ => False) s t) : State.Follows [] s t :=
  of_same (congrArg State.planning h.same : t.unreported.planning = s.unreported.planning)
    (congrArg State.stamp h.same : t.unreported.stamp = s.unreported.stamp) h.posA
    (Vector.ext fun i hi => h.latch ⟨i, hi⟩ id) (h.due fun _ no => no.elim)

end State.Follows

open State.Follows (of_same of_offers)

section
variable (s : State)

/-- An entry that an occurrence made PENDING owes a decision (R154). -/
theorem countOccurrence_owed (n : EntryId) (o : Nat) (m : EntryId)
    (waits : (s.countOccurrence n o).latch[m].serve = .pending) (not : s.latch[m].serve ≠ .pending) :
    (s.countOccurrence n o).decisionDue = true := by
  have entry : (s.countOccurrence n o).latch[m] =
      if m = n then s.latch[n].occurred n s.stamp o (s.planValid n) else s.latch[m] := latch_setLatch s n m _
  rw [entry] at waits
  by_cases own : m = n
  · subst own
    rw [if_pos rfl, LatchEntry.occurred_serve] at waits
    have starts : s.latch[m].serve = .idle ∧ s.planValid m = true := by
      by_contra no
      rw [if_neg no] at waits
      exact not waits
    show (s.decisionDue || (s.latch[m].serve == .idle && s.planValid m)) = true
    rw [starts.1, starts.2]
    exact Bool.or_true _
  · rw [if_neg own] at waits
    exact absurd waits not

theorem countOccurrence_keepsDue (n : EntryId) (o : Nat) (due : s.decisionDue = true) :
    (s.countOccurrence n o).decisionDue = true := by simp [State.countOccurrence, due]

theorem overrun_follows : State.Follows [] s s.overrun := by
  have counted : State.Follows [] s (s.countOccurrence srcOverrun s.posA) :=
    { planning := rfl, stamp := rfl, posA := rfl
      latch := fun n other => (latch_setLatch s srcOverrun n _).trans (if_neg other)
      overrun := fun waits => by
        have own : (s.countOccurrence srcOverrun s.posA).latch[srcOverrun] =
            s.latch[srcOverrun].occurred srcOverrun s.stamp s.posA (s.planValid srcOverrun) :=
          latch_setLatch_self s srcOverrun _
        rw [own, LatchEntry.occurred_serve, waits, if_neg fun h => nomatch h.1]
      due := countOccurrence_keepsDue s _ _
      owed := countOccurrence_owed s _ _ }
  exact counted.trans (of_offers (reportOverrun_reported _ _))

theorem overruns_follows (k : Nat) : State.Follows [] s (State.overruns k s) := by
  induction k generalizing s with
  | zero => exact .refl s
  | succ k ih => exact (overrun_follows s).trans (ih _)

theorem sendLocal_follows (f : Frame) : State.Follows [] s (s.sendLocal f) :=
  (of_offers (offerBoth_reported _ s f)).trans (overruns_follows _ _)

theorem occur_follows {n : EntryId} (other : n ≠ srcOverrun) : State.Follows [⟨n, false, true⟩] s (s.occur n) := by
  have counted : State.Follows [⟨n, false, true⟩] s (s.countOccurrence n s.posA) :=
    { planning := rfl, stamp := rfl, posA := rfl
      latch := fun m _ => by
        refine (latch_setLatch s n m _).trans ?_
        by_cases own : m = n
        · subst own
          exact (if_pos rfl).trans (if_pos rfl).symm
        · exact (if_neg own).trans (if_neg fun h => own h.symm).symm
      overrun := fun waits => (congrArg LatchEntry.serve ((latch_setLatch s n srcOverrun _).trans
        (if_neg fun h => other h.symm))).trans waits
      due := countOccurrence_keepsDue s _ _
      owed := countOccurrence_owed s _ _ }
  have reported : State.Follows [] (s.countOccurrence n s.posA) ((s.countOccurrence n s.posA).reportOccurred n) := by
    unfold State.reportOccurred
    split
    · exact sendLocal_follows _ _
    · exact .refl _
  exact counted.trans reported

theorem clearWithCode_follows {n : EntryId} (other : n ≠ srcOverrun) (code : Word) :
    State.Follows [⟨n, true, false⟩] s (s.clearWithCode n code) := by
  unfold State.clearWithCode
  split
  · rename_i asserted
    have entry : ∀ m : EntryId, (s.markCleared n).latch[m] =
        if m = n then { s.latch[n] with asserted := false, serve := s.latch[n].serve.cleared } else s.latch[m] :=
      fun m => latch_setLatch s n m _
    have marked : State.Follows [⟨n, true, false⟩] s (s.markCleared n) :=
      { planning := rfl, stamp := rfl, posA := rfl
        latch := fun m _ => by
          rw [entry m]
          by_cases own : m = n
          · subst own
            rw [if_pos rfl]
            refine Eq.symm ((if_pos rfl).trans ?_)
            unfold LatchEntry.follows
            rw [asserted]
            rfl
          · exact (if_neg own).trans (if_neg fun h => own h.symm).symm
        overrun := fun waits => by rw [entry, if_neg fun h => other h.symm]; exact waits
        due := id
        owed := fun m waits not => by
          rw [entry] at waits
          by_cases own : m = n
          · rw [if_pos own] at waits
            cases h : s.latch[n].serve <;> rw [h] at waits <;> cases waits
          · rw [if_neg own] at waits
            exact absurd waits not }
    have reported : State.Follows [] (s.markCleared n) ((s.markCleared n).reportCleared n code) := by
      unfold State.reportCleared
      split
      · exact sendLocal_follows _ _
      · exact .refl _
    exact marked.trans reported
  · rename_i free
    have stands : s.latch[n].asserted = false := Bool.eq_false_of_not_eq_true free
    refine
      { planning := rfl, stamp := rfl, posA := rfl, overrun := id, due := id
        owed := fun m waits not => absurd waits not
        latch := fun m _ => ?_ }
    by_cases own : m = n
    · subst own
      refine Eq.symm ((if_pos rfl).trans ?_)
      unfold LatchEntry.follows
      rw [stands]
      rfl
    · exact (if_neg fun h => own h.symm).symm

theorem followAs_follows (m : SourceMove) (other : m.source ≠ srcOverrun) (code : Word) :
    State.Follows [m] s (s.followAs m code) := by
  obtain ⟨n, was, is⟩ := m
  have still : ∀ b, State.Follows [⟨n, b, b⟩] s s := fun b =>
    .of_still (fun m mem => by rw [List.mem_singleton.mp mem]) s
  cases was <;> cases is
  · exact still false
  · exact occur_follows s other
  · exact clearWithCode_follows s other code
  · exact still true

end

end Sys2Proof.Machine
end

