-- ==== Sys2Proof/Proofs/EffectParts.lean ====
section
/-! PROOFS. Proofs/EffectParts.lean: the effects of stored configuration words, part by part in the order of log entry 27 (R8,
R13, R65, R66, R75, R83, R139, R145, R154): which fields each part alters, and which sources it moves. -/

namespace Sys2Proof.Machine

/-! ### What frames, occurrences and clearings leave -/

/-- The state with what frames, occurrences and clearings may touch blanked. -/
def State.hushed (s : State) : State :=
  { s with ports := {}, latch := Vector.replicate 51 {}, stack := [], decisionDue := false }

theorem hushed_of_reported {E : EntryId → Prop} {s t : State} (h : Reported E s t) : t.hushed = s.hushed :=
  congrArg (fun u : State => ({ u with stack := [] } : State)) h.same

theorem occur_hushed (s : State) (n : EntryId) : (s.occur n).hushed = s.hushed :=
  hushed_of_reported (occur_reported (E := anyEntry) trivial s n trivial)

theorem clearWithCode_hushed (s : State) (n : EntryId) (code : Word) : (s.clearWithCode n code).hushed = s.hushed := by
  unfold State.clearWithCode
  split
  · have marked : (s.markCleared n).hushed = s.hushed := rfl
    exact (hushed_of_reported (reportCleared_reported (E := anyEntry) trivial (s.markCleared n) n code)).trans marked
  · rfl

theorem followAs_hushed (s : State) (m : SourceMove) (code : Word) : (s.followAs m code).hushed = s.hushed := by
  unfold State.followAs
  split
  · exact occur_hushed s _
  · split
    · exact clearWithCode_hushed s _ code
    · rfl

/-- The state with the fields blanked that a change of the configuration has effects on. -/
def State.withoutEffects (s : State) : State :=
  { s with
    channels := Vector.replicate 4 {}, kinds := {}, tap := Vector.replicate 128 none, dirty := Vector.replicate 15 false
    rewritten := Vector.replicate 15 false, reportTimer := none, controlTimer := none }

/-- What neither frames, occurrences and clearings nor those effects touch. -/
def State.unaltered (s : State) : State := s.hushed.withoutEffects

theorem unaltered_of_hushed {s t : State} (h : t.hushed = s.hushed) : t.unaltered = s.unaltered :=
  congrArg State.withoutEffects h

/-- All but those fields agree. -/
theorem still_of_unaltered {s t : State} (h : t.unaltered = s.unaltered) :
    t.still =
      { s.still with
        channels := t.channels, kinds := t.kinds, tap := t.tap, dirty := t.dirty, rewritten := t.rewritten
        reportTimer := t.reportTimer, controlTimer := t.controlTimer } :=
  congrArg (fun u : State =>
    { u.still with
      channels := t.channels, kinds := t.kinds, tap := t.tap, dirty := t.dirty, rewritten := t.rewritten
      reportTimer := t.reportTimer, controlTimer := t.controlTimer }) h

/-! ### The channels (R8) -/

section
variable (old s : State)

/-- The move of a channel's loop fault source. -/
def channelMove (c : ChannelId) : SourceMove :=
  ⟨srcLoopFault c, old.channels[c].fault, (s.channels[c].recordChanged old.channels[c].cfg).fault⟩

theorem channelChanged_eq (c : ChannelId) :
    State.channelChanged old s c =
      (s.setChannel c (s.channels[c].recordChanged old.channels[c].cfg)).followAs (channelMove old s c)
        ((s.setChannel c (s.channels[c].recordChanged old.channels[c].cfg)).sourceCode (srcLoopFault c)) := rfl

theorem channelChanged_hushed (c : ChannelId) :
    (State.channelChanged old s c).hushed =
      { s.hushed with channels := s.channels.set c (s.channels[c].recordChanged old.channels[c].cfg) } := by
  rw [channelChanged_eq, followAs_hushed]
  rfl

theorem channelChanged_channels (c d : ChannelId) :
    (State.channelChanged old s c).channels[d] =
      if d = c then s.channels[c].recordChanged old.channels[c].cfg else s.channels[d] := by
  have channels : (State.channelChanged old s c).channels = (s.setChannel c _).channels :=
    (congrArg State.channels (channelChanged_hushed old s c) :)
  rw [channels, channels_setChannel]

theorem srcLoopFault_ne_srcOverrun (c : ChannelId) : srcLoopFault c ≠ srcOverrun := by revert c; decide

theorem setChannel_follows (c : ChannelId) (C : Channel) : State.Follows [] s (s.setChannel c C) :=
  .of_same rfl rfl rfl rfl rfl

theorem channelChanged_follows (c : ChannelId) :
    State.Follows [channelMove old s c] s (State.channelChanged old s c) :=
  (setChannel_follows s c _).trans (followAs_follows _ (channelMove old s c) (srcLoopFault_ne_srcOverrun c) _)

end

/-- Channels changed in turn: each by its own record, each loop fault source by its own channel. -/
structure ChannelsChanged (old s t : State) (l : List ChannelId) : Prop where
  hushed : t.hushed = { s.hushed with channels := t.channels }
  channels : ∀ d : ChannelId,
    t.channels[d] = if d ∈ l then s.channels[d].recordChanged old.channels[d].cfg else s.channels[d]
  follows : State.Follows (l.map (channelMove old s)) s t

theorem channelsChanged (old : State) : ∀ (l : List ChannelId) (s : State), l.Nodup →
    ChannelsChanged old s (l.foldl (State.channelChanged old) s) l
  | [], s, _ => ⟨rfl, fun _ => rfl, .refl s⟩
  | c :: l, s, once => by
    obtain ⟨apart, once⟩ := List.nodup_cons.mp once
    have first := channelChanged_channels old s c
    have rest := channelsChanged old l (State.channelChanged old s c) once
    have others : ∀ d ∈ l, (State.channelChanged old s c).channels[d] = s.channels[d] := fun d mem =>
      (first d).trans (if_neg fun same : d = c => apart (same ▸ mem))
    refine ⟨?_, fun d => ?_, ?_⟩
    · rw [List.foldl_cons, rest.hushed, channelChanged_hushed]
    · rw [List.foldl_cons, rest.channels d]
      by_cases later : d ∈ l
      · rw [if_pos later, others d later, if_pos (List.mem_cons_of_mem c later)]
      · rw [if_neg later, first d]
        by_cases own : d = c
        · subst own
          rw [if_pos rfl, if_pos List.mem_cons_self]
        · rw [if_neg own, if_neg (by simp [own, later])]
    · have moves : l.map (channelMove old (State.channelChanged old s c)) = l.map (channelMove old s) :=
        List.map_congr_left fun d mem => by
          unfold channelMove
          rw [others d mem]
      rw [List.foldl_cons, List.map_cons, ← moves]
      exact (channelChanged_follows old s c).trans rest.follows

/-! ### The kinds (R83, R86, R87) -/

section
variable (s : State)

/-- The moves of the kinds' sources between two sets of kinds: the failed sources in kind order, then the alarms. -/
def kindMoves (old new : Kinds) : List SourceMove :=
  [⟨srcKindFailed .co, old.co.status == .failed, new.co.status == .failed⟩,
    ⟨srcKindFailed .no2, old.no2.status == .failed, new.no2.status == .failed⟩,
    ⟨srcKindFailed .opac, old.opac.status == .failed, new.opac.status == .failed⟩,
    ⟨srcKindFailed .vel, old.vel.status == .failed, new.vel.status == .failed⟩,
    ⟨11, old.co.alarm, new.co.alarm⟩, ⟨12, old.no2.alarm, new.no2.alarm⟩, ⟨13, old.opac.alarm, new.opac.alarm⟩]

theorem failedChange_eq (k : Kind) (was is : KindStatus) :
    s.failedChange k was is =
      s.followAs ⟨srcKindFailed k, was == .failed, is == .failed⟩ (s.sourceCode (srcKindFailed k)) := by
  unfold State.failedChange State.followAs
  cases was <;> cases is <;> rfl

theorem srcKindFailed_ne_srcOverrun (k : Kind) : srcKindFailed k ≠ srcOverrun := by cases k <;> decide

theorem failedChange_follows (k : Kind) (was is : KindStatus) :
    State.Follows [⟨srcKindFailed k, was == .failed, is == .failed⟩] s (s.failedChange k was is) := by
  rw [failedChange_eq]
  exact followAs_follows s _ (srcKindFailed_ne_srcOverrun k) _

theorem failedChange_hushed (k : Kind) (was is : KindStatus) : (s.failedChange k was is).hushed = s.hushed := by
  rw [failedChange_eq, followAs_hushed]

theorem alarmChange_eq {k : Kind} {n : EntryId} (source : srcGasAlarm k = some n) (was is : Bool) :
    s.alarmChange k was is = s.followAs ⟨n, was, is⟩ (s.sourceCode n) := by
  unfold State.alarmChange
  rw [source]
  rfl

theorem alarmChange_follows {k : Kind} {n : EntryId} (source : srcGasAlarm k = some n) (other : n ≠ srcOverrun)
    (was is : Bool) : State.Follows [⟨n, was, is⟩] s (s.alarmChange k was is) := by
  rw [alarmChange_eq s source]
  exact followAs_follows s _ other _

theorem alarmChange_hushed (k : Kind) (was is : Bool) : (s.alarmChange k was is).hushed = s.hushed := by
  cases source : srcGasAlarm k with
  | none =>
    unfold State.alarmChange
    rw [source]
  | some n => rw [alarmChange_eq s source, followAs_hushed]

theorem kindSources_follows (old : Kinds) : State.Follows (kindMoves old s.kinds) s (State.kindSources old s) :=
  (failedChange_follows s .co _ _).trans <| (failedChange_follows _ .no2 _ _).trans <|
    (failedChange_follows _ .opac _ _).trans <| (failedChange_follows _ .vel _ _).trans <|
    (alarmChange_follows _ (k := .co) rfl (by decide) _ _).trans <|
    (alarmChange_follows _ (k := .no2) rfl (by decide) _ _).trans
    (alarmChange_follows _ (k := .opac) rfl (by decide) _ _)

theorem kindSources_hushed (old : Kinds) : (State.kindSources old s).hushed = s.hushed := by
  unfold State.kindSources
  rw [alarmChange_hushed, alarmChange_hushed, alarmChange_hushed, failedChange_hushed, failedChange_hushed,
    failedChange_hushed, failedChange_hushed]

/-- The kinds as the term lists now have them. -/
def State.usedKinds : Kinds :=
  { co := s.kinds.co.usedChange (s.kindUsed .co)
    no2 := s.kinds.no2.usedChange (s.kindUsed .no2)
    opac := s.kinds.opac.usedChange (s.kindUsed .opac)
    vel := s.kinds.vel.usedChange (s.kindUsed .vel) }

/-- The kinds after the effects of a change: as the term lists have them where those changed. -/
def State.kindsAfter (old : State) : Kinds := if s.terms = old.terms then s.kinds else s.usedKinds

theorem termsChanged_eq : s.termsChanged = State.kindSources s.kinds { s with kinds := s.usedKinds } := rfl

theorem termsChanged_follows : State.Follows (kindMoves s.kinds s.usedKinds) s s.termsChanged := by
  have stored : State.Follows [] s { s with kinds := s.usedKinds } := .of_same rfl rfl rfl rfl rfl
  rw [termsChanged_eq]
  exact stored.trans (kindSources_follows { s with kinds := s.usedKinds } s.kinds)

theorem termsChanged_hushed : s.termsChanged.hushed = { s.hushed with kinds := s.usedKinds } :=
  (kindSources_hushed _ _).trans rfl

/-- The effect of the term lists, if they changed. -/
def State.termsFollowed (old : State) : State := if s.terms = old.terms then s else s.termsChanged

theorem kindMoves_same (K : Kinds) : ∀ m ∈ kindMoves K K, m.was = m.is := by
  simp [kindMoves]

theorem termsFollowed_follows (old : State) :
    State.Follows (kindMoves s.kinds (s.kindsAfter old)) s (s.termsFollowed old) := by
  unfold State.kindsAfter State.termsFollowed
  split
  · exact .of_still (kindMoves_same s.kinds) s
  · exact termsChanged_follows s

theorem termsFollowed_hushed (old : State) :
    (s.termsFollowed old).hushed = { s.hushed with kinds := s.kindsAfter old } := by
  unfold State.kindsAfter State.termsFollowed
  split
  · rfl
  · exact termsChanged_hushed s

/-- A kind after the effects of a change (R83). -/
theorem kindUsed_iff (k : Kind) : s.kindUsed k = true ↔ ∃ x ∈ s.termsOf k, x.weight ≠ 0 := by
  simp [State.kindUsed]

theorem usedChange_eq (k : Kind) [Decidable (∃ x ∈ s.termsOf k, x.weight ≠ 0)] (K : KindUnit) :
    K.usedChange (s.kindUsed k) = K.after (∃ x ∈ s.termsOf k, x.weight ≠ 0) := by
  unfold KindUnit.usedChange KindUnit.after
  by_cases used : ∃ x ∈ s.termsOf k, x.weight ≠ 0
  · rw [if_pos ((kindUsed_iff s k).mpr used)]
    simp only [used, true_and, not_true_eq_false, false_and, if_false]
  · rw [if_neg (mt (kindUsed_iff s k).mp used)]
    simp only [used, false_and, not_false_eq_true, true_and, if_false]
    by_cases unused : K.status = .unused
    · rw [if_pos unused, if_neg (not_not_intro unused)]
    · rw [if_neg unused, if_pos unused]

end

/-! ### The NODE fields (R13, R65, R66, R75) -/

section
variable (s old : State)

/-- Some way whose lock changed holds a valid entry (R66). -/
def State.relocks (s old : State) : Prop :=
  ∃ i : Fin 128, s.tap[i] ≠ none ∧ ¬(wayOf i < old.node.effLock ↔ wayOf i < s.node.effLock)

theorem relocks_iff :
    ((List.finRange 128).any fun i =>
      (wayLocked old.node.effLock (wayOf i) != wayLocked s.node.effLock (wayOf i)) && (s.tap[i]).isSome) = true ↔
        s.relocks old := by
  simp only [State.relocks, wayLocked, List.any_eq_true, List.mem_finRange, true_and, Bool.and_eq_true, bne_iff_ne, ne_eq,
    decide_eq_decide, Option.isSome_iff_ne_none]
  exact exists_congr fun i => and_comm

theorem relock_eq (l0 l1 way : Nat) (e : TapEntry) :
    e.relock l0 l1 way =
      if way < l1 ∧ ¬ way < l0 then { e with lockedLoad := false, loadKind := e.kind, loadValue := e.value }
      else if way < l0 ∧ ¬ way < l1 then { e with lockedLoad := false }
      else e := by
  simp only [TapEntry.relock, wayLocked, Bool.and_eq_true, Bool.not_eq_true', decide_eq_true_eq, decide_eq_false_iff_not]

theorem relock_same (l way : Nat) (e : TapEntry) : e.relock l l way = e := by
  rw [relock_eq, if_neg fun h => h.2 h.1, if_neg fun h => h.2 h.1]

/-- The timers that follow NODE fields (R13, R75). -/
def State.nodeTimers : State :=
  { s with
    reportTimer := if s.node.reportPeriod = old.node.reportPeriod then s.reportTimer
      else some (s.now + s.node.reportPeriod * 1000000)
    controlTimer := if s.node.controlPeriod = old.node.controlPeriod then s.controlTimer
      else some (s.now + s.node.controlPeriod * 1000000) }

/-- The locked ways that follow the lock count (R65, R66). -/
def State.lockFollowed : State :=
  if s.node.effLock = old.node.effLock then s else s.lockChanged old.node.effLock s.node.effLock

theorem nodeChanged_eq : s.nodeChanged old = (s.nodeTimers old).lockFollowed old := by
  unfold State.nodeChanged State.lockFollowed State.nodeTimers
  dsimp only
  split <;> split <;> rfl

theorem lockFollowed_alters :
    s.lockFollowed old =
      { s with
        tap := (s.lockFollowed old).tap, dirty := (s.lockFollowed old).dirty
        rewritten := (s.lockFollowed old).rewritten } := by
  unfold State.lockFollowed
  split
  · rfl
  · unfold State.lockChanged
    dsimp only
    split <;> rfl

theorem lockFollowed_tap (i : Fin 128) :
    (s.lockFollowed old).tap[i] = s.tap[i].map (TapEntry.relock old.node.effLock s.node.effLock (wayOf i)) := by
  unfold State.lockFollowed
  split
  · rename_i same
    have id_map : TapEntry.relock old.node.effLock s.node.effLock (wayOf i) = id := by
      funext e
      rw [same, relock_same]
      rfl
    rw [id_map, Option.map_id_fun, id]
  · exact lockChanged_getElem s _ _ i

theorem not_relocks (same : s.node.effLock = old.node.effLock) : ¬ s.relocks old := by
  rintro ⟨i, -, differs⟩
  exact differs (by rw [same])

/-- The TAPLOCK mark, set when a way that changed state held a valid entry. -/
theorem lockFollowed_dirty [Decidable (s.relocks old)] :
    (s.lockFollowed old).dirty = if s.relocks old then s.dirty.set groupTaplock true else s.dirty := by
  unfold State.lockFollowed
  split
  · rename_i same
    rw [if_neg (not_relocks s old same)]
  · unfold State.lockChanged
    simp only [relocks_iff]
    split <;> rfl

theorem lockFollowed_rewritten [Decidable (s.relocks old)] :
    (s.lockFollowed old).rewritten =
      if s.relocks old ∧ s.storing.inHand = some groupTaplock then s.rewritten.set groupTaplock true else s.rewritten := by
  unfold State.lockFollowed
  split
  · rename_i same
    rw [if_neg fun h => not_relocks s old same h.1]
  · unfold State.lockChanged
    simp only [relocks_iff]
    split
    · rename_i moved
      simp only [moved, true_and]
      rfl
    · rename_i moved
      rw [if_neg fun h => moved h.1]

theorem nodeChanged_follows : State.Follows [] s (s.nodeChanged old) := by
  rw [nodeChanged_eq, lockFollowed_alters]
  exact .of_same rfl rfl rfl rfl rfl

theorem nodeChanged_unaltered : (s.nodeChanged old).unaltered = s.unaltered := by
  rw [nodeChanged_eq, lockFollowed_alters]
  rfl

end

/-! ### The line entries (R139) -/

section
variable (old s : State)

/-- The move of a line entry's source: where its code changed, it clears. -/
def lineMove (i : Fin 16) : SourceMove := ⟨srcLine i, decide (s.lines[i].code ≠ old.lines[i].code), false⟩

theorem srcLine_ne_srcOverrun (i : Fin 16) : srcLine i ≠ srcOverrun := by revert i; decide

theorem lineChanged_eq (i : Fin 16) :
    State.lineChanged old s i = s.followAs (lineMove old s i) old.lines[i].code := by
  unfold State.lineChanged State.followAs lineMove
  by_cases same : s.lines[i].code = old.lines[i].code
  · rw [if_pos same, decide_eq_false (not_not_intro same)]
    rfl
  · rw [if_neg same, decide_eq_true same]
    rfl

end

/-- The line entries in turn: each source by its own entry. -/
theorem linesChanged (old : State) : ∀ (l : List (Fin 16)) (s : State),
    (l.foldl (State.lineChanged old) s).hushed = s.hushed ∧
      State.Follows (l.map (lineMove old s)) s (l.foldl (State.lineChanged old) s)
  | [], s => ⟨rfl, .refl s⟩
  | i :: l, s => by
    have first : State.Follows [lineMove old s i] s (State.lineChanged old s i) := by
      rw [lineChanged_eq]
      exact followAs_follows s (lineMove old s i) (srcLine_ne_srcOverrun i) _
    have hushed : (State.lineChanged old s i).hushed = s.hushed := by rw [lineChanged_eq, followAs_hushed]
    obtain ⟨still, rest⟩ := linesChanged old l (State.lineChanged old s i)
    have lines : (State.lineChanged old s i).lines = s.lines := (congrArg State.lines hushed :)
    have moves : lineMove old (State.lineChanged old s i) = lineMove old s := by
      funext j
      unfold lineMove
      rw [lines]
    rw [moves] at rest
    exact ⟨still.trans hushed, first.trans rest⟩

end Sys2Proof.Machine
end

