-- ==== Sys2Proof/Proofs/ChangeEffects.lean ====
section
/-! PROOFS. Proofs/ChangeEffects.lean: the effects of stored configuration words together (log entry 27; R8, R13, R65, R66,
R75, R83, R139, R145, R154, R185). Each source but QUEUE_OVERRUN's follows one move at most, and the re-evaluation comes after
all of them. -/

namespace Sys2Proof.Machine

/-! ### The sources that a change may move -/

/-- The loop fault sources, the kinds' and the line entries'. -/
def changeSources : List EntryId :=
  (List.finRange 4).map srcLoopFault ++
    ([srcKindFailed .co, srcKindFailed .no2, srcKindFailed .opac, srcKindFailed .vel, 11, 12, 13] ++
      (List.finRange 16).map srcLine)

theorem changeSources_nodup : changeSources.Nodup := by decide

theorem not_mem_changeSources : ∀ n : EntryId, n.val < 6 ∨ (18 ≤ n.val ∧ n.val < 35) → n ∉ changeSources := by decide

theorem not_isLevel_srcOverrun : isLevel srcOverrun = false := rfl

section
variable (old s : State)

/-- Their moves, `s` being the state with the words stored. -/
def changeMoves : List SourceMove :=
  (List.finRange 4).map (channelMove old s) ++
    (kindMoves s.kinds (s.kindsAfter old) ++ (List.finRange 16).map (lineMove old s))

theorem changeMoves_sources : (changeMoves old s).map SourceMove.source = changeSources := by
  simp only [changeMoves, changeSources, List.map_append, List.map_map]
  rfl

theorem channelMove_mem (c : ChannelId) : channelMove old s c ∈ changeMoves old s :=
  List.mem_append_left _ (List.mem_map_of_mem (List.mem_finRange c))

theorem lineMove_mem (i : Fin 16) : lineMove old s i ∈ changeMoves old s :=
  List.mem_append_right _ (List.mem_append_right _ (List.mem_map_of_mem (List.mem_finRange i)))

theorem kindMove_mem {m : SourceMove} (mem : m ∈ kindMoves s.kinds (s.kindsAfter old)) : m ∈ changeMoves old s :=
  List.mem_append_right _ (List.mem_append_left _ mem)

end

/-! ### The state before the re-evaluation -/

/-- What the effects of NODE fields read and change. -/
structure NodeFields where
  node : NodeCfg
  now : Nat
  storing : StoreState
  tap : Vector (Option TapEntry) 128
  dirty : Vector Bool 15
  rewritten : Vector Bool 15
  reportTimer : Timer
  controlTimer : Timer

def State.nodeFields (s : State) : NodeFields :=
  ⟨s.node, s.now, s.storing, s.tap, s.dirty, s.rewritten, s.reportTimer, s.controlTimer⟩

theorem nodeFields_of_hushed {s t : State} (h : t.hushed = s.hushed) : t.nodeFields = s.nodeFields :=
  (congrArg State.nodeFields h :)

theorem channels_of_hushed {s t : State} (h : t.hushed = s.hushed) : t.channels = s.channels :=
  (congrArg State.channels h :)

theorem kinds_of_hushed {s t : State} (h : t.hushed = s.hushed) : t.kinds = s.kinds := (congrArg State.kinds h :)

theorem lockFollowed_congr {s t : State} (old : State) (h : t.nodeFields = s.nodeFields) :
    (t.lockFollowed old).nodeFields = (s.lockFollowed old).nodeFields := by
  have fields := h
  simp only [State.nodeFields, NodeFields.mk.injEq] at fields
  obtain ⟨node, -, storing, tap, dirty, rewritten, -, -⟩ := fields
  unfold State.lockFollowed State.lockChanged
  rw [node]
  split
  · exact h
  · dsimp only
    rw [tap]
    split <;> simpa [State.nodeFields, State.markDirty, storing, dirty, rewritten, node, tap] using h

theorem nodeChanged_congr {s t : State} (old : State) (h : t.nodeFields = s.nodeFields) :
    (t.nodeChanged old).nodeFields = (s.nodeChanged old).nodeFields := by
  rw [nodeChanged_eq, nodeChanged_eq]
  refine lockFollowed_congr old ?_
  simp only [State.nodeFields, NodeFields.mk.injEq] at h
  obtain ⟨node, now, storing, tap, dirty, rewritten, report, control⟩ := h
  simp only [State.nodeFields, State.nodeTimers, node, now, storing, tap, dirty, rewritten, report, control]

/-- The parts of a change taken, up to the entries reclassed and re-evaluated: `u` follows from `s`, the state with the words
stored. -/
structure PartsTaken (old s u : State) : Prop where
  unaltered : u.unaltered = s.unaltered
  follows : State.Follows (changeMoves old s) s u
  channels : ∀ c : ChannelId, u.channels[c] = s.channels[c].recordChanged old.channels[c].cfg
  kinds : u.kinds = s.kindsAfter old
  nodeFields : u.nodeFields = (s.nodeChanged old).nodeFields

/-- The channels, the term lists, the NODE fields and the line entries in turn (log entry 27). -/
def State.partsFollowed (old s : State) : State :=
  (List.finRange 16).foldl (State.lineChanged old)
    ((((List.finRange 4).foldl (State.channelChanged old) s).termsFollowed old).nodeChanged old)

theorem changed_eq_partsFollowed (old s : State) :
    State.changed old s =
      State.revalidate old
        { State.partsFollowed old s with
          decisionDue := (State.partsFollowed old s).decisionDue || (State.partsFollowed old s).pendingReclassed old } := rfl

theorem kindsAfter_congr {s t : State} (old : State) (terms : t.terms = s.terms) (kinds : t.kinds = s.kinds) :
    t.kindsAfter old = s.kindsAfter old := by
  simp only [State.kindsAfter, State.usedKinds, State.kindUsed, State.termsOf, terms, kinds]

theorem lineMove_congr {s t : State} (old : State) (lines : t.lines = s.lines) : lineMove old t = lineMove old s := by
  funext i
  simp only [lineMove, lines]

theorem nodeChanged_channels (s old : State) : (s.nodeChanged old).channels = s.channels := by
  rw [nodeChanged_eq, lockFollowed_alters]
  rfl

theorem nodeChanged_kinds (s old : State) : (s.nodeChanged old).kinds = s.kinds := by
  rw [nodeChanged_eq, lockFollowed_alters]
  rfl

theorem partsFollowed_taken (old s : State) : PartsTaken old s (State.partsFollowed old s) := by
  obtain ⟨u, hu⟩ : ∃ u, u = (List.finRange 4).foldl (State.channelChanged old) s := ⟨_, rfl⟩
  obtain ⟨v, hv⟩ : ∃ v, v = u.termsFollowed old := ⟨_, rfl⟩
  obtain ⟨w, hw⟩ : ∃ w, w = v.nodeChanged old := ⟨_, rfl⟩
  have channels := channelsChanged old (List.finRange 4) s (List.nodup_finRange 4)
  have terms := termsFollowed_hushed u old
  have termMoves := termsFollowed_follows u old
  have node := nodeChanged_unaltered v old
  obtain ⟨lines, lineMoves⟩ := linesChanged old (List.finRange 16) w
  rw [← hu] at channels
  rw [← hv] at terms termMoves
  rw [← hw] at node
  have kindsThere : u.kinds = s.kinds := (congrArg State.kinds channels.hushed :)
  have kinds : u.kindsAfter old = s.kindsAfter old :=
    kindsAfter_congr old (congrArg State.terms channels.hushed :) kindsThere
  have termsThere : v.channels = u.channels := (congrArg State.channels terms :)
  have termsHere : v.kinds = u.kindsAfter old := (congrArg State.kinds terms :)
  have upToTerms : v.unaltered = s.unaltered :=
    Eq.trans (b := u.unaltered) (congrArg State.withoutEffects terms :) (congrArg State.withoutEffects channels.hushed :)
  have linesThere : w.lines = s.lines := (congrArg State.lines (node.trans upToTerms) :)
  rw [kindsThere, kinds] at termMoves
  rw [lineMove_congr old linesThere] at lineMoves
  have nodeMoves : State.Follows [] v w := hw ▸ nodeChanged_follows v old
  have last : State.partsFollowed old s = (List.finRange 16).foldl (State.lineChanged old) w := by rw [hw, hv, hu]; rfl
  have fromTerms : v.nodeFields = s.nodeFields :=
    Eq.trans (b := u.nodeFields) (congrArg State.nodeFields terms :) (congrArg State.nodeFields channels.hushed :)
  rw [last]
  exact
    { unaltered := (unaltered_of_hushed lines).trans (node.trans upToTerms)
      follows := channels.follows.trans (termMoves.trans (nodeMoves.trans lineMoves))
      channels := fun c => by
        rw [channels_of_hushed lines, hw, nodeChanged_channels, termsThere, channels.channels c,
          if_pos (List.mem_finRange c)]
      kinds := by
        rw [kinds_of_hushed lines, hw, nodeChanged_kinds, termsHere, kinds]
      nodeFields := (nodeFields_of_hushed lines).trans (hw ▸ nodeChanged_congr old fromTerms) }

/-! ### The re-evaluation (R145) -/

section
variable (n : EntryId) (was is : Bool) (e : LatchEntry)

theorem LatchEntry.revalidate_same : SameRecord e (e.revalidate n was is) := by
  unfold LatchEntry.revalidate
  split
  · exact ⟨rfl, rfl, rfl, rfl, rfl, rfl⟩
  · split <;> exact ⟨rfl, rfl, rfl, rfl, rfl, rfl⟩

/-- An entry whose step lost its validity does not wait. -/
theorem LatchEntry.revalidate_lost : (e.revalidate n true false).serve ≠ .pending := by
  cases h : e.serve <;> simp [LatchEntry.revalidate, h]

/-- An asserted IDLE or PENDING level entry whose step became valid waits. -/
theorem LatchEntry.revalidate_found (level : isLevel n = true) (asserted : e.asserted = true)
    (due : e.serve = .idle ∨ e.serve = .pending) : (e.revalidate n false true).serve = .pending := by
  rcases due with h | h <;> simp [LatchEntry.revalidate, h, level, asserted]

/-- One that waits for a valid step goes on waiting. -/
theorem LatchEntry.revalidate_waits (waits : e.serve = .pending) : (e.revalidate n was true).serve = .pending := by
  cases was <;> simp [LatchEntry.revalidate, waits]

end

section
variable (old s : State)

/-- The re-evaluation moves the latch and what it owes alone. -/
theorem revalidate_hushed : (State.revalidate old s).hushed = s.hushed := by
  simp only [State.revalidate, State.hushed]

/-- An entry that it makes PENDING owes a decision (R154), and one owed stays owed. -/
theorem revalidate_owed {n : EntryId} (waits : (State.revalidate old s).latch[n].serve = .pending)
    (due : s.latch[n].serve ≠ .pending ∨ s.decisionDue = true) : (State.revalidate old s).decisionDue = true := by
  have now : (State.revalidate old s).decisionDue = (s.decisionDue || (List.finRange 51).any fun n =>
      s.latch[n].serve != .pending && (State.revalidate old s).latch[n].serve == .pending) := rfl
  rw [now]
  rcases due with not | due
  · refine (Bool.or_eq_true _ _).mpr (.inr (List.any_eq_true.mpr ⟨n, List.mem_finRange n, ?_⟩))
    rw [waits]
    simpa using not
  · rw [due]
    exact Bool.true_or _

end

/-! ### The effects (O26's second part) -/

/-- The entries that wait and were reclassed owe a decision (R154). -/
def State.reclassed (s old : State) : State := { s with decisionDue := s.decisionDue || s.pendingReclassed old }

theorem reclassed_follows (s old : State) : State.Follows [] s (s.reclassed old) where
  planning := rfl
  stamp := rfl
  posA := rfl
  latch _ _ := rfl
  overrun := id
  due owed := by
    show (s.decisionDue || s.pendingReclassed old) = true
    rw [owed]
    exact Bool.true_or _
  owed n waits not := absurd waits not

theorem PartsTaken.reclassed {old s u : State} (h : PartsTaken old s u) : PartsTaken old s (u.reclassed old) where
  unaltered := h.unaltered
  follows := List.append_nil (changeMoves old s) ▸ h.follows.trans (reclassed_follows u old)
  channels := h.channels
  kinds := h.kinds
  nodeFields := h.nodeFields

theorem reclassed_due {s old : State} {n : EntryId} (waits : s.latch[n].serve = .pending)
    (moved : s.effLevel n ≠ old.effLevel n ∨ s.effClass n ≠ old.effClass n) : (s.reclassed old).decisionDue = true := by
  refine (Bool.or_eq_true _ _).mpr (.inr (List.any_eq_true.mpr ⟨n, List.mem_finRange n, ?_⟩))
  simp only [Bool.and_eq_true, Bool.or_eq_true, beq_iff_eq, bne_iff_ne]
  exact ⟨waits, moved⟩

theorem Channel.recordChanged_eq (cfg : ChannelCfg) (C : Channel) : C.recordChanged cfg = C.after cfg := by
  unfold Channel.recordChanged Channel.after
  split
  · rfl
  · split
    · rename_i off
      simp [off]
    · rename_i on
      simp [on]

theorem kind_of_kinds {s t : State} (kinds : t.kinds = s.kinds) (k : Kind) : t.kind k = s.kind k := by
  unfold State.kind
  rw [kinds]

theorem kind_of_usedKinds {s t : State} (kinds : t.kinds = s.usedKinds) (k : Kind) :
    t.kind k = (s.kind k).usedChange (s.kindUsed k) := by
  unfold State.kind
  rw [kinds]
  cases k <;> rfl

theorem failedMove_mem (s t : State) (k : Kind) :
    ⟨srcKindFailed k, (s.kind k).status == .failed, (t.kind k).status == .failed⟩ ∈ kindMoves s.kinds t.kinds := by
  cases k <;> simp [kindMoves, State.kind]

theorem alarmMove_mem (s t : State) {k : Kind} {n : EntryId} (source : srcGasAlarm k = some n) :
    ⟨n, (s.kind k).alarm, (t.kind k).alarm⟩ ∈ kindMoves s.kinds t.kinds := by
  cases k <;> simp [srcGasAlarm] at source <;> subst source <;> simp [kindMoves, State.kind]

section
variable {old s u t : State}

theorem sourceCfg_of_planning (planning : t.planning = s.planning) (n : EntryId) : t.sourceCfg n = s.sourceCfg n := by
  have sources : t.sources = s.sources := congrArg Planning.sources planning
  have lines : t.lines = s.lines := congrArg Planning.lines planning
  unfold State.sourceCfg
  rw [sources, lines]

namespace PartsTaken

variable (h : PartsTaken old s u)
include h

theorem entry (n : EntryId) :
    (State.revalidate old u).latch[n] = u.latch[n].revalidate n (old.planValid n) (s.planValid n) := by
  rw [revalidate_latch, h.follows.planValid]

theorem entry_same (n : EntryId) : SameRecord u.latch[n] (State.revalidate old u).latch[n] := by
  rw [h.entry]
  exact LatchEntry.revalidate_same _ _ _ _

/-- The entry of a source that moves. -/
theorem entry_of_mem {m : SourceMove} (mem : m ∈ changeMoves old s) :
    SameRecord (s.latch[m.source].follows m.source s.stamp s.posA (s.planValid m.source) m.was m.is)
      (State.revalidate old u).latch[m.source] := by
  have once := changeSources_nodup
  rw [← changeMoves_sources old s] at once
  have named : m.source ∈ changeSources := changeMoves_sources old s ▸ List.mem_map_of_mem mem
  have other : m.source ≠ srcOverrun := by
    intro same
    rw [same] at named
    exact absurd named (by decide)
  have same := h.entry_same m.source
  rwa [h.follows.latch _ other, LatchEntry.trail_of_mem once mem rfl] at same

/-- An entry that follows a move, if it is not QUEUE_OVERRUN's. -/
theorem entry_follows {n : EntryId} (other : n ≠ srcOverrun) :
    ∃ was is, u.latch[n] = s.latch[n].follows n s.stamp s.posA (s.planValid n) was is := by
  rw [h.follows.latch n other]
  refine LatchEntry.trail_eq_follows ?_ _
  rw [changeMoves_sources]
  exact changeSources_nodup

theorem entry_falls {n : EntryId} {was is : Bool} (mem : ⟨n, was, is⟩ ∈ changeMoves old s) (before : was = true)
    (after : is = false) : (State.revalidate old u).latch[n].asserted = false := by
  subst before after
  exact (h.entry_of_mem mem).asserted.trans LatchEntry.follows_falls_asserted

theorem waiting {n : EntryId} (waits : s.latch[n].serve = .pending) (valid : s.planValid n = true)
    (same : (State.revalidate old u).latch[n].asserted = s.latch[n].asserted) :
    (State.revalidate old u).latch[n].serve = .pending := by
  have there : u.latch[n].serve = .pending := by
    by_cases own : n = srcOverrun
    · subst own
      exact h.follows.overrun waits
    · obtain ⟨was, is, entry⟩ := h.entry_follows own
      rw [(h.entry_same n).asserted, entry] at same
      rw [entry]
      exact LatchEntry.follows_of_pending waits same
  rw [h.entry, valid]
  exact LatchEntry.revalidate_waits _ _ _ there

theorem validated {n : EntryId} (was : old.planValid n = false) (is : s.planValid n = true) (level : isLevel n = true)
    (asserted : (State.revalidate old u).latch[n].asserted = true) (idle : s.latch[n].serve = .idle) :
    (State.revalidate old u).latch[n].serve = .pending := by
  have other : n ≠ srcOverrun := fun own => by
    rw [own, not_isLevel_srcOverrun] at level
    exact Bool.false_ne_true level
  obtain ⟨b, c, entry⟩ := h.entry_follows other
  rw [(h.entry_same n).asserted] at asserted
  rw [h.entry, was, is]
  exact LatchEntry.revalidate_found _ _ level asserted (entry ▸ LatchEntry.follows_of_idle idle)

/-- The kinds after the change (R83), their sources with them. -/
theorem kindEffects (k : Kind) :
    (s.terms = old.terms → (State.revalidate old u).kind k = s.kind k) ∧
    (s.terms ≠ old.terms →
      (State.revalidate old u).kind k = (s.kind k).after (∃ x ∈ s.termsOf k, x.weight ≠ 0) ∧
      ((s.kind k).status = .unused → ((State.revalidate old u).kind k).status = .failed →
        LatchEntry.CountedOnce (srcKindFailed k) s.stamp s.posA s.latch[srcKindFailed k]
          (State.revalidate old u).latch[srcKindFailed k]) ∧
      ((s.kind k).status = .failed → ((State.revalidate old u).kind k).status = .unused →
        (State.revalidate old u).latch[srcKindFailed k].asserted = false) ∧
      ((s.kind k).alarm = true → ((State.revalidate old u).kind k).alarm = false →
        ∀ n, srcGasAlarm k = some n → (State.revalidate old u).latch[n].asserted = false)) := by
  have kinds : (State.revalidate old u).kinds = s.kindsAfter old :=
    (kinds_of_hushed (revalidate_hushed old u)).trans h.kinds
  have failed := failedMove_mem s (State.revalidate old u) k
  rw [kinds] at failed
  have failedMove := kindMove_mem old s failed
  refine ⟨fun same => kind_of_kinds (kinds.trans (if_pos same)) k, fun other => ⟨?_, fun was is => ?_, fun was is => ?_,
    fun was is n source => ?_⟩⟩
  · classical
    rw [kind_of_usedKinds (kinds.trans (if_neg other)) k]
    exact usedChange_eq s k _
  · have entry := h.entry_of_mem failedMove
    rw [was, is] at entry
    exact (occurred_countedOnce _ _ _ _ _).trans_same entry
  · exact h.entry_falls failedMove (by rw [was]; rfl) (by rw [is]; rfl)
  · have alarm := alarmMove_mem s (State.revalidate old u) source
    rw [kinds] at alarm
    exact h.entry_falls (kindMove_mem old s alarm) was is

theorem channelEffects (c : ChannelId) :
    (State.revalidate old u).channels[c] = s.channels[c].after old.channels[c].cfg ∧
      (old.channels[c].fault = true → (State.revalidate old u).channels[c].fault = false →
        (State.revalidate old u).latch[srcLoopFault c].asserted = false) := by
  have channel : (State.revalidate old u).channels[c] = s.channels[c].recordChanged old.channels[c].cfg := by
    rw [channels_of_hushed (revalidate_hushed old u), h.channels c]
  refine ⟨channel.trans (Channel.recordChanged_eq _ _), fun was is => ?_⟩
  rw [channel] at is
  exact h.entry_falls (channelMove_mem old s c) was is

theorem lineEffects (i : Fin 16) : SameRecord
    { s.latch[srcLine i] with
      asserted := s.latch[srcLine i].asserted && decide (s.lines[i].code = old.lines[i].code) }
    (State.revalidate old u).latch[srcLine i] := by
  have falls := LatchEntry.follows_falls (n := srcLine i) (t := s.stamp) (origin := s.posA)
    (valid := s.planValid (srcLine i)) (e := s.latch[srcLine i]) (decide (s.lines[i].code ≠ old.lines[i].code))
  have code : (!decide (s.lines[i].code ≠ old.lines[i].code)) = decide (s.lines[i].code = old.lines[i].code) := by
    simp
  rw [code] at falls
  exact falls.trans (h.entry_of_mem (lineMove_mem old s i))

theorem otherEntries {n : EntryId} (other : n.val < 6 ∨ (18 ≤ n.val ∧ n.val < 35)) :
    SameRecord s.latch[n] (State.revalidate old u).latch[n] := by
  have apart : n ≠ srcOverrun := fun own => absurd (own ▸ other) (by decide)
  have away : n ∉ (changeMoves old s).map SourceMove.source := by
    rw [changeMoves_sources]
    exact not_mem_changeSources n other
  have entry : u.latch[n] = s.latch[n] := (h.follows.latch n apart).trans (LatchEntry.trail_of_not_mem away _)
  rw [← entry]
  exact h.entry_same n

theorem nodeFields_after : (State.revalidate old u).nodeFields = (s.nodeChanged old).nodeFields :=
  (nodeFields_of_hushed (revalidate_hushed old u)).trans h.nodeFields

end PartsTaken

end

theorem actuators_of_unaltered {s t : State} (h : t.unaltered = s.unaltered) :
    t.fans = s.fans ∧ t.doors = s.doors ∧ t.u = s.u :=
  ⟨(congrArg State.fans h :), (congrArg State.doors h :), (congrArg State.u h :)⟩

/-- What the NODE fields' effects leave, read where nothing later touches it (R13, R65, R66, R75, R185). -/
structure NodeEffects (old s t : State) : Prop where
  reportTimer : t.reportTimer =
    if s.node.reportPeriod = old.node.reportPeriod then s.reportTimer else some (s.now + s.node.reportPeriod * 1000000)
  controlTimer : t.controlTimer =
    if s.node.controlPeriod = old.node.controlPeriod then s.controlTimer
    else some (s.now + s.node.controlPeriod * 1000000)
  tap : ∀ i : Fin 128, t.tap[i] = s.tap[i].map (TapEntry.relock old.node.effLock s.node.effLock (wayOf i))
  dirty : t.dirty = (s.lockFollowed old).dirty
  rewritten : t.rewritten = (s.lockFollowed old).rewritten

theorem lockFollowed_timers (s old : State) :
    (s.lockFollowed old).reportTimer = s.reportTimer ∧ (s.lockFollowed old).controlTimer = s.controlTimer := by
  rw [lockFollowed_alters]
  exact ⟨rfl, rfl⟩

theorem nodeEffects {s t old : State} (h : t.nodeFields = (s.nodeChanged old).nodeFields) : NodeEffects old s t := by
  obtain ⟨report, control⟩ := lockFollowed_timers (s.nodeTimers old) old
  rw [nodeChanged_eq] at h
  have tap : t.tap = ((s.nodeTimers old).lockFollowed old).tap := congrArg NodeFields.tap h
  classical exact
    { reportTimer := (congrArg NodeFields.reportTimer h).trans report
      controlTimer := (congrArg NodeFields.controlTimer h).trans control
      tap := fun i => (congrArg (fun v : TapCache => v[i]) tap).trans (lockFollowed_tap (s.nodeTimers old) old i)
      dirty := (congrArg NodeFields.dirty h).trans <|
        (lockFollowed_dirty (s.nodeTimers old) old).trans (lockFollowed_dirty s old).symm
      rewritten := (congrArg NodeFields.rewritten h).trans <|
        (lockFollowed_rewritten (s.nodeTimers old) old).trans (lockFollowed_rewritten s old).symm }

/-- What a change owes: a decision for an entry that became PENDING, or was reclassed as it waited (R154). -/
theorem decision_of_parts {old s u : State} (parts : PartsTaken old s u) {n : EntryId}
    (waits : (State.revalidate old (u.reclassed old)).latch[n].serve = .pending)
    (due : s.latch[n].serve ≠ .pending ∨ s.effLevel n ≠ old.effLevel n ∨ s.effClass n ≠ old.effClass n) :
    (State.revalidate old (u.reclassed old)).decisionDue = true := by
  refine revalidate_owed old (u.reclassed old) waits ?_
  by_cases there : u.latch[n].serve = .pending
  · right
    rcases due with fresh | reclassed
    · exact parts.reclassed.follows.owed n there fresh
    · have cfg := sourceCfg_of_planning parts.follows.planning n
      refine reclassed_due there ?_
      unfold State.effLevel State.effClass at reclassed ⊢
      rwa [cfg]
  · exact .inl there
theorem relock_fun (l0 l1 way : Nat) : TapEntry.relock l0 l1 way = fun e =>
    if way < l1 ∧ ¬ way < l0 then { e with lockedLoad := false, loadKind := e.kind, loadValue := e.value }
    else if way < l0 ∧ ¬ way < l1 then { e with lockedLoad := false }
    else e := funext fun e => relock_eq l0 l1 way e

/-- The effects of an accepted change (R172). -/
theorem changeEffects (old s : State) : ChangeEffects old s (State.changed old s) := by
  obtain ⟨u, hu⟩ : ∃ u, u = (State.partsFollowed old s).reclassed old := ⟨_, rfl⟩
  have parts := partsFollowed_taken old s
  have taken : PartsTaken old s u := hu ▸ parts.reclassed
  have changed : State.changed old s = State.revalidate old u := by rw [hu]; exact changed_eq_partsFollowed old s
  have unaltered : (State.revalidate old u).unaltered = s.unaltered :=
    (unaltered_of_hushed (revalidate_hushed old u)).trans taken.unaltered
  have node := nodeEffects taken.nodeFields_after
  have moved := changed_raised s old
  rw [changed] at moved ⊢
  classical exact
    { still := still_of_unaltered unaltered
      actuators := actuators_of_unaltered unaltered
      channels := taken.channelEffects
      reportTimer := node.reportTimer
      controlTimer := node.controlTimer
      tap := fun i => by rw [node.tap i, relock_fun]
      dirty := node.dirty.trans ((lockFollowed_dirty s old).trans (if_congr Iff.rfl rfl rfl))
      rewritten := node.rewritten.trans ((lockFollowed_rewritten s old).trans (if_congr Iff.rfl rfl rfl))
      kinds := taken.kindEffects
      lines := taken.lineEffects
      others := fun _ => taken.otherEntries
      invalidated := fun n was is => by
        rw [moved.planValid] at is
        rw [taken.entry, was, is]
        exact LatchEntry.revalidate_lost n _
      validated := fun n was is => taken.validated was (moved.planValid n ▸ is)
      served := fun n => (moved.latch n).served.mpr
      waiting := fun n waits valid => taken.waiting waits (moved.planValid n ▸ valid)
      decision := fun n waits due => by
        rw [hu] at waits ⊢
        exact decision_of_parts parts waits due }

end Sys2Proof.Machine
end

