-- ==== Sys2Proof/Proofs/Writes.lean ====
section
/-! PROOFS. Proofs/Writes.lean: a WRITE that passes its checks (R172, R173): the stored words, their marks, and with the
effects of the change what it leaves. O26. -/

namespace Sys2Proof.Machine

/-! ### Stored words change the configuration alone -/

/-- The configuration of another state, with the fields that stored words may change beside it (R101). -/
def State.configuredAs (s c : State) : State :=
  { s with
    node := c.node, channels := c.channels, terms := c.terms, kinds := c.kinds, fans := c.fans, doors := c.doors
    sources := c.sources, lines := c.lines, plan := c.plan }

theorem putWord_configuredAs (s c : State) (T : Table) (e w : Nat) (v : Word) :
    (s.putWord T e w v).1.configuredAs c = s.configuredAs c := by
  unfold State.putWord
  cases T with
  | kind => cases kindAt e <;> rfl
  | node | status | tap | latch | stack => rfl
  | _ =>
    dsimp only
    split <;> rfl

theorem putTableWords_configuredAs (s c : State) (T : Table) (a : Nat) (vs : List Word) :
    (s.putTableWords T a vs).1.configuredAs c = s.configuredAs c := by
  induction vs generalizing s a with
  | nil => rfl
  | cons v vs ih =>
    refine (ih _ (a + 1)).trans ?_
    unfold State.putTableWord
    split
    · exact putWord_configuredAs s c T _ _ v
    · rfl

theorem putTableWords_eq (s : State) (T : Table) (a : Nat) (vs : List Word) :
    (s.putTableWords T a vs).1 = s.configuredAs (s.putTableWords T a vs).1 :=
  putTableWords_configuredAs s (s.putTableWords T a vs).1 T a vs

/-- The node with other line ports. -/
def State.withPorts (s : State) (ports : Ports) : State := { s with ports := ports }

theorem heard_eq_withPorts (s : State) (p : Port) : s.heard p = s.withPorts (s.heard p).ports := by cases p <;> rfl

theorem putWord_withPorts (s : State) (L : Ports) (T : Table) (e w : Nat) (v : Word) :
    (s.withPorts L).putWord T e w v = putBack (State.withPorts · L) (s.putWord T e w v) := by
  unfold State.putWord
  cases T with
  | kind => cases kindAt e <;> rfl
  | node | status | tap | latch | stack => rfl
  | _ =>
    dsimp only
    split <;> rfl

theorem putTableWord_withPorts (s : State) (L : Ports) (T : Table) (a : Nat) (v : Word) :
    (s.withPorts L).putTableWord T a v = putBack (State.withPorts · L) (s.putTableWord T a v) := by
  unfold State.putTableWord
  split
  · exact putWord_withPorts s L T _ _ v
  · rfl

/-- The ports play no part in what a WRITE stores. -/
theorem putTableWords_withPorts (s : State) (L : Ports) (T : Table) (a : Nat) (vs : List Word) :
    (s.withPorts L).putTableWords T a vs = putBack (State.withPorts · L) (s.putTableWords T a vs) := by
  induction vs generalizing s a with
  | nil => rfl
  | cons v vs ih =>
    unfold State.putTableWords
    dsimp only
    rw [putTableWord_withPorts]
    dsimp only [putBack]
    rw [ih]
    rfl

theorem heard_putTableWords (s : State) (p : Port) (T : Table) (a : Nat) (vs : List Word) :
    (s.heard p).putTableWords T a vs = putBack (State.withPorts · (s.heard p).ports) (s.putTableWords T a vs) :=
  (congrArg (State.putTableWords · T a vs) (heard_eq_withPorts s p)).trans (putTableWords_withPorts s _ T a vs)

/-! ### The marks of stored words (R173) -/

/-- The group of the configuration word at an address. -/
def markedGroup (T : Table) (a : Nat) : Option (Fin 15) :=
  if a % T.size < T.cfgWords then groupOf T (a / T.size) else none

/-- The groups that `n` words from an address on mark. -/
def markedGroups (T : Table) (a n : Nat) : List (Fin 15) := (List.range n).filterMap fun i => markedGroup T (a + i)

theorem markWord_eq (s : State) (T : Table) (a : Nat) : s.markWord T a = s.markAll (markedGroup T a).toList := by
  unfold State.markWord markedGroup
  split
  · cases groupOf T (a / T.size) <;> rfl
  · rfl

theorem markWords_eq (s : State) (T : Table) (a n : Nat) : s.markWords T a n = s.markAll (markedGroups T a n) := by
  induction n generalizing s a with
  | zero => rfl
  | succ n ih =>
    have later : markedGroups T a (n + 1) = (markedGroup T a).toList ++ markedGroups T (a + 1) n := by
      have shift : (fun i => markedGroup T (a + i)) ∘ Nat.succ = fun i => markedGroup T (a + 1 + i) := by
        funext i
        exact congrArg (markedGroup T) (by simp only [Nat.succ_eq_add_one]; omega)
      unfold markedGroups
      rw [List.range_succ_eq_map, List.filterMap_cons, List.filterMap_map, shift, Nat.add_zero]
      cases markedGroup T a <;> rfl
    rw [later]
    unfold State.markWords
    rw [ih, markWord_eq]
    exact List.foldl_append.symm

/-- A group is marked when a configuration word of it is among those covered. -/
theorem decide_mem_markedGroups (T : Table) (a n : Nat) (g : Fin 15) :
    decide (g ∈ markedGroups T a n) =
      (List.range n).any fun i =>
        decide ((a + i) % T.size < T.cfgWords) && decide (groupOf T ((a + i) / T.size) = some g) := by
  rw [Bool.eq_iff_iff, decide_eq_true_iff]
  simp [markedGroups, markedGroup]

/-! ### A stored word of a fan record (R101) -/

section
variable (F : Fan) {w : Nat} (v : Word)

theorem putCfg_other (other : w < 4 ∨ 6 < w) : (F.putCfg w v).1 = { F with cfg := (F.putCfg w v).1.cfg } := by
  rw [Fan.cfg_putCfg]
  exact if_neg (by omega)

theorem putCfg_dutyField (first : 4 ≤ w) (last : w ≤ 6) :
    (F.putCfg w v).1 =
      { F with
        cfg := (F.putCfg w v).1.cfg, pendingTp := (F.putCfg w v).1.cfg.tp
        pendingDuty := if F.runDir = none then F.pendingDuty else (F.putCfg w v).1.cfg.dutyOf F.request.mag } := by
  have formed : (F.putCfg w v).1 = Fan.dutyFieldsWritten { F with cfg := (F.cfg.put w v).1 } := if_pos ⟨first, last⟩
  have off : ({ F with cfg := (F.cfg.put w v).1 } : Fan).runDir = F.runDir := rfl
  rw [Fan.cfg_putCfg, formed]
  unfold Fan.dutyFieldsWritten
  rw [off]
  cases F.runDir <;> rfl

end

theorem putWord_fan (s : State) (f : FanId) (w : Nat) (v : Word) :
    (s.putWord .fan f.val w v).1.fans[f] = (s.fans[f].putCfg w v).1 := by
  have stored : s.putWord .fan f.val w v = putBack (fun F : Fan => s.setFan f F) (s.fans[f].putCfg w v) := dif_pos f.isLt
  rw [stored]
  exact fans_setFan_self s f _

/-! ### What a WRITE leaves -/

/-- All that a WRITE and its effects may change, beside what consequences may, taken from another state. -/
def State.fill (s c : State) : State :=
  { s with
    node := c.node, channels := c.channels, terms := c.terms, kinds := c.kinds, sources := c.sources, lines := c.lines
    plan := c.plan, tap := c.tap, dirty := c.dirty, rewritten := c.rewritten, reportTimer := c.reportTimer
    controlTimer := c.controlTimer }

/-- What consequences leave alone of a state, with all that taken from another. -/
def State.filled (s c : State) : State := s.still.fill c

theorem filled_self (s : State) : s.filled s = s.still := rfl

theorem filled_of_still {s t : State} (c : State) (h : t.still = s.still) : t.filled c = s.filled c :=
  congrArg (State.fill · c) h

theorem ChangeEffects.filled {old s t : State} (h : ChangeEffects old s t) (c : State) : t.filled c = s.filled c :=
  (congrArg (State.fill · c) h.still :)

theorem dirty_of_still {s t : State} (h : t.still = s.still) : t.dirty = s.dirty := (congrArg State.dirty h :)

/-- The state with the words of a WRITE stored and marked, before the effects of the change. -/
def State.stored (s : State) (T : Table) (a : Nat) (ws : List Word) : State :=
  (s.putTableWords T a ws).1.markWords T a ws.length

section
variable (s : State) (T : Table) (a : Nat) (ws : List Word)

theorem writeTable_eq :
    s.writeTable T a ws = (State.changed s (s.stored T a ws), (s.putTableWords T a ws).2) := rfl

theorem stored_eq : s.stored T a ws = (s.putTableWords T a ws).1.markAll (markedGroups T a ws.length) :=
  markWords_eq _ T a _

theorem configuredAs_filled (d c : State) : (s.configuredAs d).filled c = s.filled c := rfl

theorem markAll_filled (gs : List (Fin 15)) (c : State) : (s.markAll gs).filled c = s.filled c := by
  rw [markAll_eq]
  rfl

theorem stored_filled (c : State) : (s.stored T a ws).filled c = s.filled c := by
  rw [stored_eq, markAll_filled, putTableWords_eq, configuredAs_filled]

theorem putTableWords_dirty : (s.putTableWords T a ws).1.dirty = s.dirty := by rw [putTableWords_eq]; rfl

theorem putTableWords_rewritten : (s.putTableWords T a ws).1.rewritten = s.rewritten := by rw [putTableWords_eq]; rfl

theorem putTableWords_storing : (s.putTableWords T a ws).1.storing = s.storing := by rw [putTableWords_eq]; rfl

/-- The marks of the words covered, and of no others. -/
theorem stored_dirty (g : Fin 15) :
    (s.stored T a ws).dirty[g] = (s.dirty[g] || (List.range ws.length).any fun i =>
      decide ((a + i) % T.size < T.cfgWords) && decide (groupOf T ((a + i) / T.size) = some g)) := by
  rw [stored_eq, markAll_dirty, putTableWords_dirty, decide_mem_markedGroups]

theorem stored_rewritten (g : Fin 15) :
    (s.stored T a ws).rewritten[g] = (s.rewritten[g] || (decide (s.storing.inHand = some g) &&
      (List.range ws.length).any fun i =>
        decide ((a + i) % T.size < T.cfgWords) && decide (groupOf T ((a + i) / T.size) = some g))) := by
  rw [stored_eq, markAll_rewritten, putTableWords_rewritten, putTableWords_storing, decide_mem_markedGroups]

theorem stored_records : (s.stored T a ws).records = (s.putTableWords T a ws).1.records := records_markWords _ T a _

theorem heard_stored_records (p : Port) : ((s.heard p).stored T a ws).records = (s.putTableWords T a ws).1.records := by
  rw [stored_records, heard_putTableWords]
  rfl

end

/-- The effects of a change mark no group but TAPLOCK's, and take no mark away. -/
theorem ChangeEffects.dirty_other {old s t : State} (h : ChangeEffects old s t) {g : Fin 15} (other : g ≠ groupTaplock) :
    t.dirty[g] = s.dirty[g] := by
  rw [h.dirty]
  split
  · rw [getElem_set_true, decide_eq_false other, Bool.or_false]
  · rfl

theorem ChangeEffects.dirty_kept {old s t : State} (h : ChangeEffects old s t) {g : Fin 15} (marked : s.dirty[g] = true) :
    t.dirty[g] = true := by
  rw [h.dirty]
  split
  · rw [getElem_set_true, marked, Bool.true_or]
  · exact marked

theorem okClamped_status (clamped : Bool) : okClamped clamped = { status := if clamped then 1 else 0 } := by
  cases clamped <;> rfl

section
variable {p : Port} {r : Request} {s : State} {T : Table}

/-- A WRITE that passes its checks runs as a write of the table. -/
theorem runWrite_accepted (named : Table.ofNumber r.table.toNat = some T) (writable : T.readOnly = false)
    (count : r.count.toNat = r.data.length) (words : r.data ≠ [])
    (inside : r.index.toNat + r.data.length ≤ T.length)
    (free : ¬ (T = .plan ∧ s.coversCurrent r.index.toNat r.data.length = true)) :
    s.runWrite r =
      (State.changed s (s.stored T r.index.toNat r.data), okClamped (s.putTableWords T r.index.toNat r.data).2) := by
  have some_word : 0 < r.data.length := List.length_pos_iff.mpr words
  rw [runWrite_named named, if_neg (by rw [writable]; exact Bool.false_ne_true), if_neg (by omega), if_neg free,
    writeTable_eq]

theorem exec_write_accepted (serves : s.Serves p r)
    (accepted : (s.heard p).runWrite r =
      (State.changed (s.heard p) ((s.heard p).stored T r.index.toNat r.data),
        okClamped ((s.heard p).putTableWords T r.index.toNat r.data).2)) :
    exec (.write p r) s = .next
      ((State.changed (s.heard p) ((s.heard p).stored T r.index.toNat r.data)).settle.reply p 2 r
        { status := if (s.putTableWords T r.index.toNat r.data).2 then 1 else 0 }) := by
  have clamped : ((s.heard p).putTableWords T r.index.toNat r.data).2 = (s.putTableWords T r.index.toNat r.data).2 :=
    (congrArg Prod.snd (heard_putTableWords s p T r.index.toNat r.data) :)
  show Host.Outcome.next (s.request p 2 r false (State.runWrite r)) = _
  rw [request_serves serves, accepted, clamped, okClamped_status]

theorem ofNumber_plan {n : Nat} (named : Table.ofNumber n = some .plan) : n = 8 := by
  unfold Table.ofNumber at named
  split at named <;> cases named
  rfl

end

/-- Settles O26: the executed WRITE from its stored words, its marks and `changeEffects`; the effects of every change; and
the fan record's words (R101). -/
theorem writesStoreTheirWords : Obligations.WritesStoreTheirWords := by
  refine ⟨fun p r s T len serves named length writable count words inside free => ?_, changeEffects,
    fun s f w v F hF => ?_⟩
  · obtain rfl : T.length = len := by
      rw [tableLengths_getElem?, named] at length
      exact Option.some.inj length
    have uncovered : ¬ (T = .plan ∧ (s.heard p).coversCurrent r.index.toNat r.data.length = true) := by
      rintro ⟨rfl, covered⟩
      rw [coversCurrent_iff (List.length_pos_iff.mpr words), heard_stack] at covered
      obtain ⟨c, mem, w, first, last, step⟩ := covered
      exact free (BitVec.eq_of_toNat_eq (ofNumber_plan named)) c mem w first last step
    have executed := exec_write_accepted serves (runWrite_accepted named writable count words inside uncovered)
    obtain ⟨v, hv⟩ : ∃ v, v = (s.heard p).stored T r.index.toNat r.data := ⟨_, rfl⟩
    rw [← hv] at executed
    obtain ⟨t, ht⟩ : ∃ t, t = (State.changed (s.heard p) v).settle.reply p 2 r
        { status := if (s.putTableWords T r.index.toNat r.data).2 then 1 else 0 } := ⟨_, rfl⟩
    rw [← ht] at executed
    have effects := changeEffects (s.heard p) v
    have settled : t.still = (State.changed (s.heard p) v).still := by rw [ht, settle_reply_still]
    have dirty : t.dirty = (State.changed (s.heard p) v).dirty := dirty_of_still settled
    have marks := stored_dirty (s.heard p) T r.index.toNat r.data
    have rewritten := stored_rewritten (s.heard p) T r.index.toNat r.data
    rw [← hv, heard_dirty] at marks
    rw [← hv, heard_rewritten, heard_storing] at rewritten
    refine ⟨t, (State.changed (s.heard p) v).settle, v, executed, (records_eq_iff _ _).mp ?_, fun g other => ?_,
      fun marked => ?_, ?_, hv, rfl, rewritten, ht⟩
    · rw [ht, records_reply, records_settle, records_changed, hv, heard_stored_records]
    · rw [dirty, effects.dirty_other other, marks]
    · rw [dirty]
      refine effects.dirty_kept ?_
      rw [marks, marked, Bool.true_or]
    · calc t.still = t.filled t := (filled_self t).symm
        _ = (State.changed (s.heard p) v).filled t := filled_of_still t settled
        _ = v.filled t := effects.filled t
        _ = (s.heard p).filled t := by rw [hv, stored_filled]
  · subst hF
    rw [putWord_fan]
    exact ⟨putCfg_other _ v, putCfg_dutyField _ v⟩

end Sys2Proof.Machine
end
